-- ==== Sys2Proof/Word.lean ====
section
/-! DEFINITION. The units of the RC 4000 store (spec/20_memory.md R60, spec/00_scope.md R9, R12).

Bits are numbered by the manual from the left, starting at 0; `BitVec.getMsbD v i` is bit `i` in that numbering. -/

namespace Sys2Proof

/-- A 24-bit word, also an address and a working register (R9). -/
abbrev Word := BitVec 24

/-- A 12-bit byte, the addressable unit of the store (R60). -/
abbrev Byte := BitVec 12

/-- A 48-bit double word or double register (R24, R43). -/
abbrev DoubleWord := BitVec 48

/-- A 3-bit protection key (R39, R66). -/
abbrev Key := BitVec 3

end Sys2Proof
end

