-- ==== Sys2Proof/Syntax.lean ====
section
/-! DEFINITION. The syntax of the RC 4000's instructions (spec/30_encoding.md R90 to R101): one format, one constructor for
each of the 64 operation codes of spec/opcode_table.json. -/

namespace Sys2Proof

/-- The W field (R93): the working register an instruction names as its result register. -/
inductive WReg where
  | w0
  | w1
  | w2
  | w3
  deriving DecidableEq, Repr

/-- The X field (R94): the index register; `direct` (field 0) means no indexing. -/
inductive XReg where
  | direct
  | x1
  | x2
  | x3
  deriving DecidableEq, Repr

/-- The operand fields that every instruction has (R90): W, the two bits of M, X and D. -/
structure Fields where
  /-- W field, bits 6:7. -/
  w : WReg
  /-- Bit 8, the left bit of M: relative addressing (R96). -/
  relative : Bool
  /-- Bit 9, the right bit of M: indirect addressing (R96). -/
  indirect : Bool
  /-- X field, bits 10:11. -/
  x : XReg
  /-- D field, bits 12:23: the signed displacement (R95). -/
  d : Byte
  deriving DecidableEq, Repr

/-- The instructions, in the order of their operation codes (R98, R100). -/
inductive Instr where
  /-- AW, operation code 0: Autoload Word (privileged) (49_monitor_control.md R274). -/
  | aw (f : Fields)
  /-- IO, operation code 1: Input/Output (privileged) (49_monitor_control.md R273). -/
  | io (f : Fields)
  /-- BL, operation code 2: Load Integer Byte (43_integer_byte.md R167). -/
  | bl (f : Fields)
  /-- HL, operation code 3: Load Half Register (42_register_transfer.md R151). -/
  | hl (f : Fields)
  /-- LA, operation code 4: Logical And (46_logical.md R221). -/
  | la (f : Fields)
  /-- LO, operation code 5: Logical Or (46_logical.md R222). -/
  | lo (f : Fields)
  /-- LX, operation code 6: Logical Exclusive Or (46_logical.md R223). -/
  | lx (f : Fields)
  /-- WA, operation code 7: Add Integer Word (44_integer_word_double.md R176). -/
  | wa (f : Fields)
  /-- WS, operation code 8: Subtract Integer Word (44_integer_word_double.md R177). -/
  | ws (f : Fields)
  /-- AM, operation code 9: Modify Next Address (41_address_handling.md R141). -/
  | am (f : Fields)
  /-- WM, operation code 10: Multiply Integer Word (44_integer_word_double.md R178). -/
  | wm (f : Fields)
  /-- AL, operation code 11: Load Address (41_address_handling.md R142). -/
  | al (f : Fields)
  /-- ML, operation code 12: Load Mask Register (privileged) (49_monitor_control.md R265). -/
  | ml (f : Fields)
  /-- JL, operation code 13: Jump with Register Link (48_sequencing.md R246). -/
  | jl (f : Fields)
  /-- JD, operation code 14: Jump with Interrupt Disabled (privileged) (49_monitor_control.md R262). -/
  | jd (f : Fields)
  /-- JE, operation code 15: Jump with Interrupt Enabled (privileged) (49_monitor_control.md R261). -/
  | je (f : Fields)
  /-- XL, operation code 16: Load Exception Register (49_monitor_control.md R267). -/
  | xl (f : Fields)
  /-- BS, operation code 17: Subtract Integer Byte (43_integer_byte.md R169). -/
  | bs (f : Fields)
  /-- BA, operation code 18: Add Integer Byte (43_integer_byte.md R168). -/
  | ba (f : Fields)
  /-- BZ, operation code 19: Load Byte with Zeroes (43_integer_byte.md R166). -/
  | bz (f : Fields)
  /-- RL, operation code 20: Load Register (42_register_transfer.md R153). -/
  | rl (f : Fields)
  /-- SP, operation code 21: Skip if No Protection (48_sequencing.md R254). -/
  | sp (f : Fields)
  /-- KL, operation code 22: Load Protection Key (49_monitor_control.md R271). -/
  | kl (f : Fields)
  /-- RS, operation code 23: Store Register (42_register_transfer.md R154). -/
  | rs (f : Fields)
  /-- WD, operation code 24: Divide Integer Word (44_integer_word_double.md R179). -/
  | wd (f : Fields)
  /-- RX, operation code 25: Exchange Register and Store (42_register_transfer.md R155). -/
  | rx (f : Fields)
  /-- HS, operation code 26: Store Half Register (42_register_transfer.md R152). -/
  | hs (f : Fields)
  /-- XS, operation code 27: Store Exception Register (49_monitor_control.md R268). -/
  | xs (f : Fields)
  /-- PL, operation code 28: Load Protection Register (privileged) (49_monitor_control.md R269). -/
  | pl (f : Fields)
  /-- PS, operation code 29: Store Protection Register (49_monitor_control.md R270). -/
  | ps (f : Fields)
  /-- MS, operation code 30: Store Mask Register (49_monitor_control.md R266). -/
  | ms (f : Fields)
  /-- IS, operation code 31: Store Interrupt Register (49_monitor_control.md R264). -/
  | is (f : Fields)
  /-- CI, operation code 32: Convert Integer to Floating (45_conversion_floating.md R200). -/
  | ci (f : Fields)
  /-- AC, operation code 33: Load Address Complemented (41_address_handling.md R143). -/
  | ac (f : Fields)
  /-- NS, operation code 34: Normalize Single (47_shift.md R235). -/
  | ns (f : Fields)
  /-- ND, operation code 35: Normalize Double (47_shift.md R236). -/
  | nd (f : Fields)
  /-- AS, operation code 36: Shift Single Arithmetically (47_shift.md R231). -/
  | as (f : Fields)
  /-- AD, operation code 37: Shift Double Arithmetically (47_shift.md R232). -/
  | ad (f : Fields)
  /-- LS, operation code 38: Shift Single Logically (47_shift.md R233). -/
  | ls (f : Fields)
  /-- LD, operation code 39: Shift Double Logically (47_shift.md R234). -/
  | ld (f : Fields)
  /-- SH, operation code 40: Skip if Register High (48_sequencing.md R247). -/
  | sh (f : Fields)
  /-- SL, operation code 41: Skip if Register Low (48_sequencing.md R248). -/
  | sl (f : Fields)
  /-- SE, operation code 42: Skip if Register Equal (48_sequencing.md R249). -/
  | se (f : Fields)
  /-- SN, operation code 43: Skip if Register Not Equal (48_sequencing.md R250). -/
  | sn (f : Fields)
  /-- SO, operation code 44: Skip if Register Bits One (48_sequencing.md R251). -/
  | so (f : Fields)
  /-- SZ, operation code 45: Skip if Register Bits Zero (48_sequencing.md R252). -/
  | sz (f : Fields)
  /-- SX, operation code 46: Skip if No Exceptions (48_sequencing.md R253). -/
  | sx (f : Fields)
  /-- IC, operation code 47: Clear Interrupt Bits (privileged) (49_monitor_control.md R263). -/
  | ic (f : Fields)
  /-- FA, operation code 48: Add Floating (45_conversion_floating.md R202). -/
  | fa (f : Fields)
  /-- FS, operation code 49: Subtract Floating (45_conversion_floating.md R203). -/
  | fs (f : Fields)
  /-- FM, operation code 50: Multiply Floating (45_conversion_floating.md R204). -/
  | fm (f : Fields)
  /-- KS, operation code 51: Store Protection Key (privileged) (49_monitor_control.md R272). -/
  | ks (f : Fields)
  /-- FD, operation code 52: Divide Floating (45_conversion_floating.md R205). -/
  | fd (f : Fields)
  /-- CF, operation code 53: Convert Floating to Integer (45_conversion_floating.md R201). -/
  | cf (f : Fields)
  /-- DL, operation code 54: Load Double Register (42_register_transfer.md R156). -/
  | dl (f : Fields)
  /-- DS, operation code 55: Store Double Register (42_register_transfer.md R157). -/
  | ds (f : Fields)
  /-- AA, operation code 56: Add Integer Double Word (44_integer_word_double.md R182). -/
  | aa (f : Fields)
  /-- SS, operation code 57: Subtract Integer Double Word (44_integer_word_double.md R183). -/
  | ss (f : Fields)
  /-- UNASSIGNED_58, operation code 58: unassigned operation code 58: instruction exception (30_encoding.md R100). -/
  | unassigned58 (f : Fields)
  /-- UNASSIGNED_59, operation code 59: unassigned operation code 59: instruction exception (30_encoding.md R100). -/
  | unassigned59 (f : Fields)
  /-- UNASSIGNED_60, operation code 60: unassigned operation code 60: instruction exception (30_encoding.md R100). -/
  | unassigned60 (f : Fields)
  /-- UNASSIGNED_61, operation code 61: unassigned operation code 61: instruction exception (30_encoding.md R100). -/
  | unassigned61 (f : Fields)
  /-- UNASSIGNED_62, operation code 62: unassigned operation code 62: instruction exception (30_encoding.md R100). -/
  | unassigned62 (f : Fields)
  /-- UNASSIGNED_63, operation code 63: unassigned operation code 63: instruction exception (30_encoding.md R100). -/
  | unassigned63 (f : Fields)
  deriving DecidableEq, Repr

end Sys2Proof
end

