-- ==== Sys2Proof/Decode.lean ====
section
/-! DEFINITION. From the bits of a word to an instruction and back (spec/30_encoding.md R90 to R101). The decoder is total:
every 24-bit word is some instruction (R101), the six unassigned codes being instructions of their own (R100); only a list
of bytes too short to hold a word is rejected, by name. -/

namespace Sys2Proof

/-! ## Fields -/

/-- The F field, bits 0:5, as a number (R91, R92). -/
def fieldF (i : Word) : Nat := i.toNat / 2 ^ 18

/-- The W field, bits 6:7 (R91, R93). -/
def fieldW (i : Word) : WReg :=
  match i.toNat / 2 ^ 16 % 4 with
  | 0 => .w0
  | 1 => .w1
  | 2 => .w2
  | _ => .w3

/-- The X field, bits 10:11 (R91, R94). -/
def fieldX (i : Word) : XReg :=
  match i.toNat / 2 ^ 12 % 4 with
  | 0 => .direct
  | 1 => .x1
  | 2 => .x2
  | _ => .x3

/-- The W, M, X and D fields of an instruction word (R90, R91). -/
def fieldsOf (i : Word) : Fields :=
  { w := fieldW i
    relative := i.getMsbD 8
    indirect := i.getMsbD 9
    x := fieldX i
    d := i.setWidth 12 }

/-! ## Decoding -/

/-- The instruction with operation code `op` and operand fields `f` (R98, R100). -/
def ofOpcode (op : Nat) (f : Fields) : Instr :=
  match op with
  | 0 => .aw f
  | 1 => .io f
  | 2 => .bl f
  | 3 => .hl f
  | 4 => .la f
  | 5 => .lo f
  | 6 => .lx f
  | 7 => .wa f
  | 8 => .ws f
  | 9 => .am f
  | 10 => .wm f
  | 11 => .al f
  | 12 => .ml f
  | 13 => .jl f
  | 14 => .jd f
  | 15 => .je f
  | 16 => .xl f
  | 17 => .bs f
  | 18 => .ba f
  | 19 => .bz f
  | 20 => .rl f
  | 21 => .sp f
  | 22 => .kl f
  | 23 => .rs f
  | 24 => .wd f
  | 25 => .rx f
  | 26 => .hs f
  | 27 => .xs f
  | 28 => .pl f
  | 29 => .ps f
  | 30 => .ms f
  | 31 => .is f
  | 32 => .ci f
  | 33 => .ac f
  | 34 => .ns f
  | 35 => .nd f
  | 36 => .as f
  | 37 => .ad f
  | 38 => .ls f
  | 39 => .ld f
  | 40 => .sh f
  | 41 => .sl f
  | 42 => .se f
  | 43 => .sn f
  | 44 => .so f
  | 45 => .sz f
  | 46 => .sx f
  | 47 => .ic f
  | 48 => .fa f
  | 49 => .fs f
  | 50 => .fm f
  | 51 => .ks f
  | 52 => .fd f
  | 53 => .cf f
  | 54 => .dl f
  | 55 => .ds f
  | 56 => .aa f
  | 57 => .ss f
  | 58 => .unassigned58 f
  | 59 => .unassigned59 f
  | 60 => .unassigned60 f
  | 61 => .unassigned61 f
  | 62 => .unassigned62 f
  | _ => .unassigned63 f

/-- The instruction a 24-bit word is. -/
def decode (i : Word) : Instr := ofOpcode (fieldF i) (fieldsOf i)

/-- Why a list of bytes is no instruction. -/
inductive DecodeError where
  /-- Fewer than the two 12-bit bytes of an instruction word. -/
  | tooShort
  deriving DecidableEq, Repr

/-- The instruction at the head of a list of 12-bit store bytes, lowest address first, and what follows it: the operation
byte stands at the even address, the displacement at the next (R91). -/
def decodeBytes : List Byte → Except DecodeError (Instr × List Byte)
  | operation :: displacement :: rest => .ok (decode (operation ++ displacement), rest)
  | _ => .error .tooShort

/-! ## Encoding -/

/-- The code of a W field. -/
def WReg.code : WReg → Nat
  | .w0 => 0
  | .w1 => 1
  | .w2 => 2
  | .w3 => 3

/-- The code of an X field. -/
def XReg.code : XReg → Nat
  | .direct => 0
  | .x1 => 1
  | .x2 => 2
  | .x3 => 3

/-- An instruction's operation code, from the table of R98. -/
def Instr.opcode : Instr → Nat
  | .aw _ => 0
  | .io _ => 1
  | .bl _ => 2
  | .hl _ => 3
  | .la _ => 4
  | .lo _ => 5
  | .lx _ => 6
  | .wa _ => 7
  | .ws _ => 8
  | .am _ => 9
  | .wm _ => 10
  | .al _ => 11
  | .ml _ => 12
  | .jl _ => 13
  | .jd _ => 14
  | .je _ => 15
  | .xl _ => 16
  | .bs _ => 17
  | .ba _ => 18
  | .bz _ => 19
  | .rl _ => 20
  | .sp _ => 21
  | .kl _ => 22
  | .rs _ => 23
  | .wd _ => 24
  | .rx _ => 25
  | .hs _ => 26
  | .xs _ => 27
  | .pl _ => 28
  | .ps _ => 29
  | .ms _ => 30
  | .is _ => 31
  | .ci _ => 32
  | .ac _ => 33
  | .ns _ => 34
  | .nd _ => 35
  | .as _ => 36
  | .ad _ => 37
  | .ls _ => 38
  | .ld _ => 39
  | .sh _ => 40
  | .sl _ => 41
  | .se _ => 42
  | .sn _ => 43
  | .so _ => 44
  | .sz _ => 45
  | .sx _ => 46
  | .ic _ => 47
  | .fa _ => 48
  | .fs _ => 49
  | .fm _ => 50
  | .ks _ => 51
  | .fd _ => 52
  | .cf _ => 53
  | .dl _ => 54
  | .ds _ => 55
  | .aa _ => 56
  | .ss _ => 57
  | .unassigned58 _ => 58
  | .unassigned59 _ => 59
  | .unassigned60 _ => 60
  | .unassigned61 _ => 61
  | .unassigned62 _ => 62
  | .unassigned63 _ => 63

/-- An instruction's operand fields. -/
def Instr.fields : Instr → Fields
  | .aw f => f
  | .io f => f
  | .bl f => f
  | .hl f => f
  | .la f => f
  | .lo f => f
  | .lx f => f
  | .wa f => f
  | .ws f => f
  | .am f => f
  | .wm f => f
  | .al f => f
  | .ml f => f
  | .jl f => f
  | .jd f => f
  | .je f => f
  | .xl f => f
  | .bs f => f
  | .ba f => f
  | .bz f => f
  | .rl f => f
  | .sp f => f
  | .kl f => f
  | .rs f => f
  | .wd f => f
  | .rx f => f
  | .hs f => f
  | .xs f => f
  | .pl f => f
  | .ps f => f
  | .ms f => f
  | .is f => f
  | .ci f => f
  | .ac f => f
  | .ns f => f
  | .nd f => f
  | .as f => f
  | .ad f => f
  | .ls f => f
  | .ld f => f
  | .sh f => f
  | .sl f => f
  | .se f => f
  | .sn f => f
  | .so f => f
  | .sz f => f
  | .sx f => f
  | .ic f => f
  | .fa f => f
  | .fs f => f
  | .fm f => f
  | .ks f => f
  | .fd f => f
  | .cf f => f
  | .dl f => f
  | .ds f => f
  | .aa f => f
  | .ss f => f
  | .unassigned58 f => f
  | .unassigned59 f => f
  | .unassigned60 f => f
  | .unassigned61 f => f
  | .unassigned62 f => f
  | .unassigned63 f => f

/-- The word of an operation code and operand fields: `F * 2**18 + W * 2**16 + M * 2**14 + X * 2**12 + (D mod 4096)`
(R91). -/
def encodeFields (op : Nat) (f : Fields) : Word :=
  BitVec.ofNat 24 (op * 2 ^ 18 + f.w.code * 2 ^ 16 + (2 * f.relative.toNat + f.indirect.toNat) * 2 ^ 14
    + f.x.code * 2 ^ 12 + f.d.toNat)

/-- The word of an instruction (R91). -/
def encode (i : Instr) : Word := encodeFields i.opcode i.fields

/-! ## The opcode table's numbering -/

/-- The bytes in which the store holds a word: the left (more significant) half at the even address (R62, R91). -/
def wordBytes (i : Word) : List Byte := [i.extractLsb' 12 12, i.setWidth 12]

/-- The instruction the decoder reads from an instruction whose bits are `w` in the numbering of spec/opcode_table.json
(bit 0 the least significant bit of the one word), `nbits` of them given (log 43). -/
def decodeTableWord (nbits w : Nat) : Option Instr :=
  if nbits ≤ 24 then
    match decodeBytes (wordBytes (BitVec.ofNat 24 (w % 2 ^ nbits))) with
    | .ok (i, _) => some i
    | .error _ => none
  else none

end Sys2Proof
end

