-- ==== Sys2Proof/Machine/Sparse.lean ====
section
/-! DEFINITION. Sparse tables: lists of (key, value) pairs in one canonical form, in which what is not listed reads as a
default. The store and the protection keys are both held so. -/

namespace Sys2Proof.Machine

/-- The value listed for `a`, or the default `d`. -/
def Sparse.get {α : Type} (d : α) : List (Nat × α) → Nat → α
  | [], _ => d
  | (k, x) :: r, a => if k = a then x else Sparse.get d r a

/-- The list without any entry for `a`. -/
def Sparse.erase {α : Type} : List (Nat × α) → Nat → List (Nat × α)
  | [], _ => []
  | (k, x) :: r, a => if k = a then Sparse.erase r a else (k, x) :: Sparse.erase r a

/-- The list with an entry for `a` put before the first higher key. -/
def Sparse.insert {α : Type} : List (Nat × α) → Nat → α → List (Nat × α)
  | [], a, v => [(a, v)]
  | (k, x) :: r, a, v => if a < k then (a, v) :: (k, x) :: r else (k, x) :: Sparse.insert r a v

/-- The list in which `a` holds `v`: an entry equal to the default is left out. -/
def Sparse.set {α : Type} [DecidableEq α] (d : α) (m : List (Nat × α)) (a : Nat) (v : α) : List (Nat × α) :=
  if v = d then Sparse.erase m a else Sparse.insert (Sparse.erase m a) a v

/-- Canonical form: keys at least `low` and strictly rising, no value equal to the default. -/
def Sparse.canonicalFrom {α : Type} [DecidableEq α] (d : α) : Nat → List (Nat × α) → Bool
  | _, [] => true
  | low, (k, x) :: r => low ≤ k && x ≠ d && Sparse.canonicalFrom d (k + 1) r

end Sys2Proof.Machine
end

