-- ==== Sys2Proof/Config.lean ====
section
/-! DEFINITION. What the manual leaves to the installation (spec/00_scope.md R10, spec/92_eei_decisions.md section 2), and
the one value it leaves free. The parameters are plain data carried unchanged in the machine's state, so that a statement
about every state is a statement about every installation (log 1). -/

namespace Sys2Proof

/-- The installation parameters of R10. The connected devices themselves and the manually set timer interval change while
the machine runs and stand in State. -/
structure Config where
  /-- STORE_WORDS: how many 24-bit words the store has, the four working registers among them. -/
  storeWords : Nat
  /-- DEVICE_BITS, the manual's N: device numbers are taken modulo 2**N. -/
  deviceBits : Nat
  /-- device_limit: the largest device number with a buffer register. -/
  deviceLimit : Nat
  /-- TIMER_DEVICE: the interval timer's device number, if one is installed. It may lie above device_limit: DESIGN CHOICE
  (log 42). -/
  timerDevice : Option Nat
  /-- TIMER_IR_BIT: the interrupt register bit the timer sets, if it is wired. -/
  timerIrBit : Option Nat
  /-- WD_QMIN_OVERFLOW (R181, D7): whether WD reports overflow for a quotient of exactly -2**23 in R181's cases. -/
  wdQminOverflow : Bool
  /-- Whether FD reports overflow for a divisor that is not normalized though its first word is not zero: R291, R365 and U7
  say so, R205 divides. DESIGN CHOICE that this is a parameter (log 45). -/
  fdRejectsUnnormalized : Bool
  deriving DecidableEq, Repr

/-- The values spec/92_eei_decisions.md section 2 proposes for tests. DESIGN CHOICE, unsafe for a claim about the reset
state alone: no value is a claim about any installation (log 1). -/
def Config.proposed : Config :=
  { storeWords := 16384, deviceBits := 18, deviceLimit := 63, timerDevice := none, timerIrBit := none,
    wdQminOverflow := false, fdRejectsUnnormalized := false }

/-- FREE VALUE. The quotient register BF that FD would leave, for a dividend and a divisor (each fraction and exponent),
if its loop did not end within the fuel of R206 and D13. Nothing constrains it (log 27). -/
opaque Config.unendedQuotient : DoubleWord → DoubleWord → BitVec 36

end Sys2Proof
end

