-- ==== Sys2Proof/Machine/State.lean ====
section
/-! DEFINITION. The state of the machine: everything spec/10_state.md gives the processor, the store and its keys, the
panel and the devices (spec/60_exceptions.md), what is carried from one model step to the next (R38), and the script of
what the outside world will do. All of it is plain data. INVENTORY.md lists each field with its rule. -/

namespace Sys2Proof.Machine

/-! ## Parts of the state -/

/-- The four working registers (R22), which are also store words 0 to 3 (R23, R64): this is their one home. -/
structure Registers where
  w0 : Word
  w1 : Word
  w2 : Word
  w3 : Word
  deriving DecidableEq, Repr

/-- The store from byte address 8 up, as (byte address, 12-bit byte) pairs in canonical form: addresses strictly rising,
and no byte listed that equals what an unlisted one reads as (log 2, log 7). -/
abbrev Memory := List (Nat × Byte)

/-- The protection keys, as (word number, key) pairs in the same canonical form (R39, R66; log 4). -/
abbrev KeyStore := List (Nat × Key)

/-- Where the processor stands between two model steps (R110). -/
inductive Phase where
  /-- In the loop `After Reset`, waiting for the start or autoload key (R343). -/
  | afterReset
  /-- At `Next Instruction` (R111). -/
  | running
  /-- At `Fetch Instruction`, where an instruction exception has left it (R112, R120): no interrupt is looked at before the
  fetch (log 11). -/
  | fetching
  deriving DecidableEq, Repr

/-- The three answers of a device to selection (R310). -/
inductive Condition where
  | available
  | busy
  | disconnected
  deriving DecidableEq, Repr

/-- A peripheral device as the processor and the channels can observe it (R42, R310, R318, R322). -/
structure Device where
  /-- Its device number. -/
  number : Nat
  /-- Its condition (R310 (a)). -/
  condition : Condition
  /-- Its buffer register of up to 24 bits (R310 (b)). -/
  buffer : Word
  /-- The bits of the buffer register that exist; the others "are permanently equal to zero" (R310 (b), R313). -/
  used : Word
  /-- The command code it accepted last (R311, R312). -/
  command : BitVec 6
  /-- The interrupt register bit it is wired to, if any (R310 (c), R317). -/
  irBit : Option Nat
  /-- The local/remote switch: true for remote (R318). -/
  remote : Bool
  /-- Whether it is connected to the high-speed channel (R320). -/
  highSpeed : Bool
  /-- The store area handed to it for a block transfer: first word number and count of words (R321, R322). -/
  area : Option (Nat × Nat)
  deriving DecidableEq, Repr

/-- What the registers hold when power is back after a power failure, or when a parity error has stopped the machine: any
values at all (R334, R346, U1). -/
structure PowerOnContents where
  regs : Registers
  ic : Word
  ex : BitVec 3
  pr : BitVec 8
  ir : Word
  im : Word
  key0 : Key
  key1 : Key
  key2 : Key
  key3 : Key
  timer : BitVec 14
  deriving DecidableEq, Repr

/-- One word that the high-speed channel writes for a device (R320, R322; log 15). -/
structure ChannelWrite where
  /-- The number of the device. -/
  device : Nat
  /-- The byte address of the word. -/
  address : Word
  /-- What is written. -/
  value : Word
  deriving DecidableEq, Repr

/-- Why the machine leaves program control at once, whatever it is doing. -/
inductive Halt where
  /-- A parity error: the reset state, with these register contents (R334, R340 (e); log 28). -/
  | parity (contents : PowerOnContents)
  /-- Power has gone in a way that is not detected at the end of an instruction (R347, U8; log 30). -/
  | powerLost
  deriving DecidableEq, Repr

/-- One thing the outside world does (spec/92_eei_decisions.md section 3; log 14). -/
inductive HostEvent where
  /-- The operator presses the reset key (R335, R340). -/
  | pressReset
  /-- The operator presses the start key (R348). -/
  | pressStart
  /-- The operator presses the autoload key (R349). -/
  | pressAutoload
  /-- The operator turns the keylock switch (R344). -/
  | lockPanel (locked : Bool)
  /-- An external signal on interrupt bit `bit` (R298, D2). -/
  | signal (bit : Nat)
  /-- The interval timer counts `steps` steps of 100 usec (R326, R329). -/
  | timerSteps (steps : Nat)
  /-- The operator sets the timer interval to 2**k steps (R328). -/
  | setTimerInterval (k : Nat)
  /-- A busy device completes its operation with this buffer contents (R312, R317). -/
  | deviceCompletes (number : Nat) (buffer : Word)
  /-- A device changes its buffer register on its own (R18 (2), R330). -/
  | deviceFills (number : Nat) (buffer : Word)
  /-- Power on or reconnection of a device: it becomes busy or available (R312). -/
  | deviceConnects (number : Nat) (busy : Bool)
  /-- Power off or removal of a device (R310, R312). -/
  | deviceDisconnects (number : Nat)
  /-- The operator sets a device's local/remote switch (R318). -/
  | setRemote (number : Nat) (remote : Bool)
  /-- A high-speed device busy with a control command takes from its control word the store area it is to use (R321,
  R322). -/
  | handArea (number : Nat) (first count : Nat)
  /-- The high-speed channel writes one word for a busy device (R320, R322, R323). -/
  | channelWrites (write : ChannelWrite)
  /-- Power fails, and comes back with these register contents (R347, U1). -/
  | powerFails (contents : PowerOnContents)
  /-- A parity error, after which the registers hold these values (R334, D15). -/
  | parityError (contents : PowerOnContents)
  /-- Power fails in a way that is not detected at the end of an instruction (R347, U8). -/
  | losesPower
  deriving DecidableEq, Repr

/-- An AW that has not ended (R274): what it holds in internal registers while it waits for device 0. -/
structure Autoload where
  /-- The load address, saved in SF and BF. -/
  address : Word
  /-- AR[0:23]: the characters read so far. -/
  assembled : Word
  /-- How many characters have been read, 0 to 3. -/
  count : Nat
  /-- At `WaitInput` (true) or at `StartInput` (false). -/
  waiting : Bool
  deriving DecidableEq, Repr

/-! ## The state -/

/-- The machine. -/
structure State where
  /-- The installation (R10); no step changes it. -/
  cfg : Config
  /-- W0 to W3 (R22). -/
  regs : Registers
  /-- The instruction counter IC (R26). -/
  ic : Word
  /-- The exception register EX(21:23) (R28). -/
  ex : BitVec 3
  /-- The protection register PR(0:7) (R31). -/
  pr : BitVec 8
  /-- The interrupt register IR(0:23) (R32). -/
  ir : Word
  /-- The interrupt mask register IM(0:23) (R33). -/
  im : Word
  /-- `monitor mode` (R34). -/
  monitorMode : Bool
  /-- `interrupt disabled` (R35). -/
  interruptDisabled : Bool
  /-- Store words 4 and up (R39). -/
  store : Memory
  /-- The protection keys of all words (R39, R66). -/
  keys : KeyStore
  /-- Running, or waiting in the reset state (R110, R343). -/
  phase : Phase
  /-- The modifier AM hands to the next instruction, and the mark that nothing is interrogated before it (R38 (b)). -/
  modifier : Option Word
  /-- An AW that has not ended (R274, R366). -/
  autoload : Option Autoload
  /-- A power failure to be acted on at the end of the instruction (R347). -/
  powerFailing : Option PowerOnContents
  /-- What takes the machine out of program control, when it is looked at (R334, R347). -/
  halt : Option Halt
  /-- The CPU error lamp: a parity error has stopped the microprogram (R334, R335). The panel's other lamps are
  `State.cpuRunning` and `State.resetLamp` (log 47). -/
  cpuError : Bool
  /-- `reset key` (R40). -/
  resetKey : Bool
  /-- `start key` (R40). -/
  startKey : Bool
  /-- `autoload key` (R40). -/
  autoloadKey : Bool
  /-- The keylock switch of the operator control panel (R344). -/
  panelLocked : Bool
  /-- The peripheral devices (R42). -/
  devices : List Device
  /-- The interval timer's counter, bits 10 to 23 (R326). -/
  timer : BitVec 14
  /-- The timer interval is 2**timerInterval steps (R328). -/
  timerInterval : Nat
  /-- What the outside world will do, one batch of events for each look the processor takes (log 14). -/
  inputs : List (List HostEvent)
  /-- What the high-speed channel will write while instructions are under way, one batch for each store access of the
  processor, before which it falls (R78, R322; log 15). -/
  channel : List (List ChannelWrite)
  deriving DecidableEq, Repr

/-! ## Why a step stops -/

/-- A stop of the machine itself. -/
inductive Fault where
  /-- Raised by the step when the outside world has let power fail in a way not "detected at the end of an instruction":
  the sources do not say what happens (R347, U8). No instruction raises it. Safe: the model claims nothing about what
  follows (log 30). -/
  | powerLost
  deriving DecidableEq, Repr

/-- Something the model gives no meaning. -/
inductive Refusal where
  /-- Raised by `exec` for an instruction without a meaning. Safe. No arm of this model uses it. -/
  | notModelled (mnemonic : String)
  /-- Raised by the fetch when IC is odd, which only the technical panel could bring about (R364, U6, D16). Safe
  (log 29). -/
  | oddInstructionCounter
  deriving DecidableEq, Repr

/-- What a step or an instruction answers. -/
abbrev Result := Host.Outcome State Fault Refusal

/-! ## Reset -/

/-- Device 0 as the reset state has it. DESIGN CHOICE, unsafe: R346 says "device-specific" (log 5). -/
def Device.loader : Device :=
  { number := 0, condition := .available, buffer := 0#24, used := 0xFFFFFF#24, command := 0#6, irBit := none,
    remote := true, highSpeed := false, area := none }

/-- The machine just after `Power On` (R342), in the loop `After Reset`. Where R346 says "unspecified" the value is a
DESIGN CHOICE, unsafe (log 1 to log 6). -/
def State.reset : State :=
  { cfg := Config.proposed
    regs := { w0 := 0#24, w1 := 0#24, w2 := 0#24, w3 := 0#24 }
    ic := 0#24
    ex := 0#3
    pr := 0x80#8
    ir := 0#24
    im := 0x800000#24
    monitorMode := true
    interruptDisabled := true
    store := []
    keys := []
    phase := .afterReset
    modifier := none
    autoload := none
    powerFailing := none
    halt := none
    cpuError := false
    resetKey := false
    startKey := false
    autoloadKey := false
    panelLocked := false
    devices := [Device.loader]
    timer := 0#14
    timerInterval := 4
    inputs := []
    channel := [] }

end Sys2Proof.Machine
end

