-- ==== Sys2Proof/Machine/Ops.lean ====
section
/-! DEFINITION. The named operations over registers, store and keys (spec/00_scope.md R16, spec/20_memory.md R61 to R69),
the tests of spec/40_instruction_cycle.md R121 to R123, and taking an interruption, the instruction exception among them
(R112, R120). The machine has no return instruction (spec/60_exceptions.md R296): JE, JD and JL through word 10 return, and
they are in Machine/Monitor.lean and Machine/Sequencing.lean. -/

namespace Sys2Proof.Machine

/-! ## Halves of a word, addresses, bits of a register -/

/-- Bits 0:11 of a word (R62). -/
def leftByte (v : Word) : Byte := v.extractLsb' 12 12

/-- Bits 12:23 of a word (R62). -/
def rightByte (v : Word) : Byte := v.setWidth 12

/-- The word number `a[0:22]` of a byte address (R61). -/
def wordNumber (a : Word) : Nat := a.toNat / 2

/-- A byte address with bit 23 cleared, as every load of IC makes it (R26). -/
def evenAddress (a : Word) : Word := a &&& 0xFFFFFE#24

/-- The address of the first word of a double word named by `a` (R69; C12, D9). -/
def prevAddress (a : Word) : Word := if wordNumber a = 0 then 6#24 else a - 2#24

/-- The word with bit `b` alone set, bits numbered from the left (R12). -/
def bitMask (b : Nat) : Word := BitVec.ofNat 24 (2 ^ (23 - b))

/-! ## Working registers -/

/-- Working register `r` (R16, R22). -/
def State.reg (s : State) : WReg → Word
  | .w0 => s.regs.w0
  | .w1 => s.regs.w1
  | .w2 => s.regs.w2
  | .w3 => s.regs.w3

/-- Working register `r` assigned `v`. -/
def State.setReg (s : State) (r : WReg) (v : Word) : State :=
  match r with
  | .w0 => { s with regs := { s.regs with w0 := v } }
  | .w1 => { s with regs := { s.regs with w1 := v } }
  | .w2 => { s with regs := { s.regs with w2 := v } }
  | .w3 => { s with regs := { s.regs with w3 := v } }

/-- The preceding register of the cyclic connection, which holds the left half of a double register (R21, R24). -/
def wpre : WReg → WReg
  | .w0 => .w3
  | .w1 => .w0
  | .w2 => .w1
  | .w3 => .w2

/-- The double register `Wpre ++ W` (R24). -/
def State.pair (s : State) (r : WReg) : DoubleWord := s.reg (wpre r) ++ s.reg r

/-- The double register assigned a 48-bit value. -/
def State.setPair (s : State) (r : WReg) (v : DoubleWord) : State :=
  (s.setReg (wpre r) (v.extractLsb' 24 24)).setReg r (v.setWidth 24)

/-- The working register that a store word is (R23, R64). -/
def registerAt : Nat → Option WReg
  | 0 => some .w0
  | 1 => some .w1
  | 2 => some .w2
  | 3 => some .w3
  | _ => none

/-! ## Store and keys -/

/-- What a byte of the store that is not listed holds. DESIGN CHOICE, unsafe (log 2). -/
def unlistedByte : Byte := 0#12

/-- What a protection key that is not listed holds. DESIGN CHOICE, unsafe (log 4). -/
def unlistedKey : Key := 0#3

/-- The byte at a byte address of the store proper. -/
def Memory.byte (m : Memory) (a : Nat) : Byte := Sparse.get unlistedByte m a

/-- The store with one byte assigned. -/
def Memory.setByte (m : Memory) (a : Nat) (v : Byte) : Memory := Sparse.set unlistedByte m a v

/-- The canonical form of the store: addresses from 8 up, strictly rising, no byte equal to what is not listed. -/
def Memory.wf (m : Memory) : Bool := Sparse.canonicalFrom unlistedByte 8 m

/-- The canonical form of the keys. -/
def KeyStore.wf (m : KeyStore) : Bool := Sparse.canonicalFrom unlistedKey 0 m

/-- `MemRead(a, 2)`: the word containing byte address `a` (R63), a working register below 8 (R64). -/
def State.readWord (s : State) (a : Word) : Word :=
  match registerAt (wordNumber a) with
  | some r => s.reg r
  | none => Memory.byte s.store (2 * wordNumber a) ++ Memory.byte s.store (2 * wordNumber a + 1)

/-- `MemWrite(a, 2, v)` (R65); the key is not changed. -/
def State.writeWord (s : State) (a : Word) (v : Word) : State :=
  match registerAt (wordNumber a) with
  | some r => s.setReg r v
  | none =>
    { s with
      store := Memory.setByte (Memory.setByte s.store (2 * wordNumber a) (leftByte v)) (2 * wordNumber a + 1)
        (rightByte v) }

/-- `MemRead(a, 1)`: the left byte at an even address, the right byte at an odd one (R62). -/
def State.readByte (s : State) (a : Word) : Byte :=
  if a.getMsbD 23 then rightByte (s.readWord a) else leftByte (s.readWord a)

/-- `MemWrite(a, 1, v)`: the other half of the word is unchanged (R65). -/
def State.writeByte (s : State) (a : Word) (v : Byte) : State :=
  s.writeWord a (if a.getMsbD 23 then leftByte (s.readWord a) ++ v else v ++ rightByte (s.readWord a))

/-- `KeyRead(a)` (R66). -/
def State.readKey (s : State) (a : Word) : Key := Sparse.get unlistedKey s.keys (wordNumber a)

/-- `KeyWrite(a, k)` (R66). -/
def State.writeKey (s : State) (a : Word) (k : Key) : State :=
  { s with keys := Sparse.set unlistedKey s.keys (wordNumber a) k }

/-! ## Existence, protection, mode -/

/-- Whether byte address `a` refers to existing storage (R11, R67). -/
def State.inStore (s : State) (a : Word) : Bool := wordNumber a < s.cfg.storeWords

/-- Whether words with key `k` are protected: `PR[k] = 1` (R31). -/
def State.keyProtected (s : State) (k : Key) : Bool := s.pr.getMsbD k.toNat

/-- Whether the current program may not alter or jump to the word at `a`: task mode and `PR[key] = 1` (R123). -/
def State.denied (s : State) (a : Word) : Bool := !s.monitorMode && s.keyProtected (s.readKey a)

/-! ## The high-speed channel between store accesses -/

/-- The device with number `n`, if one is connected and numbers reach so far (R310). -/
def State.device? (s : State) (n : Nat) : Option Device :=
  if n ≤ s.cfg.deviceLimit then s.devices.find? (fun d => d.number == n) else none

/-- Whether the device is at work on a block transfer (R318, R320, R322). -/
def Device.transferring (d : Device) : Bool := d.highSpeed && d.remote && d.condition == .busy

/-- Whether word number `w` lies in an area. -/
def inArea (w : Nat) : Option (Nat × Nat) → Bool
  | some (first, count) => first ≤ w && w < first + count
  | none => false

/-- Whether the channel can make this write: within the area of a busy high-speed device, in the existing store (R322, R323;
log 35). -/
def State.channelAllows (s : State) (w : ChannelWrite) : Bool :=
  match s.device? w.device with
  | some d => d.transferring && inArea (wordNumber w.address) d.area && s.inStore w.address
  | none => false

/-- One word written by the channel, without test of a key and without changing one (R322, R323). -/
def State.channelWrite (s : State) (w : ChannelWrite) : State :=
  if s.channelAllows w then s.writeWord w.address w.value else s

/-- The channel's turn before a store access of the processor: the next batch of its script, if there is one (R78, R322;
log 15). Every word the processor reads or writes in the store is read or written after a turn of its own. -/
def State.channelTurn (s : State) : State :=
  match s.channel with
  | [] => s
  | batch :: rest => batch.foldl State.channelWrite { s with channel := rest }

/-- One store access of the processor and what the rule does with it: the channel's turn comes first. -/
def State.access (s : State) (rest : State → State) : State := rest s.channelTurn

/-! ## Interruption -/

/-- Taking the signal on bit `b` (R112, R294): the bit is cleared, word 8 receives the interrupt number, word 10 the
instruction counter, the instruction counter the address in word 12, and the machine is in monitor mode, disabled. The
three store accesses are neither address- nor protection-tested (R71), and the channel may come before each (R78). -/
def State.takeInterrupt (s : State) (b : Nat) : State :=
  let cleared := { s with ir := s.ir &&& ~~~ bitMask b }
  let numbered := cleared.channelTurn.writeWord 8#24 (BitVec.ofNat 24 (2 * b))
  let saved := (numbered.channelTurn.writeWord 10#24 s.ic).channelTurn
  { saved with ic := evenAddress (saved.readWord 12#24), monitorMode := true, interruptDisabled := true }

/-- The lowest-numbered bit that is both pending and masked in (R293). -/
def State.selectedInterrupt (s : State) : Option Nat :=
  (List.range 24).find? (fun b => (s.ir &&& s.im).getMsbD b)

/-- `Interruption Service` (R112). -/
def State.interruptionService (s : State) : State :=
  match s.selectedInterrupt with
  | some b => s.takeInterrupt b
  | none => s

/-- `Next Instruction` as far as the fetch (R111). -/
def State.nextInstruction (s : State) : State :=
  if s.interruptDisabled then s else s.interruptionService

/-- `Instruction Exception` (R120): IR[0] is set and the service entered, which always takes interrupt number 0 because
IM[0] is always 1 (DEDUCED, safe; log 12) and goes to `Fetch Instruction` (R112; log 11). A modifier still carried is lost
(R360). -/
def State.instructionException (s : State) : State :=
  { s with ir := s.ir ||| bitMask 0, modifier := none, phase := .fetching }.takeInterrupt 0

/-- `TestAddress(a)` (R121), then the rest of the instruction. -/
def State.testAddress (s : State) (a : Word) (rest : State) : State :=
  if s.inStore a then rest else s.instructionException

/-- `TestMode()` (R122), then the rest of the instruction. -/
def State.testMode (s : State) (rest : State) : State :=
  if s.monitorMode then rest else s.instructionException

/-- `TestProtection(a)` (R123), then the rest of the instruction. -/
def State.testProtection (s : State) (a : Word) (rest : State) : State :=
  if s.denied a then s.instructionException else rest

/-! ## Sequencing -/

/-- A skip of the following instruction (R245). -/
def State.skip (s : State) : State := { s with ic := s.ic + 2#24 }

/-- A skip if the condition holds. -/
def State.skipIf (s : State) (c : Bool) : State := if c then s.skip else s

/-- A jump with link: the link register unless the W field is 0, then IC with bit 23 cleared (R246). -/
def State.jumpLink (s : State) (w : WReg) (a : Word) : State :=
  let linked := match w with
    | .w0 => s
    | r => s.setReg r s.ic
  { linked with ic := evenAddress a }

/-! ## Reset -/

/-- `Power On` (R342). Nothing else is assigned; an AW or a modifier in the internal registers is abandoned. -/
def State.powerOn (s : State) : State :=
  { s with
    monitorMode := true, interruptDisabled := true, resetKey := false, startKey := false, autoloadKey := false,
    phase := .afterReset, modifier := none, autoload := none }

/-- `Reset System` (R341): IC goes to word 10 untested, then `Power On`. -/
def State.resetSystem (s : State) : State := (s.channelTurn.writeWord 10#24 s.ic).powerOn

end Sys2Proof.Machine
end

