-- ==== Sys2Proof/Machine/Flags.lean ====
section
/-! DEFINITION. The exception register and the adder's carry (spec/10_state.md R28, R29, spec/40_instruction_cycle.md R124 to
R128, spec/44_integer_word_double.md R184, spec/45_conversion_floating.md R196). EX(21:23) is a 3-bit vector: bit 21 is its left
bit. -/

namespace Sys2Proof.Machine

/-- `EX[22] <- 0; EX[23] <- 0`, with which every arithmetic instruction of R29 begins. -/
def State.clearExceptions (s : State) : State := { s with ex := s.ex &&& 0b100#3 }

/-- `EX[22]` and `EX[23]` assigned, `EX[21]` kept. -/
def State.setExceptions (s : State) (bit22 bit23 : Bool) : State :=
  { s with ex := (s.ex &&& 0b100#3) ||| (if bit22 then 0b010#3 else 0#3) ||| (if bit23 then 0b001#3 else 0#3) }

/-- Integer overflow: `EX[22] <- 1; IR[1] <- 1` (R124, R184). -/
def State.integerOverflow (s : State) : State :=
  { s with ex := s.ex ||| 0b010#3, ir := s.ir ||| bitMask 1 }

/-- Floating-point overflow or underflow: `EX[22] <- 1; IR[2] <- 1` (R195, R196). -/
def State.floatingOverflow (s : State) : State :=
  { s with ex := s.ex ||| 0b010#3, ir := s.ir ||| bitMask 2 }

/-- The 25-bit sum of two sign-extended words and a carry-in (R125). -/
def sum25 (a b : Word) (carryIn : Bool) : BitVec 25 :=
  a.signExtend 25 + b.signExtend 25 + (BitVec.ofBool carryIn).setWidth 25

/-- The carry out of the sign position of an addition (R126). -/
def addCarry (a b : Word) (carryIn : Bool) : Bool := 2 ^ 24 ≤ a.toNat + b.toNat + carryIn.toNat

/-- The 25-bit difference of two sign-extended words and a borrow-in (R127). -/
def difference25 (a b : Word) (borrowIn : Bool) : BitVec 25 :=
  a.signExtend 25 - b.signExtend 25 - (BitVec.ofBool borrowIn).setWidth 25

/-- The carry of a subtraction: there is no borrow (R127; C6, D3). -/
def subtractCarry (a b : Word) (borrowIn : Bool) : Bool := b.toNat + borrowIn.toNat ≤ a.toNat

/-- `TestInteger(AR, carry)` (R124). -/
def State.testInteger (s : State) (ar : BitVec 25) (carry : Bool) : State :=
  let tested := if ar.getMsbD 0 ≠ ar.getMsbD 1 then s.integerOverflow else s
  { tested with ex := (tested.ex &&& 0b110#3) ||| (if carry then 0b001#3 else 0#3) }

/-- `R[r] <- R[r] + b + carry-in` with `TestInteger` (R176, R182). -/
def State.addInteger (s : State) (r : WReg) (b : Word) (carryIn : Bool) : State :=
  let ar := sum25 (s.reg r) b carryIn
  (s.setReg r (ar.setWidth 24)).testInteger ar (addCarry (s.reg r) b carryIn)

/-- `R[r] <- R[r] - b - borrow-in` with `TestInteger` (R177, R183). -/
def State.subtractInteger (s : State) (r : WReg) (b : Word) (borrowIn : Bool) : State :=
  let ar := difference25 (s.reg r) b borrowIn
  (s.setReg r (ar.setWidth 24)).testInteger ar (subtractCarry (s.reg r) b borrowIn)

/-- The range test on a 13-bit exponent, `SC[11] <> SC[12]` (R195, R196). -/
def State.testExponent (s : State) (sc : BitVec 13) : State :=
  if sc.getMsbD 0 ≠ sc.getMsbD 1 then s.floatingOverflow else s

end Sys2Proof.Machine
end

