-- ==== Sys2Proof/Machine/Operands.lean ====
section
/-! DEFINITION. The operand forms: the effective address common to all instructions (spec/40_instruction_cycle.md R115,
R118, spec/30_encoding.md R96), and how the bits of an effective address are read by the instructions that use it as a
count, a scale or a device address (R97, R103, R230). -/

namespace Sys2Proof.Machine

/-- The contents of the index register, 0 without indexing (R94, R96). -/
def State.index (s : State) : XReg → Word
  | .direct => 0#24
  | .x1 => s.reg .w1
  | .x2 => s.reg .w2
  | .x3 => s.reg .w3

/-- The address of the instruction being executed: IC has been incremented past it (R27, R114). -/
def State.ownAddress (s : State) : Word := s.ic - 2#24

/-- The modifier left by a preceding AM, 0 if there is none (R118, R141). -/
def State.modifierValue (s : State) : Word := s.modifier.getD 0#24

/-- `t` of R118: modifier, sign-extended displacement, own address if relative, and index, modulo 2**24. -/
def State.indexedAddress (s : State) (f : Fields) : Word :=
  s.modifierValue + f.d.signExtend 24 + (if f.relative then s.ownAddress else 0#24) + s.index f.x

/-- The effective address `A` (R115, R118); none if an indirect address does not exist. The channel may come before the
indirect word is read (R78). -/
def State.effectiveAddress (s : State) (f : Fields) : Option Word :=
  let t := s.indexedAddress f
  if f.indirect then (if s.inStore t then some (s.channelTurn.readWord t) else none) else some t

/-- The state in which an operation is entered: the modifier has been used up (R141), and the channel has had its turn
before an indirect word. -/
def State.addressed (s : State) (f : Fields) : State :=
  { (if f.indirect then s.channelTurn else s) with modifier := none }

/-- Address modification, then the operation with its effective address; the instruction exception if the indirect
address does not exist (R115, R117 (4)). -/
def State.withAddress (s : State) (f : Fields) (operation : Word → State → State) : State :=
  match s.effectiveAddress f with
  | some a => operation a (s.addressed f)
  | none => s.instructionException

/-- The number of single-bit shifts, negative for a right shift: an effective address of magnitude 64 or more counts as
48 (R230; C10). -/
def shiftCount (a : Word) : Int :=
  if 64 ≤ a.toInt then 48 else if a.toInt ≤ -64 then -48 else a.toInt

/-- The device number in an effective address, `A[0:17] mod 2**DEVICE_BITS` (R103, R273). -/
def State.deviceNumber (s : State) (a : Word) : Nat := a.toNat / 64 % 2 ^ s.cfg.deviceBits

/-- The command code `A[18:23]` (R103). -/
def commandCode (a : Word) : BitVec 6 := a.setWidth 6

/-- Whether a command is the basic command sense, 00 (R312). -/
def isSense (c : BitVec 6) : Bool := c.setWidth 2 == 0#2

/-- Whether a command is the basic command control, 01 (R312). -/
def isControl (c : BitVec 6) : Bool := c.setWidth 2 == 1#2

/-- Whether a command moves a word to the device: write, 11, or control, 01 (R273, R312). -/
def movesWord (c : BitVec 6) : Bool := c.getMsbD 5

end Sys2Proof.Machine
end

