-- ==== Sys2Proof/Machine/AddressHandling.lean ====
section
/-! DEFINITION. Address handling: AM, AL, AC (spec/41_address_handling.md R141 to R143). -/

namespace Sys2Proof.Machine

/-- AM (R141). The existence test of the next instruction's address is made here; the modifier is carried to its decoding,
which follows without a look at the interrupt register or the reset key (R38 (b); log 9). -/
def execAm (f : Fields) (s : State) : Result :=
  .next (s.withAddress f fun a s => s.testAddress s.ic { s with modifier := some a })

/-- AL (R142). -/
def execAl (f : Fields) (s : State) : Result :=
  .next (s.withAddress f fun a s => s.setReg f.w a)

/-- AC (R143): `0 - A` with the flags of a subtraction. -/
def execAc (f : Fields) (s : State) : Result :=
  .next (s.withAddress f fun a s =>
    (s.clearExceptions.setReg f.w (0#24 - a)).testInteger (difference25 0#24 a false) (subtractCarry 0#24 a false))

end Sys2Proof.Machine
end

