-- ==== Sys2Proof/Machine/Floating.lean ====
section
/-! DEFINITION. Number conversion and floating-point arithmetic: CI, CF, FA, FS, FM, FD
(spec/45_conversion_floating.md R190 to R206).

AF(-1:37) is a 39-bit vector, SF(0:37) one of 38 bits, BF(0:35) one of 36, SC(11:23) one of 13 (spec/10_state.md R21, R37):
`AF[k]` is `getMsbD (k + 1)`, `SF[k]` and `BF[k]` are `getMsbD k`. -/

namespace Sys2Proof.Machine

/-! ## Operands and results -/

/-- `Wfrac`: the 36-bit fraction of the register operand (R190). -/
def State.registerFraction (s : State) (w : WReg) : BitVec 36 := s.reg (wpre w) ++ leftByte (s.reg w)

/-- `Wexp`: the exponent of the register operand (R190). -/
def State.registerExponent (s : State) (w : WReg) : Byte := rightByte (s.reg w)

/-- What `Fetch Floating Operands` moves to registers of its own: the register fraction, `fraction(A)` and `exponent(A)`
(R190, R194). -/
structure FloatOperands where
  register : BitVec 36
  storage : BitVec 36
  exponent : Byte
  deriving DecidableEq, Repr

/-- `Fetch Floating Operands` (R194), then the operation: the register fraction, the second word, the first word; `Wexp`
stays where it is. -/
def State.fetchOperands (s : State) (w : WReg) (a : Word) (operation : FloatOperands → State → State) : State :=
  let register := s.registerFraction w
  s.access fun s =>
    let second := s.readWord a
    s.access fun s =>
      let storage : BitVec 36 := s.readWord (prevAddress a) ++ leftByte second
      operation { register := register, storage := storage, exponent := rightByte second } s

/-- A fraction in AF: sign-extended by one bit and extended to the right with two zeroes (R194). -/
def toAf (fraction : BitVec 36) : BitVec 39 := fraction.signExtend 37 ++ 0#2

/-- A fraction in SF (R194). -/
def toSf (fraction : BitVec 36) : BitVec 38 := fraction ++ 0#2

/-- `AF[0:35]`. -/
def afFraction (af : BitVec 39) : BitVec 36 := af.extractLsb' 2 36

/-- A fraction and an exponent into the double register: `Wfrac`, `Wexp` (R21, R193). -/
def State.setFloat (s : State) (w : WReg) (fraction : BitVec 36) (exponent : Byte) : State :=
  s.setPair w (fraction ++ exponent)

/-- The low precision fraction: bits 34 and 35 equal to bit 33 (R193, R197). -/
def lowPrecision (fraction : BitVec 36) : BitVec 36 :=
  (fraction &&& 0xFFFFFFFFC#36) ||| (if fraction.getMsbD 33 then 3#36 else 0#36)

/-- `Test Precision Mode and Store` (R193). -/
def State.storeFloat (s : State) (w : WReg) (af : BitVec 39) (sc : BitVec 13) : State :=
  s.setFloat w (if s.ex.getMsbD 0 then lowPrecision (afFraction af) else afFraction af) (sc.setWidth 12)

/-! ## Normalize and Round Floating -/

/-- `while AF[0] = AF[1]`: left shifts of AF, each counting SC down (R195; D8). The fuel of 39 is never used up by a
non-zero AF with `AF[-1] = AF[0]`. -/
def normalizeLeft : Nat → BitVec 39 → BitVec 13 → BitVec 39 × BitVec 13
  | 0, af, sc => (af, sc)
  | fuel + 1, af, sc =>
    if af.getMsbD 1 = af.getMsbD 2 then normalizeLeft fuel (af <<< 1) (sc - 1#13) else (af, sc)

/-- The normalization at `Again`: one right shift, or the exponent of zero, or left shifts (R195). -/
def normalizeOnce (af : BitVec 39) (sc : BitVec 13) : BitVec 39 × BitVec 13 :=
  if af.getMsbD 0 ≠ af.getMsbD 1 then (af.sshiftRight 1, sc + 1#13)
  else if af = 0#39 then (af, BitVec.ofInt 13 (-2048))
  else normalizeLeft 39 af sc

/-- AF rounded up by one unit in bit 35, bits 36 and 37 cleared (R195). -/
def roundUp (af : BitVec 39) : BitVec 39 := (af + 4#39) &&& ~~~3#39

/-- `Normalize and Round Floating` without its exponent test (R195): the second normalization never asks for another
rounding. -/
def normalizeAndRound (af : BitVec 39) (sc : BitVec 13) : BitVec 39 × BitVec 13 :=
  let once := normalizeOnce af sc
  if once.1.getMsbD 37 then normalizeOnce (roundUp once.1) once.2 else once

/-- `NormalizeAndRound(); TestPrecisionModeAndStore()`, with which the arithmetic instructions end. -/
def State.finishFloat (s : State) (w : WReg) (af : BitVec 39) (sc : BitVec 13) : State :=
  let result := normalizeAndRound af sc
  (s.testExponent result.2).storeFloat w result.1 result.2

/-! ## Conversion -/

/-- The floating-point zero's exponent, -2048 (R191). -/
def zeroExponent : Byte := 0x800#12

/-- CI (R200): `A[11:23]` is the scale; the precision mode is not consulted. -/
def State.convertInteger (s : State) (w : WReg) (a : Word) : State :=
  let af : BitVec 39 := (s.reg w).signExtend 25 ++ 0#14
  if af = 0#39 then s.setFloat w 0#36 zeroExponent
  else
    let normal := normalizeAndRound af 23#13
    let sc := normal.2 + a.setWidth 13
    (s.testExponent sc).setFloat w (afFraction normal.1) (sc.setWidth 12)

/-- CI (R200). -/
def execCi (f : Fields) (s : State) : Result :=
  .next (s.withAddress f fun a s => s.clearExceptions.convertInteger f.w a)

/-- The number of right shifts of CF, a 24-bit signed value (R201). -/
def conversionShift (a : Word) (exponent : Byte) : Int := (23#24 - a - exponent.signExtend 24).toInt

/-- `AF[-1:23]` after CF's shifts and rounding (R201). -/
def convertedFraction (af : BitVec 39) (n : Int) : BitVec 25 :=
  let shifted := if 64 ≤ n then 0#39 else if 0 < n then af.sshiftRight n.toNat else af
  shifted.extractLsb' 14 25 + (if shifted.getMsbD 25 then 1#25 else 0#25)

/-- CF (R201): Wpre is never written, W only without overflow. -/
def State.convertFloat (s : State) (w : WReg) (a : Word) : State :=
  let af := toAf (s.registerFraction w)
  let n := conversionShift a (s.registerExponent w)
  let result := convertedFraction af n
  if n < 0 ∧ af ≠ 0#39 then s.integerOverflow
  else if result.getMsbD 0 ≠ result.getMsbD 1 then s.integerOverflow
  else s.setReg w (result.setWidth 24)

/-- CF (R201). -/
def execCf (f : Fields) (s : State) : Result :=
  .next (s.withAddress f fun a s => s.clearExceptions.convertFloat f.w a)

/-! ## Addition and subtraction -/

/-- FA (`subtract` false) and FS (`subtract` true) once the operands are fetched (R202, R203). -/
def State.addFloat (s : State) (w : WReg) (subtract : Bool) (o : FloatOperands) : State :=
  let af := toAf o.register
  let sf := toSf o.storage
  let wexp := s.registerExponent w
  let sbexp := o.exponent
  let d := wexp.toInt - sbexp.toInt
  if 38 ≤ d then s.storeFloat w af (wexp.signExtend 13)
  else if d ≤ -38 ∧ subtract = false then s.storeFloat w (sf.signExtend 39) (sbexp.signExtend 13)
  else
    let alignedAf := if d ≤ -38 then 0#39 else if d < 0 then af.sshiftRight (-d).toNat else af
    let alignedSf := if 0 < d then sf.sshiftRight d.toNat else sf
    let sum := if subtract then alignedAf - alignedSf.signExtend 39 else alignedAf + alignedSf.signExtend 39
    s.finishFloat w sum (if d < 0 then sbexp.signExtend 13 else wexp.signExtend 13)

/-- FA (R202). -/
def execFa (f : Fields) (s : State) : Result :=
  .next (s.withAddress f fun a s =>
    s.clearExceptions.testAddress a (s.clearExceptions.fetchOperands f.w a fun o s => s.addFloat f.w false o))

/-- FS (R203). -/
def execFs (f : Fields) (s : State) : Result :=
  .next (s.withAddress f fun a s =>
    s.clearExceptions.testAddress a (s.clearExceptions.fetchOperands f.w a fun o s => s.addFloat f.w true o))

/-! ## Multiplication -/

/-- The iterations of FM: add the multiplicand if the multiplier's last bit is one, then shift both right (R204). -/
def multiplySteps (sf : BitVec 38) : Nat → BitVec 39 → BitVec 36 → BitVec 39 × BitVec 36
  | 0, af, bf => (af, bf)
  | n + 1, af, bf =>
    let added := if bf.getMsbD 35 then af + sf.signExtend 39 else af
    multiplySteps sf n (added.sshiftRight 1) (bf >>> 1)

/-- The fraction product in AF: 35 iterations, then the sign digit of the multiplier (R204). -/
def multiplyFractions (multiplier : BitVec 36) (sf : BitVec 38) : BitVec 39 :=
  let steps := multiplySteps sf 35 0#39 multiplier
  if steps.2.getMsbD 35 then steps.1 - sf.signExtend 39 else steps.1

/-- FM once the operands are fetched (R204). -/
def State.multiplyFloat (s : State) (w : WReg) (o : FloatOperands) : State :=
  s.finishFloat w (multiplyFractions o.register (toSf o.storage))
    ((s.registerExponent w).signExtend 13 + o.exponent.signExtend 13)

/-- FM (R204). -/
def execFm (f : Fields) (s : State) : Result :=
  .next (s.withAddress f fun a s =>
    s.clearExceptions.testAddress a (s.clearExceptions.fetchOperands f.w a fun o s => s.multiplyFloat f.w o))

/-! ## Division -/

/-- The registers of the division loop. -/
structure Division where
  af : BitVec 39
  bf : BitVec 36
  sc : BitVec 13
  digit : Bool
  deriving DecidableEq, Repr

/-- Whether AF and SF have the same sign, the next quotient digit (R205). -/
def sameSign (af : BitVec 39) (sf : BitVec 38) : Bool := af.getMsbD 0 == sf.getMsbD 0

/-- The first step of the division: the first quotient digit and the digit to come (R205). -/
def divisionStart (af : BitVec 39) (sf : BitVec 38) (sc : BitVec 13) : Division :=
  let same := sameSign af sf
  let next := (if same then af - sf.signExtend 39 else af + sf.signExtend 39) <<< 1
  { af := next, bf := if same then 0#36 else ~~~0#36, sc := sc, digit := sameSign next sf }

/-- One cycle of the division loop (R205). -/
def divisionCycle (sf : BitVec 38) (v : Division) : Division :=
  let rest := if v.digit then v.af - sf.signExtend 39 else v.af + sf.signExtend 39
  { af := rest <<< 1
    bf := (v.bf <<< 1) ||| (if v.digit then 1#36 else 0#36)
    sc := v.sc - 1#13
    digit := sameSign rest sf }

/-- The division loop, "until the quotient is normalized"; none if the fuel is used up (R205, R206). -/
def divisionLoop (sf : BitVec 38) : Nat → Division → Option Division
  | 0, v => if v.bf.getMsbD 0 = v.bf.getMsbD 1 then none else some v
  | fuel + 1, v => if v.bf.getMsbD 0 = v.bf.getMsbD 1 then divisionLoop sf fuel (divisionCycle sf v) else some v

/-- The fuel R206 asks for. -/
def divisionFuel : Nat := 72

/-- AF after the loop: the quotient with one more digit in bit 36 (R205). -/
def quotientAf (v : Division) (sf : BitVec 38) : BitVec 39 :=
  v.bf.signExtend 37 ++ (if sameSign v.af sf then 2#2 else 0#2)

/-- FD's division of two operands whose fractions are not zero in their first word (R205). If the fuel were used up the
quotient register would be a free value (R206, U7; log 27). -/
def State.divideFractions (s : State) (w : WReg) (o : FloatOperands) : State :=
  let sf := toSf o.storage
  let sc := (s.registerExponent w).signExtend 13 - o.exponent.signExtend 13 + 36#13
  let start := divisionStart (toAf o.register) sf sc
  match divisionLoop sf divisionFuel start with
  | some v => s.finishFloat w (quotientAf v sf) v.sc
  | none =>
    s.finishFloat w
      ((Config.unendedQuotient (o.register ++ s.registerExponent w) (o.storage ++ o.exponent)).signExtend 37 ++ 0#2) sc

/-- The first word of a fraction: its leftmost 24 bits. -/
def firstWord (fraction : BitVec 36) : Word := fraction.extractLsb' 12 24

/-- Whether FD reports overflow for this divisor: its first word is zero (R205), or it is not normalized, in the
installations that report that (R291, R365, U7). DESIGN CHOICE that it is a parameter, R205 and R291 saying different things
of a divisor that is neither (log 45). -/
def divisorRejected (c : Config) (storage : BitVec 36) : Bool :=
  firstWord storage == 0#24 || (c.fdRejectsUnnormalized && storage.getMsbD 0 == storage.getMsbD 1)

/-- FD once the operands are fetched: the zero tests look at the first word of each fraction (R205). -/
def State.divideFloat (s : State) (w : WReg) (o : FloatOperands) : State :=
  if divisorRejected s.cfg o.storage then s.floatingOverflow
  else if firstWord o.register = 0#24 then s.setReg w (leftByte (s.reg w) ++ zeroExponent)
  else s.divideFractions w o

/-- FD (R205). -/
def execFd (f : Fields) (s : State) : Result :=
  .next (s.withAddress f fun a s =>
    s.clearExceptions.testAddress a (s.clearExceptions.fetchOperands f.w a fun o s => s.divideFloat f.w o))

end Sys2Proof.Machine
end

