-- ==== Sys2Proof/Machine/IntegerByte.lean ====
section
/-! DEFINITION. Integer byte arithmetic: BZ, BL, BA, BS (spec/43_integer_byte.md R165 to R169). -/

namespace Sys2Proof.Machine

/-- BZ (R166). -/
def execBz (f : Fields) (s : State) : Result :=
  .next (s.withAddress f fun a s => s.testAddress a (s.access fun s => s.setReg f.w ((s.readByte a).setWidth 24)))

/-- BL (R167). -/
def execBl (f : Fields) (s : State) : Result :=
  .next (s.withAddress f fun a s => s.testAddress a (s.access fun s => s.setReg f.w ((s.readByte a).signExtend 24)))

/-- BA (R168): EX[22:23] are cleared before the address test. -/
def execBa (f : Fields) (s : State) : Result :=
  .next (s.withAddress f fun a s =>
    s.clearExceptions.testAddress a
      (s.clearExceptions.access fun s => s.addInteger f.w ((s.readByte a).signExtend 24) false))

/-- BS (R169). -/
def execBs (f : Fields) (s : State) : Result :=
  .next (s.withAddress f fun a s =>
    s.clearExceptions.testAddress a
      (s.clearExceptions.access fun s => s.subtractInteger f.w ((s.readByte a).signExtend 24) false))

end Sys2Proof.Machine
end

