-- ==== Sys2Proof/Machine/IntegerWord.lean ====
section
/-! DEFINITION. Integer word and double-word arithmetic: WA, WS, WM, WD, AA, SS (spec/44_integer_word_double.md R175 to
R185). -/

namespace Sys2Proof.Machine

/-- WA (R176). -/
def execWa (f : Fields) (s : State) : Result :=
  .next (s.withAddress f fun a s =>
    s.clearExceptions.testAddress a (s.clearExceptions.access fun s => s.addInteger f.w (s.readWord a) false))

/-- WS (R177). -/
def execWs (f : Fields) (s : State) : Result :=
  .next (s.withAddress f fun a s =>
    s.clearExceptions.testAddress a
      (s.clearExceptions.access fun s => s.subtractInteger f.w (s.readWord a) false))

/-- The 48-bit signed product of two words (R178). -/
def product (a b : Word) : DoubleWord := BitVec.ofInt 48 (a.toInt * b.toInt)

/-- WM (R178): the multiplier is read before the store is, and the exception register is not touched. -/
def execWm (f : Fields) (s : State) : Result :=
  .next (s.withAddress f fun a s =>
    let multiplier := s.reg f.w
    s.testAddress a (s.access fun s => s.setPair f.w (product multiplier (s.readWord a))))

/-- `QminOverflow` of R181: what the parameter adds for a quotient of exactly -2**23 (D7; log 22). -/
def qminOverflow (c : Config) (dividend divisor : Int) : Bool :=
  c.wdQminOverflow && !(decide (0 < divisor) && decide (dividend = -2 ^ 23 * divisor))

/-- Whether WD reports overflow: divisor zero, or a quotient outside 24 bits (R179). -/
def divideOverflows (c : Config) (dividend divisor : Int) : Bool :=
  divisor == 0 || dividend.tdiv divisor < -2 ^ 23 || 2 ^ 23 - 1 < dividend.tdiv divisor
    || (dividend.tdiv divisor == -2 ^ 23 && qminOverflow c dividend divisor)

/-- WD once its operands are read (R179): truncated quotient into W, remainder into Wpre; on overflow nothing but the
flags. -/
def State.divideInteger (s : State) (w : WReg) (dividend : DoubleWord) (divisor : Word) : State :=
  let dd := dividend.toInt
  let dv := divisor.toInt
  if divideOverflows s.cfg dd dv then s.integerOverflow
  else (s.setReg (wpre w) (BitVec.ofInt 24 (dd.tmod dv))).setReg w (BitVec.ofInt 24 (dd.tdiv dv))

/-- WD (R179): the dividend is read before the store is. -/
def execWd (f : Fields) (s : State) : Result :=
  .next (s.withAddress f fun a s =>
    let dividend := s.pair f.w
    s.clearExceptions.testAddress a
      (s.clearExceptions.access fun s => s.divideInteger f.w dividend (s.readWord a)))

/-- AA after its address test (R182): low words without flags, then high words with the carry, the storage operand's
first word being read after W is written. -/
def State.addDouble (s : State) (w : WReg) (a : Word) : State :=
  s.access fun s =>
    let carry := addCarry (s.reg w) (s.readWord a) false
    (s.setReg w (s.reg w + s.readWord a)).access fun s =>
      s.addInteger (wpre w) (s.readWord (prevAddress a)) carry

/-- AA (R182). -/
def execAa (f : Fields) (s : State) : Result :=
  .next (s.withAddress f fun a s => s.clearExceptions.testAddress a (s.clearExceptions.addDouble f.w a))

/-- SS after its address test (R183): as AA, with the absence of a carry as borrow. -/
def State.subtractDouble (s : State) (w : WReg) (a : Word) : State :=
  s.access fun s =>
    let borrow := !subtractCarry (s.reg w) (s.readWord a) false
    (s.setReg w (s.reg w - s.readWord a)).access fun s =>
      s.subtractInteger (wpre w) (s.readWord (prevAddress a)) borrow

/-- SS (R183). -/
def execSs (f : Fields) (s : State) : Result :=
  .next (s.withAddress f fun a s => s.clearExceptions.testAddress a (s.clearExceptions.subtractDouble f.w a))

end Sys2Proof.Machine
end

