-- ==== Sys2Proof/Machine/Devices.lean ====
section
/-! DEFINITION. The low-speed data channel: selection of a device, acceptance of a command, and the interval timer as a
device (spec/60_exceptions.md R310 to R318, R326, R327). -/

namespace Sys2Proof.Machine

/-- Whether device number `n` is the interval timer (R327). -/
def State.isTimer (s : State) (n : Nat) : Bool := s.cfg.timerDevice == some n

/-- The answer of device `n` to selection: no device is disconnected (R310); the timer is always available (R327), also
where its number lies above device_limit (DESIGN CHOICE; log 42). -/
def State.condition (s : State) (n : Nat) : Condition :=
  if s.isTimer n then .available
  else match s.device? n with
    | some d => d.condition
    | none => .disconnected

/-- The data word a sense of device `n` delivers: its buffer register, unused bits zero (R313), or the timer's value in
bits 10 to 23 (R327). -/
def State.deviceWord (s : State) (n : Nat) : Word :=
  if s.isTimer n then s.timer.setWidth 24
  else match s.device? n with
    | some d => d.buffer &&& d.used
    | none => 0#24

/-- The devices with the one numbered `n` changed. -/
def State.updateDevice (s : State) (n : Nat) (change : Device → Device) : State :=
  { s with devices := s.devices.map (fun d => if d.number = n then change d else d) }

/-- An available device accepting a command (R312): sense leaves it available, every other command makes it busy; write and
control move the word into its buffer register. -/
def Device.accept (d : Device) (command : BitVec 6) (value : Word) : Device :=
  { d with
    command := command
    condition := if isSense command then d.condition else .busy
    buffer := if movesWord command then value &&& d.used else d.buffer }

/-- Acceptance of a command by device `n`. The timer stays as it is: DESIGN CHOICE, unsafe, the sources say nothing of
commands to it other than sense (N14; log 17). -/
def State.acceptCommand (s : State) (n : Nat) (command : BitVec 6) (value : Word) : State :=
  if s.isTimer n then s else s.updateDevice n (fun d => d.accept command value)

end Sys2Proof.Machine
end

