-- ==== Sys2Proof/Machine/Outside.lean ====
section
/-! DEFINITION. What the outside world does to the machine: the events of section 3 of spec/92_eei_decisions.md (log 14).
An event that its rule does not allow in the present state (a key behind a locked panel, a completion of a device that is
not busy) has no effect. -/

namespace Sys2Proof.Machine

/-! ## Interrupt signals and the timer -/

/-- An external signal: `IR[b] <- 1` for a bit of 3 to 23 (R298, D2). -/
def State.externalSignal (s : State) (b : Nat) : State :=
  if 3 ≤ b ∧ b ≤ 23 then { s with ir := s.ir ||| bitMask b } else s

/-- The signal on the bit something is wired to, if it is wired. -/
def State.wiredSignal (s : State) : Option Nat → State
  | some b => s.externalSignal b
  | none => s

/-- One step of the timer's counter, modulo 2**14, with the interrupt at each interval (R326, R328; D14, log 18). -/
def State.timerStep (s : State) : State :=
  let counted := { s with timer := s.timer + 1#14 }
  if counted.timer.toNat % 2 ^ s.timerInterval = 0 then counted.wiredSignal s.cfg.timerIrBit else counted

/-- Several steps of the timer's counter (R329). -/
def State.timerSteps (s : State) : Nat → State
  | 0 => s
  | n + 1 => s.timerStep.timerSteps n

/-! ## Devices -/

/-- A busy device, set remote, completes its operation: buffer, condition, and its interrupt bit (R312, R317, R318). An
area it was handed is its own no longer (R322). -/
def State.deviceCompletes (s : State) (n : Nat) (buffer : Word) : State :=
  match s.device? n with
  | some d =>
    if d.condition = .busy ∧ d.remote = true then
      (s.updateDevice n (fun d => { d with condition := .available, buffer := buffer &&& d.used, area := none })).wiredSignal
        d.irBit
    else s
  | none => s

/-- A device changes its own buffer register (R18 (2), R330). The external interrupt register is such a device. DESIGN
CHOICE: no command clears it of itself and its IR bit is a signal of its own, R330 saying neither (log 46). -/
def State.deviceFills (s : State) (n : Nat) (buffer : Word) : State :=
  s.updateDevice n (fun d => { d with buffer := buffer &&& d.used })

/-- A disconnected device is connected (R312). -/
def State.deviceConnects (s : State) (n : Nat) (busy : Bool) : State :=
  s.updateDevice n (fun d =>
    if d.condition = .disconnected then { d with condition := if busy then .busy else .available } else d)

/-- A device is disconnected (R310, R312). -/
def State.deviceDisconnects (s : State) (n : Nat) : State :=
  s.updateDevice n (fun d => { d with condition := .disconnected, area := none })

/-- The area a high-speed device takes from its control word, once it has accepted a control command and is busy with it
(R321, R322; log 35). -/
def State.handArea (s : State) (n first count : Nat) : State :=
  s.updateDevice n (fun d =>
    if d.transferring && isControl d.command then { d with area := some (first, count) } else d)

/-! ## Events -/

/-- One event of the outside world. Which of two events that take the machine out of program control in one batch counts, the
spec does not say: DESIGN CHOICE, the later of `parityError` and `losesPower`, and either before a `powerFails` (log 28). -/
def State.event (s : State) : HostEvent → State
  | .pressReset => if s.panelLocked then s else { s with resetKey := true }
  | .pressStart => if s.panelLocked then s else { s with startKey := true }
  | .pressAutoload => if s.panelLocked then s else { s with autoloadKey := true }
  | .lockPanel locked => { s with panelLocked := locked }
  | .signal b => s.externalSignal b
  | .timerSteps n => s.timerSteps n
  | .setTimerInterval k => if 4 ≤ k ∧ k ≤ 14 then { s with timerInterval := k } else s
  | .deviceCompletes n v => s.deviceCompletes n v
  | .deviceFills n v => s.deviceFills n v
  | .deviceConnects n busy => s.deviceConnects n busy
  | .deviceDisconnects n => s.deviceDisconnects n
  | .setRemote n remote => s.updateDevice n (fun d => { d with remote := remote })
  | .handArea n first count => s.handArea n first count
  | .channelWrites w => s.channelWrite w
  | .powerFails contents => { s with powerFailing := some contents }
  | .parityError contents => { s with halt := some (.parity contents) }
  | .losesPower => { s with halt := some .powerLost }

/-- A batch of events, in order. -/
def State.events (s : State) (batch : List HostEvent) : State := batch.foldl State.event s

/-- The next batch of the script, if there is one. -/
def State.takeInputs (s : State) : State :=
  match s.inputs with
  | [] => s
  | batch :: rest => State.events { s with inputs := rest } batch

/-! ## The lamps of the operator panel -/

/-- The lamp CPU running (R335): "operating (CPU running) or stopped (CPU error)", so it is lit exactly when the lamp CPU error
is not, in the loop `After Reset` too (DEDUCED; log 47). -/
def State.cpuRunning (s : State) : Bool := !s.cpuError

/-- The lamp reset of R40: lit in the reset state (DEDUCED; log 47). -/
def State.resetLamp (s : State) : Bool := s.phase == .afterReset

/-! ## Power failure -/

/-- The registers lost and holding any values (R334, R345, R346, U1); PR[0] and IM[0] are permanently one. A
power failure still pending is over with that, also where a parity error was the cause (DESIGN CHOICE; log 28). -/
def State.loseRegisters (s : State) (v : PowerOnContents) : State :=
  let keyed := (((s.writeKey 0#24 v.key0).writeKey 2#24 v.key1).writeKey 4#24 v.key2).writeKey 6#24 v.key3
  { keyed with
    regs := v.regs, ic := v.ic, ex := v.ex, pr := v.pr ||| 0x80#8, ir := v.ir, im := v.im ||| bitMask 0,
    timer := v.timer, powerFailing := none }

/-- A power failure detected at the end of an instruction (R347): `Reset System`, then the registers are lost, and the lamp
is out when power is back. -/
def State.powerFailure (s : State) (v : PowerOnContents) : State :=
  { s.resetSystem.loseRegisters v with cpuError := false }

/-- A power failure in the loop `After Reset`: no instruction ends and word 10 is not written (DESIGN CHOICE; log 30). -/
def State.powerCycle (s : State) (v : PowerOnContents) : State :=
  { s.powerOn.loseRegisters v with cpuError := false }

/-! ## Leaving program control -/

/-- A parity error (R334, R340 (e), D15): the reset state with the CPU error lamp lit, all registers unspecified, and no
store word written. "The path is not given" (R340 (e)), and R346 has no column for it: DESIGN CHOICE, the reset state is entered
by `Power On`, which sets monitor mode and disabled and releases the three keys (R342; log 28). -/
def State.machineError (s : State) (v : PowerOnContents) : State :=
  { s.powerOn.loseRegisters v with halt := none, cpuError := true }

/-- What takes the machine out of program control. -/
def State.halted (s : State) : Halt → Result
  | .parity contents => .next (s.machineError contents)
  | .powerLost => .fault .powerLost

end Sys2Proof.Machine
end

