-- ==== Sys2Proof/Machine/Loader.lean ====
section
/-! DEFINITION. AW, Autoload Word (spec/49_monitor_control.md R274, spec/70_reset_and_hazards.md R349, R366), with its
busy-waits on device 0. Each iteration of a wait takes one batch of the script of the outside world. When the script is
used up and device 0 is still busy, the state holds the AW that has not ended, and further steps go on with it (log 10).
What takes the machine out of program control stops the AW where it stands, and the next step acts on it (R334). -/

namespace Sys2Proof.Machine

/-- What one look at device 0 leads to. -/
inductive LoaderStatus where
  /-- The AW is over: completed, in the reset state, or in the instruction exception. -/
  | finished (s : State)
  /-- The AW waits for device 0. -/
  | waiting (p : Autoload) (s : State)
  deriving DecidableEq, Repr

/-- The command code of read, 10 (R312). -/
def readCommand : BitVec 6 := 2#6

/-- The command code of sense, 00 (R312). -/
def senseCommand : BitVec 6 := 0#6

/-- `StartInput` (R274): the read command to device 0. -/
def State.startInput (s : State) (p : Autoload) : LoaderStatus :=
  match s.condition 0 with
  | .disconnected => .finished s.resetSystem
  | .busy => .waiting { p with waiting := false } s
  | .available => .waiting { p with waiting := true } (s.clearExceptions.acceptCommand 0 readCommand 0#24)

/-- The end of AW (R274): the address test comes after the input, and there is no protection test. -/
def State.loadWord (s : State) (a v : Word) : State :=
  s.testAddress a (s.access fun s => (s.writeWord a v).writeKey a 0#3)

/-- A data word read from device 0 (R274): again on end of buffer, else shifted and or-ed in; any other status bit resets
the machine. -/
def State.takeCharacter (s : State) (p : Autoload) (sb : Word) : LoaderStatus :=
  let assembled := (p.assembled <<< 6) ||| sb
  if sb.getMsbD 0 then s.startInput p
  else if leftByte sb ≠ 0#12 then .finished s.resetSystem
  else if 3 ≤ p.count then .finished (s.loadWord p.address assembled)
  else s.startInput { p with assembled := assembled, count := p.count + 1 }

/-- `WaitInput` (R274): the sense command to device 0. -/
def State.waitInput (s : State) (p : Autoload) : LoaderStatus :=
  match s.condition 0 with
  | .disconnected => .finished s.resetSystem
  | .busy => .waiting p s
  | .available =>
    (s.clearExceptions.acceptCommand 0 senseCommand 0#24).takeCharacter p (s.deviceWord 0)

/-- One iteration of the wait the AW stands at. -/
def State.pollLoader (s : State) (p : Autoload) : LoaderStatus :=
  if p.waiting then s.waitInput p else s.startInput p

/-- The iterations of AW's waits, one for each batch left in the script, and one without a batch when the script is used
up. -/
def State.runLoader (s : State) (p : Autoload) : List (List HostEvent) → State
  | [] =>
    match s.pollLoader p with
    | .finished t => t
    | .waiting q t => { t with autoload := some q }
  | batch :: rest =>
    let seen := State.events { s with inputs := rest } batch
    if seen.halt.isSome then { seen with autoload := some p }
    else match seen.pollLoader p with
      | .finished t => t
      | .waiting q t => t.runLoader q rest

/-- An AW that has not ended goes on (R366). -/
def State.continueLoader (s : State) (p : Autoload) : State :=
  State.runLoader { s with autoload := none } p s.inputs

/-- AW once its mode test has passed: the load address is saved and input begins (R274). -/
def State.autoloadWord (s : State) (a : Word) : State :=
  match s.startInput { address := a, assembled := 0#24, count := 0, waiting := false } with
  | .finished t => t
  | .waiting q t => t.runLoader q t.inputs

/-- AW (R274). -/
def execAw (f : Fields) (s : State) : Result :=
  .next (s.withAddress f fun a s => s.testMode (s.autoloadWord a))

end Sys2Proof.Machine
end

