-- ==== Sys2Proof/Machine/Logical.lean ====
section
/-! DEFINITION. Logical operations: LA, LO, LX (spec/46_logical.md R220 to R223). -/

namespace Sys2Proof.Machine

/-- LA (R221). -/
def execLa (f : Fields) (s : State) : Result :=
  .next (s.withAddress f fun a s => s.testAddress a (s.access fun s => s.setReg f.w (s.reg f.w &&& s.readWord a)))

/-- LO (R222). -/
def execLo (f : Fields) (s : State) : Result :=
  .next (s.withAddress f fun a s => s.testAddress a (s.access fun s => s.setReg f.w (s.reg f.w ||| s.readWord a)))

/-- LX (R223). -/
def execLx (f : Fields) (s : State) : Result :=
  .next (s.withAddress f fun a s => s.testAddress a (s.access fun s => s.setReg f.w (s.reg f.w ^^^ s.readWord a)))

end Sys2Proof.Machine
end

