-- ==== Sys2Proof/Machine/Monitor.lean ====
section
/-! DEFINITION. Monitor control: JE, JD, IC, IS, ML, MS, XL, XS, PL, PS, KL, KS, IO
(spec/49_monitor_control.md R260 to R273). AW is in Machine/Loader.lean. -/

namespace Sys2Proof.Machine

/-- JE (R261): the interruption system is enabled after both tests. -/
def execJe (f : Fields) (s : State) : Result :=
  .next (s.withAddress f fun a s =>
    s.testMode (s.testAddress a (State.jumpLink { s with interruptDisabled := false } f.w a)))

/-- JD (R262). -/
def execJd (f : Fields) (s : State) : Result :=
  .next (s.withAddress f fun a s =>
    s.testMode (s.testAddress a (State.jumpLink { s with interruptDisabled := true } f.w a)))

/-- IC, operation code 47 (R263). -/
def execIc (f : Fields) (s : State) : Result :=
  .next (s.withAddress f fun a s => s.testMode { s with ir := s.ir &&& ~~~a })

/-- IS (R264). -/
def execIs (f : Fields) (s : State) : Result :=
  .next (s.withAddress f fun a s => s.testAddress a (s.testProtection a (s.access fun s => s.writeWord a s.ir)))

/-- ML (R265): IM[0] is permanently one. -/
def execMl (f : Fields) (s : State) : Result :=
  .next (s.withAddress f fun a s =>
    s.testMode (s.testAddress a (s.access fun s => { s with im := s.readWord a ||| bitMask 0 })))

/-- MS (R266). -/
def execMs (f : Fields) (s : State) : Result :=
  .next (s.withAddress f fun a s => s.testAddress a (s.testProtection a (s.access fun s => s.writeWord a s.im)))

/-- XL (R267): all three bits are loaded. -/
def execXl (f : Fields) (s : State) : Result :=
  .next (s.withAddress f fun a s => s.testAddress a (s.access fun s => { s with ex := (s.readByte a).setWidth 3 }))

/-- XS (R268). -/
def execXs (f : Fields) (s : State) : Result :=
  .next (s.withAddress f fun a s => s.testAddress a (s.testProtection a (s.access fun s => s.writeByte a (s.ex.setWidth 12))))

/-- PL (R269): PR[0] is permanently one. -/
def execPl (f : Fields) (s : State) : Result :=
  .next (s.withAddress f fun a s =>
    s.testMode (s.testAddress a (s.access fun s => { s with pr := (s.readByte a).setWidth 8 ||| 0x80#8 })))

/-- PS (R270). -/
def execPs (f : Fields) (s : State) : Result :=
  .next (s.withAddress f fun a s => s.testAddress a (s.testProtection a (s.access fun s => s.writeByte a (s.pr.setWidth 12))))

/-- KL (R271). -/
def execKl (f : Fields) (s : State) : Result :=
  .next (s.withAddress f fun a s => s.testAddress a (s.setReg f.w ((s.readKey a).setWidth 24)))

/-- KS (R272). -/
def execKs (f : Fields) (s : State) : Result :=
  .next (s.withAddress f fun a s =>
    s.testMode (s.testAddress a (s.writeKey a ((s.reg f.w).setWidth 3))))

/-- IO once its mode test has passed (R273): rejected by a disconnected or busy device, else accepted; sense moves the
device's word into W, write and control move W into the device. -/
def State.inputOutput (s : State) (w : WReg) (a : Word) : State :=
  let n := s.deviceNumber a
  let c := commandCode a
  match s.condition n with
  | .disconnected => s.setExceptions true false
  | .busy => s.setExceptions false true
  | .available =>
    let accepted := (s.setExceptions false false).acceptCommand n c (s.reg w)
    if isSense c then accepted.setReg w (s.deviceWord n) else accepted

/-- IO (R273). -/
def execIo (f : Fields) (s : State) : Result :=
  .next (s.withAddress f fun a s => s.testMode (s.inputOutput f.w a))

end Sys2Proof.Machine
end

