-- ==== Sys2Proof/Machine/Sequencing.lean ====
section
/-! DEFINITION. Sequencing: JL, SH, SL, SE, SN, SO, SZ, SX, SP (spec/48_sequencing.md R245 to R254). -/

namespace Sys2Proof.Machine

/-- JL (R246). -/
def execJl (f : Fields) (s : State) : Result :=
  .next (s.withAddress f fun a s => s.testAddress a (s.testProtection a (s.jumpLink f.w a)))

/-- SH (R247). -/
def execSh (f : Fields) (s : State) : Result :=
  .next (s.withAddress f fun a s => s.skipIf (decide (a.toInt < (s.reg f.w).toInt)))

/-- SL (R248). -/
def execSl (f : Fields) (s : State) : Result :=
  .next (s.withAddress f fun a s => s.skipIf (decide ((s.reg f.w).toInt < a.toInt)))

/-- SE (R249). -/
def execSe (f : Fields) (s : State) : Result :=
  .next (s.withAddress f fun a s => s.skipIf (s.reg f.w == a))

/-- SN (R250). -/
def execSn (f : Fields) (s : State) : Result :=
  .next (s.withAddress f fun a s => s.skipIf (s.reg f.w != a))

/-- SO (R251). -/
def execSo (f : Fields) (s : State) : Result :=
  .next (s.withAddress f fun a s => s.skipIf (a &&& ~~~ s.reg f.w == 0#24))

/-- SZ (R252). -/
def execSz (f : Fields) (s : State) : Result :=
  .next (s.withAddress f fun a s => s.skipIf (a &&& s.reg f.w == 0#24))

/-- SX (R253): `A[21:23]` against EX. -/
def execSx (f : Fields) (s : State) : Result :=
  .next (s.withAddress f fun a s => s.skipIf (s.ex &&& a.setWidth 3 == 0#3))

/-- SP (R254): not privileged, and no protection test of its own. -/
def execSp (f : Fields) (s : State) : Result :=
  .next (s.withAddress f fun a s => s.testAddress a (s.skipIf (!s.keyProtected (s.readKey a))))

end Sys2Proof.Machine
end

