-- ==== Sys2Proof/Machine/Shift.lean ====
section
/-! DEFINITION. Shift and normalize: AS, AD, LS, LD, NS, ND (spec/47_shift.md R230 to R236). -/

namespace Sys2Proof.Machine

/-- Single left shifts, each preceded by the test whether a significant digit is lost (R231). -/
def shiftLeftTested {n : Nat} : Nat → BitVec n → Bool × BitVec n
  | 0, v => (false, v)
  | k + 1, v =>
    let rest := shiftLeftTested k (v <<< 1)
    (v.getMsbD 0 != v.getMsbD 1 || rest.1, rest.2)

/-- An arithmetic shift by a signed count: whether it overflowed, and the result (R231, R232). -/
def shiftArithmetic {n : Nat} (v : BitVec n) (count : Int) : Bool × BitVec n :=
  if count < 0 then (false, v.sshiftRight (-count).toNat) else shiftLeftTested count.toNat v

/-- A logical shift by a signed count (R233, R234). -/
def shiftLogical {n : Nat} (v : BitVec n) (count : Int) : BitVec n :=
  if count < 0 then v >>> (-count).toNat else v <<< count.toNat

/-- Integer overflow if the condition holds. -/
def State.overflowIf (s : State) (c : Bool) : State := if c then s.integerOverflow else s

/-- AS (R231). -/
def execAs (f : Fields) (s : State) : Result :=
  .next (s.withAddress f fun a s =>
    let shifted := shiftArithmetic (s.reg f.w) (shiftCount a)
    (s.clearExceptions.overflowIf shifted.1).setReg f.w shifted.2)

/-- AD (R232). -/
def execAd (f : Fields) (s : State) : Result :=
  .next (s.withAddress f fun a s =>
    let shifted := shiftArithmetic (s.pair f.w) (shiftCount a)
    (s.clearExceptions.overflowIf shifted.1).setPair f.w shifted.2)

/-- LS (R233). -/
def execLs (f : Fields) (s : State) : Result :=
  .next (s.withAddress f fun a s => s.setReg f.w (shiftLogical (s.reg f.w) (shiftCount a)))

/-- LD (R234). -/
def execLd (f : Fields) (s : State) : Result :=
  .next (s.withAddress f fun a s => s.setPair f.w (shiftLogical (s.pair f.w) (shiftCount a)))

/-- `while v[0] = v[1]`: left shifts, each counting SC down from its start (R235; D8). -/
def normalizeLoop {n : Nat} : Nat → BitVec n → BitVec 13 → BitVec n × BitVec 13
  | 0, v, sc => (v, sc)
  | fuel + 1, v, sc =>
    if v.getMsbD 0 = v.getMsbD 1 then normalizeLoop fuel (v <<< 1) (sc - 1#13) else (v, sc)

/-- A normalized register and the count of R235 and R236; a zero register counts -2048. -/
def normalizeRegister {n : Nat} (v : BitVec n) : BitVec n × BitVec 13 :=
  if v = 0#n then (v, BitVec.ofInt 13 (-2048)) else normalizeLoop n v 0#13

/-- The address test, the protection test and the store of the count byte, after the shifts (R235, R361 (d)). -/
def State.storeCount (s : State) (a : Word) (sc : BitVec 13) : State :=
  s.testAddress a (s.testProtection a (s.access fun s => s.writeByte a (sc.setWidth 12)))

/-- NS (R235). -/
def execNs (f : Fields) (s : State) : Result :=
  .next (s.withAddress f fun a s =>
    let normal := normalizeRegister (s.reg f.w)
    (s.setReg f.w normal.1).storeCount a normal.2)

/-- ND (R236). -/
def execNd (f : Fields) (s : State) : Result :=
  .next (s.withAddress f fun a s =>
    let normal := normalizeRegister (s.pair f.w)
    (s.setPair f.w normal.1).storeCount a normal.2)

end Sys2Proof.Machine
end

