-- ==== Sys2Proof/Machine/Transfer.lean ====
section
/-! DEFINITION. Register transfer: HL, HS, RL, RS, RX, DL, DS (spec/42_register_transfer.md R151 to R157). -/

namespace Sys2Proof.Machine

/-- HL (R151). -/
def execHl (f : Fields) (s : State) : Result :=
  .next (s.withAddress f fun a s => s.testAddress a (s.access fun s => s.setReg f.w (leftByte (s.reg f.w) ++ s.readByte a)))

/-- HS (R152). -/
def execHs (f : Fields) (s : State) : Result :=
  .next (s.withAddress f fun a s =>
    s.testAddress a (s.testProtection a (s.access fun s => s.writeByte a (rightByte (s.reg f.w)))))

/-- RL (R153). -/
def execRl (f : Fields) (s : State) : Result :=
  .next (s.withAddress f fun a s => s.testAddress a (s.access fun s => s.setReg f.w (s.readWord a)))

/-- RS (R154). -/
def execRs (f : Fields) (s : State) : Result :=
  .next (s.withAddress f fun a s =>
    s.testAddress a (s.testProtection a (s.access fun s => s.writeWord a (s.reg f.w))))

/-- RX after its address test: the old register is saved first, the register is loaded before the protection test, and the
channel may come between the read and the write (R80, R155, R361 (b)). -/
def State.exchange (s : State) (w : WReg) (a : Word) : State :=
  s.access fun t =>
    let loaded := t.setReg w (t.readWord a)
    loaded.testProtection a (loaded.access fun t => t.writeWord a (s.reg w))

/-- RX (R155). -/
def execRx (f : Fields) (s : State) : Result :=
  .next (s.withAddress f fun a s => s.testAddress a (s.exchange f.w a))

/-- DL after its address test: the second word first, then the first word into Wpre (R156). -/
def State.loadDouble (s : State) (w : WReg) (a : Word) : State :=
  s.access fun s =>
    (s.setReg w (s.readWord a)).access fun s => s.setReg (wpre w) (s.readWord (prevAddress a))

/-- DL (R156). -/
def execDl (f : Fields) (s : State) : Result :=
  .next (s.withAddress f fun a s => s.testAddress a (s.loadDouble f.w a))

/-- DS after its address test: each word is written after its own protection test (R157, R361 (c)). -/
def State.storeDouble (s : State) (w : WReg) (a : Word) : State :=
  s.testProtection a
    (s.access fun s =>
      let second := s.writeWord a (s.reg w)
      second.testProtection (prevAddress a)
        (second.access fun s => s.writeWord (prevAddress a) (s.reg (wpre w))))

/-- DS (R157). -/
def execDs (f : Fields) (s : State) : Result :=
  .next (s.withAddress f fun a s => s.testAddress a (s.storeDouble f.w a))

end Sys2Proof.Machine
end

