-- ==== Sys2Proof/Machine/Unassigned.lean ====
section
/-! DEFINITION. The unassigned operation codes 58 to 63 (spec/30_encoding.md R100, spec/40_instruction_cycle.md R116): the
instruction exception, at dispatch, after the address modification (D11; log 25). -/

namespace Sys2Proof.Machine

/-- An unassigned operation code: `raise InstructionException(unassigned_opcode)` (R116). -/
def State.unassigned (s : State) (f : Fields) : State := s.withAddress f fun _ s => s.instructionException

/-- Operation code 58 (R100). -/
def execUnassigned58 (f : Fields) (s : State) : Result := .next (s.unassigned f)

/-- Operation code 59 (R100). -/
def execUnassigned59 (f : Fields) (s : State) : Result := .next (s.unassigned f)

/-- Operation code 60 (R100). -/
def execUnassigned60 (f : Fields) (s : State) : Result := .next (s.unassigned f)

/-- Operation code 61 (R100). -/
def execUnassigned61 (f : Fields) (s : State) : Result := .next (s.unassigned f)

/-- Operation code 62 (R100). -/
def execUnassigned62 (f : Fields) (s : State) : Result := .next (s.unassigned f)

/-- Operation code 63 (R100). -/
def execUnassigned63 (f : Fields) (s : State) : Result := .next (s.unassigned f)

end Sys2Proof.Machine
end

