-- ==== Sys2Proof/Machine/Dispatch.lean ====
section
/-! DEFINITION. `goto operation(F)` (spec/40_instruction_cycle.md R116): one arm for each operation code. -/

namespace Sys2Proof.Machine

/-- The operation of an instruction, in the state the fetch and the first part of the decoding have left (R113, R114): IC
points past the instruction and the mode has been set from its key. -/
def exec (i : Instr) (s : State) : Host.Outcome State Fault Refusal :=
  match i with
  | .aw f => Sys2Proof.Machine.execAw f s
  | .io f => Sys2Proof.Machine.execIo f s
  | .bl f => Sys2Proof.Machine.execBl f s
  | .hl f => Sys2Proof.Machine.execHl f s
  | .la f => Sys2Proof.Machine.execLa f s
  | .lo f => Sys2Proof.Machine.execLo f s
  | .lx f => Sys2Proof.Machine.execLx f s
  | .wa f => Sys2Proof.Machine.execWa f s
  | .ws f => Sys2Proof.Machine.execWs f s
  | .am f => Sys2Proof.Machine.execAm f s
  | .wm f => Sys2Proof.Machine.execWm f s
  | .al f => Sys2Proof.Machine.execAl f s
  | .ml f => Sys2Proof.Machine.execMl f s
  | .jl f => Sys2Proof.Machine.execJl f s
  | .jd f => Sys2Proof.Machine.execJd f s
  | .je f => Sys2Proof.Machine.execJe f s
  | .xl f => Sys2Proof.Machine.execXl f s
  | .bs f => Sys2Proof.Machine.execBs f s
  | .ba f => Sys2Proof.Machine.execBa f s
  | .bz f => Sys2Proof.Machine.execBz f s
  | .rl f => Sys2Proof.Machine.execRl f s
  | .sp f => Sys2Proof.Machine.execSp f s
  | .kl f => Sys2Proof.Machine.execKl f s
  | .rs f => Sys2Proof.Machine.execRs f s
  | .wd f => Sys2Proof.Machine.execWd f s
  | .rx f => Sys2Proof.Machine.execRx f s
  | .hs f => Sys2Proof.Machine.execHs f s
  | .xs f => Sys2Proof.Machine.execXs f s
  | .pl f => Sys2Proof.Machine.execPl f s
  | .ps f => Sys2Proof.Machine.execPs f s
  | .ms f => Sys2Proof.Machine.execMs f s
  | .is f => Sys2Proof.Machine.execIs f s
  | .ci f => Sys2Proof.Machine.execCi f s
  | .ac f => Sys2Proof.Machine.execAc f s
  | .ns f => Sys2Proof.Machine.execNs f s
  | .nd f => Sys2Proof.Machine.execNd f s
  | .as f => Sys2Proof.Machine.execAs f s
  | .ad f => Sys2Proof.Machine.execAd f s
  | .ls f => Sys2Proof.Machine.execLs f s
  | .ld f => Sys2Proof.Machine.execLd f s
  | .sh f => Sys2Proof.Machine.execSh f s
  | .sl f => Sys2Proof.Machine.execSl f s
  | .se f => Sys2Proof.Machine.execSe f s
  | .sn f => Sys2Proof.Machine.execSn f s
  | .so f => Sys2Proof.Machine.execSo f s
  | .sz f => Sys2Proof.Machine.execSz f s
  | .sx f => Sys2Proof.Machine.execSx f s
  | .ic f => Sys2Proof.Machine.execIc f s
  | .fa f => Sys2Proof.Machine.execFa f s
  | .fs f => Sys2Proof.Machine.execFs f s
  | .fm f => Sys2Proof.Machine.execFm f s
  | .ks f => Sys2Proof.Machine.execKs f s
  | .fd f => Sys2Proof.Machine.execFd f s
  | .cf f => Sys2Proof.Machine.execCf f s
  | .dl f => Sys2Proof.Machine.execDl f s
  | .ds f => Sys2Proof.Machine.execDs f s
  | .aa f => Sys2Proof.Machine.execAa f s
  | .ss f => Sys2Proof.Machine.execSs f s
  | .unassigned58 f => Sys2Proof.Machine.execUnassigned58 f s
  | .unassigned59 f => Sys2Proof.Machine.execUnassigned59 f s
  | .unassigned60 f => Sys2Proof.Machine.execUnassigned60 f s
  | .unassigned61 f => Sys2Proof.Machine.execUnassigned61 f s
  | .unassigned62 f => Sys2Proof.Machine.execUnassigned62 f s
  | .unassigned63 f => Sys2Proof.Machine.execUnassigned63 f s

end Sys2Proof.Machine
end

