-- ==== Sys2Proof/Machine/Cycle.lean ====
section
/-! DEFINITION. The instruction cycle (spec/40_instruction_cycle.md R110 to R117, R129): fetch, the first part of the decoding,
the reset state's loop (spec/70_reset_and_hazards.md R343, R348, R349), and what one model step is. -/

namespace Sys2Proof.Machine

/-! ## Fetch and decode -/

/-- The two bytes `byte(IC)` and `byte(IC + 1)` that the fetch reads (R113). -/
def State.fetchBytes (s : State) : List Byte := [s.readByte s.ic, s.readByte (s.ic + 1#24)]

/-- `Decode Instruction`, first part (R114): IC is advanced, the fetch protection tested, the mode set from the key of the
instruction's word; then the operation, which goes on to `Next Instruction`. -/
def State.decodeAndRun (s : State) (i : Instr) : Result :=
  let key := s.readKey s.ic
  let advanced := { s with ic := s.ic + 2#24, phase := .running }
  if !s.monitorMode && s.keyProtected key then .next advanced.instructionException
  else exec i { advanced with monitorMode := s.keyProtected key }

/-- The instruction at IC. An odd IC, which no program can bring about, is refused (R364, U6, D16; log 29). -/
def State.runAtCounter (s : State) : Result :=
  if s.ic.getMsbD 23 then .refused .oddInstructionCounter
  else match decodeBytes s.fetchBytes with
    | .ok (i, _) => s.decodeAndRun i
    | .error _ => .refused .oddInstructionCounter

/-- `Fetch Instruction` (R113): the existence test comes before that of the reset key, which is not made between an AM and
the instruction it modifies (R141); the two bytes are one word read (R78). -/
def State.fetch (s : State) (lookAtResetKey : Bool) : Result :=
  if !s.inStore s.ic then .next s.instructionException
  else if lookAtResetKey && s.resetKey then .next s.resetSystem
  else s.channelTurn.runAtCounter

/-! ## The reset state -/

/-- The autoload key (R349): AW with effective address 0, IC being 0; the mode test passes in monitor mode. The lamp CPU
error goes out, the machine operating again (R335; log 28). -/
def State.autoloadStart (s : State) : State :=
  let started := { s with ic := 0#24, phase := .running, cpuError := false }
  started.testMode (started.autoloadWord 0#24)

/-- The start key (R348): IC from word 14. -/
def State.startProgram (s : State) : State :=
  s.access fun s => { s with ic := evenAddress (s.readWord 14#24), phase := .running, cpuError := false }

/-- One turn of the loop `After Reset` (R343): the autoload key is looked at first. -/
def State.afterReset (s : State) : Result :=
  if s.autoloadKey then .next s.autoloadStart
  else if s.startKey then s.startProgram.fetch true
  else .next s

/-! ## One step -/

/-- The power failure "detected at the end of an instruction", else what follows the instruction (R129 (c), R347; log 44). -/
def State.afterInstruction (s : State) (rest : Result) : Result :=
  match s.powerFailing with
  | some contents => .next (s.powerFailure contents)
  | none => rest

/-- `Next Instruction`: the interrupts, then the fetch (R111). -/
def State.boundary (s : State) : Result := s.afterInstruction (s.nextInstruction.fetch true)

/-- `Fetch Instruction` after an instruction exception: no interrupt is looked at before it (R112, R120). The exception has
ended its instruction, so that a power failure is seen here too and ends the interruption loop (R363; log 11). -/
def State.fetchAfterException (s : State) : Result := s.afterInstruction (s.fetch true)

/-- The loop `After Reset`, in which a power failure only turns the power off and on. -/
def State.waitingForStart (s : State) : Result :=
  match s.powerFailing with
  | some contents => .next (s.powerCycle contents)
  | none => s.afterReset

/-- From the label at which the machine stands, after the outside world has had its turn (R110). -/
def State.continueFrom (s : State) : Result :=
  match s.halt with
  | some h => s.halted h
  | none =>
    match s.phase with
    | .afterReset => s.waitingForStart
    | .running => s.boundary
    | .fetching => s.fetchAfterException

/-- One model step: what takes the machine out of program control comes first; an AW that has not ended goes on; after an AM
the next instruction follows with nothing interrogated; otherwise the machine goes on from the label at which it stands. -/
def State.cycle (s : State) : Result :=
  match s.halt with
  | some h => s.halted h
  | none =>
    match s.autoload with
    | some p => .next (s.continueLoader p)
    | none =>
      match s.modifier with
      | some _ => s.fetch false
      | none => s.takeInputs.continueFrom

/-! ## Placing a word where the next step fetches -/

/-- The state without anything that would come before the next fetch: no AW or AM under way, no event, no channel write,
no reset key, no interrupt that would be taken. -/
def State.readyToFetch (s : State) : State :=
  { s with
    autoload := none, modifier := none, inputs := [], channel := [], powerFailing := none, halt := none, resetKey := false,
    interruptDisabled := s.interruptDisabled || s.selectedInterrupt.isSome }

/-- A word placed for the start key (R348): the start address in word 14 is 16, the first free word (R70), and the word
stands there. -/
def State.placeForStart (s : State) (word : Word) : State :=
  let placed := (s.writeWord 14#24 16#24).writeWord 16#24 word
  { placed with startKey := true, autoloadKey := false, monitorMode := true }

/-- A word placed at IC, or at 16 if IC names no existing even address; in monitor mode if its key is protected. -/
def State.placeAtCounter (s : State) (word : Word) : State :=
  let a := if s.inStore s.ic && !s.ic.getMsbD 23 then s.ic else 16#24
  let placed := State.writeWord { s with ic := a } a word
  { placed with monitorMode := s.monitorMode || s.keyProtected (s.readKey a) }

/-- A word placed where the next step fetches its instruction (log 31). -/
def State.placeInstruction (s : State) (word : Word) : State :=
  match s.phase with
  | .afterReset => s.readyToFetch.placeForStart word
  | .running => s.readyToFetch.placeAtCounter word
  | .fetching => s.readyToFetch.placeAtCounter word

end Sys2Proof.Machine
end

