-- ==== Sys2Proof/Machine/Step.lean ====
section
/-! DEFINITION. The step of the machine (spec/40_instruction_cycle.md R110), and how the host places an instruction where the
next step fetches. Both are one call of Machine/Cycle.lean. -/

namespace Sys2Proof.Machine

/-- One step of the machine. -/
def step (s : State) : Host.Outcome State Fault Refusal := s.cycle

/-- The state with an instruction of `nbits` bits `w` (spec/opcode_table.json's numbering) stored where `step` fetches its
next instruction: in the reset state by way of the start key, else at IC (log 31, log 43). -/
def State.withFetchWord (s : State) (nbits w : Nat) : State :=
  s.placeInstruction (BitVec.ofNat 24 (w % 2 ^ nbits))

end Sys2Proof.Machine
end

