-- ==== Sys2Proof/WellFormed.lean ====
section
/-! DEFINITION. What is well formed: every instruction (spec/30_encoding.md R101), and the installations that
spec/00_scope.md R10 allows. -/

namespace Sys2Proof

/-- Every instruction is well formed: "there are no reserved fields, no reserved field values and no must-be-zero bits"
(R101). The types of `Fields` are the fields' own ranges, so there is nothing to check. -/
def Instr.wellFormed (_ : Instr) : Bool := true

/-- STORE_WORDS is at least one basic module and at most what 24-bit byte addresses reach (R10). -/
def Config.storeWordsOk (c : Config) : Bool := 16384 ≤ c.storeWords && c.storeWords ≤ 8388608

/-- DEVICE_BITS is 1 to 18 (R10, spec/92_eei_decisions.md section 2). -/
def Config.deviceBitsOk (c : Config) : Bool := 1 ≤ c.deviceBits && c.deviceBits ≤ 18

/-- device_limit and TIMER_DEVICE are numbers the channel can decode (R10). That TIMER_DEVICE may lie above device_limit, the
timer's counter being its buffer register (R326), is a DESIGN CHOICE (log 42). -/
def Config.deviceNumbersOk (c : Config) : Bool :=
  c.deviceLimit < 2 ^ c.deviceBits && c.timerDevice.all (fun n => n < 2 ^ c.deviceBits)

/-- TIMER_IR_BIT is one of the external bits 3 to 23 (R10, spec/60_exceptions.md R328). -/
def Config.timerIrBitOk (c : Config) : Bool := c.timerIrBit.all (fun b => 3 ≤ b && b ≤ 23)

/-- An installation R10 allows. -/
def Config.wellFormed (c : Config) : Bool :=
  c.storeWordsOk && c.deviceBitsOk && c.deviceNumbersOk && c.timerIrBitOk

end Sys2Proof
end

