-- ==== Sys2Proof/Safety.lean ====
section
/-! DEFINITION. What statements about the machine are said with: the invariant that every step keeps, what stays unchanged
(frames), which instructions are privileged, and when a run has ended (spec/92_eei_decisions.md D17). -/

namespace Sys2Proof.Machine

/-! ## The invariant -/

/-- `PR[0]` and `IM[0]` are permanently one (spec/10_state.md R31, R33). -/
def State.permanentBits (s : State) : Prop := s.pr.getMsbD 0 = true ∧ s.im.getMsbD 0 = true

/-- IC is even while instructions execute (R26). -/
def State.evenCounter (s : State) : Prop := s.phase ≠ .afterReset → s.ic.getMsbD 23 = false

/-- In the reset state the machine is in monitor mode, disabled, with no instruction under way (R342). -/
def State.resetStateSound (s : State) : Prop :=
  s.phase = .afterReset →
    s.monitorMode = true ∧ s.interruptDisabled = true ∧ s.modifier = none ∧ s.autoload = none

/-- An AW under way is in monitor mode and no AM is (R122, R274). -/
def State.loaderSound (s : State) : Prop :=
  ∀ p, s.autoload = some p → s.monitorMode = true ∧ s.modifier = none ∧ p.count ≤ 3

/-- The store and the keys are in canonical form. -/
def State.storeSound (s : State) : Prop := Memory.wf s.store = true ∧ KeyStore.wf s.keys = true

/-- No buffer register holds a bit it does not have (R310 (b)). -/
def State.buffersSound (s : State) : Prop := ∀ d ∈ s.devices, d.buffer &&& ~~~d.used = 0#24

/-- The timer interval is one of the eleven (R328). -/
def State.intervalSound (s : State) : Prop := 4 ≤ s.timerInterval ∧ s.timerInterval ≤ 14

/-- The invariant of the machine. -/
structure State.Inv (s : State) : Prop where
  permanent : s.permanentBits
  even : s.evenCounter
  resetState : s.resetStateSound
  loader : s.loaderSound
  store : s.storeSound
  buffers : s.buffersSound
  interval : s.intervalSound

/-! ## The high-speed channel and one instruction -/

/-- The state in which an instruction's operation makes its first store access: the channel has had its turns before the
indirect word, if there is one, and before this access (R78, R115). -/
def State.atOperand (s : State) (f : Fields) : State := (s.addressed f).channelTurn

/-- The channel's script names no word with this number. -/
def State.channelSpares (s : State) (n : Nat) : Prop := ∀ batch ∈ s.channel, ∀ w ∈ batch, wordNumber w.address ≠ n

/-- The operands `o` of a floating-point instruction are those fetched at `a`, and `v` is the state after that: the register
fraction is read first, then the second word, then the first, each store word after a turn of the channel (R194). -/
def State.fetchesOperands (s : State) (f : Fields) (a : Word) (o : FloatOperands) (v : State) : Prop :=
  v = (s.atOperand f).channelTurn ∧ o.register = (s.addressed f).registerFraction f.w
    ∧ o.storage = v.readWord (prevAddress a) ++ leftByte ((s.atOperand f).readWord a)
    ∧ o.exponent = rightByte ((s.atOperand f).readWord a)

/-! ## Frames -/

/-- Every byte of the store, the working registers not among them, reads as before. -/
def SameStore (s t : State) : Prop := ∀ a : Word, 8 ≤ a.toNat → t.readByte a = s.readByte a

/-- Every protection key is as before. -/
def SameKeys (s t : State) : Prop := ∀ a : Word, t.readKey a = s.readKey a

/-- Every working register but those listed is as before. -/
def SameRegistersBut (rs : List WReg) (s t : State) : Prop := ∀ r, r ∉ rs → t.reg r = s.reg r

/-- What no instruction but those of monitor control, and no taking of an interruption, changes: PR, IM, the mode and
the disabled flag. -/
def SameControl (s t : State) : Prop :=
  t.pr = s.pr ∧ t.im = s.im ∧ t.monitorMode = s.monitorMode ∧ t.interruptDisabled = s.interruptDisabled

/-- What only the outside world, the panel, IO and AW change: devices, timer, panel, script; and the installation. -/
def SameSurroundings (s t : State) : Prop :=
  t.cfg = s.cfg ∧ t.devices = s.devices ∧ t.timer = s.timer ∧ t.timerInterval = s.timerInterval
    ∧ t.resetKey = s.resetKey ∧ t.startKey = s.startKey ∧ t.autoloadKey = s.autoloadKey
    ∧ t.panelLocked = s.panelLocked ∧ t.autoload = s.autoload ∧ t.powerFailing = s.powerFailing ∧ t.halt = s.halt
    ∧ t.cpuError = s.cpuError ∧ t.inputs = s.inputs

/-- What an instruction outside monitor control leaves alone, from the state after its last turn of the channel to its end:
keys, control, surroundings, the channel's script, the label; and the modifier is used up (R141). -/
def SameRest (s t : State) : Prop :=
  SameKeys s t ∧ SameControl s t ∧ SameSurroundings s t ∧ t.channel = s.channel ∧ t.phase = s.phase ∧ t.modifier = none

/-- Nothing is changed but the working registers listed. -/
def OnlyRegisters (rs : List WReg) (s t : State) : Prop :=
  SameRegistersBut rs s t ∧ SameStore s t ∧ t.ic = s.ic ∧ t.ex = s.ex ∧ t.ir = s.ir ∧ SameRest s t

/-- Nothing is changed but the working registers listed, EX[22:23], and one bit of IR. -/
def OnlyArithmetic (rs : List WReg) (bit : Nat) (s t : State) : Prop :=
  SameRegistersBut rs s t ∧ SameStore s t ∧ t.ic = s.ic ∧ t.ex.getMsbD 0 = s.ex.getMsbD 0
    ∧ (∀ b, b ≠ bit → t.ir.getMsbD b = s.ir.getMsbD b) ∧ SameRest s t

/-- Nothing is changed but the instruction counter. -/
def OnlyCounter (s t : State) : Prop :=
  SameRegistersBut [] s t ∧ SameStore s t ∧ t.ex = s.ex ∧ t.ir = s.ir ∧ SameRest s t

/-- Nothing is changed but the working registers listed and the instruction counter. -/
def OnlyRegistersAndCounter (rs : List WReg) (s t : State) : Prop :=
  SameRegistersBut rs s t ∧ SameStore s t ∧ t.ex = s.ex ∧ t.ir = s.ir ∧ SameRest s t

/-- Nothing is changed but the word at `a`; where that word is a working register, that register. Addresses 0 to 7 are
those of the registers, so the first clause speaks of the registers too. -/
def OnlyWord (a : Word) (s t : State) : Prop :=
  (∀ b : Word, wordNumber b ≠ wordNumber a → t.readByte b = s.readByte b)
    ∧ (∀ r, registerAt (wordNumber a) ≠ some r → t.reg r = s.reg r)
    ∧ t.ic = s.ic ∧ t.ex = s.ex ∧ t.ir = s.ir ∧ SameRest s t

/-- Nothing is changed but the byte at `a`; where it is half of a working register, that half. -/
def OnlyByte (a : Word) (s t : State) : Prop :=
  (∀ b : Word, b ≠ a → t.readByte b = s.readByte b)
    ∧ (∀ r, registerAt (wordNumber a) ≠ some r → t.reg r = s.reg r)
    ∧ t.ic = s.ic ∧ t.ex = s.ex ∧ t.ir = s.ir ∧ SameRest s t

/-! ## Operands and flags -/

/-- The instruction has the effective address `a` and that address exists. -/
def Operand (s : State) (f : Fields) (a : Word) : Prop := s.effectiveAddress f = some a ∧ s.inStore a = true

/-- The instruction has the effective address `a`, which exists and which the current program may alter or jump to. -/
def Writable (s : State) (f : Fields) (a : Word) : Prop := Operand s f a ∧ s.denied a = false

/-- Whether a number fits a word. -/
def fitsWord (n : Int) : Bool := decide (-2 ^ 23 ≤ n) && decide (n < 2 ^ 23)

/-- Whether a number fits a double word. -/
def fitsDouble (n : Int) : Bool := decide (-2 ^ 47 ≤ n) && decide (n < 2 ^ 47)

/-- Whether a number fits the exponent's 12 bits. -/
def fitsExponent (n : Int) : Bool := decide (-2 ^ 11 ≤ n) && decide (n < 2 ^ 11)

/-- EX[22] and EX[23] after an instruction that reports overflow on bit `bit` of IR: IR[bit] is set with EX[22] and is
otherwise as before. -/
def FlagsAre (bit : Nat) (overflow carry : Bool) (s t : State) : Prop :=
  t.ex.getMsbD 1 = overflow ∧ t.ex.getMsbD 2 = carry ∧ t.ir.getMsbD bit = (s.ir.getMsbD bit || overflow)

/-- The store word that a working register is (R23). -/
def registerNumber : WReg → Nat
  | .w0 => 0
  | .w1 => 1
  | .w2 => 2
  | .w3 => 3

/-- What `Power On` makes of a state `u`: monitor mode, disabled, the three keys released, the loop `After Reset`, with no AW
and no AM under way; and every register, key and other part of the state as before, the store apart (R342). -/
def PowerOnFrom (u t : State) : Prop :=
  t.monitorMode = true ∧ t.interruptDisabled = true ∧ t.resetKey = false ∧ t.startKey = false ∧ t.autoloadKey = false
    ∧ t.phase = .afterReset ∧ t.modifier = none ∧ t.autoload = none
    ∧ SameRegistersBut [] u t ∧ SameKeys u t ∧ t.ic = u.ic ∧ t.ex = u.ex ∧ t.pr = u.pr ∧ t.ir = u.ir ∧ t.im = u.im
    ∧ t.devices = u.devices ∧ t.timer = u.timer ∧ t.timerInterval = u.timerInterval ∧ t.cfg = u.cfg
    ∧ t.panelLocked = u.panelLocked ∧ t.powerFailing = u.powerFailing ∧ t.halt = u.halt ∧ t.cpuError = u.cpuError
    ∧ t.inputs = u.inputs ∧ t.channel = u.channel

/-- Device 0 is available, remote and unwired, with a buffer register of 24 bits, and the outside world does nothing for a
while but complete its operations, with these buffer contents one after another (R274, R312). -/
def State.delivers (s : State) (words : List Word) (rest : List (List HostEvent)) : Prop :=
  s.halt = none ∧ s.isTimer 0 = false
    ∧ (∃ d, s.device? 0 = some d ∧ d.condition = .available ∧ d.remote = true ∧ d.irBit = none ∧ d.used = 0xFFFFFF#24)
    ∧ s.inputs = words.map (fun c => [HostEvent.deviceCompletes 0 c]) ++ rest

/-- Four characters of six bits without status bits, assembled, the first leftmost (R274). -/
def FourCharacters (c1 c2 c3 c4 v : Word) : Prop :=
  c1.toNat < 64 ∧ c2.toNat < 64 ∧ c3.toNat < 64 ∧ c4.toNat < 64
    ∧ v.toNat = ((c1.toNat * 64 + c2.toNat) * 64 + c3.toNat) * 64 + c4.toNat

/-- An AW stands at `WaitInput` with what it holds in `p`, device 0 is available with the data word `sb`, and nothing
happens outside (R274). -/
def State.loaderReads (s : State) (p : Autoload) (sb : Word) : Prop :=
  s.halt = none ∧ s.autoload = some p ∧ p.waiting = true ∧ s.inputs = [] ∧ s.isTimer 0 = false
    ∧ s.condition 0 = .available ∧ s.deviceWord 0 = sb

/-! ## Classes of instructions -/

/-- The eight privileged instructions (spec/60_exceptions.md R303). -/
def isPrivileged : Instr → Bool
  | .pl _ | .ks _ | .ml _ | .ic _ | .je _ | .jd _ | .io _ | .aw _ => true
  | _ => false

/-- The unassigned operation codes (R100). -/
def isUnassigned : Instr → Bool
  | .unassigned58 _ | .unassigned59 _ | .unassigned60 _ | .unassigned61 _ | .unassigned62 _ | .unassigned63 _ => true
  | _ => false

/-- The unprivileged instructions whose first act is the existence test of their effective address
(spec/20_memory.md R72). -/
def testsAddressFirst : Instr → Bool
  | .hl _ | .hs _ | .rl _ | .rs _ | .rx _ | .dl _ | .ds _ | .bz _ | .bl _ | .wm _ | .la _ | .lo _ | .lx _ | .jl _ | .sp _
  | .is _ | .ms _ | .xl _ | .xs _ | .ps _ | .kl _ => true
  | _ => false

/-- The instructions that clear EX[22:23] and then test their effective address
(spec/70_reset_and_hazards.md R361 (a)). -/
def clearsThenTestsAddress : Instr → Bool
  | .ba _ | .bs _ | .wa _ | .ws _ | .wd _ | .aa _ | .ss _ | .fa _ | .fs _ | .fm _ | .fd _ => true
  | _ => false

/-- The privileged instructions that test their effective address after the mode (R72). -/
def testsModeThenAddress : Instr → Bool
  | .je _ | .jd _ | .ml _ | .pl _ | .ks _ => true
  | _ => false

/-- The instructions whose protection test follows the existence test at once (R72). -/
def testsProtectionNext : Instr → Bool
  | .hs _ | .rs _ | .is _ | .ms _ | .xs _ | .ps _ | .jl _ | .ds _ => true
  | _ => false

/-- The instructions that can set IR[1] (spec/60_exceptions.md R291). -/
def setsIntegerOverflow : Instr → Bool
  | .ac _ | .ba _ | .bs _ | .wa _ | .ws _ | .wd _ | .aa _ | .ss _ | .cf _ | .as _ | .ad _ => true
  | _ => false

/-- The instructions that can set IR[2] (R291). -/
def setsFloatingOverflow : Instr → Bool
  | .ci _ | .fa _ | .fs _ | .fm _ | .fd _ => true
  | _ => false

/-- The instructions that write EX[22:23] (spec/10_state.md R29). -/
def writesExceptions : Instr → Bool
  | .ac _ | .ba _ | .bs _ | .wa _ | .ws _ | .wd _ | .aa _ | .ss _ | .ci _ | .cf _ | .fa _ | .fs _ | .fm _ | .fd _ | .as _
  | .ad _ | .io _ | .aw _ | .xl _ => true
  | _ => false

/-! ## The instruction at the counter -/

/-- The word at IC is instruction `i`, its address exists and is even, and its fetch protection allows it (R113, R114).
Said of the state after the channel's turn before the fetch. -/
def State.fetches (s : State) (i : Instr) : Prop :=
  s.inStore s.ic = true ∧ s.ic.getMsbD 23 = false ∧ decodeBytes s.fetchBytes = .ok (i, [])
    ∧ (s.monitorMode = true ∨ s.keyProtected (s.readKey s.ic) = false)

/-- The state in which the operation of the instruction at IC is entered (R114): IC past it, the mode from its key. -/
def State.decoded (s : State) : State :=
  { s with ic := s.ic + 2#24, monitorMode := s.keyProtected (s.readKey s.ic), phase := .running }

/-- No AW and no AM is under way, and nothing takes the machine out of program control. -/
def State.atBoundary (s : State) : Prop := s.halt = none ∧ s.autoload = none ∧ s.modifier = none

/-- The outside world leaves the machine at this label, with power and without machine error. -/
def State.undisturbed (s : State) (phase : Phase) : Prop :=
  s.halt = none ∧ s.powerFailing = none ∧ s.phase = phase

/-- After its turn the outside world finds the machine at `Fetch Instruction` in the state `v`: either from `Next
Instruction`, perhaps after an interruption, or straight from an instruction exception, after which no interrupt is looked
at (R111, R112; log 11, log 14, log 44). -/
def State.reachesFetch (s v : State) : Prop :=
  s.atBoundary
    ∧ ((s.takeInputs.undisturbed .running ∧ v = s.takeInputs.nextInstruction)
      ∨ (s.takeInputs.undisturbed .fetching ∧ v = s.takeInputs))

/-! ## Results in floating point -/

/-- The double register `w` of `t` holds the fraction and the exponent that normalizing and rounding AF and SC give, in the
precision EX[21] of `s` asks for, and the flags say whether the exponent left its range (R193, R195, R196). -/
def HoldsRounded (w : WReg) (af : BitVec 39) (sc : BitVec 13) (s t : State) : Prop :=
  let result := normalizeAndRound af sc
  t.registerFraction w = (if s.ex.getMsbD 0 then lowPrecision (afFraction result.1) else afFraction result.1)
    ∧ t.registerExponent w = result.2.setWidth 12
    ∧ FlagsAre 2 (!fitsExponent result.2.toInt) false s t

/-- The double register `w` of `t` holds a fraction, in the precision EX[21] of `s` asks for, and an exponent, and nothing
is reported (R202, early exits). -/
def HoldsUnrounded (w : WReg) (fraction : BitVec 36) (exponent : Byte) (s t : State) : Prop :=
  t.registerFraction w = (if s.ex.getMsbD 0 then lowPrecision fraction else fraction)
    ∧ t.registerExponent w = exponent ∧ FlagsAre 2 false false s t

/-! ## The manual's multiplication -/

/-- One iteration of the manual's WM (spec/44_integer_word_double.md R178) on `ARBR`, 49 bits: add the multiplicand into AR if
BR's last bit is one, then shift right arithmetically. -/
def manualMultiplyStep (sb : Word) (arbr : BitVec 49) : BitVec 49 :=
  (if arbr.getMsbD 48 then arbr + (sb.signExtend 25 ++ 0#24) else arbr).sshiftRight 1

/-- Iterations of the manual's WM. -/
def manualMultiplySteps (sb : Word) : Nat → BitVec 49 → BitVec 49
  | 0, arbr => arbr
  | n + 1, arbr => manualMultiplySteps sb n (manualMultiplyStep sb arbr)

/-- The manual's WM: 23 iterations, then the multiplier's sign digit with negative weight (R178). -/
def manualMultiply (w sb : Word) : DoubleWord :=
  let arbr := manualMultiplySteps sb 23 (0#25 ++ w)
  BitVec.setWidth 48
    ((if arbr.getMsbD 48 then arbr - (sb.signExtend 25 ++ 0#24) else arbr).sshiftRight 1)

/-! ## The end of a run -/

/-- A run has ended (D17): the word about to be fetched is `JL. 0`, its fetch-protection test would pass, nothing is
pending and enabled, and no device is busy. -/
def State.runEnded (s : State) : Bool :=
  s.phase == .running && s.autoload == none && s.modifier == none && !s.ic.getMsbD 23 && s.inStore s.ic
    && s.readWord s.ic == 0x348000#24 && (s.monitorMode || !s.keyProtected (s.readKey s.ic))
    && (s.interruptDisabled || s.ir &&& s.im == 0#24) && s.devices.all (fun d => d.condition != .busy)

end Sys2Proof.Machine
end

