-- ==== Sys2Proof/Certificates/Slice0/Obligations.lean ====
section
/-! DEFINITION. The statements for the provers. OBLIGATIONS.json gives each its number, its tier, the rules it rests on and
its title. R<n> are the numbered rules of spec/; "log n" is notes/assumptions/n.md.

A frame speaks of the state after the instruction's last turn of the high-speed channel, which comes before each of its store
accesses (R78; log 15): `s.addressed f` is the state in which the operation is entered, `s.atOperand f` that in which it makes
its first store access. Without a script of the channel all of these hold what `s` holds. OutsideWorldIsConfined says what a
turn can change. -/

open Sys2Proof Sys2Proof.Machine

/-! ## Encoding -/

/-- Decoding an encoded instruction gives it back, every operand field at every value; and every 24-bit word is the
encoding of the instruction it decodes to (R91, R101). -/
def Obligations.DecodeAndEncodeAgree : Prop :=
  (∀ i : Instr, i.wellFormed = true → decode (encode i) = i) ∧ ∀ w : Word, encode (decode w) = w

/-- The instruction word as a number and its fields, in both directions, and the two bytes of the store it is fetched from
(R91; that the fetched bytes are these two halves, in this order, is R91's own inference from R62, log 43). -/
def Obligations.FieldLayout : Prop :=
  (∀ w : Word,
    w.toNat = (decode w).opcode * 2 ^ 18 + (decode w).fields.w.code * 2 ^ 16
        + (2 * (decode w).fields.relative.toNat + (decode w).fields.indirect.toNat) * 2 ^ 14
        + (decode w).fields.x.code * 2 ^ 12 + (decode w).fields.d.toNat ∧
      (decode w).opcode = w.toNat / 2 ^ 18 ∧
      (decode w).fields.w.code = w.toNat / 2 ^ 16 % 4 ∧
      2 * (decode w).fields.relative.toNat + (decode w).fields.indirect.toNat = w.toNat / 2 ^ 14 % 4 ∧
      (decode w).fields.x.code = w.toNat / 2 ^ 12 % 4 ∧
      (decode w).fields.d.toInt = (BitVec.ofNat 12 (w.toNat % 4096)).toInt) ∧
    ∀ s : State, s.ic.getMsbD 23 = false → decodeBytes s.fetchBytes = .ok (decode (s.readWord s.ic), [])

/-- The encoding examples of R105: each word decodes to the instruction the table says it is. -/
def Obligations.SampleWords : Prop :=
  decode 0x2D0005#24 = .al { w := .w1, relative := false, indirect := false, x := .direct, d := 5#12 } ∧
    decode 0x000002#24 = .aw { w := .w0, relative := false, indirect := false, x := .direct, d := 2#12 } ∧
    decode 0x000010#24 = .aw { w := .w0, relative := false, indirect := false, x := .direct, d := 16#12 } ∧
    decode 0x340000#24 = .jl { w := .w0, relative := false, indirect := false, x := .direct, d := 0#12 } ∧
    decode 0x340010#24 = .jl { w := .w0, relative := false, indirect := false, x := .direct, d := 16#12 } ∧
    decode 0x348FFE#24 = .jl { w := .w0, relative := true, indirect := false, x := .direct, d := 0xFFE#12 } ∧
    decode 0x525006#24 = .rl { w := .w2, relative := false, indirect := true, x := .x1, d := 6#12 } ∧
    decode 0xA00FFF#24 = .sh { w := .w0, relative := false, indirect := false, x := .direct, d := 0xFFF#12 } ∧
    decode 0xD90064#24 = .dl { w := .w1, relative := false, indirect := false, x := .direct, d := 100#12 } ∧
    decode 0x050142#24 = .io { w := .w1, relative := false, indirect := false, x := .direct, d := 322#12 } ∧
    decode 0xFFFFFF#24 = .unassigned63 { w := .w3, relative := true, indirect := true, x := .x3, d := 0xFFF#12 }

/-! ## The step -/

/-- At Fetch Instruction, after the batch of outside events and perhaps an interruption, or straight after an instruction
exception, the step runs the decoded instruction at the counter, the counter advanced past it and the mode set from its key
(R110 to R114; that one batch comes first is the model's choice, log 14, and the order of what is looked at is deduced, log 44;
that an instruction exception ends the step before, log 11; the channel's turn, log 15). -/
def Obligations.StepRunsInstruction : Prop :=
  ∀ (s v : State) (i : Instr), s.reachesFetch v → v.resetKey = false → v.channelTurn.fetches i → i.wellFormed = true →
    step s = exec i v.channelTurn.decoded

/-- After AM the step runs the next instruction at once, whatever is pending, whatever the reset key, whatever the outside
world has to do, and the modifier is what its address modification adds (R38 (b), R141, R360; that AM is a step of its own,
after which no batch is taken and no power failure looked at, is the model's choice, log 9). -/
def Obligations.StepAfterModifier : Prop :=
  ∀ (s v : State) (i : Instr) (m : Word), s.halt = none → s.autoload = none → s.modifier = some m →
    v = s.channelTurn → v.fetches i → step s = exec i v.decoded ∧ v.decoded.modifierValue = m ∧ v.decoded.inputs = s.inputs

/-- The effective address (R118): modifier, sign-extended displacement, own address if relative, index register if any,
modulo 2**24; and with indirect addressing the existing word there, read after a turn of the channel (log 15). -/
def Obligations.EffectiveAddressForms : Prop :=
  ∀ (s : State) (f : Fields) (m index own t : Word),
    m = (match s.modifier with | some m => m | none => 0#24) →
    index = (match f.x with | .direct => 0#24 | .x1 => s.regs.w1 | .x2 => s.regs.w2 | .x3 => s.regs.w3) →
    own = (if f.relative then s.ic - 2#24 else 0#24) →
    t.toInt = (m.toInt + f.d.toInt + own.toInt + index.toInt).bmod (2 ^ 24) →
    (f.indirect = false → s.effectiveAddress f = some t) ∧
      (f.indirect = true → t.toNat / 2 < s.cfg.storeWords → s.effectiveAddress f = some (s.channelTurn.readWord t)) ∧
      (f.indirect = true → s.cfg.storeWords ≤ t.toNat / 2 → s.effectiveAddress f = none)

/-- From every state that meets the invariant a step answers a next state, unless the outside world lets power go undetected
(U8, log 30). No instruction, and no ordinary data, ends a run: FD on operands that are not normalized completes too, by the
model's choice, where U7 refuses (log 27), and a machine error leads to the reset state (log 28). -/
def Obligations.StepAnswers : Prop :=
  ∀ s : State, s.Inv → s.halt ≠ some .powerLost → (∀ batch ∈ s.inputs, HostEvent.losesPower ∉ batch) →
    ∃ t, step s = .next t

/-- The machine as State.reset has it meets the invariant. The values of the reset state that the spec leaves open are the
model's choice (log 1 to log 6); the invariant holds whatever they are within it. -/
def Obligations.ResetMeetsInvariant : Prop := State.reset.Inv

/-- Every step keeps the invariant: PR[0] and IM[0] stay one, IC stays even while instructions execute, the reset state is in
monitor mode and disabled, store and keys keep their canonical form, no buffer register gains a bit. -/
def Obligations.StepKeepsInvariant : Prop := ∀ s t : State, s.Inv → step s = .next t → t.Inv

/-! ## Store and registers -/

/-- A word written is read back and no other word changes; a byte likewise; the registers are the first four words; no
store write changes a key (R62 to R65). -/
def Obligations.StoreReadsBack : Prop :=
  (∀ (s : State) (a b v : Word),
    (s.writeWord a v).readWord b = (if wordNumber b = wordNumber a then v else s.readWord b)) ∧
    (∀ (s : State) (a b : Word) (v : Byte), (s.writeByte a v).readByte b = (if b = a then v else s.readByte b)) ∧
    (∀ (s : State) (a : Word) (r : WReg), wordNumber a = registerNumber r → s.readWord a = s.reg r) ∧
    (∀ (s : State) (a v : Word) (r : WReg), wordNumber a = registerNumber r → (s.writeWord a v).reg r = v) ∧
    (∀ (s : State) (a v b : Word) (u : Byte), (s.writeWord a v).readKey b = s.readKey b ∧
      (s.writeByte a u).readKey b = s.readKey b)

/-! ## Reset -/

/-- Reset System and Power On: word 10 receives IC, monitor mode, disabled, the three keys released; nothing else is assigned
but what the model holds of an AW or an AM under way, which is abandoned (R341, R342; log 9, log 10). The channel has its turn
before the write of word 10 (log 15). -/
def Obligations.ResetSystemAssigns : Prop :=
  ∀ s u : State, u = s.channelTurn →
    s.resetSystem.readWord 10#24 = s.ic ∧ (∀ a, wordNumber a ≠ 5 → s.resetSystem.readByte a = u.readByte a) ∧
      PowerOnFrom u s.resetSystem ∧ (∀ a, s.powerOn.readByte a = s.readByte a) ∧ PowerOnFrom s s.powerOn

/-- The loop After Reset: it waits; the autoload key, looked at first, runs AW with effective address 0 and IC 0; the start
key fetches at the address in word 14 (R343, R348, R349). One turn of the loop is a step, after one batch of outside events
(log 14, log 37); a missing start address ends it in the instruction exception (log 11); which keys come from outside is log
31; the lamp, log 28. -/
def Obligations.ResetStateLoop : Prop :=
  ∀ (s u : State), s.atBoundary → u = s.takeInputs → u.undisturbed .afterReset → u.monitorMode = true →
    (u.autoloadKey = false → u.startKey = false → step s = .next u) ∧
      (u.autoloadKey = true →
        step s = .next (State.autoloadWord { u with ic := 0#24, phase := .running, cpuError := false } 0#24)) ∧
      ∀ v : State, u.autoloadKey = false → u.startKey = true → u.resetKey = false →
        v = { u.channelTurn with
          ic := evenAddress (u.channelTurn.readWord 14#24), phase := .running, cpuError := false } →
        (v.inStore v.ic = false → step s = .next v.instructionException) ∧
          ∀ i, v.channelTurn.fetches i → step s = exec i v.channelTurn.decoded

/-! ## Interruption -/

/-- Taking the signal on bit b: what is saved, where the counter goes, what mode and flag become; and nothing else changes but
words that the channel writes meanwhile (R294; the channel's turn before each of the three accesses, log 15). -/
def Obligations.InterruptEntry : Prop :=
  ∀ (s t : State) (b : Nat), b < 24 → t = s.takeInterrupt b →
    (s.channelSpares 4 → t.readWord 8#24 = BitVec.ofNat 24 (2 * b)) ∧ (s.channelSpares 5 → t.readWord 10#24 = s.ic) ∧
      t.ic = evenAddress (t.readWord 12#24) ∧ (s.channelSpares 6 → t.readWord 12#24 = s.readWord 12#24) ∧
      t.monitorMode = true ∧ t.interruptDisabled = true ∧ t.ir.getMsbD b = false ∧
      (∀ c, c ≠ b → t.ir.getMsbD c = s.ir.getMsbD c) ∧
      (∀ a, s.channelSpares (wordNumber a) → wordNumber a ≠ 4 → wordNumber a ≠ 5 → t.readByte a = s.readByte a) ∧
      (∀ r, s.channelSpares (registerNumber r) → t.reg r = s.reg r) ∧ SameKeys s t ∧ t.ex = s.ex ∧ t.pr = s.pr ∧
      t.im = s.im ∧ SameSurroundings s t ∧ t.phase = s.phase ∧ t.modifier = s.modifier ∧ t.channel = s.channel.drop 3

/-- At Next Instruction exactly one signal is taken, the left-most that is both pending and masked in, and only if the system
is enabled; if none is, or the system is disabled, nothing happens (R111, R293). -/
def Obligations.LeftmostSignalTaken : Prop :=
  ∀ s : State,
    (s.interruptDisabled = true → s.nextInstruction = s) ∧
      (s.interruptDisabled = false → (∀ b, b < 24 → (s.ir.getMsbD b && s.im.getMsbD b) = false) →
        s.nextInstruction = s) ∧
      ∀ b, s.interruptDisabled = false → b < 24 → (s.ir.getMsbD b && s.im.getMsbD b) = true →
        (∀ c, c < b → (s.ir.getMsbD c && s.im.getMsbD c) = false) → s.nextInstruction = s.takeInterrupt b

/-- The instruction exception: IR[0] set and the interruption service entered without a look at the disabled flag, which with
IM[0] one takes interrupt number 0 and goes on to Fetch Instruction (R112, R120; log 11; log 15). -/
def Obligations.InstructionExceptionEntry : Prop :=
  ∀ s t : State, s.im.getMsbD 0 = true → t = s.instructionException →
    t = State.interruptionService { s with ir := s.ir ||| bitMask 0, modifier := none, phase := .fetching } ∧
      (s.channelSpares 4 → t.readWord 8#24 = 0#24) ∧ (s.channelSpares 5 → t.readWord 10#24 = s.ic) ∧
      t.ic = evenAddress (t.readWord 12#24) ∧ (s.channelSpares 6 → t.readWord 12#24 = s.readWord 12#24) ∧
      t.monitorMode = true ∧ t.interruptDisabled = true ∧ t.ir.getMsbD 0 = false ∧
      (∀ c, c ≠ 0 → t.ir.getMsbD c = s.ir.getMsbD c) ∧
      (∀ a, s.channelSpares (wordNumber a) → wordNumber a ≠ 4 → wordNumber a ≠ 5 → t.readByte a = s.readByte a) ∧
      (∀ r, s.channelSpares (registerNumber r) → t.reg r = s.reg r) ∧ SameKeys s t ∧ t.ex = s.ex ∧ t.pr = s.pr ∧
      t.im = s.im ∧ SameSurroundings s t ∧ t.phase = .fetching ∧ t.modifier = none ∧ t.channel = s.channel.drop 3

/-- What ends a step at the fetch, in this order: IC names no existing word; the reset key; task mode and a protected word
(R113, R114, R117 (1) to (3)). The exception's entry ends the step (log 11), the batch of outside events before it is log 14
and log 44, the channel's turn log 15. -/
def Obligations.FetchStops : Prop :=
  ∀ (s v : State), s.reachesFetch v →
    (v.inStore v.ic = false → step s = .next v.instructionException) ∧
      (v.inStore v.ic = true → v.resetKey = true → step s = .next v.resetSystem) ∧
      (v.inStore v.ic = true → v.resetKey = false → v.ic.getMsbD 23 = false → v.monitorMode = false →
        v.keyProtected (v.readKey v.ic) = true →
        step s = .next (State.instructionException { v.channelTurn with ic := v.ic + 2#24 }))

/-- An unassigned operation code takes the instruction exception in either mode, a privileged instruction takes it in task
mode before any other act than its address modification; whatever the address fields (R100, R116, R122, R303; the place of
the unassigned codes' exception is the spec's decision D11, log 25; the turn before an indirect word, log 15). -/
def Obligations.UnassignedAndPrivilegedTrap : Prop :=
  ∀ (s u : State) (i : Instr),
    u = (match s.effectiveAddress i.fields with | some _ => s.addressed i.fields | none => s) →
    (isUnassigned i = true → exec i s = .next u.instructionException) ∧
      (isPrivileged i = true → s.monitorMode = false → exec i s = .next u.instructionException)

/-- Storage that does not exist: the instruction exception, for every instruction if it is the indirect address, and for every
instruction whose rule tests it if it is the effective address, those that clear EX[22:23] before the test having cleared
them, and AW having consumed its four characters (R115, R117 (4), R121, R274, R361 (a) and (e); that AW takes one batch of the
script for each look at a busy device, within the one instruction, is the model's choice, log 10, log 14). -/
def Obligations.MissingStorageTraps : Prop :=
  (∀ (s : State) (i : Instr),
    i.fields.indirect = true → s.inStore (s.indexedAddress i.fields) = false →
      exec i s = .next s.instructionException) ∧
    (∀ (s u : State) (i : Instr) (a : Word), s.effectiveAddress i.fields = some a → s.inStore a = false →
      u = s.addressed i.fields →
      (testsAddressFirst i = true → exec i s = .next u.instructionException) ∧
        (clearsThenTestsAddress i = true → exec i s = .next u.clearExceptions.instructionException) ∧
        (testsModeThenAddress i = true → s.monitorMode = true → exec i s = .next u.instructionException)) ∧
    ∀ (s u : State) (f : Fields) (a c1 c2 c3 c4 v : Word) (rest : List (List HostEvent)),
      s.effectiveAddress f = some a → s.inStore a = false → s.monitorMode = true → FourCharacters c1 c2 c3 c4 v →
      s.delivers [c1, c2, c3, c4] rest → u = s.addressed f →
      ∃ m : State, exec (.aw f) s = .next m.instructionException ∧ m.inputs = rest ∧ m.condition 0 = .available ∧
        m.ex.getMsbD 0 = s.ex.getMsbD 0 ∧ m.ex.getMsbD 1 = false ∧ m.ex.getMsbD 2 = false ∧
        m = { u with ex := m.ex, devices := m.devices, inputs := rest }

/-- In task mode a store into, or a JL to, a protected word: the instruction exception and no other effect than the
address modification (R123, R302). -/
def Obligations.ProtectedWordTraps : Prop :=
  ∀ (s : State) (i : Instr) (a : Word), testsProtectionNext i = true → Operand s i.fields a → s.monitorMode = false →
    s.pr.getMsbD (s.readKey a).toNat = true → exec i s = .next (s.addressed i.fields).instructionException

/-- What has been done before the instruction exception: RX has loaded its register, DS has written its second word, NS and ND
have normalized (R361 (b) to (d)). -/
def Obligations.PartialEffectsRemain : Prop :=
  ∀ (s e u : State) (f : Fields) (a : Word), s.effectiveAddress f = some a → e = s.addressed f → u = s.atOperand f →
    (s.inStore a = true → s.denied a = true →
      exec (.rx f) s = .next (u.setReg f.w (u.readWord a)).instructionException) ∧
      (s.inStore a = true → s.denied a = false → s.denied (prevAddress a) = true →
        exec (.ds f) s = .next (u.writeWord a (u.reg f.w)).instructionException) ∧
      (s.inStore a = false ∨ s.denied a = true →
        exec (.ns f) s = .next (e.setReg f.w (normalizeRegister (e.reg f.w)).1).instructionException ∧
          exec (.nd f) s = .next (e.setPair f.w (normalizeRegister (e.pair f.w)).1).instructionException)

/-- What no instruction can do in task mode: change PR, IM, a key, a device, the panel, the timer; write a protected word of
the store, but for the two words an interruption writes; enable or disable; or enter monitor mode other than by an
interruption, which goes to the address in word 12 (R300, R302). Words that the channel writes meanwhile are apart (R323, log
15). -/
def Obligations.TaskModeIsConfined : Prop :=
  ∀ (s t : State) (i : Instr), s.monitorMode = false → exec i s = .next t →
    t.pr = s.pr ∧ t.im = s.im ∧ SameKeys s t ∧ SameSurroundings s t ∧
      (∃ n, n ≤ 5 ∧ t.channel = s.channel.drop n) ∧
      (∀ a : Word, s.channelSpares (wordNumber a) → 4 ≤ wordNumber a → s.keyProtected (s.readKey a) = true →
        wordNumber a ≠ 4 → wordNumber a ≠ 5 → t.readByte a = s.readByte a) ∧
      ((t.monitorMode = false ∧ t.interruptDisabled = s.interruptDisabled ∧ t.phase = s.phase ∧
          ∀ a : Word, s.channelSpares (wordNumber a) → 4 ≤ wordNumber a → s.keyProtected (s.readKey a) = true →
            t.readByte a = s.readByte a) ∨
        (t.monitorMode = true ∧ t.interruptDisabled = true ∧ t.phase = .fetching ∧
          t.ic = evenAddress (t.readWord 12#24) ∧ (s.channelSpares 5 → t.readWord 10#24 = s.ic)))

/-- Who writes what: keys only KS and AW, PR only PL, IM only ML, EX[22:23] only the instructions of R29, EX[21] only XL; IR[1]
and IR[2] are set only by the instructions of R291, the external bits only from outside while AW waits, and a bit is cleared
only by IC, or by being taken as the instruction exception; and no instruction leaves monitor mode (R29, R45, R291, R292,
R300). -/
def Obligations.WritersOfControl : Prop :=
  ∀ (s t : State) (i : Instr), exec i s = .next t →
    ((∀ f, i ≠ .ks f) → (∀ f, i ≠ .aw f) → SameKeys s t) ∧ ((∀ f, i ≠ .pl f) → t.pr = s.pr) ∧
      ((∀ f, i ≠ .ml f) → t.im = s.im) ∧ (writesExceptions i = false → t.ex = s.ex) ∧
      ((∀ f, i ≠ .xl f) → t.ex.getMsbD 0 = s.ex.getMsbD 0) ∧ (s.monitorMode = true → t.monitorMode = true) ∧
      (∀ b, s.ir.getMsbD b = true → t.ir.getMsbD b = false → b = 0 ∨ ∃ f, i = .ic f) ∧
      ∀ b, s.ir.getMsbD b = false → t.ir.getMsbD b = true →
        (b = 1 ∧ setsIntegerOverflow i = true) ∨ (b = 2 ∧ setsFloatingOverflow i = true) ∨
          (3 ≤ b ∧ ∃ f, i = .aw f)

/-! ## Address handling -/

/-- AM: the effective address becomes the modifier and nothing else changes; the instruction exception if the next
instruction's address does not exist (R38 (b), R141; that AM ends with its address in the model's field `modifier` is the
model's choice, log 9). -/
def Obligations.ModifyNextAddress : Prop :=
  ∀ (s u : State) (f : Fields) (a : Word), s.effectiveAddress f = some a → u = s.addressed f →
    (s.inStore s.ic = true →
      exec (.am f) s = .next { u with modifier := some a } ∧ SameStore u { u with modifier := some a }) ∧
      (s.inStore s.ic = false → exec (.am f) s = .next u.instructionException)

/-- AL loads the effective address, AC its two's complement with overflow for -2**23 and carry for 0 (R142, R143;
the carry of a subtraction is the spec's decision D3, log 20). -/
def Obligations.LoadAddress : Prop :=
  ∀ (s u : State) (f : Fields) (a : Word), s.effectiveAddress f = some a → u = s.addressed f →
    (∃ t, exec (.al f) s = .next t ∧ t.reg f.w = a ∧ OnlyRegisters [f.w] u t) ∧
      ∃ t, exec (.ac f) s = .next t ∧ (t.reg f.w).toInt = (-a.toInt).bmod (2 ^ 24) ∧
        FlagsAre 1 (decide (a = 0x800000#24)) (decide (a = 0#24)) u t ∧ OnlyArithmetic [f.w] 1 u t

/-! ## Register transfer and integer bytes -/

/-- RL, HL, BZ, BL and KL: what the W register receives, and that nothing else changes; the loads are never
protection-tested (R151, R153, R166, R167, R271). -/
def Obligations.LoadsOfRegister : Prop :=
  ∀ (s u : State) (f : Fields) (a : Word), Operand s f a → u = s.atOperand f →
    (∃ t, exec (.rl f) s = .next t ∧ t.reg f.w = u.readWord a ∧ OnlyRegisters [f.w] u t) ∧
      (∃ t, exec (.hl f) s = .next t ∧ leftByte (t.reg f.w) = leftByte (u.reg f.w) ∧
        rightByte (t.reg f.w) = u.readByte a ∧ OnlyRegisters [f.w] u t) ∧
      (∃ t, exec (.bz f) s = .next t ∧ (t.reg f.w).toNat = (u.readByte a).toNat ∧ OnlyRegisters [f.w] u t) ∧
      (∃ t, exec (.bl f) s = .next t ∧ (t.reg f.w).toInt = (u.readByte a).toInt ∧ OnlyRegisters [f.w] u t) ∧
      ∃ t, exec (.kl f) s = .next t ∧ (t.reg f.w).toNat = (s.readKey a).toNat ∧ OnlyRegisters [f.w] (s.addressed f) t

/-- RS, IS and MS store the W register, IR and IM in the word addressed, and nothing else changes (R154, R264, R266). -/
def Obligations.StoresOfWord : Prop :=
  ∀ (s u : State) (f : Fields) (a : Word), Writable s f a → u = s.atOperand f →
    (∃ t, exec (.rs f) s = .next t ∧ t.readWord a = u.reg f.w ∧ OnlyWord a u t) ∧
      (∃ t, exec (.is f) s = .next t ∧ t.readWord a = u.ir ∧ OnlyWord a u t) ∧
      ∃ t, exec (.ms f) s = .next t ∧ t.readWord a = u.im ∧ OnlyWord a u t

/-- HS, XS and PS store the right half of the W register, EX and PR in the byte addressed, zero-extended, and the other byte of
the word, like everything else, is unchanged (R152, R268, R270). -/
def Obligations.StoresOfByte : Prop :=
  ∀ (s u : State) (f : Fields) (a : Word), Writable s f a → u = s.atOperand f →
    (∃ t, exec (.hs f) s = .next t ∧ t.readByte a = rightByte (u.reg f.w) ∧ OnlyByte a u t) ∧
      (∃ t, exec (.xs f) s = .next t ∧ (t.readByte a).toNat = u.ex.toNat ∧ OnlyByte a u t) ∧
      ∃ t, exec (.ps f) s = .next t ∧ (t.readByte a).toNat = u.pr.toNat ∧ OnlyByte a u t

/-- RX exchanges the W register, as it was before the first access, with the word addressed, which may be a register; the
channel may come between the read and the write (R80, R155; log 15). -/
def Obligations.ExchangeRegister : Prop :=
  ∀ (s u v : State) (f : Fields) (a : Word), Writable s f a → u = s.atOperand f →
    v = (u.setReg f.w (u.readWord a)).channelTurn →
    ∃ t, exec (.rx f) s = .next t ∧ t.readWord a = (s.addressed f).reg f.w ∧ OnlyWord a v t ∧
      (s.channel = [] → t.reg f.w = s.readWord a ∧ t.readWord a = s.reg f.w)

/-- DL loads the second word into W and then the first into Wpre, so that a first word that is W gives Wpre the new W; DS
stores W in the word addressed and then Wpre in the word before it, so that an address that is Wpre's stores W twice; the
channel may come before each of the two; nothing else changes (R78, R156, R157; log 15; the word before address 1 is W3 by
the spec's decision D9, log 24). -/
def Obligations.DoubleRegisterTransfer : Prop :=
  ∀ (s u : State) (f : Fields) (a : Word), u = s.atOperand f →
    (Operand s f a →
      ∀ v : State, v = (u.setReg f.w (u.readWord a)).channelTurn →
        ∃ t, exec (.dl f) s = .next t ∧ t.reg (wpre f.w) = v.readWord (prevAddress a) ∧
          OnlyRegisters [wpre f.w] v t ∧
          (s.channel = [] → t.reg f.w = s.readWord a ∧
            t.reg (wpre f.w) = (if registerAt (wordNumber (prevAddress a)) = some f.w then s.readWord a
              else s.readWord (prevAddress a)))) ∧
      (Writable s f a → s.denied (prevAddress a) = false →
        ∀ v : State, v = (u.writeWord a (u.reg f.w)).channelTurn →
          ∃ t, exec (.ds f) s = .next t ∧ t.readWord (prevAddress a) = v.reg (wpre f.w) ∧
            OnlyWord (prevAddress a) v t ∧
            (s.channel = [] → t.readWord a = s.reg f.w ∧
              t.readWord (prevAddress a) =
                (if registerAt (wordNumber a) = some (wpre f.w) then s.reg f.w else s.reg (wpre f.w))))

/-! ## Integer arithmetic -/

/-- WA and WS: the result modulo 2**24, overflow when the true result does not fit, carry of the unsigned sum or absence of a
borrow (D3, log 20), and nothing else (R176, R177). -/
def Obligations.AddAndSubtractWord : Prop :=
  ∀ (s u : State) (f : Fields) (a : Word), Operand s f a → u = s.atOperand f →
    (∃ t, exec (.wa f) s = .next t ∧ t.reg f.w = u.reg f.w + u.readWord a ∧
      FlagsAre 1 (!fitsWord ((u.reg f.w).toInt + (u.readWord a).toInt))
        (decide (2 ^ 24 ≤ (u.reg f.w).toNat + (u.readWord a).toNat)) u t ∧ OnlyArithmetic [f.w] 1 u t) ∧
      ∃ t, exec (.ws f) s = .next t ∧ t.reg f.w = u.reg f.w - u.readWord a ∧
        FlagsAre 1 (!fitsWord ((u.reg f.w).toInt - (u.readWord a).toInt))
          (decide ((u.readWord a).toNat ≤ (u.reg f.w).toNat)) u t ∧ OnlyArithmetic [f.w] 1 u t

/-- BA and BS: as WA and WS with the byte addressed, sign-extended (R168, R169; D3, log 20). -/
def Obligations.AddAndSubtractByte : Prop :=
  ∀ (s u : State) (f : Fields) (a b : Word), Operand s f a → u = s.atOperand f → b.toInt = (u.readByte a).toInt →
    (∃ t, exec (.ba f) s = .next t ∧ t.reg f.w = u.reg f.w + b ∧
      FlagsAre 1 (!fitsWord ((u.reg f.w).toInt + b.toInt)) (decide (2 ^ 24 ≤ (u.reg f.w).toNat + b.toNat)) u t ∧
      OnlyArithmetic [f.w] 1 u t) ∧
      ∃ t, exec (.bs f) s = .next t ∧ t.reg f.w = u.reg f.w - b ∧
        FlagsAre 1 (!fitsWord ((u.reg f.w).toInt - b.toInt)) (decide (b.toNat ≤ (u.reg f.w).toNat)) u t ∧
        OnlyArithmetic [f.w] 1 u t

/-- WM: the register pair holds the exact signed product, the multiplier being read before the store is, and no flag is touched
(R178). -/
def Obligations.MultiplyWord : Prop :=
  ∀ (s u : State) (f : Fields) (a : Word), Operand s f a → u = s.atOperand f →
    ∃ t, exec (.wm f) s = .next t ∧
      (t.pair f.w).toInt = ((s.addressed f).reg f.w).toInt * (u.readWord a).toInt ∧
      OnlyRegisters [f.w, wpre f.w] u t

/-- The manual's add-and-shift multiplication computes exactly the product (R178). -/
def Obligations.ManualMultiplicationIsProduct : Prop := ∀ w sb : Word, manualMultiply w sb = product w sb

/-- WD: quotient truncated toward zero and remainder with the dividend's sign, the dividend being read before the store is, or,
for a divisor of zero or a quotient beyond 24 bits, overflow and unchanged registers (R179; a quotient of -2**23 by R181 and
its parameter, D7, log 22). -/
def Obligations.DivideWord : Prop :=
  ∀ (s u : State) (f : Fields) (a : Word) (dd dv q : Int), Operand s f a → u = s.atOperand f →
    dd = ((s.addressed f).pair f.w).toInt → dv = (u.readWord a).toInt →
    q = dd.sign * dv.sign * ((dd.natAbs / dv.natAbs : Nat) : Int) →
    if dv = 0 ∨ fitsWord q = false ∨
        (q = -2 ^ 23 ∧ s.cfg.wdQminOverflow = true ∧ ¬(0 < dv ∧ dd = -2 ^ 23 * dv)) then
      ∃ t, exec (.wd f) s = .next t ∧ FlagsAre 1 true false u t ∧ OnlyArithmetic [] 1 u t
    else
      ∃ t, exec (.wd f) s = .next t ∧ (t.reg f.w).toInt = q ∧
        dd = dv * (t.reg f.w).toInt + (t.reg (wpre f.w)).toInt ∧
        (t.reg (wpre f.w)).toInt.natAbs < dv.natAbs ∧
        ((t.reg (wpre f.w)).toInt = 0 ∨ (t.reg (wpre f.w)).toInt.sign = dd.sign) ∧
        FlagsAre 1 false false u t ∧ OnlyArithmetic [f.w, wpre f.w] 1 u t

/-- AA and SS: the 48-bit sum and difference with their overflow and carry; W is assigned before the storage operand's first
word and Wpre are read, and the channel may come in between (R78, R182, R183; log 15; D3, log 20; D9, log 24). -/
def Obligations.AddAndSubtractDouble : Prop :=
  ∀ (s u : State) (f : Fields) (a : Word), Operand s f a → u = s.atOperand f →
    (∀ (low v : State) (p b : DoubleWord),
      low = u.setReg f.w (u.reg f.w + u.readWord a) → v = low.channelTurn → p = v.reg (wpre f.w) ++ u.reg f.w →
      b = v.readWord (prevAddress a) ++ u.readWord a →
      ∃ t, exec (.aa f) s = .next t ∧ t.reg (wpre f.w) ++ low.reg f.w = p + b ∧
        FlagsAre 1 (!fitsDouble (p.toInt + b.toInt)) (decide (2 ^ 48 ≤ p.toNat + b.toNat)) v t ∧
        OnlyArithmetic [wpre f.w] 1 v t ∧ (s.channel = [] → p = s.pair f.w ∧ t.pair f.w = p + b)) ∧
      ∀ (low v : State) (p b : DoubleWord),
        low = u.setReg f.w (u.reg f.w - u.readWord a) → v = low.channelTurn → p = v.reg (wpre f.w) ++ u.reg f.w →
        b = v.readWord (prevAddress a) ++ u.readWord a →
        ∃ t, exec (.ss f) s = .next t ∧ t.reg (wpre f.w) ++ low.reg f.w = p - b ∧
          FlagsAre 1 (!fitsDouble (p.toInt - b.toInt)) (decide (b.toNat ≤ p.toNat)) v t ∧
          OnlyArithmetic [wpre f.w] 1 v t ∧ (s.channel = [] → p = s.pair f.w ∧ t.pair f.w = p - b)

/-! ## Conversion and floating point -/

/-- CI: zero gives the floating-point zero; any other integer gives, exactly, a normalized fraction and the exponent it has
with the scale in A[11:23] added, with overflow when that leaves the exponent's range (R200). -/
def Obligations.ConvertToFloating : Prop :=
  ∀ (s u : State) (f : Fields) (a : Word), s.effectiveAddress f = some a → u = s.addressed f →
    (u.reg f.w = 0#24 →
      ∃ t, exec (.ci f) s = .next t ∧ t.registerFraction f.w = 0#36 ∧ t.registerExponent f.w = 0x800#12 ∧
        FlagsAre 2 false false u t ∧ OnlyArithmetic [f.w, wpre f.w] 2 u t) ∧
      (u.reg f.w ≠ 0#24 →
        ∃ (t : State) (k : Nat) (e : BitVec 13), exec (.ci f) s = .next t ∧ k ≤ 23 ∧
          (u.reg f.w).toInt * 2 ^ 35 = (t.registerFraction f.w).toInt * 2 ^ k ∧
          (t.registerFraction f.w).getMsbD 0 ≠ (t.registerFraction f.w).getMsbD 1 ∧
          e = BitVec.ofNat 13 k + a.setWidth 13 ∧ t.registerExponent f.w = e.setWidth 12 ∧
          FlagsAre 2 (!fitsExponent e.toInt) false u t ∧ OnlyArithmetic [f.w, wpre f.w] 2 u t)

/-- CF: the number scaled by 2**A and rounded to the nearest integer, ties toward plus infinity, Wpre kept; integer overflow
and an unchanged register when it does not fit, or when the scaled number has no fraction bits at all (R201). -/
def Obligations.ConvertToInteger : Prop :=
  ∀ (s u : State) (f : Fields) (a : Word) (n r : Int), s.effectiveAddress f = some a → u = s.addressed f →
    n = (23 - a.toInt - (u.registerExponent f.w).toInt).bmod (2 ^ 24) →
    r = ((u.registerFraction f.w).toInt + 2 ^ (n.toNat + 11)) / 2 ^ (n.toNat + 12) →
    if (n < 0 ∧ u.registerFraction f.w ≠ 0#36) ∨ fitsWord r = false then
      ∃ t, exec (.cf f) s = .next t ∧ FlagsAre 1 true false u t ∧ OnlyArithmetic [] 1 u t
    else
      ∃ t, exec (.cf f) s = .next t ∧ (t.reg f.w).toInt = r ∧ FlagsAre 1 false false u t ∧
        OnlyArithmetic [f.w] 1 u t

/-- FA and FS: with exponents 38 or more apart the operand with the larger exponent (FS: the negated storage operand,
rounded); else the fractions aligned by truncation, added or subtracted exactly, normalized and rounded (R202, R203; the
order in which the operands are fetched, log 15). -/
def Obligations.AddAndSubtractFloating : Prop :=
  ∀ (s v : State) (f : Fields) (a : Word) (o : FloatOperands) (d x y : Int), Operand s f a →
    s.fetchesOperands f a o v → d = (v.registerExponent f.w).toInt - o.exponent.toInt →
    x = (if d ≤ -38 then 0 else 4 * o.register.toInt / 2 ^ (-d).toNat) → y = 4 * o.storage.toInt / 2 ^ d.toNat →
    (∃ t, exec (.fa f) s = .next t ∧ OnlyArithmetic [f.w, wpre f.w] 2 v t ∧
      if 38 ≤ d then HoldsUnrounded f.w o.register (v.registerExponent f.w) v t
      else if d ≤ -38 then HoldsUnrounded f.w o.storage o.exponent v t
      else ∃ af : BitVec 39, af.toInt = x + y ∧
        HoldsRounded f.w af (BitVec.signExtend 13 (if d < 0 then o.exponent else v.registerExponent f.w)) v t) ∧
      ∃ t, exec (.fs f) s = .next t ∧ OnlyArithmetic [f.w, wpre f.w] 2 v t ∧
        if 38 ≤ d then HoldsUnrounded f.w o.register (v.registerExponent f.w) v t
        else ∃ af : BitVec 39, af.toInt = x - y ∧
          HoldsRounded f.w af (BitVec.signExtend 13 (if d < 0 then o.exponent else v.registerExponent f.w)) v t

/-- FM: the fraction product normalized and rounded, the exponents added (R204; the order in which the operands are fetched,
log 15). -/
def Obligations.MultiplyFloating : Prop :=
  ∀ (s v : State) (f : Fields) (a : Word) (o : FloatOperands), Operand s f a → s.fetchesOperands f a o v →
    ∃ t, exec (.fm f) s = .next t ∧ OnlyArithmetic [f.w, wpre f.w] 2 v t ∧
      HoldsRounded f.w (multiplyFractions o.register (toSf o.storage))
        (BitVec.ofInt 13 ((v.registerExponent f.w).toInt + o.exponent.toInt)) v t

/-- AF before normalization in FM is the exact fraction product truncated downward by less than 35 units of bit 37
(R204). -/
def Obligations.FractionProductTruncation : Prop :=
  ∀ m c : BitVec 36,
    (multiplyFractions m (toSf c)).toInt * 2 ^ 35 ≤ m.toInt * (4 * c.toInt) ∧
      m.toInt * (4 * c.toInt) < ((multiplyFractions m (toSf c)).toInt + 35) * 2 ^ 35

/-- Normalizing and rounding: zero gets the exponent -2048; any other AF gets a normalized fraction and a shifted exponent, with
an error of at most half a unit of bit 35, or one unit where rounding gave -0.5, renormalized to -1.0 (R195). -/
def Obligations.NormalizeAndRoundError : Prop :=
  ∀ (af r : BitVec 39) (sc rsc : BitVec 13), (r, rsc) = normalizeAndRound af sc →
    (af = 0#39 → afFraction r = 0#36 ∧ rsc = BitVec.ofInt 13 (-2048)) ∧
      (af ≠ 0#39 →
        ∃ k : Nat, k ≤ 40 ∧ rsc = sc + BitVec.ofInt 13 ((k : Int) - 38) ∧
          (afFraction r).getMsbD 0 ≠ (afFraction r).getMsbD 1 ∧
          (4 * (afFraction r).toInt * 2 ^ k - af.toInt * 2 ^ 38).natAbs ≤
            (if (afFraction r).toInt = -2 ^ 35 then 4 else 2) * 2 ^ k)

/-- FD: a divisor whose first word is zero reports overflow and changes nothing, and so does, in the installations that take it
so, one that is not normalized (R205 against R291, R365: the model's parameter, log 45); a dividend whose first word is zero
gets the exponent -2048 alone; otherwise the quotient loop's result is normalized and rounded (R205; the constant 36 is the
spec's decision D12, log 26; that FD completes, with this frame, if the loop used up its fuel is the model's choice, log 27; the order
in which the operands are fetched, log 15). -/
def Obligations.DivideFloating : Prop :=
  ∀ (s v : State) (f : Fields) (a : Word) (o : FloatOperands), Operand s f a → s.fetchesOperands f a o v →
    if firstWord o.storage = 0#24 ∨
        (s.cfg.fdRejectsUnnormalized = true ∧ o.storage.getMsbD 0 = o.storage.getMsbD 1) then
      ∃ t, exec (.fd f) s = .next t ∧ FlagsAre 2 true false v t ∧ OnlyArithmetic [] 2 v t
    else if firstWord o.register = 0#24 then
      ∃ t, exec (.fd f) s = .next t ∧ t.registerExponent f.w = 0x800#12 ∧
        leftByte (t.reg f.w) = leftByte (v.reg f.w) ∧ FlagsAre 2 false false v t ∧ OnlyArithmetic [f.w] 2 v t
    else
      ∃ t, exec (.fd f) s = .next t ∧ OnlyArithmetic [f.w, wpre f.w] 2 v t ∧
        ∀ q, divisionLoop (toSf o.storage) divisionFuel
              (divisionStart (toAf o.register) (toSf o.storage)
                (BitVec.ofInt 13 ((v.registerExponent f.w).toInt - o.exponent.toInt + 36))) = some q →
          HoldsRounded f.w (quotientAf q (toSf o.storage)) q.sc v t

/-- FD of two normalized operands in full precision: the quotient's error is at most half a unit in the last place of the
result's fraction, and overflow is reported when its exponent leaves the range (R205; D12, log 26; the order in which the
operands are fetched, log 15). -/
def Obligations.DivideFloatingError : Prop :=
  ∀ (s v : State) (f : Fields) (a : Word) (o : FloatOperands), Operand s f a → s.fetchesOperands f a o v →
    s.ex.getMsbD 0 = false → o.register.getMsbD 0 ≠ o.register.getMsbD 1 →
    o.storage.getMsbD 0 ≠ o.storage.getMsbD 1 →
    ∃ (t : State) (k : Nat) (e : Int), exec (.fd f) s = .next t ∧ k ≤ 2 ∧
      e = (v.registerExponent f.w).toInt - o.exponent.toInt + k - 1 ∧
      (t.registerFraction f.w).getMsbD 0 ≠ (t.registerFraction f.w).getMsbD 1 ∧
      2 * ((t.registerFraction f.w).toInt * 2 ^ k * o.storage.toInt - o.register.toInt * 2 ^ 36).natAbs ≤
        o.storage.toInt.natAbs * 2 ^ k ∧
      t.registerExponent f.w = BitVec.ofInt 12 e ∧ FlagsAre 2 (!fitsExponent e) false v t ∧
      OnlyArithmetic [f.w, wpre f.w] 2 v t

/-- FD's loop always ends within the fuel of 72 cycles that R206 asks for, on every dividend and divisor that reach it, so the
free value of log 27 is never used (R206, R365). -/
def Obligations.DivisionLoopEnds : Prop :=
  ∀ (n d : BitVec 36) (sc : BitVec 13), firstWord n ≠ 0#24 → firstWord d ≠ 0#24 →
    ∃ v, divisionLoop (toSf d) divisionFuel (divisionStart (toAf n) (toSf d) sc) = some v

/-- For normalized operands FD's loop runs 35 or 36 cycles (R206). -/
def Obligations.DivisionCycles : Prop :=
  ∀ (n d : BitVec 36) (sc : BitVec 13), n.getMsbD 0 ≠ n.getMsbD 1 → d.getMsbD 0 ≠ d.getMsbD 1 →
    ∃ v, divisionLoop (toSf d) divisionFuel (divisionStart (toAf n) (toSf d) sc) = some v ∧
      (v.sc = sc - 35#13 ∨ v.sc = sc - 36#13)

/-! ## Logical, shift -/

/-- LA, LO and LX combine the W register with the word addressed, bit by bit, and nothing else changes (R221 to R223). -/
def Obligations.LogicalOperations : Prop :=
  ∀ (s u : State) (f : Fields) (a : Word), Operand s f a → u = s.atOperand f →
    (∃ t, exec (.la f) s = .next t ∧
      (∀ b, b < 24 → (t.reg f.w).getMsbD b = ((u.reg f.w).getMsbD b && (u.readWord a).getMsbD b)) ∧
      OnlyRegisters [f.w] u t) ∧
      (∃ t, exec (.lo f) s = .next t ∧
        (∀ b, b < 24 → (t.reg f.w).getMsbD b = ((u.reg f.w).getMsbD b || (u.readWord a).getMsbD b)) ∧
        OnlyRegisters [f.w] u t) ∧
      ∃ t, exec (.lx f) s = .next t ∧
        (∀ b, b < 24 → (t.reg f.w).getMsbD b = ((u.reg f.w).getMsbD b ^^ (u.readWord a).getMsbD b)) ∧
        OnlyRegisters [f.w] u t

/-- AS and AD: a left shift multiplies modulo the width and overflows when a significant digit is lost, a right shift divides
toward minus infinity; counts of 64 and more count as 48 (R230 to R232). -/
def Obligations.ArithmeticShifts : Prop :=
  ∀ (s u : State) (f : Fields) (a : Word) (n : Int), s.effectiveAddress f = some a → u = s.addressed f →
    n = (if 64 ≤ a.toInt.natAbs then 48 * a.toInt.sign else a.toInt) →
    if 0 ≤ n then
      (∃ t, exec (.as f) s = .next t ∧ (t.reg f.w).toNat = (u.reg f.w).toNat * 2 ^ n.toNat % 2 ^ 24 ∧
        FlagsAre 1 (!fitsWord ((u.reg f.w).toInt * 2 ^ n.toNat)) false u t ∧ OnlyArithmetic [f.w] 1 u t) ∧
        ∃ t, exec (.ad f) s = .next t ∧ (t.pair f.w).toNat = (u.pair f.w).toNat * 2 ^ n.toNat % 2 ^ 48 ∧
          FlagsAre 1 (!fitsDouble ((u.pair f.w).toInt * 2 ^ n.toNat)) false u t ∧
          OnlyArithmetic [f.w, wpre f.w] 1 u t
    else
      (∃ t, exec (.as f) s = .next t ∧ (t.reg f.w).toInt = (u.reg f.w).toInt / 2 ^ (-n).toNat ∧
        FlagsAre 1 false false u t ∧ OnlyArithmetic [f.w] 1 u t) ∧
        ∃ t, exec (.ad f) s = .next t ∧ (t.pair f.w).toInt = (u.pair f.w).toInt / 2 ^ (-n).toNat ∧
          FlagsAre 1 false false u t ∧ OnlyArithmetic [f.w, wpre f.w] 1 u t

/-- LS and LD: zeroes enter at both ends, no flag is touched (R230, R233, R234). -/
def Obligations.LogicalShifts : Prop :=
  ∀ (s u : State) (f : Fields) (a : Word) (n : Int), s.effectiveAddress f = some a → u = s.addressed f →
    n = (if 64 ≤ a.toInt.natAbs then 48 * a.toInt.sign else a.toInt) →
    if 0 ≤ n then
      (∃ t, exec (.ls f) s = .next t ∧ (t.reg f.w).toNat = (u.reg f.w).toNat * 2 ^ n.toNat % 2 ^ 24 ∧
        OnlyRegisters [f.w] u t) ∧
        ∃ t, exec (.ld f) s = .next t ∧ (t.pair f.w).toNat = (u.pair f.w).toNat * 2 ^ n.toNat % 2 ^ 48 ∧
          OnlyRegisters [f.w, wpre f.w] u t
    else
      (∃ t, exec (.ls f) s = .next t ∧ (t.reg f.w).toNat = (u.reg f.w).toNat / 2 ^ (-n).toNat ∧
        OnlyRegisters [f.w] u t) ∧
        ∃ t, exec (.ld f) s = .next t ∧ (t.pair f.w).toNat = (u.pair f.w).toNat / 2 ^ (-n).toNat ∧
          OnlyRegisters [f.w, wpre f.w] u t

/-- NS and ND: the register shifted left until bit 0 differs from bit 1, no digit lost, and minus the number of shifts in the
byte addressed, -2048 for zero; the byte is stored after the shifting and after a turn of the channel, also where it is half of
the register (R235, R236; the count by the spec's decision D8, log 23; log 15). -/
def Obligations.NormalizeRegister : Prop :=
  ∀ (s e : State) (f : Fields) (a : Word), Writable s f a → e = s.addressed f →
    (e.reg f.w = 0#24 → ∃ t, exec (.ns f) s = .next t ∧ t.readByte a = 0x800#12 ∧ OnlyByte a e.channelTurn t) ∧
      (e.reg f.w ≠ 0#24 →
        ∃ (t : State) (c : Nat) (v : Word), exec (.ns f) s = .next t ∧ c ≤ 23 ∧ v.getMsbD 0 ≠ v.getMsbD 1 ∧
          v.toInt = (e.reg f.w).toInt * 2 ^ c ∧ t.readByte a = BitVec.ofInt 12 (-(c : Int)) ∧
          OnlyByte a (e.setReg f.w v).channelTurn t) ∧
      (e.pair f.w = 0#48 → ∃ t, exec (.nd f) s = .next t ∧ t.readByte a = 0x800#12 ∧ OnlyByte a e.channelTurn t) ∧
      (e.pair f.w ≠ 0#48 →
        ∃ (t : State) (c : Nat) (v : DoubleWord), exec (.nd f) s = .next t ∧ c ≤ 47 ∧ v.getMsbD 0 ≠ v.getMsbD 1 ∧
          v.toInt = (e.pair f.w).toInt * 2 ^ c ∧ t.readByte a = BitVec.ofInt 12 (-(c : Int)) ∧
          OnlyByte a (e.setPair f.w v).channelTurn t)

/-! ## Sequencing -/

/-- JL: the link register, unless the W field is 0, receives the counter, and the counter the target with bit 23 cleared; nothing
else changes (R246). -/
def Obligations.JumpWithLink : Prop :=
  ∀ (s u : State) (f : Fields) (a : Word), Writable s f a → u = s.addressed f →
    ∃ t, exec (.jl f) s = .next t ∧ t.ic = a &&& 0xFFFFFE#24 ∧ (f.w ≠ .w0 → t.reg f.w = u.ic) ∧
      OnlyRegistersAndCounter (if f.w = .w0 then [] else [f.w]) u t

/-- JE and JD in monitor mode: the interruption system enabled or disabled, then the jump with link (R261, R262). -/
def Obligations.MonitorJumps : Prop :=
  ∀ (s u : State) (f : Fields) (a : Word), Operand s f a → u = s.addressed f → u.monitorMode = true →
    (∃ t, exec (.je f) s = .next t ∧ t.interruptDisabled = false ∧ t.ic = a &&& 0xFFFFFE#24 ∧
      (f.w ≠ .w0 → t.reg f.w = u.ic) ∧
      OnlyRegistersAndCounter (if f.w = .w0 then [] else [f.w]) { u with interruptDisabled := false } t) ∧
      ∃ t, exec (.jd f) s = .next t ∧ t.interruptDisabled = true ∧ t.ic = a &&& 0xFFFFFE#24 ∧
        (f.w ≠ .w0 → t.reg f.w = u.ic) ∧
        OnlyRegistersAndCounter (if f.w = .w0 then [] else [f.w]) { u with interruptDisabled := true } t

/-- SH, SL, SE and SN: the skip of the next word on the comparison of the W register with the effective address as signed
integers, and nothing else (R247 to R250). -/
def Obligations.CompareSkips : Prop :=
  ∀ (s u : State) (f : Fields) (a : Word), s.effectiveAddress f = some a → u = s.addressed f →
    (∃ t, exec (.sh f) s = .next t ∧ t.ic = (if a.toInt < (u.reg f.w).toInt then u.ic + 2#24 else u.ic) ∧
      OnlyCounter u t) ∧
      (∃ t, exec (.sl f) s = .next t ∧ t.ic = (if (u.reg f.w).toInt < a.toInt then u.ic + 2#24 else u.ic) ∧
        OnlyCounter u t) ∧
      (∃ t, exec (.se f) s = .next t ∧ t.ic = (if (u.reg f.w).toInt = a.toInt then u.ic + 2#24 else u.ic) ∧
        OnlyCounter u t) ∧
      ∃ t, exec (.sn f) s = .next t ∧ t.ic = (if (u.reg f.w).toInt ≠ a.toInt then u.ic + 2#24 else u.ic) ∧
        OnlyCounter u t

/-- SO, SZ and SX: the skip when all selected bits of the W register are one, or zero, or all selected exception bits zero; SP:
when the key's bit of PR is zero; and nothing else (R251 to R254). -/
def Obligations.BitSkips : Prop :=
  ∀ (s u : State) (f : Fields) (a : Word), s.effectiveAddress f = some a → u = s.addressed f →
    (∃ t, exec (.so f) s = .next t ∧ OnlyCounter u t ∧
      ((∀ b, a.getMsbD b = true → (u.reg f.w).getMsbD b = true) → t.ic = u.ic + 2#24) ∧
      ((∃ b, a.getMsbD b = true ∧ (u.reg f.w).getMsbD b = false) → t.ic = u.ic)) ∧
      (∃ t, exec (.sz f) s = .next t ∧ OnlyCounter u t ∧
        ((∀ b, a.getMsbD b = true → (u.reg f.w).getMsbD b = false) → t.ic = u.ic + 2#24) ∧
        ((∃ b, a.getMsbD b = true ∧ (u.reg f.w).getMsbD b = true) → t.ic = u.ic)) ∧
      (∃ t, exec (.sx f) s = .next t ∧ OnlyCounter u t ∧
        ((∀ b, b < 3 → a.getMsbD (21 + b) = true → u.ex.getMsbD b = false) → t.ic = u.ic + 2#24) ∧
        ((∃ b, b < 3 ∧ a.getMsbD (21 + b) = true ∧ u.ex.getMsbD b = true) → t.ic = u.ic)) ∧
      (u.inStore a = true →
        ∃ t, exec (.sp f) s = .next t ∧ OnlyCounter u t ∧
          t.ic = (if u.pr.getMsbD (u.readKey a).toNat = false then u.ic + 2#24 else u.ic))

/-! ## Monitor control -/

/-- IC, XL, and in monitor mode ML, PL and KS: what IR, EX, IM, PR and the key become, PR[0] and IM[0] staying one, and that
nothing else changes (R263, R265, R267, R269, R272). -/
def Obligations.ControlRegisterLoads : Prop :=
  ∀ (s e u : State) (f : Fields) (a : Word), s.effectiveAddress f = some a → e = s.addressed f → u = s.atOperand f →
    (s.monitorMode = true →
      ∃ t, exec (.ic f) s = .next t ∧ (∀ b, b < 24 → t.ir.getMsbD b = (s.ir.getMsbD b && !a.getMsbD b)) ∧
        SameStore e t ∧ t = { e with ir := t.ir }) ∧
      (s.inStore a = true →
        ∃ t, exec (.xl f) s = .next t ∧ (∀ b, b < 3 → t.ex.getMsbD b = (u.readByte a).getMsbD (9 + b)) ∧
          SameStore u t ∧ t = { u with ex := t.ex }) ∧
      (s.inStore a = true → s.monitorMode = true →
        ∃ t, exec (.ml f) s = .next t ∧ t.im.getMsbD 0 = true ∧
          (∀ b, 0 < b → b < 24 → t.im.getMsbD b = (u.readWord a).getMsbD b) ∧
          SameStore u t ∧ t = { u with im := t.im }) ∧
      (s.inStore a = true → s.monitorMode = true →
        ∃ t, exec (.pl f) s = .next t ∧ t.pr.getMsbD 0 = true ∧
          (∀ k, 0 < k → k < 8 → t.pr.getMsbD k = (u.readByte a).getMsbD (4 + k)) ∧
          SameStore u t ∧ t = { u with pr := t.pr }) ∧
      (s.inStore a = true → s.monitorMode = true →
        ∃ t, exec (.ks f) s = .next t ∧ (t.readKey a).toNat = (e.reg f.w).toNat % 8 ∧
          (∀ b, wordNumber b ≠ wordNumber a → t.readKey b = s.readKey b) ∧
          SameStore e t ∧ t = { e with keys := t.keys })

/-- IO in monitor mode: rejected by a disconnected or a busy device with EX[22:23] saying so; accepted by an available one, sense
moving its data word into W and leaving it available, write and control moving W into its buffer, read, write and control
leaving it busy (R273, R312; that every available device accepts each of the 64 command codes, the modifier doing nothing
more, is the model's choice, log 16; the bits a buffer register has, log 40). -/
def Obligations.InputOutput : Prop :=
  ∀ (s u : State) (f : Fields) (a : Word) (n : Nat), s.effectiveAddress f = some a → u = s.addressed f →
    u.monitorMode = true → n = a.toNat / 64 % 2 ^ s.cfg.deviceBits →
    (s.condition n = .disconnected →
      ∃ t, exec (.io f) s = .next t ∧ t.ex.getMsbD 0 = u.ex.getMsbD 0 ∧ t.ex.getMsbD 1 = true ∧
        t.ex.getMsbD 2 = false ∧ SameStore u t ∧ t = { u with ex := t.ex }) ∧
      (s.condition n = .busy →
        ∃ t, exec (.io f) s = .next t ∧ t.ex.getMsbD 0 = u.ex.getMsbD 0 ∧ t.ex.getMsbD 1 = false ∧
          t.ex.getMsbD 2 = true ∧ SameStore u t ∧ t = { u with ex := t.ex }) ∧
      ∀ d, s.isTimer n = false → s.device? n = some d → d.condition = .available →
        ∃ (t : State) (d' : Device), exec (.io f) s = .next t ∧ t.ex.getMsbD 0 = u.ex.getMsbD 0 ∧
          t.ex.getMsbD 1 = false ∧ t.ex.getMsbD 2 = false ∧ t.device? n = some d' ∧
          (∀ m, m ≠ n → t.device? m = s.device? m) ∧ SameStore u t ∧
          t = { u with regs := t.regs, ex := t.ex, devices := t.devices } ∧
          (a.toNat % 4 = 0 → t.reg f.w = d.buffer &&& d.used ∧ SameRegistersBut [f.w] u t ∧
            d'.condition = .available ∧ d'.buffer = d.buffer) ∧
          (a.toNat % 4 = 2 → SameRegistersBut [] u t ∧ d'.condition = .busy ∧ d'.buffer = d.buffer) ∧
          (a.toNat % 2 = 1 → SameRegistersBut [] u t ∧ d'.condition = .busy ∧
            d'.buffer = u.reg f.w &&& d.used)

/-- AW in monitor mode on an available device 0 that delivers four characters without status bits: the word is assembled from
them, first character leftmost, its key is 0, EX[22:23] are 00 (R274). While it waits, a data word with the end of buffer bit
is read again and nothing is assembled, and a character is shifted in. One batch of the outside world's script is taken for
each look at a busy device, and an AW that has not ended is held in the state (log 10, log 14); the channel's turns, log 15. -/
def Obligations.AutoloadLoadsWord : Prop :=
  (∀ (s : State) (f : Fields) (a c1 c2 c3 c4 v : Word) (rest : List (List HostEvent)),
    Operand s f a → s.monitorMode = true → FourCharacters c1 c2 c3 c4 v → s.delivers [c1, c2, c3, c4] rest →
    ∃ t, exec (.aw f) s = .next t ∧ t.readWord a = v ∧ t.readKey a = 0#3 ∧
      (∀ b, wordNumber b ≠ wordNumber a → t.readKey b = s.readKey b) ∧
      (∀ b, s.channelSpares (wordNumber b) → wordNumber b ≠ wordNumber a → t.readByte b = s.readByte b) ∧
      (∀ r, s.channelSpares (registerNumber r) → registerAt (wordNumber a) ≠ some r → t.reg r = s.reg r) ∧
      t.ex.getMsbD 0 = s.ex.getMsbD 0 ∧ t.ex.getMsbD 1 = false ∧ t.ex.getMsbD 2 = false ∧ t.inputs = rest ∧
      t.ic = s.ic ∧ t.ir = s.ir ∧ SameControl s t ∧ t.autoload = s.autoload ∧ t.phase = s.phase ∧
      t.modifier = none) ∧
    ∀ (s : State) (p : Autoload) (sb : Word), s.loaderReads p sb →
      (sb.getMsbD 0 = true →
        ∃ t, step s = .next t ∧ t.condition 0 = .busy ∧ t.ex = s.ex &&& 0b100#3 ∧
          t = { s with ex := t.ex, devices := t.devices }) ∧
        (sb.getMsbD 0 = false → leftByte sb = 0#12 → p.count < 3 →
          ∃ (t : State) (q : Autoload), step s = .next t ∧ t.condition 0 = .busy ∧ t.ex = s.ex &&& 0b100#3 ∧
            q = { p with assembled := (p.assembled <<< 6) ||| sb, count := p.count + 1 } ∧
            t = { s with ex := t.ex, devices := t.devices, autoload := some q })

/-- AW in monitor mode with device 0 disconnected resets the machine at once; with device 0 busy and nothing more to come from
outside it waits, and so does every later step; at whichever character, a disconnected device or a status bit other than end
of buffer resets the machine, and what takes the machine out of program control stops the AW (R274, R334, R366; log 10; log
15 for the turn before an indirect word). -/
def Obligations.AutoloadStops : Prop :=
  (∀ (s u : State) (f : Fields) (a : Word), s.effectiveAddress f = some a → s.monitorMode = true → u = s.addressed f →
    (s.condition 0 = .disconnected → exec (.aw f) s = .next u.resetSystem) ∧
      (s.condition 0 = .busy → s.inputs = [] → s.halt = none →
        ∃ t, exec (.aw f) s = .next t ∧
          t = { u with autoload := some { address := a, assembled := 0#24, count := 0, waiting := false } } ∧
          step t = .next t)) ∧
    (∀ (s : State) (p : Autoload), s.halt = none → s.autoload = some p → s.inputs = [] →
      s.condition 0 = .disconnected → step s = .next (State.resetSystem { s with autoload := none })) ∧
    (∀ (s : State) (p : Autoload) (sb : Word), s.loaderReads p sb → sb.getMsbD 0 = false → leftByte sb ≠ 0#12 →
      ∃ m : State, step s = .next m.resetSystem ∧
        m = { s with autoload := none, ex := s.ex &&& 0b100#3, devices := m.devices }) ∧
    ∀ (s u : State) (p : Autoload) (batch : List HostEvent) (rest : List (List HostEvent)), s.halt = none →
      s.autoload = some p → s.inputs = batch :: rest →
      u = State.events { s with autoload := none, inputs := rest } batch →
      u.halt ≠ none → step s = .next { u with autoload := some p }

/-! ## Timer, channel, power -/

/-- The interval timer: a sense delivers its value in bits 10 to 23 without changing it, with EX[22:23] = 00; one step counts it
modulo 2**14, wired or not; at each multiple of the interval its interrupt bit, if it has one, is set (R326 to R328; the phase
is the model's reading, log 18; that it answers as available under any number, log 42). -/
def Obligations.IntervalTimer : Prop :=
  (∀ (s u : State) (f : Fields) (a : Word), s.effectiveAddress f = some a → s.monitorMode = true → u = s.addressed f →
    s.cfg.timerDevice = some (a.toNat / 64 % 2 ^ s.cfg.deviceBits) → a.toNat % 4 = 0 →
    ∃ t, exec (.io f) s = .next t ∧ (t.reg f.w).toNat = s.timer.toNat ∧ t.timer = s.timer ∧
      t.ex.getMsbD 0 = s.ex.getMsbD 0 ∧ t.ex.getMsbD 1 = false ∧ t.ex.getMsbD 2 = false ∧
      SameRegistersBut [f.w] u t ∧ SameStore u t ∧ t = { u with regs := t.regs, ex := t.ex }) ∧
    ∀ (s t : State), t = s.timerStep →
      t.timer.toNat = (s.timer.toNat + 1) % 2 ^ 14 ∧
        (∀ b, b < 24 → t.ir.getMsbD b =
          (s.ir.getMsbD b || decide (s.cfg.timerIrBit = some b ∧ 3 ≤ b ∧ t.timer.toNat % 2 ^ s.timerInterval = 0))) ∧
        t = { s with timer := t.timer, ir := t.ir }

/-- What the outside world cannot do: change a key, PR, IM, the mode, EX or IC; clear an interrupt bit or set one of the first
three; change a byte of the store other than by the high-speed channel, in the area of a busy device (R298, R322, R323). And
the channel's turn before a store access: it uses up one batch of its script, changes no byte but as a busy device's area
allows, and nothing else (R78). The events and the script are the model's (log 14, log 15, log 35). -/
def Obligations.OutsideWorldIsConfined : Prop :=
  (∀ (s : State) (e : HostEvent),
    SameKeys s (s.event e) ∧ SameControl s (s.event e) ∧ (s.event e).ic = s.ic ∧ (s.event e).ex = s.ex ∧
      (∀ b, s.ir.getMsbD b = true → (s.event e).ir.getMsbD b = true) ∧
      (∀ b, b < 3 → (s.event e).ir.getMsbD b = s.ir.getMsbD b) ∧
      ∀ b : Word, (s.event e).readByte b ≠ s.readByte b →
        ∃ (w : ChannelWrite) (d : Device), e = .channelWrites w ∧ wordNumber b = wordNumber w.address ∧
          s.device? w.device = some d ∧ d.condition = .busy ∧ d.highSpeed = true ∧
          inArea (wordNumber w.address) d.area = true) ∧
    ∀ s t : State, t = s.channelTurn →
      SameKeys s t ∧ SameControl s t ∧ SameSurroundings s t ∧ t.ic = s.ic ∧ t.ex = s.ex ∧ t.ir = s.ir ∧
        t.phase = s.phase ∧ t.modifier = s.modifier ∧ t.channel = s.channel.tail ∧ (s.channel = [] → t = s) ∧
        (∀ b : Word, t.readByte b ≠ s.readByte b →
          ∃ (batch : List ChannelWrite) (w : ChannelWrite) (d : Device), s.channel.head? = some batch ∧ w ∈ batch ∧
            wordNumber b = wordNumber w.address ∧ s.inStore b = true ∧ s.device? w.device = some d ∧
            d.condition = .busy ∧ d.highSpeed = true ∧ inArea (wordNumber w.address) d.area = true) ∧
        ∀ (w : ChannelWrite) (d : Device), s.channel.head? = some [w] → s.device? w.device = some d →
          d.condition = .busy → d.highSpeed = true → d.remote = true → inArea (wordNumber w.address) d.area = true →
          s.inStore w.address = true → t.readWord w.address = w.value

/-- A power failure at the end of an instruction: word 10 receives IC, the machine is in the reset state when power is back,
store and keys from word 4 up are retained, and PR[0] and IM[0] are one whatever the other register bits are; it is acted on
before an interrupt that is pending, and after an instruction exception too, so that it ends the interruption loop (R345 to
R347, R363, log 11; the event is the model's form of it, log 30; the order, log 44; the turn
before the write, log 15). A parity error: the reset state too, at once and at whatever point, with the lamp CPU error
lit, CPU running out, and no store word written (R334, R335, R340 (e), D15; that it enters by the
assignments of Power On is the model's choice, log 28; log 47). -/
def Obligations.PowerFailureResets : Prop :=
  (∀ (s u : State) (c : PowerOnContents), s.atBoundary → u = s.takeInputs → u.halt = none →
    u.phase ≠ .afterReset → u.powerFailing = some c →
    ∃ t, step s = .next t ∧ t.readWord 10#24 = u.ic ∧ t.phase = .afterReset ∧ t.monitorMode = true ∧
      t.interruptDisabled = true ∧ t.resetKey = false ∧ t.startKey = false ∧ t.autoloadKey = false ∧
      (∀ a, u.channelSpares (wordNumber a) → 4 ≤ wordNumber a → wordNumber a ≠ 5 → t.readByte a = u.readByte a) ∧
      (∀ a, 4 ≤ wordNumber a → t.readKey a = u.readKey a) ∧
      t.pr.getMsbD 0 = true ∧ t.im.getMsbD 0 = true ∧ t.devices = u.devices ∧ t.cpuRunning = true ∧
      t.resetLamp = true) ∧
    ∀ (s u : State) (c : PowerOnContents),
      (u = s ∨ (s.atBoundary ∧ u = s.takeInputs)) → u.halt = some (.parity c) →
      ∃ t, step s = .next t ∧ t.phase = .afterReset ∧ t.monitorMode = true ∧ t.interruptDisabled = true ∧
        t.resetKey = false ∧ t.startKey = false ∧ t.autoloadKey = false ∧ t.cpuError = true ∧
        t.cpuRunning = false ∧ t.halt = none ∧
        t.autoload = none ∧ t.modifier = none ∧ t.regs = c.regs ∧ t.ic = c.ic ∧ t.ex = c.ex ∧ t.ir = c.ir ∧
        (∀ a, 4 ≤ wordNumber a → t.readByte a = u.readByte a ∧ t.readKey a = u.readKey a) ∧
        t.pr.getMsbD 0 = true ∧ t.im.getMsbD 0 = true ∧ t.devices = u.devices ∧ t.inputs = u.inputs ∧
        t.channel = u.channel
end

