-- ==== Sys2Proof/Laws/Sparse.lean ====
section
/-! SUPPORT. The laws of the sparse tables: a read after a write, and the canonical form kept by every write. -/

namespace Sys2Proof.Machine

variable {α : Type}

theorem Sparse.get_erase (d : α) (m : List (Nat × α)) (a b : Nat) :
    Sparse.get d (Sparse.erase m a) b = if b = a then d else Sparse.get d m b := by
  induction m with
  | nil => simp [Sparse.erase, Sparse.get]
  | cons p r ih =>
    obtain ⟨k, x⟩ := p
    by_cases hk : k = a <;> by_cases hb : b = a <;> by_cases hkb : k = b <;>
      simp_all [Sparse.erase, Sparse.get]

theorem Sparse.get_insert_same (d : α) (m : List (Nat × α)) (a : Nat) (v : α) (h : ∀ p ∈ m, p.1 ≠ a) :
    Sparse.get d (Sparse.insert m a v) a = v := by
  induction m with
  | nil => simp [Sparse.insert, Sparse.get]
  | cons p r ih =>
    obtain ⟨k, x⟩ := p
    simp only [List.mem_cons, forall_eq_or_imp] at h
    by_cases hk : a < k <;> simp [Sparse.insert, Sparse.get, hk, h.1, ih h.2]

theorem Sparse.get_insert_other (d : α) (m : List (Nat × α)) (a b : Nat) (v : α) (h : b ≠ a) :
    Sparse.get d (Sparse.insert m a v) b = Sparse.get d m b := by
  induction m with
  | nil => simp [Sparse.insert, Sparse.get, h.symm]
  | cons p r ih =>
    obtain ⟨k, x⟩ := p
    by_cases hk : a < k <;> simp [Sparse.insert, Sparse.get, hk, h.symm, ih]

theorem Sparse.mem_erase (m : List (Nat × α)) (a : Nat) : ∀ p ∈ Sparse.erase m a, p.1 ≠ a := by
  induction m with
  | nil => simp [Sparse.erase]
  | cons p r ih =>
    obtain ⟨k, x⟩ := p
    by_cases hk : k = a
    · simpa [Sparse.erase, hk] using ih
    · simp only [Sparse.erase, hk, if_false, List.mem_cons, forall_eq_or_imp]
      exact ⟨hk, ih⟩

/-- The law of the table: a write is seen at its own key and nowhere else. -/
theorem Sparse.get_set [DecidableEq α] (d : α) (m : List (Nat × α)) (a b : Nat) (v : α) :
    Sparse.get d (Sparse.set d m a v) b = if b = a then v else Sparse.get d m b := by
  unfold Sparse.set
  by_cases hv : v = d
  · simp [hv, Sparse.get_erase]
  · by_cases hb : b = a
    · subst hb
      simp [hv, Sparse.get_insert_same d _ b v (Sparse.mem_erase m b)]
    · simp [hv, hb, Sparse.get_insert_other d _ a b v hb, Sparse.get_erase]

theorem Sparse.canonicalFrom_mono [DecidableEq α] (d : α) (m : List (Nat × α)) {low low' : Nat} (hl : low' ≤ low)
    (h : Sparse.canonicalFrom d low m = true) : Sparse.canonicalFrom d low' m = true := by
  cases m with
  | nil => rfl
  | cons p r =>
    obtain ⟨k, x⟩ := p
    simp only [Sparse.canonicalFrom, Bool.and_eq_true, decide_eq_true_eq] at h ⊢
    exact ⟨⟨by omega, h.1.2⟩, h.2⟩

theorem Sparse.canonicalFrom_erase [DecidableEq α] (d : α) (m : List (Nat × α)) (a low : Nat)
    (h : Sparse.canonicalFrom d low m = true) : Sparse.canonicalFrom d low (Sparse.erase m a) = true := by
  induction m generalizing low with
  | nil => rfl
  | cons p r ih =>
    obtain ⟨k, x⟩ := p
    simp only [Sparse.canonicalFrom, Bool.and_eq_true, decide_eq_true_eq] at h
    by_cases hk : k = a
    · simp only [Sparse.erase, hk, if_true]
      exact Sparse.canonicalFrom_mono d _ (by omega) (ih (k + 1) h.2)
    · simp only [Sparse.erase, hk, if_false, Sparse.canonicalFrom, Bool.and_eq_true, decide_eq_true_eq]
      exact ⟨h.1, ih (k + 1) h.2⟩

theorem Sparse.canonicalFrom_insert [DecidableEq α] (d : α) (m : List (Nat × α)) (a low : Nat) (v : α) (hv : v ≠ d)
    (hl : low ≤ a) (hm : ∀ p ∈ m, p.1 ≠ a) (h : Sparse.canonicalFrom d low m = true) :
    Sparse.canonicalFrom d low (Sparse.insert m a v) = true := by
  induction m generalizing low with
  | nil => simp [Sparse.insert, Sparse.canonicalFrom, hv, hl]
  | cons p r ih =>
    obtain ⟨k, x⟩ := p
    simp only [Sparse.canonicalFrom, Bool.and_eq_true, decide_eq_true_eq] at h
    simp only [List.mem_cons, forall_eq_or_imp] at hm
    by_cases hk : a < k
    · simp only [Sparse.insert, hk, if_true, Sparse.canonicalFrom, Bool.and_eq_true, decide_eq_true_eq]
      exact ⟨⟨hl, hv⟩, ⟨by omega, h.1.2⟩, h.2⟩
    · simp only [Sparse.insert, hk, if_false, Sparse.canonicalFrom, Bool.and_eq_true, decide_eq_true_eq]
      have := hm.1
      exact ⟨h.1, ih (k + 1) (by omega) hm.2 h.2⟩

/-- Every write keeps the canonical form. -/
theorem Sparse.canonicalFrom_set [DecidableEq α] (d : α) (m : List (Nat × α)) (a low : Nat) (v : α) (hl : low ≤ a)
    (h : Sparse.canonicalFrom d low m = true) : Sparse.canonicalFrom d low (Sparse.set d m a v) = true := by
  unfold Sparse.set
  by_cases hv : v = d
  · simpa [hv] using Sparse.canonicalFrom_erase d m a low h
  · simpa [hv] using Sparse.canonicalFrom_insert d _ a low v hv hl (Sparse.mem_erase m a)
      (Sparse.canonicalFrom_erase d m a low h)

theorem Sparse.get_below [DecidableEq α] (d : α) (m : List (Nat × α)) (low a : Nat) (ha : a < low)
    (h : Sparse.canonicalFrom d low m = true) : Sparse.get d m a = d := by
  induction m generalizing low with
  | nil => rfl
  | cons p r ih =>
    obtain ⟨k, x⟩ := p
    simp only [Sparse.canonicalFrom, Bool.and_eq_true, decide_eq_true_eq] at h
    rw [Sparse.get, if_neg (by omega)]
    exact ih (k + 1) (by omega) h.2

/-- Two tables in canonical form that read alike everywhere are the same list. -/
theorem Sparse.canonicalFrom_ext [DecidableEq α] (d : α) (m n : List (Nat × α)) (low : Nat)
    (hm : Sparse.canonicalFrom d low m = true) (hn : Sparse.canonicalFrom d low n = true)
    (h : ∀ a, Sparse.get d m a = Sparse.get d n a) : m = n := by
  induction m generalizing n low with
  | nil =>
    cases n with
    | nil => rfl
    | cons q t =>
      obtain ⟨j, y⟩ := q
      have hj := h j
      simp only [Sparse.canonicalFrom, Bool.and_eq_true, decide_eq_true_eq] at hn
      simp only [Sparse.get, if_true] at hj
      exact absurd hj.symm hn.1.2
  | cons p r ih =>
    obtain ⟨k, x⟩ := p
    simp only [Sparse.canonicalFrom, Bool.and_eq_true, decide_eq_true_eq] at hm
    cases n with
    | nil =>
      have hk := h k
      simp only [Sparse.get, if_true] at hk
      exact absurd hk hm.1.2
    | cons q t =>
      obtain ⟨j, y⟩ := q
      simp only [Sparse.canonicalFrom, Bool.and_eq_true, decide_eq_true_eq] at hn
      have hkj : k = j := by
        rcases lt_trichotomy k j with hlt | heq | hgt
        · have hk := h k
          simp only [Sparse.get, if_true] at hk
          rw [if_neg (by omega), Sparse.get_below d t (j + 1) k (by omega) hn.2] at hk
          exact absurd hk hm.1.2
        · exact heq
        · have hj := h j
          simp only [Sparse.get, if_true] at hj
          rw [if_neg (by omega), Sparse.get_below d r (k + 1) j (by omega) hm.2] at hj
          exact absurd hj.symm hn.1.2
      subst hkj
      have hxy : x = y := by simpa [Sparse.get] using h k
      subst hxy
      have hrt : r = t := by
        refine ih t (k + 1) hm.2 hn.2 fun a => ?_
        by_cases ha : a = k
        · subst ha
          rw [Sparse.get_below d r (a + 1) a (by omega) hm.2, Sparse.get_below d t (a + 1) a (by omega) hn.2]
        · have hka : k ≠ a := fun h => ha h.symm
          simpa [Sparse.get, hka] using h a
      rw [hrt]

end Sys2Proof.Machine
end

