-- ==== Sys2Proof/Laws/State.lean ====
section
/-! SUPPORT. For each update of the state, one lemma for each field it leaves alone. -/

namespace Sys2Proof.Machine

variable (s : State)

/-! ### clearExceptions -/

@[simp] theorem State.clearExceptions_cfg : s.clearExceptions.cfg = s.cfg := rfl
@[simp] theorem State.clearExceptions_regs : s.clearExceptions.regs = s.regs := rfl
@[simp] theorem State.clearExceptions_ic : s.clearExceptions.ic = s.ic := rfl
@[simp] theorem State.clearExceptions_pr : s.clearExceptions.pr = s.pr := rfl
@[simp] theorem State.clearExceptions_ir : s.clearExceptions.ir = s.ir := rfl
@[simp] theorem State.clearExceptions_im : s.clearExceptions.im = s.im := rfl
@[simp] theorem State.clearExceptions_monitorMode : s.clearExceptions.monitorMode = s.monitorMode := rfl
@[simp] theorem State.clearExceptions_interruptDisabled : s.clearExceptions.interruptDisabled = s.interruptDisabled := rfl
@[simp] theorem State.clearExceptions_store : s.clearExceptions.store = s.store := rfl
@[simp] theorem State.clearExceptions_keys : s.clearExceptions.keys = s.keys := rfl
@[simp] theorem State.clearExceptions_phase : s.clearExceptions.phase = s.phase := rfl
@[simp] theorem State.clearExceptions_modifier : s.clearExceptions.modifier = s.modifier := rfl
@[simp] theorem State.clearExceptions_autoload : s.clearExceptions.autoload = s.autoload := rfl
@[simp] theorem State.clearExceptions_powerFailing : s.clearExceptions.powerFailing = s.powerFailing := rfl
@[simp] theorem State.clearExceptions_halt : s.clearExceptions.halt = s.halt := rfl
@[simp] theorem State.clearExceptions_cpuError : s.clearExceptions.cpuError = s.cpuError := rfl
@[simp] theorem State.clearExceptions_resetKey : s.clearExceptions.resetKey = s.resetKey := rfl
@[simp] theorem State.clearExceptions_startKey : s.clearExceptions.startKey = s.startKey := rfl
@[simp] theorem State.clearExceptions_autoloadKey : s.clearExceptions.autoloadKey = s.autoloadKey := rfl
@[simp] theorem State.clearExceptions_panelLocked : s.clearExceptions.panelLocked = s.panelLocked := rfl
@[simp] theorem State.clearExceptions_devices : s.clearExceptions.devices = s.devices := rfl
@[simp] theorem State.clearExceptions_timer : s.clearExceptions.timer = s.timer := rfl
@[simp] theorem State.clearExceptions_timerInterval : s.clearExceptions.timerInterval = s.timerInterval := rfl
@[simp] theorem State.clearExceptions_inputs : s.clearExceptions.inputs = s.inputs := rfl
@[simp] theorem State.clearExceptions_channel : s.clearExceptions.channel = s.channel := rfl

/-! ### setExceptions -/

@[simp] theorem State.setExceptions_cfg (p q : Bool) : (s.setExceptions p q).cfg = s.cfg := rfl
@[simp] theorem State.setExceptions_regs (p q : Bool) : (s.setExceptions p q).regs = s.regs := rfl
@[simp] theorem State.setExceptions_ic (p q : Bool) : (s.setExceptions p q).ic = s.ic := rfl
@[simp] theorem State.setExceptions_pr (p q : Bool) : (s.setExceptions p q).pr = s.pr := rfl
@[simp] theorem State.setExceptions_ir (p q : Bool) : (s.setExceptions p q).ir = s.ir := rfl
@[simp] theorem State.setExceptions_im (p q : Bool) : (s.setExceptions p q).im = s.im := rfl
@[simp] theorem State.setExceptions_monitorMode (p q : Bool) : (s.setExceptions p q).monitorMode = s.monitorMode := rfl
@[simp] theorem State.setExceptions_interruptDisabled (p q : Bool) : (s.setExceptions p q).interruptDisabled = s.interruptDisabled := rfl
@[simp] theorem State.setExceptions_store (p q : Bool) : (s.setExceptions p q).store = s.store := rfl
@[simp] theorem State.setExceptions_keys (p q : Bool) : (s.setExceptions p q).keys = s.keys := rfl
@[simp] theorem State.setExceptions_phase (p q : Bool) : (s.setExceptions p q).phase = s.phase := rfl
@[simp] theorem State.setExceptions_modifier (p q : Bool) : (s.setExceptions p q).modifier = s.modifier := rfl
@[simp] theorem State.setExceptions_autoload (p q : Bool) : (s.setExceptions p q).autoload = s.autoload := rfl
@[simp] theorem State.setExceptions_powerFailing (p q : Bool) : (s.setExceptions p q).powerFailing = s.powerFailing := rfl
@[simp] theorem State.setExceptions_halt (p q : Bool) : (s.setExceptions p q).halt = s.halt := rfl
@[simp] theorem State.setExceptions_cpuError (p q : Bool) : (s.setExceptions p q).cpuError = s.cpuError := rfl
@[simp] theorem State.setExceptions_resetKey (p q : Bool) : (s.setExceptions p q).resetKey = s.resetKey := rfl
@[simp] theorem State.setExceptions_startKey (p q : Bool) : (s.setExceptions p q).startKey = s.startKey := rfl
@[simp] theorem State.setExceptions_autoloadKey (p q : Bool) : (s.setExceptions p q).autoloadKey = s.autoloadKey := rfl
@[simp] theorem State.setExceptions_panelLocked (p q : Bool) : (s.setExceptions p q).panelLocked = s.panelLocked := rfl
@[simp] theorem State.setExceptions_devices (p q : Bool) : (s.setExceptions p q).devices = s.devices := rfl
@[simp] theorem State.setExceptions_timer (p q : Bool) : (s.setExceptions p q).timer = s.timer := rfl
@[simp] theorem State.setExceptions_timerInterval (p q : Bool) : (s.setExceptions p q).timerInterval = s.timerInterval := rfl
@[simp] theorem State.setExceptions_inputs (p q : Bool) : (s.setExceptions p q).inputs = s.inputs := rfl
@[simp] theorem State.setExceptions_channel (p q : Bool) : (s.setExceptions p q).channel = s.channel := rfl

/-! ### integerOverflow -/

@[simp] theorem State.integerOverflow_cfg : s.integerOverflow.cfg = s.cfg := rfl
@[simp] theorem State.integerOverflow_regs : s.integerOverflow.regs = s.regs := rfl
@[simp] theorem State.integerOverflow_ic : s.integerOverflow.ic = s.ic := rfl
@[simp] theorem State.integerOverflow_pr : s.integerOverflow.pr = s.pr := rfl
@[simp] theorem State.integerOverflow_im : s.integerOverflow.im = s.im := rfl
@[simp] theorem State.integerOverflow_monitorMode : s.integerOverflow.monitorMode = s.monitorMode := rfl
@[simp] theorem State.integerOverflow_interruptDisabled : s.integerOverflow.interruptDisabled = s.interruptDisabled := rfl
@[simp] theorem State.integerOverflow_store : s.integerOverflow.store = s.store := rfl
@[simp] theorem State.integerOverflow_keys : s.integerOverflow.keys = s.keys := rfl
@[simp] theorem State.integerOverflow_phase : s.integerOverflow.phase = s.phase := rfl
@[simp] theorem State.integerOverflow_modifier : s.integerOverflow.modifier = s.modifier := rfl
@[simp] theorem State.integerOverflow_autoload : s.integerOverflow.autoload = s.autoload := rfl
@[simp] theorem State.integerOverflow_powerFailing : s.integerOverflow.powerFailing = s.powerFailing := rfl
@[simp] theorem State.integerOverflow_halt : s.integerOverflow.halt = s.halt := rfl
@[simp] theorem State.integerOverflow_cpuError : s.integerOverflow.cpuError = s.cpuError := rfl
@[simp] theorem State.integerOverflow_resetKey : s.integerOverflow.resetKey = s.resetKey := rfl
@[simp] theorem State.integerOverflow_startKey : s.integerOverflow.startKey = s.startKey := rfl
@[simp] theorem State.integerOverflow_autoloadKey : s.integerOverflow.autoloadKey = s.autoloadKey := rfl
@[simp] theorem State.integerOverflow_panelLocked : s.integerOverflow.panelLocked = s.panelLocked := rfl
@[simp] theorem State.integerOverflow_devices : s.integerOverflow.devices = s.devices := rfl
@[simp] theorem State.integerOverflow_timer : s.integerOverflow.timer = s.timer := rfl
@[simp] theorem State.integerOverflow_timerInterval : s.integerOverflow.timerInterval = s.timerInterval := rfl
@[simp] theorem State.integerOverflow_inputs : s.integerOverflow.inputs = s.inputs := rfl
@[simp] theorem State.integerOverflow_channel : s.integerOverflow.channel = s.channel := rfl

/-! ### floatingOverflow -/

@[simp] theorem State.floatingOverflow_cfg : s.floatingOverflow.cfg = s.cfg := rfl
@[simp] theorem State.floatingOverflow_regs : s.floatingOverflow.regs = s.regs := rfl
@[simp] theorem State.floatingOverflow_ic : s.floatingOverflow.ic = s.ic := rfl
@[simp] theorem State.floatingOverflow_pr : s.floatingOverflow.pr = s.pr := rfl
@[simp] theorem State.floatingOverflow_im : s.floatingOverflow.im = s.im := rfl
@[simp] theorem State.floatingOverflow_monitorMode : s.floatingOverflow.monitorMode = s.monitorMode := rfl
@[simp] theorem State.floatingOverflow_interruptDisabled : s.floatingOverflow.interruptDisabled = s.interruptDisabled := rfl
@[simp] theorem State.floatingOverflow_store : s.floatingOverflow.store = s.store := rfl
@[simp] theorem State.floatingOverflow_keys : s.floatingOverflow.keys = s.keys := rfl
@[simp] theorem State.floatingOverflow_phase : s.floatingOverflow.phase = s.phase := rfl
@[simp] theorem State.floatingOverflow_modifier : s.floatingOverflow.modifier = s.modifier := rfl
@[simp] theorem State.floatingOverflow_autoload : s.floatingOverflow.autoload = s.autoload := rfl
@[simp] theorem State.floatingOverflow_powerFailing : s.floatingOverflow.powerFailing = s.powerFailing := rfl
@[simp] theorem State.floatingOverflow_halt : s.floatingOverflow.halt = s.halt := rfl
@[simp] theorem State.floatingOverflow_cpuError : s.floatingOverflow.cpuError = s.cpuError := rfl
@[simp] theorem State.floatingOverflow_resetKey : s.floatingOverflow.resetKey = s.resetKey := rfl
@[simp] theorem State.floatingOverflow_startKey : s.floatingOverflow.startKey = s.startKey := rfl
@[simp] theorem State.floatingOverflow_autoloadKey : s.floatingOverflow.autoloadKey = s.autoloadKey := rfl
@[simp] theorem State.floatingOverflow_panelLocked : s.floatingOverflow.panelLocked = s.panelLocked := rfl
@[simp] theorem State.floatingOverflow_devices : s.floatingOverflow.devices = s.devices := rfl
@[simp] theorem State.floatingOverflow_timer : s.floatingOverflow.timer = s.timer := rfl
@[simp] theorem State.floatingOverflow_timerInterval : s.floatingOverflow.timerInterval = s.timerInterval := rfl
@[simp] theorem State.floatingOverflow_inputs : s.floatingOverflow.inputs = s.inputs := rfl
@[simp] theorem State.floatingOverflow_channel : s.floatingOverflow.channel = s.channel := rfl

/-! ### skip -/

@[simp] theorem State.skip_cfg : s.skip.cfg = s.cfg := rfl
@[simp] theorem State.skip_regs : s.skip.regs = s.regs := rfl
@[simp] theorem State.skip_ex : s.skip.ex = s.ex := rfl
@[simp] theorem State.skip_pr : s.skip.pr = s.pr := rfl
@[simp] theorem State.skip_ir : s.skip.ir = s.ir := rfl
@[simp] theorem State.skip_im : s.skip.im = s.im := rfl
@[simp] theorem State.skip_monitorMode : s.skip.monitorMode = s.monitorMode := rfl
@[simp] theorem State.skip_interruptDisabled : s.skip.interruptDisabled = s.interruptDisabled := rfl
@[simp] theorem State.skip_store : s.skip.store = s.store := rfl
@[simp] theorem State.skip_keys : s.skip.keys = s.keys := rfl
@[simp] theorem State.skip_phase : s.skip.phase = s.phase := rfl
@[simp] theorem State.skip_modifier : s.skip.modifier = s.modifier := rfl
@[simp] theorem State.skip_autoload : s.skip.autoload = s.autoload := rfl
@[simp] theorem State.skip_powerFailing : s.skip.powerFailing = s.powerFailing := rfl
@[simp] theorem State.skip_halt : s.skip.halt = s.halt := rfl
@[simp] theorem State.skip_cpuError : s.skip.cpuError = s.cpuError := rfl
@[simp] theorem State.skip_resetKey : s.skip.resetKey = s.resetKey := rfl
@[simp] theorem State.skip_startKey : s.skip.startKey = s.startKey := rfl
@[simp] theorem State.skip_autoloadKey : s.skip.autoloadKey = s.autoloadKey := rfl
@[simp] theorem State.skip_panelLocked : s.skip.panelLocked = s.panelLocked := rfl
@[simp] theorem State.skip_devices : s.skip.devices = s.devices := rfl
@[simp] theorem State.skip_timer : s.skip.timer = s.timer := rfl
@[simp] theorem State.skip_timerInterval : s.skip.timerInterval = s.timerInterval := rfl
@[simp] theorem State.skip_inputs : s.skip.inputs = s.inputs := rfl
@[simp] theorem State.skip_channel : s.skip.channel = s.channel := rfl

/-! ### writeKey -/

@[simp] theorem State.writeKey_cfg (a : Word) (k : Key) : (s.writeKey a k).cfg = s.cfg := rfl
@[simp] theorem State.writeKey_regs (a : Word) (k : Key) : (s.writeKey a k).regs = s.regs := rfl
@[simp] theorem State.writeKey_ic (a : Word) (k : Key) : (s.writeKey a k).ic = s.ic := rfl
@[simp] theorem State.writeKey_ex (a : Word) (k : Key) : (s.writeKey a k).ex = s.ex := rfl
@[simp] theorem State.writeKey_pr (a : Word) (k : Key) : (s.writeKey a k).pr = s.pr := rfl
@[simp] theorem State.writeKey_ir (a : Word) (k : Key) : (s.writeKey a k).ir = s.ir := rfl
@[simp] theorem State.writeKey_im (a : Word) (k : Key) : (s.writeKey a k).im = s.im := rfl
@[simp] theorem State.writeKey_monitorMode (a : Word) (k : Key) : (s.writeKey a k).monitorMode = s.monitorMode := rfl
@[simp] theorem State.writeKey_interruptDisabled (a : Word) (k : Key) : (s.writeKey a k).interruptDisabled = s.interruptDisabled := rfl
@[simp] theorem State.writeKey_store (a : Word) (k : Key) : (s.writeKey a k).store = s.store := rfl
@[simp] theorem State.writeKey_phase (a : Word) (k : Key) : (s.writeKey a k).phase = s.phase := rfl
@[simp] theorem State.writeKey_modifier (a : Word) (k : Key) : (s.writeKey a k).modifier = s.modifier := rfl
@[simp] theorem State.writeKey_autoload (a : Word) (k : Key) : (s.writeKey a k).autoload = s.autoload := rfl
@[simp] theorem State.writeKey_powerFailing (a : Word) (k : Key) : (s.writeKey a k).powerFailing = s.powerFailing := rfl
@[simp] theorem State.writeKey_halt (a : Word) (k : Key) : (s.writeKey a k).halt = s.halt := rfl
@[simp] theorem State.writeKey_cpuError (a : Word) (k : Key) : (s.writeKey a k).cpuError = s.cpuError := rfl
@[simp] theorem State.writeKey_resetKey (a : Word) (k : Key) : (s.writeKey a k).resetKey = s.resetKey := rfl
@[simp] theorem State.writeKey_startKey (a : Word) (k : Key) : (s.writeKey a k).startKey = s.startKey := rfl
@[simp] theorem State.writeKey_autoloadKey (a : Word) (k : Key) : (s.writeKey a k).autoloadKey = s.autoloadKey := rfl
@[simp] theorem State.writeKey_panelLocked (a : Word) (k : Key) : (s.writeKey a k).panelLocked = s.panelLocked := rfl
@[simp] theorem State.writeKey_devices (a : Word) (k : Key) : (s.writeKey a k).devices = s.devices := rfl
@[simp] theorem State.writeKey_timer (a : Word) (k : Key) : (s.writeKey a k).timer = s.timer := rfl
@[simp] theorem State.writeKey_timerInterval (a : Word) (k : Key) : (s.writeKey a k).timerInterval = s.timerInterval := rfl
@[simp] theorem State.writeKey_inputs (a : Word) (k : Key) : (s.writeKey a k).inputs = s.inputs := rfl
@[simp] theorem State.writeKey_channel (a : Word) (k : Key) : (s.writeKey a k).channel = s.channel := rfl

/-! ### updateDevice -/

@[simp] theorem State.updateDevice_cfg (n : Nat) (c : Device → Device) : (s.updateDevice n c).cfg = s.cfg := rfl
@[simp] theorem State.updateDevice_regs (n : Nat) (c : Device → Device) : (s.updateDevice n c).regs = s.regs := rfl
@[simp] theorem State.updateDevice_ic (n : Nat) (c : Device → Device) : (s.updateDevice n c).ic = s.ic := rfl
@[simp] theorem State.updateDevice_ex (n : Nat) (c : Device → Device) : (s.updateDevice n c).ex = s.ex := rfl
@[simp] theorem State.updateDevice_pr (n : Nat) (c : Device → Device) : (s.updateDevice n c).pr = s.pr := rfl
@[simp] theorem State.updateDevice_ir (n : Nat) (c : Device → Device) : (s.updateDevice n c).ir = s.ir := rfl
@[simp] theorem State.updateDevice_im (n : Nat) (c : Device → Device) : (s.updateDevice n c).im = s.im := rfl
@[simp] theorem State.updateDevice_monitorMode (n : Nat) (c : Device → Device) : (s.updateDevice n c).monitorMode = s.monitorMode := rfl
@[simp] theorem State.updateDevice_interruptDisabled (n : Nat) (c : Device → Device) : (s.updateDevice n c).interruptDisabled = s.interruptDisabled := rfl
@[simp] theorem State.updateDevice_store (n : Nat) (c : Device → Device) : (s.updateDevice n c).store = s.store := rfl
@[simp] theorem State.updateDevice_keys (n : Nat) (c : Device → Device) : (s.updateDevice n c).keys = s.keys := rfl
@[simp] theorem State.updateDevice_phase (n : Nat) (c : Device → Device) : (s.updateDevice n c).phase = s.phase := rfl
@[simp] theorem State.updateDevice_modifier (n : Nat) (c : Device → Device) : (s.updateDevice n c).modifier = s.modifier := rfl
@[simp] theorem State.updateDevice_autoload (n : Nat) (c : Device → Device) : (s.updateDevice n c).autoload = s.autoload := rfl
@[simp] theorem State.updateDevice_powerFailing (n : Nat) (c : Device → Device) : (s.updateDevice n c).powerFailing = s.powerFailing := rfl
@[simp] theorem State.updateDevice_halt (n : Nat) (c : Device → Device) : (s.updateDevice n c).halt = s.halt := rfl
@[simp] theorem State.updateDevice_cpuError (n : Nat) (c : Device → Device) : (s.updateDevice n c).cpuError = s.cpuError := rfl
@[simp] theorem State.updateDevice_resetKey (n : Nat) (c : Device → Device) : (s.updateDevice n c).resetKey = s.resetKey := rfl
@[simp] theorem State.updateDevice_startKey (n : Nat) (c : Device → Device) : (s.updateDevice n c).startKey = s.startKey := rfl
@[simp] theorem State.updateDevice_autoloadKey (n : Nat) (c : Device → Device) : (s.updateDevice n c).autoloadKey = s.autoloadKey := rfl
@[simp] theorem State.updateDevice_panelLocked (n : Nat) (c : Device → Device) : (s.updateDevice n c).panelLocked = s.panelLocked := rfl
@[simp] theorem State.updateDevice_timer (n : Nat) (c : Device → Device) : (s.updateDevice n c).timer = s.timer := rfl
@[simp] theorem State.updateDevice_timerInterval (n : Nat) (c : Device → Device) : (s.updateDevice n c).timerInterval = s.timerInterval := rfl
@[simp] theorem State.updateDevice_inputs (n : Nat) (c : Device → Device) : (s.updateDevice n c).inputs = s.inputs := rfl
@[simp] theorem State.updateDevice_channel (n : Nat) (c : Device → Device) : (s.updateDevice n c).channel = s.channel := rfl

/-! ### powerOn -/

@[simp] theorem State.powerOn_cfg : s.powerOn.cfg = s.cfg := rfl
@[simp] theorem State.powerOn_regs : s.powerOn.regs = s.regs := rfl
@[simp] theorem State.powerOn_ic : s.powerOn.ic = s.ic := rfl
@[simp] theorem State.powerOn_ex : s.powerOn.ex = s.ex := rfl
@[simp] theorem State.powerOn_pr : s.powerOn.pr = s.pr := rfl
@[simp] theorem State.powerOn_ir : s.powerOn.ir = s.ir := rfl
@[simp] theorem State.powerOn_im : s.powerOn.im = s.im := rfl
@[simp] theorem State.powerOn_store : s.powerOn.store = s.store := rfl
@[simp] theorem State.powerOn_keys : s.powerOn.keys = s.keys := rfl
@[simp] theorem State.powerOn_powerFailing : s.powerOn.powerFailing = s.powerFailing := rfl
@[simp] theorem State.powerOn_halt : s.powerOn.halt = s.halt := rfl
@[simp] theorem State.powerOn_cpuError : s.powerOn.cpuError = s.cpuError := rfl
@[simp] theorem State.powerOn_panelLocked : s.powerOn.panelLocked = s.panelLocked := rfl
@[simp] theorem State.powerOn_devices : s.powerOn.devices = s.devices := rfl
@[simp] theorem State.powerOn_timer : s.powerOn.timer = s.timer := rfl
@[simp] theorem State.powerOn_timerInterval : s.powerOn.timerInterval = s.timerInterval := rfl
@[simp] theorem State.powerOn_inputs : s.powerOn.inputs = s.inputs := rfl
@[simp] theorem State.powerOn_channel : s.powerOn.channel = s.channel := rfl

/-! ### setReg -/

@[simp] theorem State.setReg_cfg (r : WReg) (v : Word) : (s.setReg r v).cfg = s.cfg := by cases r <;> rfl
@[simp] theorem State.setReg_ic (r : WReg) (v : Word) : (s.setReg r v).ic = s.ic := by cases r <;> rfl
@[simp] theorem State.setReg_ex (r : WReg) (v : Word) : (s.setReg r v).ex = s.ex := by cases r <;> rfl
@[simp] theorem State.setReg_pr (r : WReg) (v : Word) : (s.setReg r v).pr = s.pr := by cases r <;> rfl
@[simp] theorem State.setReg_ir (r : WReg) (v : Word) : (s.setReg r v).ir = s.ir := by cases r <;> rfl
@[simp] theorem State.setReg_im (r : WReg) (v : Word) : (s.setReg r v).im = s.im := by cases r <;> rfl
@[simp] theorem State.setReg_monitorMode (r : WReg) (v : Word) : (s.setReg r v).monitorMode = s.monitorMode := by cases r <;> rfl
@[simp] theorem State.setReg_interruptDisabled (r : WReg) (v : Word) : (s.setReg r v).interruptDisabled = s.interruptDisabled := by cases r <;> rfl
@[simp] theorem State.setReg_store (r : WReg) (v : Word) : (s.setReg r v).store = s.store := by cases r <;> rfl
@[simp] theorem State.setReg_keys (r : WReg) (v : Word) : (s.setReg r v).keys = s.keys := by cases r <;> rfl
@[simp] theorem State.setReg_phase (r : WReg) (v : Word) : (s.setReg r v).phase = s.phase := by cases r <;> rfl
@[simp] theorem State.setReg_modifier (r : WReg) (v : Word) : (s.setReg r v).modifier = s.modifier := by cases r <;> rfl
@[simp] theorem State.setReg_autoload (r : WReg) (v : Word) : (s.setReg r v).autoload = s.autoload := by cases r <;> rfl
@[simp] theorem State.setReg_powerFailing (r : WReg) (v : Word) : (s.setReg r v).powerFailing = s.powerFailing := by cases r <;> rfl
@[simp] theorem State.setReg_halt (r : WReg) (v : Word) : (s.setReg r v).halt = s.halt := by cases r <;> rfl
@[simp] theorem State.setReg_cpuError (r : WReg) (v : Word) : (s.setReg r v).cpuError = s.cpuError := by cases r <;> rfl
@[simp] theorem State.setReg_resetKey (r : WReg) (v : Word) : (s.setReg r v).resetKey = s.resetKey := by cases r <;> rfl
@[simp] theorem State.setReg_startKey (r : WReg) (v : Word) : (s.setReg r v).startKey = s.startKey := by cases r <;> rfl
@[simp] theorem State.setReg_autoloadKey (r : WReg) (v : Word) : (s.setReg r v).autoloadKey = s.autoloadKey := by cases r <;> rfl
@[simp] theorem State.setReg_panelLocked (r : WReg) (v : Word) : (s.setReg r v).panelLocked = s.panelLocked := by cases r <;> rfl
@[simp] theorem State.setReg_devices (r : WReg) (v : Word) : (s.setReg r v).devices = s.devices := by cases r <;> rfl
@[simp] theorem State.setReg_timer (r : WReg) (v : Word) : (s.setReg r v).timer = s.timer := by cases r <;> rfl
@[simp] theorem State.setReg_timerInterval (r : WReg) (v : Word) : (s.setReg r v).timerInterval = s.timerInterval := by cases r <;> rfl
@[simp] theorem State.setReg_inputs (r : WReg) (v : Word) : (s.setReg r v).inputs = s.inputs := by cases r <;> rfl
@[simp] theorem State.setReg_channel (r : WReg) (v : Word) : (s.setReg r v).channel = s.channel := by cases r <;> rfl

/-! ### setPair -/

@[simp] theorem State.setPair_cfg (r : WReg) (v : DoubleWord) : (s.setPair r v).cfg = s.cfg := by simp [State.setPair]
@[simp] theorem State.setPair_ic (r : WReg) (v : DoubleWord) : (s.setPair r v).ic = s.ic := by simp [State.setPair]
@[simp] theorem State.setPair_ex (r : WReg) (v : DoubleWord) : (s.setPair r v).ex = s.ex := by simp [State.setPair]
@[simp] theorem State.setPair_pr (r : WReg) (v : DoubleWord) : (s.setPair r v).pr = s.pr := by simp [State.setPair]
@[simp] theorem State.setPair_ir (r : WReg) (v : DoubleWord) : (s.setPair r v).ir = s.ir := by simp [State.setPair]
@[simp] theorem State.setPair_im (r : WReg) (v : DoubleWord) : (s.setPair r v).im = s.im := by simp [State.setPair]
@[simp] theorem State.setPair_monitorMode (r : WReg) (v : DoubleWord) : (s.setPair r v).monitorMode = s.monitorMode := by simp [State.setPair]
@[simp] theorem State.setPair_interruptDisabled (r : WReg) (v : DoubleWord) : (s.setPair r v).interruptDisabled = s.interruptDisabled := by simp [State.setPair]
@[simp] theorem State.setPair_store (r : WReg) (v : DoubleWord) : (s.setPair r v).store = s.store := by simp [State.setPair]
@[simp] theorem State.setPair_keys (r : WReg) (v : DoubleWord) : (s.setPair r v).keys = s.keys := by simp [State.setPair]
@[simp] theorem State.setPair_phase (r : WReg) (v : DoubleWord) : (s.setPair r v).phase = s.phase := by simp [State.setPair]
@[simp] theorem State.setPair_modifier (r : WReg) (v : DoubleWord) : (s.setPair r v).modifier = s.modifier := by simp [State.setPair]
@[simp] theorem State.setPair_autoload (r : WReg) (v : DoubleWord) : (s.setPair r v).autoload = s.autoload := by simp [State.setPair]
@[simp] theorem State.setPair_powerFailing (r : WReg) (v : DoubleWord) : (s.setPair r v).powerFailing = s.powerFailing := by simp [State.setPair]
@[simp] theorem State.setPair_halt (r : WReg) (v : DoubleWord) : (s.setPair r v).halt = s.halt := by simp [State.setPair]
@[simp] theorem State.setPair_cpuError (r : WReg) (v : DoubleWord) : (s.setPair r v).cpuError = s.cpuError := by simp [State.setPair]
@[simp] theorem State.setPair_resetKey (r : WReg) (v : DoubleWord) : (s.setPair r v).resetKey = s.resetKey := by simp [State.setPair]
@[simp] theorem State.setPair_startKey (r : WReg) (v : DoubleWord) : (s.setPair r v).startKey = s.startKey := by simp [State.setPair]
@[simp] theorem State.setPair_autoloadKey (r : WReg) (v : DoubleWord) : (s.setPair r v).autoloadKey = s.autoloadKey := by simp [State.setPair]
@[simp] theorem State.setPair_panelLocked (r : WReg) (v : DoubleWord) : (s.setPair r v).panelLocked = s.panelLocked := by simp [State.setPair]
@[simp] theorem State.setPair_devices (r : WReg) (v : DoubleWord) : (s.setPair r v).devices = s.devices := by simp [State.setPair]
@[simp] theorem State.setPair_timer (r : WReg) (v : DoubleWord) : (s.setPair r v).timer = s.timer := by simp [State.setPair]
@[simp] theorem State.setPair_timerInterval (r : WReg) (v : DoubleWord) : (s.setPair r v).timerInterval = s.timerInterval := by simp [State.setPair]
@[simp] theorem State.setPair_inputs (r : WReg) (v : DoubleWord) : (s.setPair r v).inputs = s.inputs := by simp [State.setPair]
@[simp] theorem State.setPair_channel (r : WReg) (v : DoubleWord) : (s.setPair r v).channel = s.channel := by simp [State.setPair]

/-! ### writeWord -/

@[simp] theorem State.writeWord_cfg (a v : Word) : (s.writeWord a v).cfg = s.cfg := by unfold State.writeWord; split <;> simp
@[simp] theorem State.writeWord_ic (a v : Word) : (s.writeWord a v).ic = s.ic := by unfold State.writeWord; split <;> simp
@[simp] theorem State.writeWord_ex (a v : Word) : (s.writeWord a v).ex = s.ex := by unfold State.writeWord; split <;> simp
@[simp] theorem State.writeWord_pr (a v : Word) : (s.writeWord a v).pr = s.pr := by unfold State.writeWord; split <;> simp
@[simp] theorem State.writeWord_ir (a v : Word) : (s.writeWord a v).ir = s.ir := by unfold State.writeWord; split <;> simp
@[simp] theorem State.writeWord_im (a v : Word) : (s.writeWord a v).im = s.im := by unfold State.writeWord; split <;> simp
@[simp] theorem State.writeWord_monitorMode (a v : Word) : (s.writeWord a v).monitorMode = s.monitorMode := by unfold State.writeWord; split <;> simp
@[simp] theorem State.writeWord_interruptDisabled (a v : Word) : (s.writeWord a v).interruptDisabled = s.interruptDisabled := by unfold State.writeWord; split <;> simp
@[simp] theorem State.writeWord_keys (a v : Word) : (s.writeWord a v).keys = s.keys := by unfold State.writeWord; split <;> simp
@[simp] theorem State.writeWord_phase (a v : Word) : (s.writeWord a v).phase = s.phase := by unfold State.writeWord; split <;> simp
@[simp] theorem State.writeWord_modifier (a v : Word) : (s.writeWord a v).modifier = s.modifier := by unfold State.writeWord; split <;> simp
@[simp] theorem State.writeWord_autoload (a v : Word) : (s.writeWord a v).autoload = s.autoload := by unfold State.writeWord; split <;> simp
@[simp] theorem State.writeWord_powerFailing (a v : Word) : (s.writeWord a v).powerFailing = s.powerFailing := by unfold State.writeWord; split <;> simp
@[simp] theorem State.writeWord_halt (a v : Word) : (s.writeWord a v).halt = s.halt := by unfold State.writeWord; split <;> simp
@[simp] theorem State.writeWord_cpuError (a v : Word) : (s.writeWord a v).cpuError = s.cpuError := by unfold State.writeWord; split <;> simp
@[simp] theorem State.writeWord_resetKey (a v : Word) : (s.writeWord a v).resetKey = s.resetKey := by unfold State.writeWord; split <;> simp
@[simp] theorem State.writeWord_startKey (a v : Word) : (s.writeWord a v).startKey = s.startKey := by unfold State.writeWord; split <;> simp
@[simp] theorem State.writeWord_autoloadKey (a v : Word) : (s.writeWord a v).autoloadKey = s.autoloadKey := by unfold State.writeWord; split <;> simp
@[simp] theorem State.writeWord_panelLocked (a v : Word) : (s.writeWord a v).panelLocked = s.panelLocked := by unfold State.writeWord; split <;> simp
@[simp] theorem State.writeWord_devices (a v : Word) : (s.writeWord a v).devices = s.devices := by unfold State.writeWord; split <;> simp
@[simp] theorem State.writeWord_timer (a v : Word) : (s.writeWord a v).timer = s.timer := by unfold State.writeWord; split <;> simp
@[simp] theorem State.writeWord_timerInterval (a v : Word) : (s.writeWord a v).timerInterval = s.timerInterval := by unfold State.writeWord; split <;> simp
@[simp] theorem State.writeWord_inputs (a v : Word) : (s.writeWord a v).inputs = s.inputs := by unfold State.writeWord; split <;> simp
@[simp] theorem State.writeWord_channel (a v : Word) : (s.writeWord a v).channel = s.channel := by unfold State.writeWord; split <;> simp

/-! ### writeByte -/

@[simp] theorem State.writeByte_cfg (a : Word) (v : Byte) : (s.writeByte a v).cfg = s.cfg := by simp [State.writeByte]
@[simp] theorem State.writeByte_ic (a : Word) (v : Byte) : (s.writeByte a v).ic = s.ic := by simp [State.writeByte]
@[simp] theorem State.writeByte_ex (a : Word) (v : Byte) : (s.writeByte a v).ex = s.ex := by simp [State.writeByte]
@[simp] theorem State.writeByte_pr (a : Word) (v : Byte) : (s.writeByte a v).pr = s.pr := by simp [State.writeByte]
@[simp] theorem State.writeByte_ir (a : Word) (v : Byte) : (s.writeByte a v).ir = s.ir := by simp [State.writeByte]
@[simp] theorem State.writeByte_im (a : Word) (v : Byte) : (s.writeByte a v).im = s.im := by simp [State.writeByte]
@[simp] theorem State.writeByte_monitorMode (a : Word) (v : Byte) : (s.writeByte a v).monitorMode = s.monitorMode := by simp [State.writeByte]
@[simp] theorem State.writeByte_interruptDisabled (a : Word) (v : Byte) : (s.writeByte a v).interruptDisabled = s.interruptDisabled := by simp [State.writeByte]
@[simp] theorem State.writeByte_keys (a : Word) (v : Byte) : (s.writeByte a v).keys = s.keys := by simp [State.writeByte]
@[simp] theorem State.writeByte_phase (a : Word) (v : Byte) : (s.writeByte a v).phase = s.phase := by simp [State.writeByte]
@[simp] theorem State.writeByte_modifier (a : Word) (v : Byte) : (s.writeByte a v).modifier = s.modifier := by simp [State.writeByte]
@[simp] theorem State.writeByte_autoload (a : Word) (v : Byte) : (s.writeByte a v).autoload = s.autoload := by simp [State.writeByte]
@[simp] theorem State.writeByte_powerFailing (a : Word) (v : Byte) : (s.writeByte a v).powerFailing = s.powerFailing := by simp [State.writeByte]
@[simp] theorem State.writeByte_halt (a : Word) (v : Byte) : (s.writeByte a v).halt = s.halt := by simp [State.writeByte]
@[simp] theorem State.writeByte_cpuError (a : Word) (v : Byte) : (s.writeByte a v).cpuError = s.cpuError := by simp [State.writeByte]
@[simp] theorem State.writeByte_resetKey (a : Word) (v : Byte) : (s.writeByte a v).resetKey = s.resetKey := by simp [State.writeByte]
@[simp] theorem State.writeByte_startKey (a : Word) (v : Byte) : (s.writeByte a v).startKey = s.startKey := by simp [State.writeByte]
@[simp] theorem State.writeByte_autoloadKey (a : Word) (v : Byte) : (s.writeByte a v).autoloadKey = s.autoloadKey := by simp [State.writeByte]
@[simp] theorem State.writeByte_panelLocked (a : Word) (v : Byte) : (s.writeByte a v).panelLocked = s.panelLocked := by simp [State.writeByte]
@[simp] theorem State.writeByte_devices (a : Word) (v : Byte) : (s.writeByte a v).devices = s.devices := by simp [State.writeByte]
@[simp] theorem State.writeByte_timer (a : Word) (v : Byte) : (s.writeByte a v).timer = s.timer := by simp [State.writeByte]
@[simp] theorem State.writeByte_timerInterval (a : Word) (v : Byte) : (s.writeByte a v).timerInterval = s.timerInterval := by simp [State.writeByte]
@[simp] theorem State.writeByte_inputs (a : Word) (v : Byte) : (s.writeByte a v).inputs = s.inputs := by simp [State.writeByte]
@[simp] theorem State.writeByte_channel (a : Word) (v : Byte) : (s.writeByte a v).channel = s.channel := by simp [State.writeByte]

/-! ### channelWrite -/

@[simp] theorem State.channelWrite_cfg (w : ChannelWrite) : (s.channelWrite w).cfg = s.cfg := by unfold State.channelWrite; split <;> simp
@[simp] theorem State.channelWrite_ic (w : ChannelWrite) : (s.channelWrite w).ic = s.ic := by unfold State.channelWrite; split <;> simp
@[simp] theorem State.channelWrite_ex (w : ChannelWrite) : (s.channelWrite w).ex = s.ex := by unfold State.channelWrite; split <;> simp
@[simp] theorem State.channelWrite_pr (w : ChannelWrite) : (s.channelWrite w).pr = s.pr := by unfold State.channelWrite; split <;> simp
@[simp] theorem State.channelWrite_ir (w : ChannelWrite) : (s.channelWrite w).ir = s.ir := by unfold State.channelWrite; split <;> simp
@[simp] theorem State.channelWrite_im (w : ChannelWrite) : (s.channelWrite w).im = s.im := by unfold State.channelWrite; split <;> simp
@[simp] theorem State.channelWrite_monitorMode (w : ChannelWrite) : (s.channelWrite w).monitorMode = s.monitorMode := by unfold State.channelWrite; split <;> simp
@[simp] theorem State.channelWrite_interruptDisabled (w : ChannelWrite) : (s.channelWrite w).interruptDisabled = s.interruptDisabled := by unfold State.channelWrite; split <;> simp
@[simp] theorem State.channelWrite_keys (w : ChannelWrite) : (s.channelWrite w).keys = s.keys := by unfold State.channelWrite; split <;> simp
@[simp] theorem State.channelWrite_phase (w : ChannelWrite) : (s.channelWrite w).phase = s.phase := by unfold State.channelWrite; split <;> simp
@[simp] theorem State.channelWrite_modifier (w : ChannelWrite) : (s.channelWrite w).modifier = s.modifier := by unfold State.channelWrite; split <;> simp
@[simp] theorem State.channelWrite_autoload (w : ChannelWrite) : (s.channelWrite w).autoload = s.autoload := by unfold State.channelWrite; split <;> simp
@[simp] theorem State.channelWrite_powerFailing (w : ChannelWrite) : (s.channelWrite w).powerFailing = s.powerFailing := by unfold State.channelWrite; split <;> simp
@[simp] theorem State.channelWrite_halt (w : ChannelWrite) : (s.channelWrite w).halt = s.halt := by unfold State.channelWrite; split <;> simp
@[simp] theorem State.channelWrite_cpuError (w : ChannelWrite) : (s.channelWrite w).cpuError = s.cpuError := by unfold State.channelWrite; split <;> simp
@[simp] theorem State.channelWrite_resetKey (w : ChannelWrite) : (s.channelWrite w).resetKey = s.resetKey := by unfold State.channelWrite; split <;> simp
@[simp] theorem State.channelWrite_startKey (w : ChannelWrite) : (s.channelWrite w).startKey = s.startKey := by unfold State.channelWrite; split <;> simp
@[simp] theorem State.channelWrite_autoloadKey (w : ChannelWrite) : (s.channelWrite w).autoloadKey = s.autoloadKey := by unfold State.channelWrite; split <;> simp
@[simp] theorem State.channelWrite_panelLocked (w : ChannelWrite) : (s.channelWrite w).panelLocked = s.panelLocked := by unfold State.channelWrite; split <;> simp
@[simp] theorem State.channelWrite_devices (w : ChannelWrite) : (s.channelWrite w).devices = s.devices := by unfold State.channelWrite; split <;> simp
@[simp] theorem State.channelWrite_timer (w : ChannelWrite) : (s.channelWrite w).timer = s.timer := by unfold State.channelWrite; split <;> simp
@[simp] theorem State.channelWrite_timerInterval (w : ChannelWrite) : (s.channelWrite w).timerInterval = s.timerInterval := by unfold State.channelWrite; split <;> simp
@[simp] theorem State.channelWrite_inputs (w : ChannelWrite) : (s.channelWrite w).inputs = s.inputs := by unfold State.channelWrite; split <;> simp
@[simp] theorem State.channelWrite_channel (w : ChannelWrite) : (s.channelWrite w).channel = s.channel := by unfold State.channelWrite; split <;> simp

/-! ### channelTurn -/

/-- What no word written by the channel changes, and the use of its script does not, the channel's turn does not change. -/
theorem State.channelTurn_same {α : Type} (get : State → α) (hw : ∀ s w, get (State.channelWrite s w) = get s)
    (hc : ∀ s rest, get { s with channel := rest } = get s) : get s.channelTurn = get s := by
  have hf : ∀ (batch : List ChannelWrite) (t : State), get (batch.foldl State.channelWrite t) = get t := by
    intro batch
    induction batch with
    | nil => intro t; rfl
    | cons w batch ih => intro t; rw [List.foldl_cons, ih, hw]
  unfold State.channelTurn
  split
  · rfl
  · rw [hf, hc]

@[simp] theorem State.channelTurn_cfg : (s.channelTurn).cfg = s.cfg := s.channelTurn_same (·.cfg) (fun _ _ => by simp) (fun _ _ => rfl)
@[simp] theorem State.channelTurn_ic : (s.channelTurn).ic = s.ic := s.channelTurn_same (·.ic) (fun _ _ => by simp) (fun _ _ => rfl)
@[simp] theorem State.channelTurn_ex : (s.channelTurn).ex = s.ex := s.channelTurn_same (·.ex) (fun _ _ => by simp) (fun _ _ => rfl)
@[simp] theorem State.channelTurn_pr : (s.channelTurn).pr = s.pr := s.channelTurn_same (·.pr) (fun _ _ => by simp) (fun _ _ => rfl)
@[simp] theorem State.channelTurn_ir : (s.channelTurn).ir = s.ir := s.channelTurn_same (·.ir) (fun _ _ => by simp) (fun _ _ => rfl)
@[simp] theorem State.channelTurn_im : (s.channelTurn).im = s.im := s.channelTurn_same (·.im) (fun _ _ => by simp) (fun _ _ => rfl)
@[simp] theorem State.channelTurn_monitorMode : (s.channelTurn).monitorMode = s.monitorMode := s.channelTurn_same (·.monitorMode) (fun _ _ => by simp) (fun _ _ => rfl)
@[simp] theorem State.channelTurn_interruptDisabled : (s.channelTurn).interruptDisabled = s.interruptDisabled := s.channelTurn_same (·.interruptDisabled) (fun _ _ => by simp) (fun _ _ => rfl)
@[simp] theorem State.channelTurn_keys : (s.channelTurn).keys = s.keys := s.channelTurn_same (·.keys) (fun _ _ => by simp) (fun _ _ => rfl)
@[simp] theorem State.channelTurn_phase : (s.channelTurn).phase = s.phase := s.channelTurn_same (·.phase) (fun _ _ => by simp) (fun _ _ => rfl)
@[simp] theorem State.channelTurn_modifier : (s.channelTurn).modifier = s.modifier := s.channelTurn_same (·.modifier) (fun _ _ => by simp) (fun _ _ => rfl)
@[simp] theorem State.channelTurn_autoload : (s.channelTurn).autoload = s.autoload := s.channelTurn_same (·.autoload) (fun _ _ => by simp) (fun _ _ => rfl)
@[simp] theorem State.channelTurn_powerFailing : (s.channelTurn).powerFailing = s.powerFailing := s.channelTurn_same (·.powerFailing) (fun _ _ => by simp) (fun _ _ => rfl)
@[simp] theorem State.channelTurn_halt : (s.channelTurn).halt = s.halt := s.channelTurn_same (·.halt) (fun _ _ => by simp) (fun _ _ => rfl)
@[simp] theorem State.channelTurn_cpuError : (s.channelTurn).cpuError = s.cpuError := s.channelTurn_same (·.cpuError) (fun _ _ => by simp) (fun _ _ => rfl)
@[simp] theorem State.channelTurn_resetKey : (s.channelTurn).resetKey = s.resetKey := s.channelTurn_same (·.resetKey) (fun _ _ => by simp) (fun _ _ => rfl)
@[simp] theorem State.channelTurn_startKey : (s.channelTurn).startKey = s.startKey := s.channelTurn_same (·.startKey) (fun _ _ => by simp) (fun _ _ => rfl)
@[simp] theorem State.channelTurn_autoloadKey : (s.channelTurn).autoloadKey = s.autoloadKey := s.channelTurn_same (·.autoloadKey) (fun _ _ => by simp) (fun _ _ => rfl)
@[simp] theorem State.channelTurn_panelLocked : (s.channelTurn).panelLocked = s.panelLocked := s.channelTurn_same (·.panelLocked) (fun _ _ => by simp) (fun _ _ => rfl)
@[simp] theorem State.channelTurn_devices : (s.channelTurn).devices = s.devices := s.channelTurn_same (·.devices) (fun _ _ => by simp) (fun _ _ => rfl)
@[simp] theorem State.channelTurn_timer : (s.channelTurn).timer = s.timer := s.channelTurn_same (·.timer) (fun _ _ => by simp) (fun _ _ => rfl)
@[simp] theorem State.channelTurn_timerInterval : (s.channelTurn).timerInterval = s.timerInterval := s.channelTurn_same (·.timerInterval) (fun _ _ => by simp) (fun _ _ => rfl)
@[simp] theorem State.channelTurn_inputs : (s.channelTurn).inputs = s.inputs := s.channelTurn_same (·.inputs) (fun _ _ => by simp) (fun _ _ => rfl)

/-! ### addressed -/

@[simp] theorem State.addressed_cfg (f : Fields) : (s.addressed f).cfg = s.cfg := by unfold State.addressed; split <;> simp
@[simp] theorem State.addressed_ic (f : Fields) : (s.addressed f).ic = s.ic := by unfold State.addressed; split <;> simp
@[simp] theorem State.addressed_ex (f : Fields) : (s.addressed f).ex = s.ex := by unfold State.addressed; split <;> simp
@[simp] theorem State.addressed_pr (f : Fields) : (s.addressed f).pr = s.pr := by unfold State.addressed; split <;> simp
@[simp] theorem State.addressed_ir (f : Fields) : (s.addressed f).ir = s.ir := by unfold State.addressed; split <;> simp
@[simp] theorem State.addressed_im (f : Fields) : (s.addressed f).im = s.im := by unfold State.addressed; split <;> simp
@[simp] theorem State.addressed_monitorMode (f : Fields) : (s.addressed f).monitorMode = s.monitorMode := by unfold State.addressed; split <;> simp
@[simp] theorem State.addressed_interruptDisabled (f : Fields) : (s.addressed f).interruptDisabled = s.interruptDisabled := by unfold State.addressed; split <;> simp
@[simp] theorem State.addressed_keys (f : Fields) : (s.addressed f).keys = s.keys := by unfold State.addressed; split <;> simp
@[simp] theorem State.addressed_phase (f : Fields) : (s.addressed f).phase = s.phase := by unfold State.addressed; split <;> simp
@[simp] theorem State.addressed_autoload (f : Fields) : (s.addressed f).autoload = s.autoload := by unfold State.addressed; split <;> simp
@[simp] theorem State.addressed_powerFailing (f : Fields) : (s.addressed f).powerFailing = s.powerFailing := by unfold State.addressed; split <;> simp
@[simp] theorem State.addressed_halt (f : Fields) : (s.addressed f).halt = s.halt := by unfold State.addressed; split <;> simp
@[simp] theorem State.addressed_cpuError (f : Fields) : (s.addressed f).cpuError = s.cpuError := by unfold State.addressed; split <;> simp
@[simp] theorem State.addressed_resetKey (f : Fields) : (s.addressed f).resetKey = s.resetKey := by unfold State.addressed; split <;> simp
@[simp] theorem State.addressed_startKey (f : Fields) : (s.addressed f).startKey = s.startKey := by unfold State.addressed; split <;> simp
@[simp] theorem State.addressed_autoloadKey (f : Fields) : (s.addressed f).autoloadKey = s.autoloadKey := by unfold State.addressed; split <;> simp
@[simp] theorem State.addressed_panelLocked (f : Fields) : (s.addressed f).panelLocked = s.panelLocked := by unfold State.addressed; split <;> simp
@[simp] theorem State.addressed_devices (f : Fields) : (s.addressed f).devices = s.devices := by unfold State.addressed; split <;> simp
@[simp] theorem State.addressed_timer (f : Fields) : (s.addressed f).timer = s.timer := by unfold State.addressed; split <;> simp
@[simp] theorem State.addressed_timerInterval (f : Fields) : (s.addressed f).timerInterval = s.timerInterval := by unfold State.addressed; split <;> simp
@[simp] theorem State.addressed_inputs (f : Fields) : (s.addressed f).inputs = s.inputs := by unfold State.addressed; split <;> simp

/-! ### testInteger -/

@[simp] theorem State.testInteger_cfg (v : BitVec 25) (c : Bool) : (s.testInteger v c).cfg = s.cfg := by unfold State.testInteger; split <;> rfl
@[simp] theorem State.testInteger_regs (v : BitVec 25) (c : Bool) : (s.testInteger v c).regs = s.regs := by unfold State.testInteger; split <;> rfl
@[simp] theorem State.testInteger_ic (v : BitVec 25) (c : Bool) : (s.testInteger v c).ic = s.ic := by unfold State.testInteger; split <;> rfl
@[simp] theorem State.testInteger_pr (v : BitVec 25) (c : Bool) : (s.testInteger v c).pr = s.pr := by unfold State.testInteger; split <;> rfl
@[simp] theorem State.testInteger_im (v : BitVec 25) (c : Bool) : (s.testInteger v c).im = s.im := by unfold State.testInteger; split <;> rfl
@[simp] theorem State.testInteger_monitorMode (v : BitVec 25) (c : Bool) : (s.testInteger v c).monitorMode = s.monitorMode := by unfold State.testInteger; split <;> rfl
@[simp] theorem State.testInteger_interruptDisabled (v : BitVec 25) (c : Bool) : (s.testInteger v c).interruptDisabled = s.interruptDisabled := by unfold State.testInteger; split <;> rfl
@[simp] theorem State.testInteger_store (v : BitVec 25) (c : Bool) : (s.testInteger v c).store = s.store := by unfold State.testInteger; split <;> rfl
@[simp] theorem State.testInteger_keys (v : BitVec 25) (c : Bool) : (s.testInteger v c).keys = s.keys := by unfold State.testInteger; split <;> rfl
@[simp] theorem State.testInteger_phase (v : BitVec 25) (c : Bool) : (s.testInteger v c).phase = s.phase := by unfold State.testInteger; split <;> rfl
@[simp] theorem State.testInteger_modifier (v : BitVec 25) (c : Bool) : (s.testInteger v c).modifier = s.modifier := by unfold State.testInteger; split <;> rfl
@[simp] theorem State.testInteger_autoload (v : BitVec 25) (c : Bool) : (s.testInteger v c).autoload = s.autoload := by unfold State.testInteger; split <;> rfl
@[simp] theorem State.testInteger_powerFailing (v : BitVec 25) (c : Bool) : (s.testInteger v c).powerFailing = s.powerFailing := by unfold State.testInteger; split <;> rfl
@[simp] theorem State.testInteger_halt (v : BitVec 25) (c : Bool) : (s.testInteger v c).halt = s.halt := by unfold State.testInteger; split <;> rfl
@[simp] theorem State.testInteger_cpuError (v : BitVec 25) (c : Bool) : (s.testInteger v c).cpuError = s.cpuError := by unfold State.testInteger; split <;> rfl
@[simp] theorem State.testInteger_resetKey (v : BitVec 25) (c : Bool) : (s.testInteger v c).resetKey = s.resetKey := by unfold State.testInteger; split <;> rfl
@[simp] theorem State.testInteger_startKey (v : BitVec 25) (c : Bool) : (s.testInteger v c).startKey = s.startKey := by unfold State.testInteger; split <;> rfl
@[simp] theorem State.testInteger_autoloadKey (v : BitVec 25) (c : Bool) : (s.testInteger v c).autoloadKey = s.autoloadKey := by unfold State.testInteger; split <;> rfl
@[simp] theorem State.testInteger_panelLocked (v : BitVec 25) (c : Bool) : (s.testInteger v c).panelLocked = s.panelLocked := by unfold State.testInteger; split <;> rfl
@[simp] theorem State.testInteger_devices (v : BitVec 25) (c : Bool) : (s.testInteger v c).devices = s.devices := by unfold State.testInteger; split <;> rfl
@[simp] theorem State.testInteger_timer (v : BitVec 25) (c : Bool) : (s.testInteger v c).timer = s.timer := by unfold State.testInteger; split <;> rfl
@[simp] theorem State.testInteger_timerInterval (v : BitVec 25) (c : Bool) : (s.testInteger v c).timerInterval = s.timerInterval := by unfold State.testInteger; split <;> rfl
@[simp] theorem State.testInteger_inputs (v : BitVec 25) (c : Bool) : (s.testInteger v c).inputs = s.inputs := by unfold State.testInteger; split <;> rfl
@[simp] theorem State.testInteger_channel (v : BitVec 25) (c : Bool) : (s.testInteger v c).channel = s.channel := by unfold State.testInteger; split <;> rfl

/-! ### testExponent -/

@[simp] theorem State.testExponent_cfg (v : BitVec 13) : (s.testExponent v).cfg = s.cfg := by unfold State.testExponent; split <;> rfl
@[simp] theorem State.testExponent_regs (v : BitVec 13) : (s.testExponent v).regs = s.regs := by unfold State.testExponent; split <;> rfl
@[simp] theorem State.testExponent_ic (v : BitVec 13) : (s.testExponent v).ic = s.ic := by unfold State.testExponent; split <;> rfl
@[simp] theorem State.testExponent_pr (v : BitVec 13) : (s.testExponent v).pr = s.pr := by unfold State.testExponent; split <;> rfl
@[simp] theorem State.testExponent_im (v : BitVec 13) : (s.testExponent v).im = s.im := by unfold State.testExponent; split <;> rfl
@[simp] theorem State.testExponent_monitorMode (v : BitVec 13) : (s.testExponent v).monitorMode = s.monitorMode := by unfold State.testExponent; split <;> rfl
@[simp] theorem State.testExponent_interruptDisabled (v : BitVec 13) : (s.testExponent v).interruptDisabled = s.interruptDisabled := by unfold State.testExponent; split <;> rfl
@[simp] theorem State.testExponent_store (v : BitVec 13) : (s.testExponent v).store = s.store := by unfold State.testExponent; split <;> rfl
@[simp] theorem State.testExponent_keys (v : BitVec 13) : (s.testExponent v).keys = s.keys := by unfold State.testExponent; split <;> rfl
@[simp] theorem State.testExponent_phase (v : BitVec 13) : (s.testExponent v).phase = s.phase := by unfold State.testExponent; split <;> rfl
@[simp] theorem State.testExponent_modifier (v : BitVec 13) : (s.testExponent v).modifier = s.modifier := by unfold State.testExponent; split <;> rfl
@[simp] theorem State.testExponent_autoload (v : BitVec 13) : (s.testExponent v).autoload = s.autoload := by unfold State.testExponent; split <;> rfl
@[simp] theorem State.testExponent_powerFailing (v : BitVec 13) : (s.testExponent v).powerFailing = s.powerFailing := by unfold State.testExponent; split <;> rfl
@[simp] theorem State.testExponent_halt (v : BitVec 13) : (s.testExponent v).halt = s.halt := by unfold State.testExponent; split <;> rfl
@[simp] theorem State.testExponent_cpuError (v : BitVec 13) : (s.testExponent v).cpuError = s.cpuError := by unfold State.testExponent; split <;> rfl
@[simp] theorem State.testExponent_resetKey (v : BitVec 13) : (s.testExponent v).resetKey = s.resetKey := by unfold State.testExponent; split <;> rfl
@[simp] theorem State.testExponent_startKey (v : BitVec 13) : (s.testExponent v).startKey = s.startKey := by unfold State.testExponent; split <;> rfl
@[simp] theorem State.testExponent_autoloadKey (v : BitVec 13) : (s.testExponent v).autoloadKey = s.autoloadKey := by unfold State.testExponent; split <;> rfl
@[simp] theorem State.testExponent_panelLocked (v : BitVec 13) : (s.testExponent v).panelLocked = s.panelLocked := by unfold State.testExponent; split <;> rfl
@[simp] theorem State.testExponent_devices (v : BitVec 13) : (s.testExponent v).devices = s.devices := by unfold State.testExponent; split <;> rfl
@[simp] theorem State.testExponent_timer (v : BitVec 13) : (s.testExponent v).timer = s.timer := by unfold State.testExponent; split <;> rfl
@[simp] theorem State.testExponent_timerInterval (v : BitVec 13) : (s.testExponent v).timerInterval = s.timerInterval := by unfold State.testExponent; split <;> rfl
@[simp] theorem State.testExponent_inputs (v : BitVec 13) : (s.testExponent v).inputs = s.inputs := by unfold State.testExponent; split <;> rfl
@[simp] theorem State.testExponent_channel (v : BitVec 13) : (s.testExponent v).channel = s.channel := by unfold State.testExponent; split <;> rfl

/-! ### overflowIf -/

@[simp] theorem State.overflowIf_cfg (c : Bool) : (s.overflowIf c).cfg = s.cfg := by unfold State.overflowIf; split <;> rfl
@[simp] theorem State.overflowIf_regs (c : Bool) : (s.overflowIf c).regs = s.regs := by unfold State.overflowIf; split <;> rfl
@[simp] theorem State.overflowIf_ic (c : Bool) : (s.overflowIf c).ic = s.ic := by unfold State.overflowIf; split <;> rfl
@[simp] theorem State.overflowIf_pr (c : Bool) : (s.overflowIf c).pr = s.pr := by unfold State.overflowIf; split <;> rfl
@[simp] theorem State.overflowIf_im (c : Bool) : (s.overflowIf c).im = s.im := by unfold State.overflowIf; split <;> rfl
@[simp] theorem State.overflowIf_monitorMode (c : Bool) : (s.overflowIf c).monitorMode = s.monitorMode := by unfold State.overflowIf; split <;> rfl
@[simp] theorem State.overflowIf_interruptDisabled (c : Bool) : (s.overflowIf c).interruptDisabled = s.interruptDisabled := by unfold State.overflowIf; split <;> rfl
@[simp] theorem State.overflowIf_store (c : Bool) : (s.overflowIf c).store = s.store := by unfold State.overflowIf; split <;> rfl
@[simp] theorem State.overflowIf_keys (c : Bool) : (s.overflowIf c).keys = s.keys := by unfold State.overflowIf; split <;> rfl
@[simp] theorem State.overflowIf_phase (c : Bool) : (s.overflowIf c).phase = s.phase := by unfold State.overflowIf; split <;> rfl
@[simp] theorem State.overflowIf_modifier (c : Bool) : (s.overflowIf c).modifier = s.modifier := by unfold State.overflowIf; split <;> rfl
@[simp] theorem State.overflowIf_autoload (c : Bool) : (s.overflowIf c).autoload = s.autoload := by unfold State.overflowIf; split <;> rfl
@[simp] theorem State.overflowIf_powerFailing (c : Bool) : (s.overflowIf c).powerFailing = s.powerFailing := by unfold State.overflowIf; split <;> rfl
@[simp] theorem State.overflowIf_halt (c : Bool) : (s.overflowIf c).halt = s.halt := by unfold State.overflowIf; split <;> rfl
@[simp] theorem State.overflowIf_cpuError (c : Bool) : (s.overflowIf c).cpuError = s.cpuError := by unfold State.overflowIf; split <;> rfl
@[simp] theorem State.overflowIf_resetKey (c : Bool) : (s.overflowIf c).resetKey = s.resetKey := by unfold State.overflowIf; split <;> rfl
@[simp] theorem State.overflowIf_startKey (c : Bool) : (s.overflowIf c).startKey = s.startKey := by unfold State.overflowIf; split <;> rfl
@[simp] theorem State.overflowIf_autoloadKey (c : Bool) : (s.overflowIf c).autoloadKey = s.autoloadKey := by unfold State.overflowIf; split <;> rfl
@[simp] theorem State.overflowIf_panelLocked (c : Bool) : (s.overflowIf c).panelLocked = s.panelLocked := by unfold State.overflowIf; split <;> rfl
@[simp] theorem State.overflowIf_devices (c : Bool) : (s.overflowIf c).devices = s.devices := by unfold State.overflowIf; split <;> rfl
@[simp] theorem State.overflowIf_timer (c : Bool) : (s.overflowIf c).timer = s.timer := by unfold State.overflowIf; split <;> rfl
@[simp] theorem State.overflowIf_timerInterval (c : Bool) : (s.overflowIf c).timerInterval = s.timerInterval := by unfold State.overflowIf; split <;> rfl
@[simp] theorem State.overflowIf_inputs (c : Bool) : (s.overflowIf c).inputs = s.inputs := by unfold State.overflowIf; split <;> rfl
@[simp] theorem State.overflowIf_channel (c : Bool) : (s.overflowIf c).channel = s.channel := by unfold State.overflowIf; split <;> rfl

/-! ### skipIf -/

@[simp] theorem State.skipIf_cfg (c : Bool) : (s.skipIf c).cfg = s.cfg := by unfold State.skipIf; split <;> rfl
@[simp] theorem State.skipIf_regs (c : Bool) : (s.skipIf c).regs = s.regs := by unfold State.skipIf; split <;> rfl
@[simp] theorem State.skipIf_ex (c : Bool) : (s.skipIf c).ex = s.ex := by unfold State.skipIf; split <;> rfl
@[simp] theorem State.skipIf_pr (c : Bool) : (s.skipIf c).pr = s.pr := by unfold State.skipIf; split <;> rfl
@[simp] theorem State.skipIf_ir (c : Bool) : (s.skipIf c).ir = s.ir := by unfold State.skipIf; split <;> rfl
@[simp] theorem State.skipIf_im (c : Bool) : (s.skipIf c).im = s.im := by unfold State.skipIf; split <;> rfl
@[simp] theorem State.skipIf_monitorMode (c : Bool) : (s.skipIf c).monitorMode = s.monitorMode := by unfold State.skipIf; split <;> rfl
@[simp] theorem State.skipIf_interruptDisabled (c : Bool) : (s.skipIf c).interruptDisabled = s.interruptDisabled := by unfold State.skipIf; split <;> rfl
@[simp] theorem State.skipIf_store (c : Bool) : (s.skipIf c).store = s.store := by unfold State.skipIf; split <;> rfl
@[simp] theorem State.skipIf_keys (c : Bool) : (s.skipIf c).keys = s.keys := by unfold State.skipIf; split <;> rfl
@[simp] theorem State.skipIf_phase (c : Bool) : (s.skipIf c).phase = s.phase := by unfold State.skipIf; split <;> rfl
@[simp] theorem State.skipIf_modifier (c : Bool) : (s.skipIf c).modifier = s.modifier := by unfold State.skipIf; split <;> rfl
@[simp] theorem State.skipIf_autoload (c : Bool) : (s.skipIf c).autoload = s.autoload := by unfold State.skipIf; split <;> rfl
@[simp] theorem State.skipIf_powerFailing (c : Bool) : (s.skipIf c).powerFailing = s.powerFailing := by unfold State.skipIf; split <;> rfl
@[simp] theorem State.skipIf_halt (c : Bool) : (s.skipIf c).halt = s.halt := by unfold State.skipIf; split <;> rfl
@[simp] theorem State.skipIf_cpuError (c : Bool) : (s.skipIf c).cpuError = s.cpuError := by unfold State.skipIf; split <;> rfl
@[simp] theorem State.skipIf_resetKey (c : Bool) : (s.skipIf c).resetKey = s.resetKey := by unfold State.skipIf; split <;> rfl
@[simp] theorem State.skipIf_startKey (c : Bool) : (s.skipIf c).startKey = s.startKey := by unfold State.skipIf; split <;> rfl
@[simp] theorem State.skipIf_autoloadKey (c : Bool) : (s.skipIf c).autoloadKey = s.autoloadKey := by unfold State.skipIf; split <;> rfl
@[simp] theorem State.skipIf_panelLocked (c : Bool) : (s.skipIf c).panelLocked = s.panelLocked := by unfold State.skipIf; split <;> rfl
@[simp] theorem State.skipIf_devices (c : Bool) : (s.skipIf c).devices = s.devices := by unfold State.skipIf; split <;> rfl
@[simp] theorem State.skipIf_timer (c : Bool) : (s.skipIf c).timer = s.timer := by unfold State.skipIf; split <;> rfl
@[simp] theorem State.skipIf_timerInterval (c : Bool) : (s.skipIf c).timerInterval = s.timerInterval := by unfold State.skipIf; split <;> rfl
@[simp] theorem State.skipIf_inputs (c : Bool) : (s.skipIf c).inputs = s.inputs := by unfold State.skipIf; split <;> rfl
@[simp] theorem State.skipIf_channel (c : Bool) : (s.skipIf c).channel = s.channel := by unfold State.skipIf; split <;> rfl

/-! ### jumpLink -/

@[simp] theorem State.jumpLink_cfg (w : WReg) (a : Word) : (s.jumpLink w a).cfg = s.cfg := by cases w <;> rfl
@[simp] theorem State.jumpLink_ex (w : WReg) (a : Word) : (s.jumpLink w a).ex = s.ex := by cases w <;> rfl
@[simp] theorem State.jumpLink_pr (w : WReg) (a : Word) : (s.jumpLink w a).pr = s.pr := by cases w <;> rfl
@[simp] theorem State.jumpLink_ir (w : WReg) (a : Word) : (s.jumpLink w a).ir = s.ir := by cases w <;> rfl
@[simp] theorem State.jumpLink_im (w : WReg) (a : Word) : (s.jumpLink w a).im = s.im := by cases w <;> rfl
@[simp] theorem State.jumpLink_monitorMode (w : WReg) (a : Word) : (s.jumpLink w a).monitorMode = s.monitorMode := by cases w <;> rfl
@[simp] theorem State.jumpLink_interruptDisabled (w : WReg) (a : Word) : (s.jumpLink w a).interruptDisabled = s.interruptDisabled := by cases w <;> rfl
@[simp] theorem State.jumpLink_store (w : WReg) (a : Word) : (s.jumpLink w a).store = s.store := by cases w <;> rfl
@[simp] theorem State.jumpLink_keys (w : WReg) (a : Word) : (s.jumpLink w a).keys = s.keys := by cases w <;> rfl
@[simp] theorem State.jumpLink_phase (w : WReg) (a : Word) : (s.jumpLink w a).phase = s.phase := by cases w <;> rfl
@[simp] theorem State.jumpLink_modifier (w : WReg) (a : Word) : (s.jumpLink w a).modifier = s.modifier := by cases w <;> rfl
@[simp] theorem State.jumpLink_autoload (w : WReg) (a : Word) : (s.jumpLink w a).autoload = s.autoload := by cases w <;> rfl
@[simp] theorem State.jumpLink_powerFailing (w : WReg) (a : Word) : (s.jumpLink w a).powerFailing = s.powerFailing := by cases w <;> rfl
@[simp] theorem State.jumpLink_halt (w : WReg) (a : Word) : (s.jumpLink w a).halt = s.halt := by cases w <;> rfl
@[simp] theorem State.jumpLink_cpuError (w : WReg) (a : Word) : (s.jumpLink w a).cpuError = s.cpuError := by cases w <;> rfl
@[simp] theorem State.jumpLink_resetKey (w : WReg) (a : Word) : (s.jumpLink w a).resetKey = s.resetKey := by cases w <;> rfl
@[simp] theorem State.jumpLink_startKey (w : WReg) (a : Word) : (s.jumpLink w a).startKey = s.startKey := by cases w <;> rfl
@[simp] theorem State.jumpLink_autoloadKey (w : WReg) (a : Word) : (s.jumpLink w a).autoloadKey = s.autoloadKey := by cases w <;> rfl
@[simp] theorem State.jumpLink_panelLocked (w : WReg) (a : Word) : (s.jumpLink w a).panelLocked = s.panelLocked := by cases w <;> rfl
@[simp] theorem State.jumpLink_devices (w : WReg) (a : Word) : (s.jumpLink w a).devices = s.devices := by cases w <;> rfl
@[simp] theorem State.jumpLink_timer (w : WReg) (a : Word) : (s.jumpLink w a).timer = s.timer := by cases w <;> rfl
@[simp] theorem State.jumpLink_timerInterval (w : WReg) (a : Word) : (s.jumpLink w a).timerInterval = s.timerInterval := by cases w <;> rfl
@[simp] theorem State.jumpLink_inputs (w : WReg) (a : Word) : (s.jumpLink w a).inputs = s.inputs := by cases w <;> rfl
@[simp] theorem State.jumpLink_channel (w : WReg) (a : Word) : (s.jumpLink w a).channel = s.channel := by cases w <;> rfl

/-! ### takeInterrupt -/

@[simp] theorem State.takeInterrupt_cfg (b : Nat) : (s.takeInterrupt b).cfg = s.cfg := by simp [State.takeInterrupt]
@[simp] theorem State.takeInterrupt_ex (b : Nat) : (s.takeInterrupt b).ex = s.ex := by simp [State.takeInterrupt]
@[simp] theorem State.takeInterrupt_pr (b : Nat) : (s.takeInterrupt b).pr = s.pr := by simp [State.takeInterrupt]
@[simp] theorem State.takeInterrupt_im (b : Nat) : (s.takeInterrupt b).im = s.im := by simp [State.takeInterrupt]
@[simp] theorem State.takeInterrupt_keys (b : Nat) : (s.takeInterrupt b).keys = s.keys := by simp [State.takeInterrupt]
@[simp] theorem State.takeInterrupt_phase (b : Nat) : (s.takeInterrupt b).phase = s.phase := by simp [State.takeInterrupt]
@[simp] theorem State.takeInterrupt_modifier (b : Nat) : (s.takeInterrupt b).modifier = s.modifier := by simp [State.takeInterrupt]
@[simp] theorem State.takeInterrupt_autoload (b : Nat) : (s.takeInterrupt b).autoload = s.autoload := by simp [State.takeInterrupt]
@[simp] theorem State.takeInterrupt_powerFailing (b : Nat) : (s.takeInterrupt b).powerFailing = s.powerFailing := by simp [State.takeInterrupt]
@[simp] theorem State.takeInterrupt_halt (b : Nat) : (s.takeInterrupt b).halt = s.halt := by simp [State.takeInterrupt]
@[simp] theorem State.takeInterrupt_cpuError (b : Nat) : (s.takeInterrupt b).cpuError = s.cpuError := by simp [State.takeInterrupt]
@[simp] theorem State.takeInterrupt_resetKey (b : Nat) : (s.takeInterrupt b).resetKey = s.resetKey := by simp [State.takeInterrupt]
@[simp] theorem State.takeInterrupt_startKey (b : Nat) : (s.takeInterrupt b).startKey = s.startKey := by simp [State.takeInterrupt]
@[simp] theorem State.takeInterrupt_autoloadKey (b : Nat) : (s.takeInterrupt b).autoloadKey = s.autoloadKey := by simp [State.takeInterrupt]
@[simp] theorem State.takeInterrupt_panelLocked (b : Nat) : (s.takeInterrupt b).panelLocked = s.panelLocked := by simp [State.takeInterrupt]
@[simp] theorem State.takeInterrupt_devices (b : Nat) : (s.takeInterrupt b).devices = s.devices := by simp [State.takeInterrupt]
@[simp] theorem State.takeInterrupt_timer (b : Nat) : (s.takeInterrupt b).timer = s.timer := by simp [State.takeInterrupt]
@[simp] theorem State.takeInterrupt_timerInterval (b : Nat) : (s.takeInterrupt b).timerInterval = s.timerInterval := by simp [State.takeInterrupt]
@[simp] theorem State.takeInterrupt_inputs (b : Nat) : (s.takeInterrupt b).inputs = s.inputs := by simp [State.takeInterrupt]

/-! ### instructionException -/

@[simp] theorem State.instructionException_cfg : (s.instructionException).cfg = s.cfg := by simp [State.instructionException]
@[simp] theorem State.instructionException_ex : (s.instructionException).ex = s.ex := by simp [State.instructionException]
@[simp] theorem State.instructionException_pr : (s.instructionException).pr = s.pr := by simp [State.instructionException]
@[simp] theorem State.instructionException_im : (s.instructionException).im = s.im := by simp [State.instructionException]
@[simp] theorem State.instructionException_keys : (s.instructionException).keys = s.keys := by simp [State.instructionException]
@[simp] theorem State.instructionException_autoload : (s.instructionException).autoload = s.autoload := by simp [State.instructionException]
@[simp] theorem State.instructionException_powerFailing : (s.instructionException).powerFailing = s.powerFailing := by simp [State.instructionException]
@[simp] theorem State.instructionException_halt : (s.instructionException).halt = s.halt := by simp [State.instructionException]
@[simp] theorem State.instructionException_cpuError : (s.instructionException).cpuError = s.cpuError := by simp [State.instructionException]
@[simp] theorem State.instructionException_resetKey : (s.instructionException).resetKey = s.resetKey := by simp [State.instructionException]
@[simp] theorem State.instructionException_startKey : (s.instructionException).startKey = s.startKey := by simp [State.instructionException]
@[simp] theorem State.instructionException_autoloadKey : (s.instructionException).autoloadKey = s.autoloadKey := by simp [State.instructionException]
@[simp] theorem State.instructionException_panelLocked : (s.instructionException).panelLocked = s.panelLocked := by simp [State.instructionException]
@[simp] theorem State.instructionException_devices : (s.instructionException).devices = s.devices := by simp [State.instructionException]
@[simp] theorem State.instructionException_timer : (s.instructionException).timer = s.timer := by simp [State.instructionException]
@[simp] theorem State.instructionException_timerInterval : (s.instructionException).timerInterval = s.timerInterval := by simp [State.instructionException]
@[simp] theorem State.instructionException_inputs : (s.instructionException).inputs = s.inputs := by simp [State.instructionException]

/-! ### resetSystem -/

@[simp] theorem State.resetSystem_cfg : (s.resetSystem).cfg = s.cfg := by simp [State.resetSystem]
@[simp] theorem State.resetSystem_ic : (s.resetSystem).ic = s.ic := by simp [State.resetSystem]
@[simp] theorem State.resetSystem_ex : (s.resetSystem).ex = s.ex := by simp [State.resetSystem]
@[simp] theorem State.resetSystem_pr : (s.resetSystem).pr = s.pr := by simp [State.resetSystem]
@[simp] theorem State.resetSystem_ir : (s.resetSystem).ir = s.ir := by simp [State.resetSystem]
@[simp] theorem State.resetSystem_im : (s.resetSystem).im = s.im := by simp [State.resetSystem]
@[simp] theorem State.resetSystem_keys : (s.resetSystem).keys = s.keys := by simp [State.resetSystem]
@[simp] theorem State.resetSystem_powerFailing : (s.resetSystem).powerFailing = s.powerFailing := by simp [State.resetSystem]
@[simp] theorem State.resetSystem_halt : (s.resetSystem).halt = s.halt := by simp [State.resetSystem]
@[simp] theorem State.resetSystem_cpuError : (s.resetSystem).cpuError = s.cpuError := by simp [State.resetSystem]
@[simp] theorem State.resetSystem_panelLocked : (s.resetSystem).panelLocked = s.panelLocked := by simp [State.resetSystem]
@[simp] theorem State.resetSystem_devices : (s.resetSystem).devices = s.devices := by simp [State.resetSystem]
@[simp] theorem State.resetSystem_timer : (s.resetSystem).timer = s.timer := by simp [State.resetSystem]
@[simp] theorem State.resetSystem_timerInterval : (s.resetSystem).timerInterval = s.timerInterval := by simp [State.resetSystem]
@[simp] theorem State.resetSystem_inputs : (s.resetSystem).inputs = s.inputs := by simp [State.resetSystem]

/-! ### The fields the updates assign -/

@[simp] theorem State.addressed_modifier (f : Fields) : (s.addressed f).modifier = none := rfl
@[simp] theorem State.clearExceptions_ex : s.clearExceptions.ex = s.ex &&& 0b100#3 := rfl
@[simp] theorem State.integerOverflow_ex : s.integerOverflow.ex = s.ex ||| 0b010#3 := rfl
@[simp] theorem State.integerOverflow_ir : s.integerOverflow.ir = s.ir ||| bitMask 1 := rfl
@[simp] theorem State.floatingOverflow_ex : s.floatingOverflow.ex = s.ex ||| 0b010#3 := rfl
@[simp] theorem State.floatingOverflow_ir : s.floatingOverflow.ir = s.ir ||| bitMask 2 := rfl
@[simp] theorem State.skip_ic : s.skip.ic = s.ic + 2#24 := rfl
@[simp] theorem State.writeKey_keys (a : Word) (k : Key) :
    (s.writeKey a k).keys = Sparse.set unlistedKey s.keys (wordNumber a) k := rfl
@[simp] theorem State.powerOn_monitorMode : s.powerOn.monitorMode = true := rfl
@[simp] theorem State.powerOn_interruptDisabled : s.powerOn.interruptDisabled = true := rfl
@[simp] theorem State.powerOn_resetKey : s.powerOn.resetKey = false := rfl
@[simp] theorem State.powerOn_startKey : s.powerOn.startKey = false := rfl
@[simp] theorem State.powerOn_autoloadKey : s.powerOn.autoloadKey = false := rfl
@[simp] theorem State.powerOn_phase : s.powerOn.phase = .afterReset := rfl
@[simp] theorem State.powerOn_modifier : s.powerOn.modifier = none := rfl
@[simp] theorem State.powerOn_autoload : s.powerOn.autoload = none := rfl
@[simp] theorem State.jumpLink_ic (w : WReg) (a : Word) : (s.jumpLink w a).ic = evenAddress a := by cases w <;> rfl
@[simp] theorem State.takeInterrupt_monitorMode (b : Nat) : (s.takeInterrupt b).monitorMode = true := rfl
@[simp] theorem State.takeInterrupt_interruptDisabled (b : Nat) : (s.takeInterrupt b).interruptDisabled = true := rfl
@[simp] theorem State.takeInterrupt_ir (b : Nat) : (s.takeInterrupt b).ir = s.ir &&& ~~~bitMask b := by
  simp [State.takeInterrupt]
@[simp] theorem State.instructionException_monitorMode : s.instructionException.monitorMode = true := rfl
@[simp] theorem State.instructionException_interruptDisabled : s.instructionException.interruptDisabled = true := rfl
@[simp] theorem State.instructionException_modifier : s.instructionException.modifier = none := by
  simp [State.instructionException]
@[simp] theorem State.instructionException_phase : s.instructionException.phase = .fetching := by
  simp [State.instructionException]
@[simp] theorem State.resetSystem_monitorMode : s.resetSystem.monitorMode = true := rfl
@[simp] theorem State.resetSystem_interruptDisabled : s.resetSystem.interruptDisabled = true := rfl
@[simp] theorem State.resetSystem_phase : s.resetSystem.phase = .afterReset := rfl
@[simp] theorem State.resetSystem_modifier : s.resetSystem.modifier = none := rfl
@[simp] theorem State.resetSystem_autoload : s.resetSystem.autoload = none := rfl
@[simp] theorem State.resetSystem_resetKey : s.resetSystem.resetKey = false := rfl

end Sys2Proof.Machine
end

