-- ==== Sys2Proof/Laws/Ops.lean ====
section
/-! SUPPORT. The laws of the named operations: registers, store and keys read after a write, the canonical forms kept, and for
each test and for the address modification the cases it can end in. -/

namespace Sys2Proof.Machine

/-! ## Halves of a word -/

@[simp] theorem leftByte_append (x y : Byte) : leftByte (x ++ y) = x := by
  unfold leftByte
  ext i hi
  simp only [BitVec.getElem_extractLsb', BitVec.getLsbD_append]
  rw [if_neg (by omega), show 12 + i - 12 = i by omega]
  rfl

@[simp] theorem rightByte_append (x y : Byte) : rightByte (x ++ y) = y := by
  unfold rightByte
  ext i hi
  simp only [BitVec.getElem_setWidth, BitVec.getLsbD_append]
  rw [if_pos hi]
  rfl

@[simp] theorem leftByte_append_rightByte (v : Word) : leftByte v ++ rightByte v = v := by
  unfold leftByte rightByte
  ext i hi
  simp only [← BitVec.getLsbD_eq_getElem, BitVec.getLsbD_append, BitVec.getLsbD_extractLsb',
    BitVec.getLsbD_setWidth]
  by_cases h : i < 12
  · simp [h]
  · simp only [h, decide_false, if_false]
    rw [show 12 + (i - 12) = i by omega]
    simp [show i - 12 < 12 by omega]

/-! ## Registers -/

/-- A register assigned is seen under its own name and no other changes. -/
@[simp] theorem State.reg_setReg (s : State) (r q : WReg) (v : Word) :
    (s.setReg r v).reg q = if q = r then v else s.reg q := by
  cases r <;> cases q <;> rfl

theorem wpre_ne (r : WReg) : wpre r ≠ r := by cases r <;> decide

/-- The double register assigned: left half, right half, the two others unchanged. -/
theorem State.reg_setPair (s : State) (r q : WReg) (v : DoubleWord) :
    (s.setPair r v).reg q
      = if q = r then v.setWidth 24 else if q = wpre r then v.extractLsb' 24 24 else s.reg q := by
  simp only [State.setPair, State.reg_setReg]

@[simp] theorem State.pair_setPair (s : State) (r : WReg) (v : DoubleWord) : (s.setPair r v).pair r = v := by
  simp only [State.pair, State.reg_setPair, if_neg (wpre_ne r), if_true]
  ext i hi
  simp only [← BitVec.getLsbD_eq_getElem, BitVec.getLsbD_append, BitVec.getLsbD_extractLsb',
    BitVec.getLsbD_setWidth]
  by_cases h : i < 24
  · simp [h]
  · simp only [h, decide_false, if_false]
    rw [show 24 + (i - 24) = i by omega]
    simp [show i - 24 < 24 by omega]

/-! ## Words and bytes of the store -/

theorem registerAt_of_le {n : Nat} (h : 4 ≤ n) : registerAt n = none := by
  match n, h with
  | n + 4, _ => rfl

theorem registerAt_inj {m n : Nat} {r : WReg} (hm : registerAt m = some r) (hn : registerAt n = some r) : m = n := by
  match m, n with
  | 0, 0 | 1, 1 | 2, 2 | 3, 3 => rfl
  | 0, 1 | 0, 2 | 0, 3 | 1, 0 | 1, 2 | 1, 3 | 2, 0 | 2, 1 | 2, 3 | 3, 0 | 3, 1 | 3, 2 =>
    simp [registerAt] at hm hn; subst hm; simp at hn
  | m + 4, _ => simp [registerAt] at hm
  | 0, n + 4 | 1, n + 4 | 2, n + 4 | 3, n + 4 => simp [registerAt] at hn

/-- A word written is read back, and no other word changes, registers among them (R23, R63 to R65). -/
theorem State.readWord_writeWord (s : State) (a b v : Word) :
    (s.writeWord a v).readWord b = if wordNumber b = wordNumber a then v else s.readWord b := by
  unfold State.writeWord State.readWord
  by_cases hba : wordNumber b = wordNumber a
  · rw [hba, if_pos rfl]
    cases ha : registerAt (wordNumber a) with
    | some r => simp
    | none => simp [Memory.byte, Memory.setByte, Sparse.get_set]
  · rw [if_neg hba]
    cases ha : registerAt (wordNumber a) with
    | some r =>
      cases hb : registerAt (wordNumber b) with
      | some q =>
        have : q ≠ r := fun h => hba (registerAt_inj (h ▸ hb) ha)
        simp [this]
      | none => simp
    | none =>
      cases hb : registerAt (wordNumber b) with
      | some q => rfl
      | none =>
        simp only [Memory.byte, Memory.setByte, Sparse.get_set]
        rw [if_neg (by omega), if_neg (by omega), if_neg (by omega), if_neg (by omega)]

/-- A word written changes the register that is that word and no other (R64). -/
theorem State.reg_writeWord (s : State) (a v : Word) (r : WReg) :
    (s.writeWord a v).reg r = if registerAt (wordNumber a) = some r then v else s.reg r := by
  unfold State.writeWord
  cases ha : registerAt (wordNumber a) with
  | some q => by_cases h : r = q <;> simp [h, eq_comm]
  | none => cases r <;> simp [State.reg]

/-- A register assigned is the word that it is. -/
theorem State.readWord_setReg (s : State) (r : WReg) (v b : Word) :
    (s.setReg r v).readWord b = if registerAt (wordNumber b) = some r then v else s.readWord b := by
  unfold State.readWord
  cases hb : registerAt (wordNumber b) with
  | some q => by_cases h : q = r <;> simp [h]
  | none => simp

/-- The byte at an address is half of the word at it (R62). -/
theorem State.readByte_eq_of_readWord {s t : State} {a : Word} (h : t.readWord a = s.readWord a) :
    t.readByte a = s.readByte a := by
  simp [State.readByte, h]

theorem wordNumber_lt (a : Word) : wordNumber a < 8388608 := by
  unfold wordNumber
  have := a.isLt
  omega

theorem getMsbD_23 (a : Word) : a.getMsbD 23 = decide (a.toNat % 2 = 1) := by
  simp [BitVec.getMsbD, BitVec.getLsbD, Nat.testBit_zero]

/-- Two byte addresses in one word are equal or differ in bit 23. -/
theorem eq_of_wordNumber {a b : Word} (h : wordNumber b = wordNumber a) (h' : b.getMsbD 23 = a.getMsbD 23) : b = a := by
  rw [getMsbD_23, getMsbD_23, decide_eq_decide] at h'
  unfold wordNumber at h
  apply BitVec.eq_of_toNat_eq
  omega

/-- A byte written is read back, and no other byte changes (R62, R65). -/
theorem State.readByte_writeByte (s : State) (a b : Word) (v : Byte) :
    (s.writeByte a v).readByte b = if b = a then v else s.readByte b := by
  unfold State.writeByte State.readByte
  rw [State.readWord_writeWord]
  by_cases hba : b = a
  · subst hba
    by_cases hb : b.getMsbD 23 = true <;> simp [hb]
  · rw [if_neg hba]
    by_cases hw : wordNumber b = wordNumber a
    · have hne : b.getMsbD 23 ≠ a.getMsbD 23 := fun h => hba (eq_of_wordNumber hw h)
      have hr : s.readWord b = s.readWord a := by simp [State.readWord, hw]
      rw [if_pos hw, hr]
      cases hb : b.getMsbD 23 <;> cases ha : a.getMsbD 23 <;> simp_all
    · rw [if_neg hw]

/-- A byte written leaves every other word alone. -/
theorem State.readWord_writeByte (s : State) (a b : Word) (v : Byte) (h : wordNumber b ≠ wordNumber a) :
    (s.writeByte a v).readWord b = s.readWord b := by
  rw [State.writeByte, State.readWord_writeWord, if_neg h]

/-- A byte written leaves every register alone but the one that is that word. -/
theorem State.reg_writeByte (s : State) (a : Word) (v : Byte) (r : WReg) (h : registerAt (wordNumber a) ≠ some r) :
    (s.writeByte a v).reg r = s.reg r := by
  rw [State.writeByte, State.reg_writeWord, if_neg h]

/-- What reads a word reads no other part of the state than store and registers. -/
theorem State.readWord_congr {s t : State} (hr : t.regs = s.regs) (hs : t.store = s.store) (a : Word) :
    t.readWord a = s.readWord a := by
  have hreg : ∀ r, t.reg r = s.reg r := by intro r; cases r <;> simp [State.reg, hr]
  unfold State.readWord
  cases registerAt (wordNumber a) <;> simp [hreg, hs]

theorem State.reg_congr {s t : State} (hr : t.regs = s.regs) (r : WReg) : t.reg r = s.reg r := by
  cases r <;> simp [State.reg, hr]

theorem State.readByte_congr {s t : State} (hr : t.regs = s.regs) (hs : t.store = s.store) (a : Word) :
    t.readByte a = s.readByte a := State.readByte_eq_of_readWord (State.readWord_congr hr hs a)

/-! ## Keys -/

/-- A key written is read back, and no other key changes (R66). -/
theorem State.readKey_writeKey (s : State) (a b : Word) (k : Key) :
    (s.writeKey a k).readKey b = if wordNumber b = wordNumber a then k else s.readKey b := by
  simp [State.readKey, State.writeKey, Sparse.get_set]

/-! ## Canonical forms -/

/-- Every write of a word keeps the store's canonical form. -/
theorem State.wf_writeWord (s : State) (a v : Word) (h : Memory.wf s.store = true) :
    Memory.wf (s.writeWord a v).store = true := by
  unfold State.writeWord
  cases ha : registerAt (wordNumber a) with
  | some r => simpa [State.setReg_store] using h
  | none =>
    have h4 : 4 ≤ wordNumber a := by
      by_contra hlt
      match hn : wordNumber a, hlt with
      | 0, _ | 1, _ | 2, _ | 3, _ => simp [hn, registerAt] at ha
      | n + 4, hlt => omega
    exact Sparse.canonicalFrom_set _ _ _ _ _ (by omega) (Sparse.canonicalFrom_set _ _ _ _ _ (by omega) h)

/-- Every write of a byte keeps the store's canonical form. -/
theorem State.wf_writeByte (s : State) (a : Word) (v : Byte) (h : Memory.wf s.store = true) :
    Memory.wf (s.writeByte a v).store = true := State.wf_writeWord s a _ h

/-- Every write of a key keeps the keys' canonical form. -/
theorem State.wf_writeKey (s : State) (a : Word) (k : Key) (h : KeyStore.wf s.keys = true) :
    KeyStore.wf (s.writeKey a k).keys = true := Sparse.canonicalFrom_set _ _ _ _ _ (Nat.zero_le _) h

theorem State.reset_wf : Memory.wf State.reset.store = true ∧ KeyStore.wf State.reset.keys = true := ⟨rfl, rfl⟩

/-! ## What the shared operations can do -/

/-- The address modification: the operation with the effective address, or the instruction exception (R115). -/
theorem State.withAddress_cases (s : State) (f : Fields) (operation : Word → State → State) :
    (∃ a, s.effectiveAddress f = some a ∧ s.withAddress f operation = operation a (s.addressed f)) ∨
      (s.effectiveAddress f = none ∧ s.withAddress f operation = s.instructionException) := by
  unfold State.withAddress
  cases s.effectiveAddress f with
  | some a => exact .inl ⟨a, rfl, rfl⟩
  | none => exact .inr ⟨rfl, rfl⟩

theorem State.withAddress_some {s : State} {f : Fields} {a : Word} (h : s.effectiveAddress f = some a)
    (operation : Word → State → State) : s.withAddress f operation = operation a (s.addressed f) := by
  simp [State.withAddress, h]

theorem State.withAddress_none {s : State} {f : Fields} (h : s.effectiveAddress f = none)
    (operation : Word → State → State) : s.withAddress f operation = s.instructionException := by
  simp [State.withAddress, h]

/-- There is no effective address only for an indirect address that does not exist. -/
theorem State.effectiveAddress_none {s : State} {f : Fields} :
    s.effectiveAddress f = none ↔ f.indirect = true ∧ s.inStore (s.indexedAddress f) = false := by
  unfold State.effectiveAddress
  cases f.indirect <;> cases h : s.inStore (s.indexedAddress f) <;> simp [h]

theorem State.testAddress_cases (s rest : State) (a : Word) :
    (s.inStore a = true ∧ s.testAddress a rest = rest) ∨
      (s.inStore a = false ∧ s.testAddress a rest = s.instructionException) := by
  unfold State.testAddress
  cases s.inStore a <;> simp

theorem State.testMode_cases (s rest : State) :
    (s.monitorMode = true ∧ s.testMode rest = rest) ∨
      (s.monitorMode = false ∧ s.testMode rest = s.instructionException) := by
  unfold State.testMode
  cases s.monitorMode <;> simp

theorem State.testProtection_cases (s rest : State) (a : Word) :
    (s.denied a = false ∧ s.testProtection a rest = rest) ∨
      (s.denied a = true ∧ s.testProtection a rest = s.instructionException) := by
  unfold State.testProtection
  cases s.denied a <;> simp

/-! ## The channel's turn -/

@[simp] theorem State.channelTurn_readKey (s : State) (a : Word) : s.channelTurn.readKey a = s.readKey a := by
  simp [State.readKey]
@[simp] theorem State.channelTurn_inStore (s : State) (a : Word) : s.channelTurn.inStore a = s.inStore a := by
  simp [State.inStore]
@[simp] theorem State.channelTurn_keyProtected (s : State) (k : Key) :
    s.channelTurn.keyProtected k = s.keyProtected k := by simp [State.keyProtected]
@[simp] theorem State.channelTurn_denied (s : State) (a : Word) : s.channelTurn.denied a = s.denied a := by
  simp [State.denied]
@[simp] theorem State.addressed_readKey (s : State) (f : Fields) (a : Word) :
    (s.addressed f).readKey a = s.readKey a := by simp [State.readKey]
@[simp] theorem State.addressed_inStore (s : State) (f : Fields) (a : Word) :
    (s.addressed f).inStore a = s.inStore a := by simp [State.inStore]
@[simp] theorem State.addressed_denied (s : State) (f : Fields) (a : Word) :
    (s.addressed f).denied a = s.denied a := by simp [State.denied, State.keyProtected]

/-- Without a script the channel does nothing. -/
theorem State.channelTurn_nil {s : State} (h : s.channel = []) : s.channelTurn = s := by
  simp [State.channelTurn, h]

/-- A turn uses up one batch of the script. -/
@[simp] theorem State.channelTurn_channel (s : State) : s.channelTurn.channel = s.channel.tail := by
  have hf : ∀ (batch : List ChannelWrite) (t : State), (batch.foldl State.channelWrite t).channel = t.channel := by
    intro batch
    induction batch with
    | nil => intro t; rfl
    | cons w batch ih => intro t; rw [List.foldl_cons, ih, State.channelWrite_channel]
  unfold State.channelTurn
  split
  · simp_all
  · simp [*]

theorem State.channelSpares_channelTurn {s : State} {n : Nat} (h : s.channelSpares n) :
    s.channelTurn.channelSpares n := by
  intro batch hb
  rw [State.channelTurn_channel] at hb
  exact h batch (List.mem_of_mem_tail hb)

/-- One write of the channel leaves every word alone but the one it names. -/
theorem State.readWord_channelWrite (s : State) (w : ChannelWrite) (a : Word) (h : wordNumber w.address ≠ wordNumber a) :
    (s.channelWrite w).readWord a = s.readWord a := by
  unfold State.channelWrite
  split
  · rw [State.readWord_writeWord, if_neg (Ne.symm h)]
  · rfl

/-- A word that the channel's script does not name reads after the turn as before it. -/
theorem State.readWord_channelTurn {s : State} {a : Word} (h : s.channelSpares (wordNumber a)) :
    s.channelTurn.readWord a = s.readWord a := by
  have hf : ∀ (batch : List ChannelWrite) (t : State), (∀ w ∈ batch, wordNumber w.address ≠ wordNumber a) →
      (batch.foldl State.channelWrite t).readWord a = t.readWord a := by
    intro batch
    induction batch with
    | nil => intro t _; rfl
    | cons w batch ih =>
      intro t hw
      rw [List.foldl_cons, ih _ (fun v hv => hw v (List.mem_cons_of_mem _ hv)),
        State.readWord_channelWrite _ _ _ (hw w List.mem_cons_self)]
  unfold State.channelTurn
  split
  · rfl
  · rename_i batch rest hc
    rw [hf batch _ (h batch (by simp [hc]))]
    exact State.readWord_congr rfl rfl a

/-- A working register that the channel's script does not name is as before. -/
theorem State.reg_channelTurn {s : State} {r : WReg} (h : s.channelSpares (registerNumber r)) :
    s.channelTurn.reg r = s.reg r := by
  cases r
  · exact State.readWord_channelTurn (a := 0#24) h
  · exact State.readWord_channelTurn (a := 2#24) h
  · exact State.readWord_channelTurn (a := 4#24) h
  · exact State.readWord_channelTurn (a := 6#24) h

/-- The channel's turn keeps the store's canonical form. -/
theorem State.wf_channelTurn (s : State) (h : Memory.wf s.store = true) : Memory.wf s.channelTurn.store = true := by
  have hf : ∀ (batch : List ChannelWrite) (t : State), Memory.wf t.store = true →
      Memory.wf (batch.foldl State.channelWrite t).store = true := by
    intro batch
    induction batch with
    | nil => intro t ht; exact ht
    | cons w batch ih =>
      intro t ht
      rw [List.foldl_cons]
      apply ih
      unfold State.channelWrite
      split
      · exact State.wf_writeWord _ _ _ ht
      · exact ht
  unfold State.channelTurn
  split
  · exact h
  · exact hf _ _ h

/-- The turn does not look at EX, IR or the modifier: an update of these may come before it or after it. -/
theorem State.channelTurn_comm (update : State → State) (hc : ∀ s, (update s).channel = s.channel)
    (hr : ∀ s rest, update { s with channel := rest } = { update s with channel := rest })
    (hw : ∀ s w, (update s).channelWrite w = update (s.channelWrite w)) (s : State) :
    (update s).channelTurn = update s.channelTurn := by
  have hf : ∀ (batch : List ChannelWrite) (t : State),
      batch.foldl State.channelWrite (update t) = update (batch.foldl State.channelWrite t) := by
    intro batch
    induction batch with
    | nil => intro t; rfl
    | cons w batch ih => intro t; rw [List.foldl_cons, hw, ih, List.foldl_cons]
  unfold State.channelTurn
  rw [hc]
  split
  · rfl
  · rw [← hr, hf]

theorem State.clearExceptions_channelWrite (s : State) (w : ChannelWrite) :
    s.clearExceptions.channelWrite w = (s.channelWrite w).clearExceptions := by
  unfold State.channelWrite
  have : s.clearExceptions.channelAllows w = s.channelAllows w := rfl
  rw [this]
  split
  · unfold State.writeWord
    cases registerAt (wordNumber w.address) with
    | none => rfl
    | some r => cases r <;> rfl
  · rfl

/-- EX[22:23] cleared before the turn or after it (R361 (a)). -/
theorem State.clearExceptions_channelTurn (s : State) :
    s.clearExceptions.channelTurn = s.channelTurn.clearExceptions :=
  State.channelTurn_comm State.clearExceptions (fun _ => rfl) (fun _ _ => rfl) State.clearExceptions_channelWrite s

/-! ## Interruption -/

/-- Taking an interruption (R112, R294): the counter, IR and the two flags; the two words written and every other word, as
far as the channel's script does not name them. -/
theorem State.takeInterrupt_spec (s : State) (b : Nat) :
    (s.channelSpares 4 → (s.takeInterrupt b).readWord 8#24 = BitVec.ofNat 24 (2 * b)) ∧
      (s.channelSpares 5 → (s.takeInterrupt b).readWord 10#24 = s.ic) ∧
      (s.takeInterrupt b).ic = evenAddress ((s.takeInterrupt b).readWord 12#24) ∧
      (s.takeInterrupt b).ir = s.ir &&& ~~~ bitMask b ∧
      (s.takeInterrupt b).monitorMode = true ∧ (s.takeInterrupt b).interruptDisabled = true ∧
      ∀ a, s.channelSpares (wordNumber a) → wordNumber a ≠ 4 → wordNumber a ≠ 5 →
        (s.takeInterrupt b).readWord a = s.readWord a := by
  have h8 : wordNumber 8#24 = 4 := rfl
  have h10 : wordNumber 10#24 = 5 := rfl
  let c : State := { s with ir := s.ir &&& ~~~ bitMask b }
  let n := c.channelTurn.writeWord 8#24 (BitVec.ofNat 24 (2 * b))
  let v := n.channelTurn.writeWord 10#24 s.ic
  have hread : ∀ a, (s.takeInterrupt b).readWord a = v.channelTurn.readWord a := State.readWord_congr rfl rfl
  have hc : ∀ {k}, s.channelSpares k → c.channelSpares k := fun h => h
  have hn : ∀ {k}, s.channelSpares k → n.channelSpares k := fun h batch hb =>
    State.channelSpares_channelTurn (hc h) batch (by simpa [n] using hb)
  have hv : ∀ {k}, s.channelSpares k → v.channelSpares k := fun h batch hb =>
    State.channelSpares_channelTurn (hn h) batch (by simpa [v] using hb)
  have hlast : ∀ a, s.channelSpares (wordNumber a) → (s.takeInterrupt b).readWord a = v.readWord a := fun a h => by
    rw [hread, State.readWord_channelTurn (hv h)]
  have hmid : ∀ a, s.channelSpares (wordNumber a) → wordNumber a ≠ 5 → v.readWord a = n.readWord a := fun a h h5 => by
    simp only [v]
    rw [State.readWord_writeWord, h10, if_neg h5, State.readWord_channelTurn (hn h)]
  refine ⟨fun h => ?_, fun h => ?_, ?_, by simp, rfl, rfl, fun a h h4 h5 => ?_⟩
  · rw [hlast 8#24 h, hmid 8#24 h (by decide)]
    simp [n, State.readWord_writeWord]
  · rw [hlast 10#24 h]
    simp [v, State.readWord_writeWord]
  · rw [hread]
    rfl
  · rw [hlast _ h, hmid _ h h5]
    simp only [n]
    rw [State.readWord_writeWord, h8, if_neg h4, State.readWord_channelTurn (hc h)]
    exact State.readWord_congr rfl rfl a

/-! ## Where a step goes on -/

@[simp] theorem State.afterInstruction_some {s : State} {c : PowerOnContents} (h : s.powerFailing = some c)
    (rest : Result) : s.afterInstruction rest = .next (s.powerFailure c) := by simp [State.afterInstruction, h]

@[simp] theorem State.afterInstruction_none {s : State} (h : s.powerFailing = none) (rest : Result) :
    s.afterInstruction rest = rest := by simp [State.afterInstruction, h]

/-- All that a step can do at a boundary, whichever label the machine stands at. -/
theorem State.continueFrom_cases (s : State) :
    (∃ h, s.halt = some h ∧ s.continueFrom = s.halted h) ∨
      (s.halt = none ∧ s.phase = .afterReset ∧ s.continueFrom = s.waitingForStart) ∨
      (s.halt = none ∧ s.phase ≠ .afterReset ∧
        ∃ c, s.powerFailing = some c ∧ s.continueFrom = .next (s.powerFailure c)) ∨
      (s.undisturbed .running ∧ s.continueFrom = s.nextInstruction.fetch true) ∨
      (s.undisturbed .fetching ∧ s.continueFrom = s.fetch true) := by
  cases hh : s.halt with
  | some h => exact .inl ⟨h, rfl, by simp [State.continueFrom, hh]⟩
  | none =>
    cases hp : s.phase with
    | afterReset => simp [State.continueFrom, hh, hp]
    | running =>
      cases hf : s.powerFailing <;>
        simp [State.continueFrom, State.boundary, State.afterInstruction, State.undisturbed, hh, hp, hf]
    | fetching =>
      cases hf : s.powerFailing <;>
        simp [State.continueFrom, State.fetchAfterException, State.afterInstruction, State.undisturbed, hh, hp, hf]

end Sys2Proof.Machine
end

