-- ==== Sys2Proof/Laws/Frames.lean ====
section
/-! SUPPORT. The frames of the shared updates: what assigning a register, a word, a byte leaves alone, in the terms that
statements use. -/

namespace Sys2Proof.Machine

theorem registerAt_high {a : Word} (h : 8 ≤ a.toNat) : registerAt (wordNumber a) = none :=
  registerAt_of_le (by unfold wordNumber; omega)

theorem SameStore.of_store {s t : State} (h : t.store = s.store) : SameStore s t := by
  intro a ha
  apply State.readByte_eq_of_readWord
  simp [State.readWord, registerAt_high ha, h]

theorem SameKeys.of_keys {s t : State} (h : t.keys = s.keys) : SameKeys s t := by
  intro a
  simp [State.readKey, h]

/-- A state in which the modifier has been used up leaves itself alone. -/
theorem SameRest.refl {s : State} (h : s.modifier = none) : SameRest s s :=
  ⟨fun _ => rfl, ⟨rfl, rfl, rfl, rfl⟩, ⟨rfl, rfl, rfl, rfl, rfl, rfl, rfl, rfl, rfl, rfl, rfl, rfl, rfl⟩, rfl, rfl, h⟩

/-- The state in which the operation makes its first access is one. -/
@[simp] theorem State.atOperand_modifier (s : State) (f : Fields) : (s.atOperand f).modifier = none := by
  simp [State.atOperand]

/-- What the frames are made of, for an update that keeps every field but registers, counter, EX, IR and store. -/
theorem SameRest.of_fields {s t : State} (hk : t.keys = s.keys) (hc : SameControl s t) (hs : SameSurroundings s t)
    (hn : t.channel = s.channel) (hp : t.phase = s.phase) (hm : t.modifier = none) : SameRest s t :=
  ⟨SameKeys.of_keys hk, hc, hs, hn, hp, hm⟩

theorem SameRest.setReg {s t : State} (h : SameRest s t) (r : WReg) (v : Word) : SameRest s (t.setReg r v) := by
  obtain ⟨hk, hc, hs, hn, hp, hm⟩ := h
  refine ⟨fun a => ?_, ?_, ?_, ?_, ?_, ?_⟩
  · simpa [State.readKey] using hk a
  · simpa [SameControl] using hc
  · simpa [SameSurroundings] using hs
  · simpa using hn
  · simpa using hp
  · simpa using hm

theorem SameRest.writeWord {s t : State} (h : SameRest s t) (a v : Word) : SameRest s (t.writeWord a v) := by
  obtain ⟨hk, hc, hs, hn, hp, hm⟩ := h
  refine ⟨fun a => ?_, ?_, ?_, ?_, ?_, ?_⟩
  · simpa [State.readKey] using hk a
  · simpa [SameControl] using hc
  · simpa [SameSurroundings] using hs
  · simpa using hn
  · simpa using hp
  · simpa using hm

theorem OnlyRegisters.setReg {s : State} (h : s.modifier = none) (r : WReg) (v : Word) :
    OnlyRegisters [r] s (s.setReg r v) := by
  refine ⟨fun q hq => ?_, SameStore.of_store (by simp), by simp, by simp, by simp, (SameRest.refl h).setReg r v⟩
  simp only [List.mem_singleton] at hq
  simp [hq]

theorem OnlyRegisters.setPair {s : State} (h : s.modifier = none) (r : WReg) (v : DoubleWord) :
    OnlyRegisters [r, wpre r] s (s.setPair r v) := by
  refine ⟨fun q hq => ?_, SameStore.of_store (by simp), by simp, by simp, by simp,
    ((SameRest.refl h).setReg _ _).setReg r _⟩
  simp only [List.mem_cons, List.not_mem_nil, or_false, not_or] at hq
  simp [State.reg_setPair, hq.1, hq.2]

theorem OnlyWord.writeWord {s : State} (h : s.modifier = none) (a v : Word) : OnlyWord a s (s.writeWord a v) := by
  refine ⟨fun b hb => ?_, fun r hr => ?_, by simp, by simp, by simp, (SameRest.refl h).writeWord a v⟩
  · apply State.readByte_eq_of_readWord
    simp [State.readWord_writeWord, hb]
  · simp [State.reg_writeWord, hr]

theorem OnlyByte.writeByte {s : State} (h : s.modifier = none) (a : Word) (v : Byte) :
    OnlyByte a s (s.writeByte a v) := by
  refine ⟨fun b hb => ?_, fun r hr => ?_, by simp, by simp, by simp, (SameRest.refl h).writeWord a _⟩
  · simp [State.readByte_writeByte, hb]
  · simp [State.reg_writeByte _ _ _ _ hr]

end Sys2Proof.Machine
end

