-- ==== Sys2Proof/Tests/Slice0.lean ====
section
/-! SUPPORT. The model's own tests: the well-formedness smoke tests, decoded words, one step of each instruction with
the values the spec's rules work out, and a state that meets the hypotheses of each statement. The instruction stands at
address 300 unless said otherwise; the source of the expected values is the rule named. -/

namespace Sys2Proof.Tests

open Sys2Proof.Machine

/-! ## Well-formedness: an ill-formed installation for each check -/

theorem test_proposed_is_well_formed : Config.proposed.wellFormed = true := by decide

theorem test_store_too_small : { Config.proposed with storeWords := 16383 }.storeWordsOk = false := by decide

theorem test_store_too_large : { Config.proposed with storeWords := 8388609 }.storeWordsOk = false := by decide

theorem test_no_device_bits : { Config.proposed with deviceBits := 0 }.deviceBitsOk = false := by decide

theorem test_too_many_device_bits : { Config.proposed with deviceBits := 19 }.deviceBitsOk = false := by decide

theorem test_device_limit_too_large :
    { Config.proposed with deviceBits := 6, deviceLimit := 64 }.deviceNumbersOk = false := by decide

theorem test_timer_device_too_large :
    { Config.proposed with deviceBits := 6, timerDevice := some 64 }.deviceNumbersOk = false := by decide

theorem test_timer_bit_is_internal : { Config.proposed with timerIrBit := some 2 }.timerIrBitOk = false := by decide

theorem test_ill_formed_installation : { Config.proposed with deviceBits := 0 }.wellFormed = false := by decide

/-! ## Decoding -/

/-- Address handling (R98). -/
theorem test_decode_address_handling :
    decode 0x24CB6B#24 = .am { w := .w0, relative := true, indirect := true, x := .direct, d := 0xB6B#12 } ∧
      decode 0x2E6C2D#24 = .al { w := .w2, relative := false, indirect := true, x := .x2, d := 0xC2D#12 } ∧
      decode 0x84C483#24 = .ac { w := .w0, relative := true, indirect := true, x := .direct, d := 0x483#12 } := by
  decide

/-- Register transfer (R98). -/
theorem test_decode_register_transfer :
    decode 0x0E6925#24 = .hl { w := .w2, relative := false, indirect := true, x := .x2, d := 0x925#12 } ∧
      decode 0x6B31DC#24 = .hs { w := .w3, relative := false, indirect := false, x := .x3, d := 0x1DC#12 } ∧
      decode 0x519F96#24 = .rl { w := .w1, relative := true, indirect := false, x := .x1, d := 0xF96#12 } ∧
      decode 0x5E60B9#24 = .rs { w := .w2, relative := false, indirect := true, x := .x2, d := 0x0B9#12 } ∧
      decode 0x64C17B#24 = .rx { w := .w0, relative := true, indirect := true, x := .direct, d := 0x17B#12 } ∧
      decode 0xDB3C78#24 = .dl { w := .w3, relative := false, indirect := false, x := .x3, d := 0xC78#12 } ∧
      decode 0xDE6CD9#24 = .ds { w := .w2, relative := false, indirect := true, x := .x2, d := 0xCD9#12 } := by
  decide

/-- Integer byte (R98). -/
theorem test_decode_integer_byte :
    decode 0x4E6F35#24 = .bz { w := .w2, relative := false, indirect := true, x := .x2, d := 0xF35#12 } ∧
      decode 0x0B38C4#24 = .bl { w := .w3, relative := false, indirect := false, x := .x3, d := 0x8C4#12 } ∧
      decode 0x4B3ED4#24 = .ba { w := .w3, relative := false, indirect := false, x := .x3, d := 0xED4#12 } ∧
      decode 0x44CE73#24 = .bs { w := .w0, relative := true, indirect := true, x := .direct, d := 0xE73#12 } := by
  decide

/-- Integer word and double word (R98). -/
theorem test_decode_integer_word_and_double_word :
    decode 0x1E6AA9#24 = .wa { w := .w2, relative := false, indirect := true, x := .x2, d := 0xAA9#12 } ∧
      decode 0x219B0A#24 = .ws { w := .w1, relative := true, indirect := false, x := .x1, d := 0xB0A#12 } ∧
      decode 0x2B3BCC#24 = .wm { w := .w3, relative := false, indirect := false, x := .x3, d := 0xBCC#12 } ∧
      decode 0x61911A#24 = .wd { w := .w1, relative := true, indirect := false, x := .x1, d := 0x11A#12 } ∧
      decode 0xE19D3A#24 = .aa { w := .w1, relative := true, indirect := false, x := .x1, d := 0xD3A#12 } ∧
      decode 0xE4CD9B#24 = .ss { w := .w0, relative := true, indirect := true, x := .direct, d := 0xD9B#12 } := by
  decide

/-- Conversion and floating point (R98). -/
theorem test_decode_conversion_and_floating_point :
    decode 0x819422#24 = .ci { w := .w1, relative := true, indirect := false, x := .x1, d := 0x422#12 } ∧
      decode 0xD4CC17#24 = .cf { w := .w0, relative := true, indirect := true, x := .direct, d := 0xC17#12 } ∧
      decode 0xC19A32#24 = .fa { w := .w1, relative := true, indirect := false, x := .x1, d := 0xA32#12 } ∧
      decode 0xC4CA93#24 = .fs { w := .w0, relative := true, indirect := true, x := .direct, d := 0xA93#12 } ∧
      decode 0xCB3AF4#24 = .fm { w := .w3, relative := false, indirect := false, x := .x3, d := 0xAF4#12 } ∧
      decode 0xD19BB6#24 = .fd { w := .w1, relative := true, indirect := false, x := .x1, d := 0xBB6#12 } := by
  decide

/-- Logical (R98). -/
theorem test_decode_logical :
    decode 0x119986#24 = .la { w := .w1, relative := true, indirect := false, x := .x1, d := 0x986#12 } ∧
      decode 0x14C9E7#24 = .lo { w := .w0, relative := true, indirect := true, x := .direct, d := 0x9E7#12 } ∧
      decode 0x1B3A48#24 = .lx { w := .w3, relative := false, indirect := false, x := .x3, d := 0xA48#12 } := by
  decide

/-- Shift (R98). -/
theorem test_decode_shift :
    decode 0x9195A6#24 = .as { w := .w1, relative := true, indirect := false, x := .x1, d := 0x5A6#12 } ∧
      decode 0x94C607#24 = .ad { w := .w0, relative := true, indirect := true, x := .direct, d := 0x607#12 } ∧
      decode 0x9B3668#24 = .ls { w := .w3, relative := false, indirect := false, x := .x3, d := 0x668#12 } ∧
      decode 0x9E66C9#24 = .ld { w := .w2, relative := false, indirect := true, x := .x2, d := 0x6C9#12 } ∧
      decode 0x8B34E4#24 = .ns { w := .w3, relative := false, indirect := false, x := .x3, d := 0x4E4#12 } ∧
      decode 0x8E6545#24 = .nd { w := .w2, relative := false, indirect := true, x := .x2, d := 0x545#12 } := by
  decide

/-- Sequencing (R98). -/
theorem test_decode_sequencing :
    decode 0x34CCEF#24 = .jl { w := .w0, relative := true, indirect := true, x := .direct, d := 0xCEF#12 } ∧
      decode 0xA1972A#24 = .sh { w := .w1, relative := true, indirect := false, x := .x1, d := 0x72A#12 } ∧
      decode 0xA4C78B#24 = .sl { w := .w0, relative := true, indirect := true, x := .direct, d := 0x78B#12 } ∧
      decode 0xAB37EC#24 = .se { w := .w3, relative := false, indirect := false, x := .x3, d := 0x7EC#12 } ∧
      decode 0xAE684D#24 = .sn { w := .w2, relative := false, indirect := true, x := .x2, d := 0x84D#12 } ∧
      decode 0xB198AE#24 = .so { w := .w1, relative := true, indirect := false, x := .x1, d := 0x8AE#12 } ∧
      decode 0xB4C90F#24 = .sz { w := .w0, relative := true, indirect := true, x := .direct, d := 0x90F#12 } ∧
      decode 0xBB3970#24 = .sx { w := .w3, relative := false, indirect := false, x := .x3, d := 0x970#12 } ∧
      decode 0x54CFF7#24 = .sp { w := .w0, relative := true, indirect := true, x := .direct, d := 0xFF7#12 } := by
  decide

/-- Monitor control (R98). -/
theorem test_decode_monitor_control :
    decode 0x3E6DB1#24 = .je { w := .w2, relative := false, indirect := true, x := .x2, d := 0xDB1#12 } ∧
      decode 0x3B3D50#24 = .jd { w := .w3, relative := false, indirect := false, x := .x3, d := 0xD50#12 } ∧
      decode 0xBE69D1#24 = .ic { w := .w2, relative := false, indirect := true, x := .x2, d := 0x9D1#12 } ∧
      decode 0x7E63C1#24 = .is { w := .w2, relative := false, indirect := true, x := .x2, d := 0x3C1#12 } ∧
      decode 0x319C8E#24 = .ml { w := .w1, relative := true, indirect := false, x := .x1, d := 0xC8E#12 } ∧
      decode 0x7B3360#24 = .ms { w := .w3, relative := false, indirect := false, x := .x3, d := 0x360#12 } ∧
      decode 0x419E12#24 = .xl { w := .w1, relative := true, indirect := false, x := .x1, d := 0xE12#12 } ∧
      decode 0x6E623D#24 = .xs { w := .w2, relative := false, indirect := true, x := .x2, d := 0x23D#12 } ∧
      decode 0x71929E#24 = .pl { w := .w1, relative := true, indirect := false, x := .x1, d := 0x29E#12 } ∧
      decode 0x74C2FF#24 = .ps { w := .w0, relative := true, indirect := true, x := .direct, d := 0x2FF#12 } ∧
      decode 0x5B3058#24 = .kl { w := .w3, relative := false, indirect := false, x := .x3, d := 0x058#12 } ∧
      decode 0xCE6B55#24 = .ks { w := .w2, relative := false, indirect := true, x := .x2, d := 0xB55#12 } ∧
      decode 0x04C863#24 = .io { w := .w0, relative := true, indirect := true, x := .direct, d := 0x863#12 } ∧
      decode 0x019802#24 = .aw { w := .w1, relative := true, indirect := false, x := .x1, d := 0x802#12 } := by
  decide

/-- Unassigned (R98). -/
theorem test_decode_unassigned :
    decode 0xEB3DFC#24 = .unassigned58 { w := .w3, relative := false, indirect := false, x := .x3, d := 0xDFC#12 } ∧
      decode 0xEE6E5D#24 = .unassigned59 { w := .w2, relative := false, indirect := true, x := .x2, d := 0xE5D#12 } ∧
      decode 0xF19EBE#24 = .unassigned60 { w := .w1, relative := true, indirect := false, x := .x1, d := 0xEBE#12 } ∧
      decode 0xF4CF1F#24 = .unassigned61 { w := .w0, relative := true, indirect := true, x := .direct, d := 0xF1F#12 } ∧
      decode 0xFB3F80#24 = .unassigned62 { w := .w3, relative := false, indirect := false, x := .x3, d := 0xF80#12 } ∧
      decode 0xFE6FE1#24 = .unassigned63 { w := .w2, relative := false, indirect := true, x := .x2, d := 0xFE1#12 } := by
  decide

/-- Too few bytes are rejected by name. -/
theorem test_decode_too_short : decodeBytes [0x2D0#12] = .error .tooShort := by rfl

theorem test_decodeTableWord :
    decodeTableWord 24 0x2D0005 =
      some (.al { w := .w1, relative := false, indirect := false, x := .direct, d := 5#12 }) := by decide

/-- The instruction placed is the one the first step after reset runs. -/
theorem test_withFetchWord :
    (match step (State.reset.withFetchWord 24 0x2D0005) with
      | .next t => t.regs.w1
      | _ => 0#24) = 5#24 := by decide

/-! ## One step of each instruction -/

/-- A running machine in monitor mode, disabled, with these registers and store words, about to fetch at 300. -/
def machine (w0 w1 w2 w3 : Word) (words : List (Word × Word)) : State :=
  words.foldl (fun s p => s.writeWord p.1 p.2)
    { State.reset with phase := .running, ic := 300#24, regs := { w0 := w0, w1 := w1, w2 := w2, w3 := w3 } }

/-- The state one step after an instruction word is put at 300. -/
def after (word : Word) (s : State) : State :=
  match step (s.writeWord 300#24 word) with
  | .next t => t
  | _ => s

/-- R142. -/
theorem test_al_value :
    let t := after 0x2D0005#24 (machine 0#24 0#24 0#24 0#24 [])
    t.regs.w1 = 5#24 ∧ t.ic = 302#24 := by decide

/-- R142. -/
theorem test_al_same_register_in_w_and_x :
    let t := after 0x2D1FFF#24 (machine 0#24 10#24 0#24 0#24 [])
    t.regs.w1 = 9#24 := by decide

/-- R143. -/
theorem test_ac_value :
    let t := after 0x850005#24 (machine 0#24 0#24 0#24 0#24 [])
    t.regs.w1 = 0xFFFFFB#24 ∧ t.ex = 0b000#3 := by decide

/-- R143. -/
theorem test_ac_maximum_negative :
    let t := after 0x854064#24 (machine 0#24 0#24 0#24 0#24 [(100#24, 0x800000#24)])
    t.regs.w1 = 0x800000#24 ∧ t.ex = 0b010#3 ∧ t.ir = 0x400000#24 := by decide

/-- R141. -/
theorem test_am_hands_over_the_modifier :
    let t := after 0x245006#24 (machine 0#24 0x0003E8#24 0#24 0#24 [(1006#24, 0x001388#24)])
    t.modifier = some 5000#24 ∧ t.ic = 302#24 := by decide

/-- R141. -/
theorem test_am_modifies_the_jump :
    let t := after 0x340004#24 ({ machine 0#24 0#24 0#24 0#24 [] with modifier := some 5000#24 })
    t.ic = 5004#24 ∧ t.modifier = none := by decide

/-- R151. -/
theorem test_hl_left_byte :
    let t := after 0x0D0064#24 (machine 0#24 0x111222#24 0#24 0#24 [(100#24, 0xABCDEF#24)])
    t.regs.w1 = 0x111ABC#24 := by decide

/-- R151. -/
theorem test_hl_right_byte :
    let t := after 0x0D0065#24 (machine 0#24 0x111222#24 0#24 0#24 [(100#24, 0xABCDEF#24)])
    t.regs.w1 = 0x111DEF#24 := by decide

/-- R152. -/
theorem test_hs_left_byte :
    let t := after 0x690064#24 (machine 0#24 0x111222#24 0#24 0#24 [(100#24, 0xABCDEF#24)])
    t.readWord 100#24 = 0x222DEF#24 := by decide

/-- R152. -/
theorem test_hs_right_byte :
    let t := after 0x690065#24 (machine 0#24 0x111222#24 0#24 0#24 [(100#24, 0xABCDEF#24)])
    t.readWord 100#24 = 0xABC222#24 := by decide

/-- R153. -/
theorem test_rl_ignores_bit_23 :
    let t := after 0x510065#24 (machine 0#24 0#24 0#24 0#24 [(100#24, 0xABCDEF#24)])
    t.regs.w1 = 0xABCDEF#24 := by decide

/-- R153. -/
theorem test_rl_from_register :
    let t := after 0x510006#24 (machine 0#24 0#24 0#24 0x123456#24 [])
    t.regs.w1 = 0x123456#24 := by decide

/-- R154. -/
theorem test_rs_store :
    let t := after 0x5E0064#24 (machine 0#24 0#24 7#24 0#24 [])
    t.readWord 100#24 = 7#24 := by decide

/-- R155. -/
theorem test_rx_exchange :
    let t := after 0x650064#24 (machine 0#24 1#24 0#24 0#24 [(100#24, 2#24)])
    t.regs.w1 = 2#24 ∧ t.readWord 100#24 = 1#24 := by decide

/-- R156. -/
theorem test_dl_double_word :
    let t := after 0xD90064#24 (machine 0#24 0#24 0#24 0#24 [(98#24, 1#24), (100#24, 2#24)])
    t.regs.w0 = 1#24 ∧ t.regs.w1 = 2#24 := by decide

/-- R156. -/
theorem test_dl_overlap :
    let t := after 0xD90004#24 (machine 0#24 11#24 22#24 0#24 [])
    t.regs.w1 = 22#24 ∧ t.regs.w0 = 22#24 := by decide

/-- R157. -/
theorem test_ds_double_word :
    let t := after 0xDD0064#24 (machine 1#24 2#24 0#24 0#24 [])
    t.readWord 100#24 = 2#24 ∧ t.readWord 98#24 = 1#24 := by decide

/-- R157. -/
theorem test_ds_overlap :
    let t := after 0xDD0000#24 (machine 10#24 11#24 0#24 13#24 [])
    t.regs.w0 = 11#24 ∧ t.regs.w3 = 11#24 := by decide

/-- R166. -/
theorem test_bz_zero_extends :
    let t := after 0x4D0064#24 (machine 0#24 0xFFFFFF#24 0#24 0#24 [(100#24, 0xABCDEF#24)])
    t.regs.w1 = 0x000ABC#24 := by decide

/-- R167. -/
theorem test_bl_sign_extends :
    let t := after 0x090065#24 (machine 0#24 0#24 0#24 0#24 [(100#24, 0xABCDEF#24)])
    t.regs.w1 = 0xFFFDEF#24 := by decide

/-- R168. -/
theorem test_ba_overflows :
    let t := after 0x490064#24 (machine 0#24 0x7FFFFF#24 0#24 0#24 [(100#24, 0x001000#24)])
    t.regs.w1 = 0x800000#24 ∧ t.ex = 0b010#3 ∧ t.ir = 0x400000#24 := by decide

/-- R169. -/
theorem test_bs_borrow :
    let t := after 0x450064#24 (machine 0#24 5#24 0#24 0#24 [(100#24, 0x007000#24)])
    t.regs.w1 = 0xFFFFFE#24 ∧ t.ex = 0b000#3 := by decide

/-- R169. -/
theorem test_bs_overflows :
    let t := after 0x450064#24 (machine 0#24 0x800000#24 0#24 0#24 [(100#24, 0x001000#24)])
    t.regs.w1 = 0x7FFFFF#24 ∧ t.ex = 0b011#3 ∧ t.ir = 0x400000#24 := by decide

/-- R176. -/
theorem test_wa_overflows :
    let t := after 0x1D0064#24 (machine 0#24 0x7FFFFF#24 0#24 0#24 [(100#24, 1#24)])
    t.regs.w1 = 0x800000#24 ∧ t.ex = 0b010#3 ∧ t.ir = 0x400000#24 := by decide

/-- R176. -/
theorem test_wa_carries :
    let t := after 0x1D0064#24 (machine 0#24 0xFFFFFF#24 0#24 0#24 [(100#24, 1#24)])
    t.regs.w1 = 0#24 ∧ t.ex = 0b001#3 ∧ t.ir = 0#24 := by decide

/-- R177. -/
theorem test_ws_borrow :
    let t := after 0x210064#24 (machine 0#24 5#24 0#24 0#24 [(100#24, 7#24)])
    t.regs.w1 = 0xFFFFFE#24 ∧ t.ex = 0b000#3 := by decide

/-- R177. -/
theorem test_ws_no_borrow :
    let t := after 0x210064#24 (machine 0#24 7#24 0#24 0#24 [(100#24, 5#24)])
    t.regs.w1 = 2#24 ∧ t.ex = 0b001#3 := by decide

/-- R178. -/
theorem test_wm_negative :
    let t := after 0x290064#24 (machine 0#24 0x0003E8#24 0#24 0#24 [(100#24, 0xFFFC18#24)])
    t.regs.w0 = 0xFFFFFF#24 ∧ t.regs.w1 = 0xF0BDC0#24 := by decide

/-- R178, R185. -/
theorem test_wm_two_maximum_negatives :
    let t := after 0x290064#24 (machine 0#24 0x800000#24 0#24 0#24 [(100#24, 0x800000#24)])
    t.regs.w0 = 0x400000#24 ∧ t.regs.w1 = 0#24 ∧ t.ex = 0b000#3 := by decide

/-- R179. -/
theorem test_wd_negative_dividend :
    let t := after 0x610064#24 (machine 0xFFFFFF#24 0xFFFFF9#24 0#24 0#24 [(100#24, 3#24)])
    t.regs.w0 = 0xFFFFFF#24 ∧ t.regs.w1 = 0xFFFFFE#24 ∧ t.ex = 0b000#3 := by decide

/-- R179. -/
theorem test_wd_quotient_overflow :
    let t := after 0x610064#24 (machine 0xFFFFFF#24 0x800000#24 0#24 0#24 [(100#24, 0xFFFFFF#24)])
    t.regs.w0 = 0xFFFFFF#24 ∧ t.regs.w1 = 0x800000#24 ∧ t.ex = 0b010#3 ∧ t.ir = 0x400000#24 := by decide

/-- R182. -/
theorem test_aa_carries_into_the_high_word :
    let t := after 0xE10064#24 (machine 0#24 0xFFFFFF#24 0#24 0#24 [(100#24, 1#24)])
    t.regs.w0 = 1#24 ∧ t.regs.w1 = 0#24 ∧ t.ex = 0b000#3 := by decide

/-- R182. -/
theorem test_aa_overflows :
    let t := after 0xE10064#24 (machine 0x7FFFFF#24 0xFFFFFF#24 0#24 0#24 [(100#24, 1#24)])
    t.regs.w0 = 0x800000#24 ∧ t.regs.w1 = 0#24 ∧ t.ex = 0b010#3 ∧ t.ir = 0x400000#24 := by decide

/-- R183. -/
theorem test_ss_borrows_from_the_high_word :
    let t := after 0xE50064#24 (machine 1#24 0#24 0#24 0#24 [(100#24, 1#24)])
    t.regs.w0 = 0#24 ∧ t.regs.w1 = 0xFFFFFF#24 ∧ t.ex = 0b001#3 := by decide

/-- R183. -/
theorem test_ss_borrows_beyond :
    let t := after 0xE50064#24 (machine 0#24 0#24 0#24 0#24 [(100#24, 1#24)])
    t.regs.w0 = 0xFFFFFF#24 ∧ t.regs.w1 = 0xFFFFFF#24 ∧ t.ex = 0b000#3 := by decide

/-- R200. -/
theorem test_ci_scaled :
    let t := after 0x810FFF#24 (machine 0#24 5#24 0#24 0#24 [])
    t.regs.w0 = 0x500000#24 ∧ t.regs.w1 = 2#24 ∧ t.ex = 0b000#3 := by decide

/-- R200. -/
theorem test_ci_exponent_overflow :
    let t := after 0x8107FF#24 (machine 0#24 1#24 0#24 0#24 [])
    t.regs.w0 = 0x400000#24 ∧ t.regs.w1 = 0x000800#24 ∧ t.ex = 0b010#3 ∧ t.ir = 0x200000#24 := by decide

/-- R201. -/
theorem test_cf_tie_toward_plus_infinity :
    let t := after 0xD50000#24 (machine 0xB00000#24 2#24 0#24 0#24 [])
    t.regs.w0 = 0xB00000#24 ∧ t.regs.w1 = 0xFFFFFE#24 ∧ t.ex = 0b000#3 := by decide

/-- R201. -/
theorem test_cf_overflows :
    let t := after 0xD50000#24 (machine 0x7FFFFF#24 0x800017#24 0#24 0#24 [])
    t.regs.w1 = 0x800017#24 ∧ t.ex = 0b010#3 ∧ t.ir = 0x400000#24 := by decide

/-- R202. -/
theorem test_fa_rounds_up :
    let t := after 0xC10064#24 (machine 0x400000#24 1#24 0#24 0#24 [(98#24, 0x400000#24), (100#24, 0x000FDE#24)])
    t.regs.w0 = 0x400000#24 ∧ t.regs.w1 = 0x001001#24 ∧ t.ex = 0b000#3 := by decide

/-- R202. -/
theorem test_fa_exponent_overflow :
    let t := after 0xC10064#24 (machine 0x400000#24 0x0007FF#24 0#24 0#24 [(98#24, 0x400000#24), (100#24, 0x0007FF#24)])
    t.regs.w0 = 0x400000#24 ∧ t.regs.w1 = 0x000800#24 ∧ t.ex = 0b010#3 ∧ t.ir = 0x200000#24 := by decide

/-- R203. -/
theorem test_fs_difference :
    let t := after 0xC50064#24 (machine 0x600000#24 1#24 0#24 0#24 [(98#24, 0x400000#24), (100#24, 0x000FFF#24)])
    t.regs.w0 = 0x500000#24 ∧ t.regs.w1 = 1#24 := by decide

/-- R203. -/
theorem test_fs_from_zero :
    let t := after 0xC50064#24 (machine 0#24 0x000800#24 0#24 0#24 [(98#24, 0x500000#24), (100#24, 3#24)])
    t.regs.w0 = 0xB00000#24 ∧ t.regs.w1 = 3#24 := by decide

/-- R204. -/
theorem test_fm_product :
    let t := after 0xC90064#24 (machine 0x600000#24 2#24 0#24 0#24 [(98#24, 0x500000#24), (100#24, 3#24)])
    t.regs.w0 = 0x780000#24 ∧ t.regs.w1 = 4#24 := by decide +kernel

/-- R204. -/
theorem test_fm_minus_one_squared :
    let t := after 0xC90064#24 (machine 0x800000#24 0#24 0#24 0#24 [(98#24, 0x800000#24), (100#24, 0#24)])
    t.regs.w0 = 0x400000#24 ∧ t.regs.w1 = 1#24 ∧ t.ex = 0b000#3 := by decide +kernel

/-- R205. -/
theorem test_fd_one_third_in_low_precision :
    let t := after 0xD10064#24 ({ machine 0x400000#24 1#24 0#24 0#24 [(98#24, 0x600000#24), (100#24, 2#24)] with ex := 0b100#3 })
    t.regs.w0 = 0x555555#24 ∧ t.regs.w1 = 0x557FFF#24 ∧ t.ex = 0b100#3 := by decide

/-- R205. -/
theorem test_fd_by_zero :
    let t := after 0xD10064#24 (machine 0x600000#24 2#24 0#24 0#24 [])
    t.regs.w0 = 0x600000#24 ∧ t.regs.w1 = 2#24 ∧ t.ex = 0b010#3 ∧ t.ir = 0x200000#24 := by decide

/-- R221. -/
theorem test_la_mask :
    let t := after 0x110064#24 (machine 0#24 0xABCDEF#24 0#24 0#24 [(100#24, 0x000FFF#24)])
    t.regs.w1 = 0x000DEF#24 := by decide

/-- R222. -/
theorem test_lo_mask :
    let t := after 0x150064#24 (machine 0#24 0xABC000#24 0#24 0#24 [(100#24, 0x000FFF#24)])
    t.regs.w1 = 0xABCFFF#24 := by decide

/-- R223. -/
theorem test_lx_mask :
    let t := after 0x190064#24 (machine 0#24 0xABCDEF#24 0#24 0#24 [(100#24, 0xFFFFFF#24)])
    t.regs.w1 = 0x543210#24 := by decide

/-- R231. -/
theorem test_as_left_overflows :
    let t := after 0x910001#24 (machine 0#24 0x400000#24 0#24 0#24 [])
    t.regs.w1 = 0x800000#24 ∧ t.ex = 0b010#3 ∧ t.ir = 0x400000#24 := by decide

/-- R231. -/
theorem test_as_right :
    let t := after 0x910FFE#24 ({ machine 0#24 0xFFFFF9#24 0#24 0#24 [] with ex := 0b011#3 })
    t.regs.w1 = 0xFFFFFE#24 ∧ t.ex = 0b000#3 := by decide

/-- R232. -/
theorem test_ad_left :
    let t := after 0x950008#24 (machine 1#24 0x800000#24 0#24 0#24 [])
    t.regs.w0 = 384#24 ∧ t.regs.w1 = 0#24 := by decide

/-- R232. -/
theorem test_ad_right :
    let t := after 0x950FF4#24 (machine 0xFFF000#24 0x000ABC#24 0#24 0#24 [])
    t.regs.w0 = 0xFFFFFF#24 ∧ t.regs.w1 = 0#24 := by decide

/-- R233. -/
theorem test_ls_left :
    let t := after 0x99000C#24 (machine 0#24 0xABCDEF#24 0#24 0#24 [])
    t.regs.w1 = 0xDEF000#24 := by decide

/-- R233. -/
theorem test_ls_right :
    let t := after 0x990FF4#24 (machine 0#24 0xABCDEF#24 0#24 0#24 [])
    t.regs.w1 = 0x000ABC#24 := by decide

/-- R234. -/
theorem test_ld_left :
    let t := after 0x9D0018#24 (machine 0x111111#24 0x222222#24 0#24 0#24 [])
    t.regs.w0 = 0x222222#24 ∧ t.regs.w1 = 0#24 := by decide

/-- R234. -/
theorem test_ld_right :
    let t := after 0x9D0FFC#24 (machine 0x111111#24 0x222222#24 0#24 0#24 [])
    t.regs.w0 = 0x011111#24 ∧ t.regs.w1 = 0x122222#24 := by decide

/-- R235. -/
theorem test_ns_count :
    let t := after 0x890064#24 (machine 0#24 5#24 0#24 0#24 [])
    t.regs.w1 = 0x500000#24 ∧ t.readWord 100#24 = 0xFEC000#24 := by decide

/-- R236. -/
theorem test_nd_count :
    let t := after 0x8D0065#24 (machine 0#24 3#24 0#24 0#24 [])
    t.regs.w0 = 0x600000#24 ∧ t.regs.w1 = 0#24 ∧ t.readWord 100#24 = 0x000FD3#24 := by decide

/-- R246. -/
theorem test_jl_link :
    let t := after 0x350190#24 (machine 0#24 0#24 0#24 0#24 [])
    t.regs.w1 = 302#24 ∧ t.ic = 400#24 := by decide

/-- R246. -/
theorem test_jl_old_register :
    let t := after 0x351000#24 (machine 0#24 401#24 0#24 0#24 [])
    t.regs.w1 = 302#24 ∧ t.ic = 400#24 := by decide

/-- R247. -/
theorem test_sh_skips :
    let t := after 0xA10005#24 (machine 0#24 6#24 0#24 0#24 [])
    t.ic = 304#24 := by decide

/-- R247. -/
theorem test_sh_negative_is_low :
    let t := after 0xA10005#24 (machine 0#24 0xFFFFFF#24 0#24 0#24 [])
    t.ic = 302#24 := by decide

/-- R248. -/
theorem test_sl_skips :
    let t := after 0xA50000#24 (machine 0#24 0xFFFFFF#24 0#24 0#24 [])
    t.ic = 304#24 := by decide

/-- R248. -/
theorem test_sl_equal_is_not_low :
    let t := after 0xA50000#24 (machine 0#24 0#24 0#24 0#24 [])
    t.ic = 302#24 := by decide

/-- R249. -/
theorem test_se_skips :
    let t := after 0xA90005#24 (machine 0#24 5#24 0#24 0#24 [])
    t.ic = 304#24 := by decide

/-- R249. -/
theorem test_se_differs :
    let t := after 0xA90005#24 (machine 0#24 6#24 0#24 0#24 [])
    t.ic = 302#24 := by decide

/-- R250. -/
theorem test_sn_skips :
    let t := after 0xAD0005#24 (machine 0#24 6#24 0#24 0#24 [])
    t.ic = 304#24 := by decide

/-- R250. -/
theorem test_sn_equal :
    let t := after 0xAD0005#24 (machine 0#24 5#24 0#24 0#24 [])
    t.ic = 302#24 := by decide

/-- R251. -/
theorem test_so_skips :
    let t := after 0xB10003#24 (machine 0#24 7#24 0#24 0#24 [])
    t.ic = 304#24 := by decide

/-- R251. -/
theorem test_so_one_bit_missing :
    let t := after 0xB10003#24 (machine 0#24 5#24 0#24 0#24 [])
    t.ic = 302#24 := by decide

/-- R252. -/
theorem test_sz_skips :
    let t := after 0xB50001#24 (machine 0#24 4#24 0#24 0#24 [])
    t.ic = 304#24 := by decide

/-- R252. -/
theorem test_sz_bit_set :
    let t := after 0xB50001#24 (machine 0#24 5#24 0#24 0#24 [])
    t.ic = 302#24 := by decide

/-- R253. -/
theorem test_sx_skips :
    let t := after 0xB80003#24 ({ machine 0#24 0#24 0#24 0#24 [] with ex := 0b100#3 })
    t.ic = 304#24 := by decide

/-- R253. -/
theorem test_sx_overflow :
    let t := after 0xB80003#24 ({ machine 0#24 0#24 0#24 0#24 [] with ex := 0b010#3 })
    t.ic = 302#24 := by decide

/-- R254. -/
theorem test_sp_protected :
    let t := after 0x540064#24 ({ machine 0#24 0#24 0#24 0#24 [] with pr := 0xC0#8, keys := [(50, 1#3)] })
    t.ic = 302#24 := by decide

/-- R254. -/
theorem test_sp_skips :
    let t := after 0x540064#24 ({ machine 0#24 0#24 0#24 0#24 [] with pr := 0xC0#8, keys := [(50, 2#3)] })
    t.ic = 304#24 := by decide

/-- R261. -/
theorem test_je_enables :
    let t := after 0x3C0190#24 (machine 0#24 0#24 0#24 0#24 [])
    t.interruptDisabled = false ∧ t.ic = 400#24 := by decide

/-- R262. -/
theorem test_jd_links :
    let t := after 0x390190#24 (machine 0#24 0#24 0#24 0#24 [])
    t.interruptDisabled = true ∧ t.ic = 400#24 ∧ t.regs.w1 = 302#24 := by decide

/-- R263. -/
theorem test_ic_clears :
    let t := after 0xBC1000#24 ({ machine 0#24 0x400000#24 0#24 0#24 [] with ir := 0x600010#24 })
    t.ir = 0x200010#24 := by decide

/-- R264. -/
theorem test_is_stores :
    let t := after 0x7C0064#24 ({ machine 0#24 0#24 0#24 0#24 [] with ir := 0x200010#24 })
    t.readWord 100#24 = 0x200010#24 := by decide

/-- R265. -/
theorem test_ml_keeps_bit_0 :
    let t := after 0x300064#24 (machine 0#24 0#24 0#24 0#24 [(100#24, 255#24)])
    t.im = 0x8000FF#24 := by decide

/-- R266. -/
theorem test_ms_stores :
    let t := after 0x780064#24 ({ machine 0#24 0#24 0#24 0#24 [] with im := 0x8000FF#24 })
    t.readWord 100#24 = 0x8000FF#24 := by decide

/-- R267. -/
theorem test_xl_left_byte :
    let t := after 0x400064#24 (machine 0#24 0#24 0#24 0#24 [(100#24, 0x004005#24)])
    t.ex = 0b100#3 := by decide

/-- R267. -/
theorem test_xl_right_byte :
    let t := after 0x400065#24 (machine 0#24 0#24 0#24 0#24 [(100#24, 0x004005#24)])
    t.ex = 0b101#3 := by decide

/-- R268. -/
theorem test_xs_stores :
    let t := after 0x6C0065#24 ({ machine 0#24 0#24 0#24 0#24 [(100#24, 0xABCDEF#24)] with ex := 0b011#3 })
    t.readWord 100#24 = 0xABC003#24 := by decide

/-- R269. -/
theorem test_pl_keeps_bit_0 :
    let t := after 0x700065#24 (machine 0#24 0#24 0#24 0#24 [(100#24, 80#24)])
    t.pr = 0xD0#8 := by decide

/-- R270. -/
theorem test_ps_stores :
    let t := after 0x740065#24 ({ machine 0#24 0#24 0#24 0#24 [] with pr := 0xD0#8 })
    t.readWord 100#24 = 208#24 := by decide

/-- R271. -/
theorem test_kl_loads :
    let t := after 0x590064#24 ({ machine 0#24 0#24 0#24 0#24 [] with keys := [(50, 5#3)] })
    t.regs.w1 = 5#24 := by decide

/-- R272. -/
theorem test_ks_stores :
    let t := after 0xCD0064#24 (machine 0#24 0xFFFFFA#24 0#24 0#24 [])
    t.readKey 100#24 = 2#3 := by decide

/-- R273, R319. -/
theorem test_io_read_starts_the_device :
    let t := after 0x040142#24 ({ machine 0#24 0#24 0#24 0#24 [] with devices := [{ Device.loader with number := 5, condition := .available, buffer := 0x00004D#24 }] })
    t.condition 5 = .busy ∧ t.ex = 0b000#3 := by decide

/-- R273. -/
theorem test_io_sense_of_a_busy_device :
    let t := after 0x050140#24 ({ machine 0#24 7#24 0#24 0#24 [] with devices := [{ Device.loader with number := 5, condition := .busy, buffer := 0x00004D#24 }] })
    t.regs.w1 = 7#24 ∧ t.ex = 0b001#3 := by decide

/-- R273, R313. -/
theorem test_io_sense :
    let t := after 0x050140#24 ({ machine 0#24 7#24 0#24 0#24 [] with devices := [{ Device.loader with number := 5, condition := .available, buffer := 0x00004D#24 }] })
    t.regs.w1 = 77#24 ∧ t.condition 5 = .available := by decide

/-- R273, R310. -/
theorem test_io_disconnected :
    let t := after 0x050140#24 ({ machine 0#24 7#24 0#24 0#24 [] with devices := [] })
    t.regs.w1 = 7#24 ∧ t.ex = 0b010#3 := by decide

/-- R274. -/
theorem test_aw_loads_a_word :
    let t := after 0x000064#24 ({ machine 0#24 0#24 0#24 0#24 [] with inputs := [[], [.deviceCompletes 0 1#24], [.deviceCompletes 0 2#24], [.deviceCompletes 0 3#24], [.deviceCompletes 0 4#24]], keys := [(50, 5#3)] })
    t.readWord 100#24 = 0x0420C4#24 ∧ t.readKey 100#24 = 0#3 ∧ t.ex = 0b000#3 ∧ t.ic = 302#24 := by decide

/-- R274, R341. -/
theorem test_aw_disconnected :
    let t := after 0x000064#24 ({ machine 0#24 0#24 0#24 0#24 [] with devices := [] })
    t.phase = .afterReset ∧ t.readWord 10#24 = 302#24 := by decide

/-- R100, R120. -/
theorem test_unassigned58 :
    let t := after 0xE80000#24 (machine 0#24 0#24 0#24 0#24 [(12#24, 40#24)])
    t.ic = 40#24 ∧ t.readWord 8#24 = 0#24 ∧ t.readWord 10#24 = 302#24 := by decide

/-- R100, R120. -/
theorem test_unassigned59 :
    let t := after 0xEC0000#24 (machine 0#24 0#24 0#24 0#24 [(12#24, 40#24)])
    t.ic = 40#24 ∧ t.readWord 8#24 = 0#24 ∧ t.readWord 10#24 = 302#24 := by decide

/-- R100, R120. -/
theorem test_unassigned60 :
    let t := after 0xF00000#24 (machine 0#24 0#24 0#24 0#24 [(12#24, 40#24)])
    t.ic = 40#24 ∧ t.readWord 8#24 = 0#24 ∧ t.readWord 10#24 = 302#24 := by decide

/-- R100, R120. -/
theorem test_unassigned61 :
    let t := after 0xF40000#24 (machine 0#24 0#24 0#24 0#24 [(12#24, 40#24)])
    t.ic = 40#24 ∧ t.readWord 8#24 = 0#24 ∧ t.readWord 10#24 = 302#24 := by decide

/-- R100, R120. -/
theorem test_unassigned62 :
    let t := after 0xF80000#24 (machine 0#24 0#24 0#24 0#24 [(12#24, 40#24)])
    t.ic = 40#24 ∧ t.readWord 8#24 = 0#24 ∧ t.readWord 10#24 = 302#24 := by decide

/-- R100, R120. -/
theorem test_unassigned63 :
    let t := after 0xFC0000#24 (machine 0#24 0#24 0#24 0#24 [(12#24, 40#24)])
    t.ic = 40#24 ∧ t.readWord 8#24 = 0#24 ∧ t.readWord 10#24 = 302#24 := by decide

/-- R122. -/
theorem test_privileged_in_task_mode :
    let t := after 0x300064#24 ({ machine 0#24 0#24 0#24 0#24 [(12#24, 40#24)] with monitorMode := false, keys := [(150, 1#3)] })
    t.ic = 40#24 ∧ t.readWord 10#24 = 302#24 ∧ t.monitorMode = true ∧ t.im = 0x800000#24 := by decide

/-- R114, R301. -/
theorem test_unprotected_word_enters_task_mode :
    let t := after 0x2D0005#24 ({ machine 0#24 0#24 0#24 0#24 [] with keys := [(150, 1#3)] })
    t.monitorMode = false ∧ t.regs.w1 = 5#24 := by decide

/-- R123. -/
theorem test_protected_store_in_task_mode :
    let t := after 0x5E0064#24 ({ machine 0#24 0#24 7#24 0#24 [(12#24, 40#24)] with monitorMode := false, keys := [(150, 1#3)] })
    t.ic = 40#24 ∧ t.readWord 100#24 = 0#24 ∧ t.readWord 10#24 = 302#24 := by decide

/-- R112. -/
theorem test_interrupt_before_the_instruction :
    let t := after 0x2D0005#24 ({ machine 0#24 0#24 0#24 0#24 [(12#24, 300#24), (300#24, 0x2D0005#24)] with interruptDisabled := false, ir := 0x050000#24, im := 0x850000#24 })
    t.readWord 8#24 = 10#24 ∧ t.readWord 10#24 = 300#24 ∧ t.interruptDisabled = true ∧ t.ir = 0x010000#24 ∧ t.regs.w1 = 5#24 := by decide

/-- R80, R78. -/
theorem test_rx_channel_between_read_and_write :
    let t := after 0x650064#24 ({ machine 0#24 1#24 0#24 0#24 [(100#24, 2#24)] with devices := [{ Device.loader with number := 5, condition := .busy, command := 1#6, highSpeed := true, area := some (50, 1) }], channel := [[], [], [{ device := 5, address := 100#24, value := 7#24 }]] })
    t.regs.w1 = 2#24 ∧ t.readWord 100#24 = 1#24 ∧ t.channel = [] := by decide

/-- R78. -/
theorem test_dl_channel_between_the_words :
    let t := after 0xD90064#24 ({ machine 0#24 0#24 0#24 0#24 [(98#24, 1#24), (100#24, 2#24)] with devices := [{ Device.loader with number := 5, condition := .busy, command := 1#6, highSpeed := true, area := some (49, 2) }], channel := [[], [], [{ device := 5, address := 98#24, value := 7#24 }, { device := 5, address := 100#24, value := 9#24 }]] })
    t.regs.w0 = 7#24 ∧ t.regs.w1 = 2#24 := by decide

/-- R112, R120. -/
theorem test_exception_goes_on_to_the_fetch :
    let t := after 0xE80000#24 (machine 0#24 0#24 0#24 0#24 [(12#24, 40#24)])
    t.phase = .fetching ∧ t.ic = 40#24 ∧ t.readWord 8#24 = 0#24 := by decide

/-- R112. -/
theorem test_fetch_after_exception :
    let t := after 0x2D0005#24 ({ machine 0#24 0#24 0#24 0#24 [] with phase := .fetching, interruptDisabled := false, ir := 0x800000#24 })
    t.phase = .running ∧ t.regs.w1 = 5#24 ∧ t.ic = 302#24 := by decide

/-- R334, R340. -/
theorem test_parity_error_leads_to_the_reset_state :
    let t := after 0x2D0005#24 ({ machine 0#24 0#24 0#24 0#24 [(10#24, 77#24)] with inputs := [[.parityError { regs := { w0 := 9#24, w1 := 9#24, w2 := 9#24, w3 := 9#24 }, ic := 1#24, ex := 7#3, pr := 0#8, ir := 0#24, im := 0#24, key0 := 1#3, key1 := 1#3, key2 := 1#3, key3 := 1#3, timer := 0#14 }]] })
    t.phase = .afterReset ∧ t.cpuError = true ∧ t.cpuRunning = false ∧ t.resetLamp = true ∧ t.readWord 10#24 = 77#24 ∧ t.pr = 0x80#8 ∧ t.ic = 1#24 := by decide

/-- R363, R347. -/
theorem test_power_failure_ends_the_interruption_loop :
    let t := after 0x2D0005#24 ({ machine 0#24 0#24 0#24 0#24 [(12#24, 0x008000#24)] with phase := .fetching, ic := 32768#24, inputs := [[.powerFails { regs := { w0 := 9#24, w1 := 9#24, w2 := 9#24, w3 := 9#24 }, ic := 1#24, ex := 7#3, pr := 0#8, ir := 0#24, im := 0#24, key0 := 1#3, key1 := 1#3, key2 := 1#3, key3 := 1#3, timer := 0#14 }]] })
    t.phase = .afterReset ∧ t.cpuError = false ∧ t.readWord 10#24 = 0x008000#24 := by decide

/-! ## States that meet the hypotheses of the statements

One theorem for each statement with hypotheses, with a boundary value where a clause has a range. -/

/-- A machine in monitor mode with something in every register and in words 98 to 102. -/
def sample : State :=
  machine 0x400000#24 5#24 7#24 9#24 [(12#24, 40#24), (98#24, 0x400000#24), (100#24, 1#24), (102#24, 0xABCDEF#24)]

/-- The same in task mode, words 98, 100 and 300 being unprotected. -/
def task : State := { sample with monitorMode := false, keys := [(49, 1#3), (50, 1#3), (150, 1#3)] }

/-- The sample with the last existing byte address as modifier. -/
def last : State := { sample with modifier := some 32767#24 }

/-- The sample with the first byte address that does not exist as modifier. -/
def beyond : State := { sample with modifier := some 32768#24 }

/-- Direct addressing with a displacement. -/
def direct (w : WReg) (d : Byte) : Fields := { w := w, relative := false, indirect := false, x := .direct, d := d }

/-- The sample with a device busy with a control command on the channel, which writes word 50 before the first store access. -/
def transfer : State :=
  { sample with
    devices := [{ Device.loader with condition := .busy, command := 1#6, highSpeed := true, area := some (50, 1) }]
    channel := [[{ device := 0, address := 100#24, value := 0x123456#24 }]] }

/-- What `Fetch Floating Operands` fetches without a script of the channel. -/
def fetched (s : State) (f : Fields) (a : Word) : FloatOperands :=
  { register := s.registerFraction f.w, storage := s.readWord (prevAddress a) ++ leftByte (s.readWord a),
    exponent := rightByte (s.readWord a) }

/-- The state after that. -/
def fetchedIn (s : State) (f : Fields) : State := (s.atOperand f).channelTurn

theorem witness_StepRunsInstruction :
    let s := sample.writeWord 300#24 0x2D0005#24
    s.reachesFetch s ∧ s.resetKey = false ∧ s.channelTurn.fetches (.al (direct .w1 5#12)) := by
  simp only [State.reachesFetch, State.atBoundary, State.undisturbed, State.fetches]
  decide

/-- In task mode, enabled, with a signal that is not masked in, and an event to come. -/
theorem witness_StepRunsInstruction_task :
    let s : State := { task.writeWord 300#24 0x2D0005#24 with
      interruptDisabled := false, ir := 1#24, inputs := [[.signal 3]] }
    s.reachesFetch s.takeInputs ∧ s.takeInputs.resetKey = false ∧
      s.takeInputs.channelTurn.fetches (.al (direct .w1 5#12)) := by
  simp only [State.reachesFetch, State.atBoundary, State.undisturbed, State.fetches]
  decide

/-- After an instruction exception, with an interrupt that waits. -/
theorem witness_StepRunsInstruction_fetching :
    let s : State := { sample.writeWord 300#24 0x2D0005#24 with
      phase := .fetching, interruptDisabled := false, ir := 0x800000#24 }
    s.reachesFetch s ∧ s.resetKey = false ∧ s.channelTurn.fetches (.al (direct .w1 5#12)) := by
  simp only [State.reachesFetch, State.atBoundary, State.undisturbed, State.fetches]
  decide

theorem witness_StepAfterModifier :
    let s : State := { sample.writeWord 300#24 0x2D0005#24 with modifier := some 5000#24, resetKey := true }
    s.halt = none ∧ s.autoload = none ∧ s.modifier = some 5000#24 ∧ s.channelTurn.fetches (.al (direct .w1 5#12)) := by
  simp only [State.fetches]
  decide

/-- Relative, indexed, modified: 5000 - 4 + 298 + 5, the counter standing past the instruction. -/
theorem witness_EffectiveAddressForms :
    let s : State := { sample with modifier := some 5000#24 }
    let f : Fields := { w := .w0, relative := true, indirect := false, x := .x1, d := 0xFFC#12 }
    5000#24 = (match s.modifier with | some m => m | none => 0#24) ∧
      5#24 = (match f.x with | .direct => 0#24 | .x1 => s.regs.w1 | .x2 => s.regs.w2 | .x3 => s.regs.w3) ∧
      298#24 = (if f.relative then s.ic - 2#24 else 0#24) ∧
      (5299#24).toInt = ((5000#24).toInt + f.d.toInt + (298#24).toInt + (5#24).toInt).bmod (2 ^ 24) ∧
      f.indirect = false := by decide

/-- Indirect at the last existing address and at the first beyond it. -/
theorem witness_EffectiveAddressForms_indirect :
    let f : Fields := { w := .w0, relative := false, indirect := true, x := .direct, d := 0#12 }
    (32767#24 = (match last.modifier with | some m => m | none => 0#24) ∧
      (32767#24).toInt = ((32767#24).toInt + f.d.toInt + (0#24).toInt + (0#24).toInt).bmod (2 ^ 24) ∧
      f.indirect = true ∧ (32767#24).toNat / 2 < last.cfg.storeWords) ∧
      (32768#24 = (match beyond.modifier with | some m => m | none => 0#24) ∧
      (32768#24).toInt = ((32768#24).toInt + f.d.toInt + (0#24).toInt + (0#24).toInt).bmod (2 ^ 24) ∧
      f.indirect = true ∧ beyond.cfg.storeWords ≤ (32768#24).toNat / 2) := by decide

theorem sample_inv : sample.Inv where
  permanent := by simp only [State.permanentBits]; decide
  even := by simp only [State.evenCounter]; decide
  resetState := by simp only [State.resetStateSound]; decide
  loader := by
    intro p hp
    have h : sample.autoload = none := by decide
    rw [h] at hp
    cases hp
  store := by simp only [State.storeSound]; decide
  buffers := by simp only [State.buffersSound]; decide
  interval := by simp only [State.intervalSound]; decide

theorem witness_StepAnswers :
    sample.Inv ∧ sample.halt ≠ some .powerLost ∧ ∀ batch ∈ sample.inputs, HostEvent.losesPower ∉ batch :=
  ⟨sample_inv, by decide, fun _ h => nomatch h⟩

theorem witness_StepKeepsInvariant : sample.Inv ∧ ∃ t, step sample = .next t := ⟨sample_inv, _, rfl⟩

theorem witness_StoreReadsBack :
    wordNumber 0#24 = registerNumber .w0 ∧ wordNumber 7#24 = registerNumber .w3 := by decide

theorem witness_ResetStateLoop_waits :
    State.reset.atBoundary ∧ State.reset.takeInputs.undisturbed .afterReset ∧
      State.reset.takeInputs.monitorMode = true ∧ State.reset.takeInputs.autoloadKey = false ∧
      State.reset.takeInputs.startKey = false := by
  simp only [State.atBoundary, State.undisturbed]
  decide

theorem witness_ResetStateLoop_autoload :
    let s : State := { State.reset with inputs := [[.pressAutoload, .pressStart]] }
    s.atBoundary ∧ s.takeInputs.undisturbed .afterReset ∧ s.takeInputs.monitorMode = true ∧
      s.takeInputs.autoloadKey = true := by
  simp only [State.atBoundary, State.undisturbed]
  decide

/-- The start key, with a start address that exists and with the first that does not. -/
theorem witness_ResetStateLoop_start :
    let s : State := { (State.reset.writeWord 14#24 300#24).writeWord 300#24 0x2D0005#24 with inputs := [[.pressStart]] }
    let r : State := { State.reset.writeWord 14#24 32768#24 with startKey := true }
    let start (u : State) : State := 
      { u.channelTurn with ic := evenAddress (u.channelTurn.readWord 14#24), phase := .running, cpuError := false }
    (s.atBoundary ∧ s.takeInputs.undisturbed .afterReset ∧ s.takeInputs.autoloadKey = false ∧
      s.takeInputs.startKey = true ∧ s.takeInputs.resetKey = false ∧ s.takeInputs.monitorMode = true ∧
      (start s.takeInputs).channelTurn.fetches (.al (direct .w1 5#12))) ∧
      (r.atBoundary ∧ r.takeInputs.undisturbed .afterReset ∧ r.takeInputs.autoloadKey = false ∧
        r.takeInputs.startKey = true ∧ r.takeInputs.resetKey = false ∧ r.takeInputs.monitorMode = true ∧
        (start r.takeInputs).inStore (start r.takeInputs).ic = false) := by
  simp only [State.atBoundary, State.undisturbed, State.fetches]
  decide

/-- The two ends of the range; and a script of the channel that spares the words saved and fetched. -/
theorem witness_InterruptEntry :
    0 < 24 ∧ 23 < 24 ∧ transfer.channelSpares 4 ∧ transfer.channelSpares 5 ∧ transfer.channelSpares 6 ∧
      transfer.channelSpares (registerNumber .w3) := by
  simp only [State.channelSpares]
  decide

/-- Disabled; enabled with nothing pending and masked in; enabled with bits 5 and 23, of which 23 alone is masked in. -/
theorem witness_LeftmostSignalTaken :
    let idle : State := { sample with interruptDisabled := false, ir := 0x7FFFFF#24 }
    let s : State := { sample with interruptDisabled := false, ir := 0x040001#24, im := 0x800001#24 }
    sample.interruptDisabled = true ∧
      (idle.interruptDisabled = false ∧ ∀ b, b < 24 → (idle.ir.getMsbD b && idle.im.getMsbD b) = false) ∧
      (s.interruptDisabled = false ∧ (s.ir.getMsbD 23 && s.im.getMsbD 23) = true ∧
        ∀ c, c < 23 → (s.ir.getMsbD c && s.im.getMsbD c) = false) := by decide

theorem witness_InstructionExceptionEntry :
    sample.im.getMsbD 0 = true ∧ transfer.im.getMsbD 0 = true ∧ transfer.channelSpares 5 := by
  simp only [State.channelSpares]
  decide

/-- An address that does not exist; the reset key; a protected word in task mode. -/
theorem witness_FetchStops :
    let m : State := { sample with ic := 32768#24 }
    let r : State := { sample with resetKey := true, phase := .fetching }
    let p : State := { task with ic := 302#24 }
    (m.reachesFetch m ∧ m.inStore m.ic = false) ∧ (r.reachesFetch r ∧ r.inStore r.ic = true ∧ r.resetKey = true) ∧
      (p.reachesFetch p ∧ p.inStore p.ic = true ∧ p.resetKey = false ∧ p.ic.getMsbD 23 = false ∧
        p.monitorMode = false ∧ p.keyProtected (p.readKey p.ic) = true) := by
  simp only [State.reachesFetch, State.atBoundary, State.undisturbed]
  decide

theorem witness_UnassignedAndPrivilegedTrap :
    isUnassigned (.unassigned58 (direct .w0 0#12)) = true ∧ isUnassigned (.unassigned63 (direct .w0 0#12)) = true ∧
      isPrivileged (.aw (direct .w0 0#12)) = true ∧ task.monitorMode = false := by decide

theorem witness_MissingStorageTraps :
    let f : Fields := { w := .w1, relative := false, indirect := true, x := .direct, d := 0#12 }
    (Instr.rl f).fields.indirect = true ∧ beyond.inStore (beyond.indexedAddress (Instr.rl f).fields) = false ∧
      beyond.effectiveAddress (direct .w1 0#12) = some 32768#24 ∧ beyond.inStore 32768#24 = false ∧
      testsAddressFirst (.rl (direct .w1 0#12)) = true ∧ clearsThenTestsAddress (.wa (direct .w1 0#12)) = true ∧
      testsModeThenAddress (.ml (direct .w1 0#12)) = true ∧ beyond.monitorMode = true := by decide

/-- Device 0 delivers four characters to an AW whose address does not exist. -/
theorem witness_MissingStorageTraps_autoload :
    let s : State := { beyond with inputs := [[.deviceCompletes 0 0#24], [.deviceCompletes 0 63#24],
      [.deviceCompletes 0 1#24], [.deviceCompletes 0 2#24]] }
    s.effectiveAddress (direct .w1 0#12) = some 32768#24 ∧ s.inStore 32768#24 = false ∧ s.monitorMode = true ∧
      FourCharacters 0#24 63#24 1#24 2#24 0x03F042#24 ∧ s.delivers [0#24, 63#24, 1#24, 2#24] [] := by
  refine ⟨by decide, by decide, by decide, ?_, by decide, by decide, ⟨Device.loader, ?_⟩, by decide⟩
  · simp only [FourCharacters]
    decide
  · decide

theorem witness_ProtectedWordTraps :
    testsProtectionNext (.rs (direct .w1 102#12)) = true ∧ Operand task (direct .w1 102#12) 102#24 ∧
      task.monitorMode = false ∧ task.pr.getMsbD (task.readKey 102#24).toNat = true := by
  simp only [Operand]
  decide

/-- A protected word for RX; an unprotected word after a protected one for DS; a missing and a protected byte for NS. -/
theorem witness_PartialEffectsRemain :
    (task.effectiveAddress (direct .w1 102#12) = some 102#24 ∧ task.inStore 102#24 = true ∧
      task.denied 102#24 = true) ∧
      (task.effectiveAddress (direct .w1 98#12) = some 98#24 ∧ task.inStore 98#24 = true ∧ task.denied 98#24 = false ∧
        task.denied (prevAddress 98#24) = true) ∧
      (beyond.effectiveAddress (direct .w1 0#12) = some 32768#24 ∧ beyond.inStore 32768#24 = false) := by decide

/-- An instruction that completes, and one that takes the exception. -/
theorem witness_TaskModeIsConfined :
    task.monitorMode = false ∧ (∃ t, exec (.rl (direct .w1 100#12)) task = .next t) ∧
      ∃ t, exec (.rs (direct .w1 102#12)) task = .next t :=
  ⟨by decide, ⟨_, rfl⟩, ⟨_, rfl⟩⟩

theorem witness_WritersOfControl : sample.monitorMode = true ∧ ∃ t, exec (.rl (direct .w1 100#12)) sample = .next t :=
  ⟨by decide, _, rfl⟩

/-- A next instruction that exists, and a counter just past the store. -/
theorem witness_ModifyNextAddress :
    (sample.effectiveAddress (direct .w1 100#12) = some 100#24 ∧ sample.inStore sample.ic = true) ∧
      State.inStore { sample with ic := 32768#24 } 32768#24 = false := by decide

theorem witness_LoadAddress :
    sample.effectiveAddress (direct .w1 0xFFF#12) = some 0xFFFFFF#24 ∧
      State.effectiveAddress { sample with modifier := some 0x800000#24 } (direct .w1 0#12) = some 0x800000#24 := by
  decide

theorem witness_LoadsOfRegister :
    Operand sample (direct .w1 100#12) 100#24 ∧ Operand sample (direct .w0 0#12) 0#24 ∧
      Operand last (direct .w3 0#12) 32767#24 := by
  simp only [Operand]
  decide

theorem witness_StoresOfWord :
    Writable task (direct .w1 100#12) 100#24 ∧ Writable sample (direct .w0 0#12) 0#24 ∧
      Writable last (direct .w3 0#12) 32767#24 := by
  simp only [Writable, Operand]
  decide

theorem witness_StoresOfByte :
    Writable task (direct .w1 101#12) 101#24 ∧ Writable sample (direct .w1 2#12) 2#24 := by
  simp only [Writable, Operand]
  decide

theorem witness_ExchangeRegister :
    Writable task (direct .w1 100#12) 100#24 ∧ Writable sample (direct .w1 2#12) 2#24 := by
  simp only [Writable, Operand]
  decide

/-- A double word in the store, and the two overlaps: first word W for DL, last word Wpre for DS. -/
theorem witness_DoubleRegisterTransfer :
    (Writable task (direct .w1 100#12) 100#24 ∧ task.denied (prevAddress 100#24) = false) ∧
      (Operand sample (direct .w1 4#12) 4#24 ∧ registerAt (wordNumber (prevAddress 4#24)) = some .w1) ∧
      (Writable sample (direct .w1 1#12) 1#24 ∧ registerAt (wordNumber 1#24) = some (wpre .w1)) := by
  simp only [Writable, Operand]
  decide

theorem witness_AddAndSubtractWord : Operand sample (direct .w1 100#12) 100#24 ∧ Operand sample (direct .w1 2#12) 2#24 := by
  simp only [Operand]
  decide

theorem witness_AddAndSubtractByte :
    Operand sample (direct .w1 102#12) 102#24 ∧ (0xFFFABC#24).toInt = (sample.readByte 102#24).toInt := by
  simp only [Operand]
  decide

theorem witness_MultiplyWord : Operand sample (direct .w1 102#12) 102#24 := by
  simp only [Operand]
  decide

/-- A division that completes, a divisor of zero, a quotient of exactly -2**23 under the parameter. -/
theorem witness_DivideWord :
    let q (s : State) (w : WReg) (a : Word) : Int := (s.pair w).toInt.sign * (s.readWord a).toInt.sign
      * (((s.pair w).toInt.natAbs / (s.readWord a).toInt.natAbs : Nat) : Int)
    let m : State := { machine 0x400000#24 0#24 0#24 0#24 [(100#24, 0x800000#24)] with
      cfg := { Config.proposed with wdQminOverflow := true } }
    (Operand sample (direct .w2 100#12) 100#24 ∧ (sample.readWord 100#24).toInt ≠ 0 ∧
      fitsWord (q (sample.setReg .w1 0#24) .w2 100#24) = true) ∧
      (Operand sample (direct .w1 104#12) 104#24 ∧ (sample.readWord 104#24).toInt = 0) ∧
      (Operand m (direct .w1 100#12) 100#24 ∧ q m .w1 100#24 = -2 ^ 23 ∧ m.cfg.wdQminOverflow = true) := by
  simp only [Operand]
  decide

theorem witness_AddAndSubtractDouble :
    Operand sample (direct .w1 100#12) 100#24 ∧
      (Operand sample (direct .w1 4#12) 4#24 ∧ registerAt (wordNumber (prevAddress 4#24)) = some .w1) := by
  simp only [Operand]
  decide

theorem witness_ConvertToFloating :
    sample.effectiveAddress (direct .w1 0#12) = some 0#24 ∧ sample.reg .w1 ≠ 0#24 ∧
      State.reg { sample with regs := { sample.regs with w1 := 0#24 } } .w1 = 0#24 := by decide

/-- The number 8 388 607.5, which overflows, and 0.5 * 2**5, which does not. -/
theorem witness_ConvertToInteger :
    let m := machine 0x7FFFFF#24 0x800017#24 0#24 0#24 []
    let r (s : State) (n : Int) : Int := ((s.registerFraction .w1).toInt + 2 ^ (n.toNat + 11)) / 2 ^ (n.toNat + 12)
    (m.effectiveAddress (direct .w1 0#12) = some 0#24 ∧
      (0 : Int) = (23 - (0#24).toInt - (m.registerExponent .w1).toInt).bmod (2 ^ 24) ∧ fitsWord (r m 0) = false) ∧
      (sample.effectiveAddress (direct .w1 0#12) = some 0#24 ∧
        (18 : Int) = (23 - (0#24).toInt - (sample.registerExponent .w1).toInt).bmod (2 ^ 24) ∧
        fitsWord (r sample 18) = true) := by decide

/-- Exponents 4, 37, 38 and -38 apart. -/
theorem witness_AddAndSubtractFloating :
    let f := direct .w1 100#12
    let d (s : State) : Int := ((fetchedIn s f).registerExponent .w1).toInt - (fetched s f 100#24).exponent.toInt
    Operand sample f 100#24 ∧ sample.fetchesOperands f 100#24 (fetched sample f 100#24) (fetchedIn sample f) ∧
      d sample = 4 ∧ d (sample.setReg .w1 38#24) = 37 ∧ d (sample.setReg .w1 39#24) = 38 ∧
      d (sample.setReg .w1 0xFDB#24) = -38 := by
  simp only [Operand, State.fetchesOperands]
  decide

/-- With a script of the channel, which changes the exponent before it is fetched. -/
theorem witness_MultiplyFloating :
    let f := direct .w1 100#12
    Operand transfer f 100#24 ∧
      transfer.fetchesOperands f 100#24 { fetched transfer f 100#24 with storage := 0x400000123#36, exponent := 0x456#12 }
        (fetchedIn transfer f) := by
  simp only [Operand, State.fetchesOperands]
  decide

theorem witness_NormalizeAndRoundError :
    (∃ r rsc, (r, rsc) = normalizeAndRound 4#39 0#13 ∧ 4#39 ≠ 0#39) ∧ ∃ r rsc, (r, rsc) = normalizeAndRound 0#39 0#13 :=
  ⟨⟨_, _, rfl, by decide⟩, _, _, rfl⟩

/-- A divisor zero; one that is not normalized, in an installation that rejects it; a dividend zero; two normalized
numbers. -/
theorem witness_DivideFloating :
    let f := direct .w1 106#12
    let g := direct .w1 100#12
    let r : State := { sample.writeWord 98#24 0x100000#24 with
      cfg := { Config.proposed with fdRejectsUnnormalized := true } }
    let z : State := sample.setReg .w0 0#24
    (Operand sample f 106#24 ∧ sample.fetchesOperands f 106#24 (fetched sample f 106#24) (fetchedIn sample f) ∧
      firstWord (fetched sample f 106#24).storage = 0#24) ∧
      (Operand r g 100#24 ∧ r.fetchesOperands g 100#24 (fetched r g 100#24) (fetchedIn r g) ∧
        r.cfg.fdRejectsUnnormalized = true ∧
        (fetched r g 100#24).storage.getMsbD 0 = (fetched r g 100#24).storage.getMsbD 1) ∧
      (Operand z g 100#24 ∧ z.fetchesOperands g 100#24 (fetched z g 100#24) (fetchedIn z g) ∧
        firstWord (fetched z g 100#24).register = 0#24) ∧
      (Operand sample g 100#24 ∧ sample.fetchesOperands g 100#24 (fetched sample g 100#24) (fetchedIn sample g) ∧
        firstWord (fetched sample g 100#24).storage ≠ 0#24 ∧ sample.cfg.fdRejectsUnnormalized = false ∧
        firstWord (fetched sample g 100#24).register ≠ 0#24) := by
  simp only [Operand, State.fetchesOperands]
  decide

theorem witness_DivideFloatingError :
    let f := direct .w1 100#12
    let o := fetched sample f 100#24
    Operand sample f 100#24 ∧ sample.fetchesOperands f 100#24 o (fetchedIn sample f) ∧ sample.ex.getMsbD 0 = false ∧
      o.register.getMsbD 0 ≠ o.register.getMsbD 1 ∧ o.storage.getMsbD 0 ≠ o.storage.getMsbD 1 := by
  simp only [Operand, State.fetchesOperands]
  decide

theorem witness_DivisionLoopEnds :
    firstWord 0x000001FFF#36 ≠ 0#24 ∧ firstWord 0xFFFFFF000#36 ≠ 0#24 := by decide

theorem witness_DivisionCycles :
    (0x400000000#36).getMsbD 0 ≠ (0x400000000#36).getMsbD 1 ∧ (0x800000000#36).getMsbD 0 ≠ (0x800000000#36).getMsbD 1 := by
  decide

theorem witness_LogicalOperations : Operand sample (direct .w1 100#12) 100#24 ∧ Operand sample (direct .w1 2#12) 2#24 := by
  simp only [Operand]
  decide

/-- Counts of 63, 64, -63 and -64. -/
theorem witness_ArithmeticShifts :
    let n (a : Word) : Int := if 64 ≤ a.toInt.natAbs then 48 * a.toInt.sign else a.toInt
    (sample.effectiveAddress (direct .w1 63#12) = some 63#24 ∧ n 63#24 = 63) ∧
      (sample.effectiveAddress (direct .w1 64#12) = some 64#24 ∧ n 64#24 = 48) ∧
      (sample.effectiveAddress (direct .w1 0xFC1#12) = some 0xFFFFC1#24 ∧ n 0xFFFFC1#24 = -63) ∧
      (sample.effectiveAddress (direct .w1 0xFC0#12) = some 0xFFFFC0#24 ∧ n 0xFFFFC0#24 = -48) := by decide

theorem witness_LogicalShifts :
    let n (a : Word) : Int := if 64 ≤ a.toInt.natAbs then 48 * a.toInt.sign else a.toInt
    (sample.effectiveAddress (direct .w1 0#12) = some 0#24 ∧ n 0#24 = 0) ∧
      (sample.effectiveAddress (direct .w1 0xFFF#12) = some 0xFFFFFF#24 ∧ n 0xFFFFFF#24 = -1) := by decide

/-- A register that is not zero, one that is, and a count byte in the register itself. -/
theorem witness_NormalizeRegister :
    Writable task (direct .w1 101#12) 101#24 ∧ Writable sample (direct .w1 2#12) 2#24 ∧ sample.reg .w1 ≠ 0#24 ∧
      sample.pair .w1 ≠ 0#48 ∧ (sample.setPair .w1 0#48).reg .w1 = 0#24 ∧ (sample.setPair .w1 0#48).pair .w1 = 0#48 := by
  simp only [Writable, Operand]
  decide

theorem witness_JumpWithLink :
    Writable task (direct .w1 101#12) 101#24 ∧ WReg.w1 ≠ .w0 ∧ Writable sample (direct .w0 0#12) 0#24 := by
  simp only [Writable, Operand]
  decide

theorem witness_MonitorJumps :
    Operand sample (direct .w1 101#12) 101#24 ∧ sample.monitorMode = true ∧ Operand sample (direct .w0 0#12) 0#24 := by
  simp only [Operand]
  decide

theorem witness_CompareSkips :
    sample.effectiveAddress (direct .w1 5#12) = some 5#24 ∧
      State.effectiveAddress { sample with modifier := some 0x800000#24 } (direct .w1 0#12) = some 0x800000#24 := by
  decide

/-- Masks that select one bits only, none, and one bit of each kind. -/
theorem witness_BitSkips :
    sample.effectiveAddress (direct .w1 5#12) = some 5#24 ∧ sample.effectiveAddress (direct .w1 0#12) = some 0#24 ∧
      sample.effectiveAddress (direct .w1 3#12) = some 3#24 ∧ sample.inStore 5#24 = true ∧
      ((3#24).getMsbD 22 = true ∧ (sample.reg .w1).getMsbD 22 = false) ∧
      ((3#24).getMsbD 23 = true ∧ (sample.reg .w1).getMsbD 23 = true) := by decide

theorem witness_ControlRegisterLoads :
    sample.effectiveAddress (direct .w1 101#12) = some 101#24 ∧ sample.monitorMode = true ∧
      sample.inStore 101#24 = true := by decide

/-- Device 0 available, busy, and a device that is not there; sense, read and write. -/
theorem witness_InputOutput :
    let b : State := { sample with devices := [{ Device.loader with condition := .busy }] }
    (sample.effectiveAddress (direct .w1 64#12) = some 64#24 ∧ sample.monitorMode = true ∧
      1 = (64#24).toNat / 64 % 2 ^ sample.cfg.deviceBits ∧ sample.condition 1 = .disconnected) ∧
      (b.effectiveAddress (direct .w1 0#12) = some 0#24 ∧ b.monitorMode = true ∧ b.condition 0 = .busy) ∧
      (sample.effectiveAddress (direct .w1 63#12) = some 63#24 ∧
        0 = (63#24).toNat / 64 % 2 ^ sample.cfg.deviceBits ∧ sample.isTimer 0 = false ∧
        sample.device? 0 = some Device.loader ∧ Device.loader.condition = .available ∧
        (0#24).toNat % 4 = 0 ∧ (62#24).toNat % 4 = 2 ∧ (63#24).toNat % 2 = 1) := by decide

theorem witness_AutoloadLoadsWord :
    let s : State := { sample with inputs := [[.deviceCompletes 0 0#24], [.deviceCompletes 0 63#24],
      [.deviceCompletes 0 1#24], [.deviceCompletes 0 2#24], [.signal 3]] }
    Operand s (direct .w1 100#12) 100#24 ∧ s.monitorMode = true ∧
      FourCharacters 0#24 63#24 1#24 2#24 0x03F042#24 ∧ s.delivers [0#24, 63#24, 1#24, 2#24] [[.signal 3]] := by
  refine ⟨?_, by decide, ?_, by decide, by decide, ⟨Device.loader, by decide⟩, by decide⟩
  · simp only [Operand]
    decide
  · simp only [FourCharacters]
    decide

/-- An AW that waits for its third character, device 0 being available with this data word. -/
def reading (sb : Word) : State :=
  { sample with
    devices := [{ Device.loader with buffer := sb }]
    autoload := some { address := 100#24, assembled := 65#24, count := 2, waiting := true } }

/-- End of buffer; the greatest character; a status bit. -/
theorem witness_AutoloadReads :
    let p : Autoload := { address := 100#24, assembled := 65#24, count := 2, waiting := true }
    ((reading 0x800000#24).loaderReads p 0x800000#24 ∧ (0x800000#24).getMsbD 0 = true) ∧
      ((reading 63#24).loaderReads p 63#24 ∧ (63#24).getMsbD 0 = false ∧ leftByte 63#24 = 0#12 ∧ p.count < 3) ∧
      ((reading 0x001000#24).loaderReads p 0x001000#24 ∧ (0x001000#24).getMsbD 0 = false ∧
        leftByte 0x001000#24 ≠ 0#12) := by
  simp only [State.loaderReads]
  decide

/-- Device 0 disconnected and busy as AW begins, disconnected as it goes on, and a parity error while it waits. -/
theorem witness_AutoloadStops :
    let p : Autoload := { address := 100#24, assembled := 65#24, count := 2, waiting := true }
    let gone : State := { reading 0#24 with devices := [] }
    let c : PowerOnContents :=
      { regs := sample.regs, ic := 1#24, ex := 7#3, pr := 0#8, ir := 0#24, im := 0#24, key0 := 1#3, key1 := 1#3, key2 := 1#3,
        key3 := 1#3, timer := 0#14 }
    sample.effectiveAddress (direct .w1 100#12) = some 100#24 ∧ sample.monitorMode = true ∧
      State.condition { sample with devices := [] } 0 = .disconnected ∧
      (State.condition { sample with devices := [{ Device.loader with condition := .busy }] } 0 = .busy ∧
        sample.inputs = [] ∧ sample.halt = none) ∧
      (gone.halt = none ∧ gone.autoload = some p ∧ gone.inputs = [] ∧ gone.condition 0 = .disconnected) ∧
      ((reading 0#24).halt = none ∧ (reading 0#24).autoload = some p ∧
        (State.events { reading 0#24 with autoload := none, inputs := [] } [.parityError c]).halt ≠ none) := by decide

theorem witness_IntervalTimer :
    let s : State := { sample with cfg := { Config.proposed with timerDevice := some 1, timerIrBit := some 3 } }
    (s.effectiveAddress (direct .w1 64#12) = some 64#24 ∧ s.monitorMode = true ∧
      s.cfg.timerDevice = some ((64#24).toNat / 64 % 2 ^ s.cfg.deviceBits) ∧ (64#24).toNat % 4 = 0) ∧
      s.cfg.timerIrBit = some 3 := by decide

/-- A byte that the channel changes, and a write that it can make. -/
theorem witness_OutsideWorldIsConfined :
    (transfer.event (.channelWrites { device := 0, address := 100#24, value := 0x123456#24 })).readByte 100#24 ≠
        transfer.readByte 100#24 ∧
      transfer.channelTurn.readByte 100#24 ≠ transfer.readByte 100#24 ∧
      ∃ d, transfer.device? 0 = some d ∧ d.condition = .busy ∧ d.highSpeed = true ∧ d.remote = true ∧
        inArea (wordNumber 100#24) d.area = true ∧ transfer.inStore 100#24 = true :=
  ⟨by decide, by decide, _, rfl, by decide⟩

theorem witness_PowerFailureResets :
    let c : PowerOnContents :=
      { regs := sample.regs, ic := 1#24, ex := 7#3, pr := 0#8, ir := 0#24, im := 0#24, key0 := 1#3, key1 := 1#3, key2 := 1#3,
        key3 := 1#3, timer := 0#14 }
    let s : State := { sample with inputs := [[.powerFails c]] }
    let l : State := { s with phase := .fetching, ic := 32768#24 }
    let e : State := { sample with inputs := [[.parityError c]] }
    (s.atBoundary ∧ s.takeInputs.halt = none ∧ s.takeInputs.phase ≠ .afterReset ∧ s.takeInputs.powerFailing = some c) ∧
      (l.atBoundary ∧ l.takeInputs.halt = none ∧ l.takeInputs.phase ≠ .afterReset ∧
        l.takeInputs.powerFailing = some c) ∧
      e.atBoundary ∧ e.takeInputs.halt = some (.parity c) := by
  simp only [State.atBoundary]
  decide

theorem witness_DecodeAndEncodeAgree : (Instr.al (direct .w1 5#12)).wellFormed = true := rfl

theorem witness_FieldLayout : sample.ic.getMsbD 23 = false := by decide

end Sys2Proof.Tests
end

section
/-! PROOFS. What every proof about steps needs: single bits of a register, the processor's control fields as one value, the
part of the invariant that holds at every label, and what an event of the outside world leaves alone. -/

namespace Sys2Proof.Machine

/-! ## Bits of a register -/

theorem getMsbD_bitMask {k : Nat} (h : k < 24) (b : Nat) : (bitMask k).getMsbD b = decide (b = k) := by
  have hpow : bitMask k = BitVec.twoPow 24 (23 - k) := by
    apply BitVec.eq_of_toNat_eq
    rw [bitMask, BitVec.toNat_ofNat, BitVec.toNat_twoPow]
  rw [hpow, BitVec.getMsbD_twoPow, ← Bool.decide_and, decide_eq_decide]
  omega

theorem getMsbD_or_bitMask {k : Nat} (h : k < 24) (v : Word) (b : Nat) :
    (v ||| bitMask k).getMsbD b = (v.getMsbD b || decide (b = k)) := by
  rw [BitVec.getMsbD_or, getMsbD_bitMask h]

/-- A load of IC clears bit 23 (R26). -/
@[simp] theorem getMsbD_evenAddress (a : Word) : (evenAddress a).getMsbD 23 = false := by
  have hmask : (0xFFFFFE#24).getMsbD 23 = false := by decide
  simp [evenAddress, BitVec.getMsbD_and, hmask]

/-- Two added to an even IC leaves it even. -/
theorem getMsbD_add_two {a : Word} (h : a.getMsbD 23 = false) : (a + 2#24).getMsbD 23 = false := by
  rw [getMsbD_23, decide_eq_false_iff_not] at h ⊢
  rw [BitVec.toNat_add, BitVec.toNat_ofNat]
  omega

/-! ## The processor's control fields as one value -/

/-- The fields that steer the processor, IR apart: what store, registers, devices, panel and scripts are not. -/
structure Control where
  ic : Word
  ex : BitVec 3
  pr : BitVec 8
  im : Word
  monitorMode : Bool
  interruptDisabled : Bool
  keys : KeyStore
  phase : Phase
  modifier : Option Word
  autoload : Option Autoload

/-- The control fields of a state. -/
def State.control (s : State) : Control :=
  { ic := s.ic, ex := s.ex, pr := s.pr, im := s.im, monitorMode := s.monitorMode,
    interruptDisabled := s.interruptDisabled, keys := s.keys, phase := s.phase, modifier := s.modifier,
    autoload := s.autoload }

section
variable (s : State)

@[simp] theorem State.setReg_control (r : WReg) (v : Word) : (s.setReg r v).control = s.control := by
  simp [State.control]
@[simp] theorem State.writeWord_control (a v : Word) : (s.writeWord a v).control = s.control := by
  simp [State.control]
@[simp] theorem State.channelWrite_control (w : ChannelWrite) : (s.channelWrite w).control = s.control := by
  simp [State.control]
@[simp] theorem State.channelTurn_control : s.channelTurn.control = s.control := by simp [State.control]
@[simp] theorem State.updateDevice_control (n : Nat) (c : Device → Device) :
    (s.updateDevice n c).control = s.control := by simp [State.control]

/-- A command to a device reaches no other field than the devices. -/
@[simp] theorem State.acceptCommand_control (n : Nat) (c : BitVec 6) (v : Word) :
    (s.acceptCommand n c v).control = s.control := by
  unfold State.acceptCommand
  split
  · rfl
  · exact s.updateDevice_control n _
@[simp] theorem State.acceptCommand_ir (n : Nat) (c : BitVec 6) (v : Word) : (s.acceptCommand n c v).ir = s.ir := by
  unfold State.acceptCommand
  split <;> rfl

end

/-! ## What is sound at every label -/

/-- The clauses of the invariant that do not depend on the label at which the machine stands. -/
structure State.Sound (s : State) : Prop where
  permanent : s.permanentBits
  store : s.storeSound
  buffers : s.buffersSound
  interval : s.intervalSound

theorem State.Inv.sound {s : State} (h : s.Inv) : s.Sound := ⟨h.permanent, h.store, h.buffers, h.interval⟩

/-- What is sound depends on six fields only. -/
theorem State.Sound.congr {s t : State} (h : s.Sound) (hpr : t.pr = s.pr := by simp) (him : t.im = s.im := by simp)
    (hstore : t.store = s.store := by simp) (hkeys : t.keys = s.keys := by simp)
    (hdevices : t.devices = s.devices := by simp) (hinterval : t.timerInterval = s.timerInterval := by simp) :
    t.Sound where
  permanent := by simpa only [State.permanentBits, hpr, him] using h.permanent
  store := by simpa only [State.storeSound, hstore, hkeys] using h.store
  buffers := by simpa only [State.buffersSound, hdevices] using h.buffers
  interval := by simpa only [State.intervalSound, hinterval] using h.interval

/-- A write to the store that keeps its canonical form. -/
theorem State.Sound.of_store {s : State} (h : s.Sound) {m : Memory} (hm : Memory.wf m = true) :
    State.Sound { s with store := m } := ⟨h.permanent, ⟨hm, h.store.2⟩, h.buffers, h.interval⟩

theorem State.Sound.setReg {s : State} (h : s.Sound) (r : WReg) (v : Word) : (s.setReg r v).Sound := h.congr

theorem State.Sound.writeWord {s : State} (h : s.Sound) (a v : Word) : (s.writeWord a v).Sound :=
  (h.of_store (State.wf_writeWord s a v h.store.1)).congr

theorem State.Sound.channelTurn {s : State} (h : s.Sound) : s.channelTurn.Sound :=
  (h.of_store (State.wf_channelTurn s h.store.1)).congr

theorem State.Sound.writeKey {s : State} (h : s.Sound) (a : Word) (k : Key) : (s.writeKey a k).Sound :=
  ⟨h.permanent, ⟨h.store.1, State.wf_writeKey s a k h.store.2⟩, h.buffers, h.interval⟩

theorem State.Sound.channelWrite {s : State} (h : s.Sound) (w : ChannelWrite) : (s.channelWrite w).Sound := by
  unfold State.channelWrite
  split
  · exact h.writeWord _ _
  · exact h

/-- A change of a device that gives its buffer register no bit it does not have (R310 (b)). -/
theorem State.Sound.updateDevice {s : State} (h : s.Sound) (n : Nat) {change : Device → Device}
    (hc : ∀ d : Device, d.buffer &&& ~~~d.used = 0#24 → (change d).buffer &&& ~~~(change d).used = 0#24) :
    (s.updateDevice n change).Sound := by
  refine ⟨h.permanent, h.store, fun d hd => ?_, h.interval⟩
  obtain ⟨e, he, rfl⟩ := List.mem_map.mp hd
  split
  · exact hc e (h.buffers e he)
  · exact h.buffers e he

/-- What is moved into a buffer register through its mask has no bit outside it. -/
theorem and_used_sound (v used : Word) : v &&& used &&& ~~~used = 0#24 := by
  rw [BitVec.and_assoc, BitVec.and_not_self]
  exact BitVec.and_zero

theorem State.Sound.acceptCommand {s : State} (h : s.Sound) (n : Nat) (c : BitVec 6) (v : Word) :
    (s.acceptCommand n c v).Sound := by
  unfold State.acceptCommand
  split
  · exact h
  · refine h.updateDevice n fun d hd => ?_
    cases hm : movesWord c with
    | true => simpa [Device.accept, hm] using and_used_sound v d.used
    | false => simpa [Device.accept, hm] using hd

/-- An interruption taken writes two words of the store (R112). -/
theorem State.Sound.takeInterrupt {s : State} (h : s.Sound) (b : Nat) : (s.takeInterrupt b).Sound := by
  have hcleared : State.Sound { s with ir := s.ir &&& ~~~ bitMask b } := h.congr
  have hsaved := ((hcleared.channelTurn.writeWord 8#24 (BitVec.ofNat 24 (2 * b))).channelTurn.writeWord 10#24
    s.ic).channelTurn
  exact hsaved.congr rfl rfl rfl rfl rfl rfl

theorem State.Sound.instructionException {s : State} (h : s.Sound) : s.instructionException.Sound :=
  State.Sound.takeInterrupt (s := { s with ir := s.ir ||| bitMask 0, modifier := none, phase := .fetching })
    h.congr 0

theorem State.Sound.powerOn {s : State} (h : s.Sound) : s.powerOn.Sound := h.congr

theorem State.Sound.resetSystem {s : State} (h : s.Sound) : s.resetSystem.Sound :=
  (h.channelTurn.writeWord 10#24 s.ic).powerOn

/-- Power back with any register contents: `PR[0]` and `IM[0]` are one whatever these are (R31, R33, R346). -/
theorem State.Sound.loseRegisters {s : State} (h : s.Sound) (v : PowerOnContents) : (s.loseRegisters v).Sound := by
  have hkeyed := (((h.writeKey 0#24 v.key0).writeKey 2#24 v.key1).writeKey 4#24 v.key2).writeKey 6#24 v.key3
  unfold State.loseRegisters
  refine ⟨⟨?_, ?_⟩, hkeyed.store, hkeyed.buffers, hkeyed.interval⟩
  · simp [BitVec.getMsbD_or]
  · simp [getMsbD_bitMask]

/-! ## Events of the outside world -/

/-- What an event may do, as far as the processor is concerned: no control field changes, no interrupt bit is lost, only an
external bit is raised (R298), and what was sound is sound. -/
structure OutsideFrame (s t : State) : Prop where
  control : t.control = s.control
  kept : ∀ b, s.ir.getMsbD b = true → t.ir.getMsbD b = true
  raised : ∀ b, s.ir.getMsbD b = false → t.ir.getMsbD b = true → 3 ≤ b
  sound : s.Sound → t.Sound

theorem OutsideFrame.refl (s : State) : OutsideFrame s s :=
  ⟨rfl, fun _ h => h, fun b h h' => absurd h' (by simp [h]), fun h => h⟩

theorem OutsideFrame.trans {s t u : State} (h : OutsideFrame s t) (h' : OutsideFrame t u) : OutsideFrame s u where
  control := h'.control.trans h.control
  kept b hb := h'.kept b (h.kept b hb)
  raised b hs hu := by
    cases ht : t.ir.getMsbD b with
    | true => exact h.raised b hs ht
    | false => exact h'.raised b ht hu
  sound hs := h'.sound (h.sound hs)

/-- An event that touches neither control nor IR. -/
theorem OutsideFrame.of_ir {s t : State} (hc : t.control = s.control) (hi : t.ir = s.ir)
    (hs : s.Sound → t.Sound) : OutsideFrame s t :=
  ⟨hc, fun b hb => hi ▸ hb, fun b h h' => absurd h' (by simp [hi, h]), hs⟩

/-- An event that touches nothing the invariant speaks of. -/
theorem OutsideFrame.of_same {s t : State} (hc : t.control = s.control) (hi : t.ir = s.ir) (hstore : t.store = s.store)
    (hdevices : t.devices = s.devices) (hinterval : t.timerInterval = s.timerInterval) : OutsideFrame s t :=
  .of_ir hc hi fun h => h.congr (congrArg Control.pr hc) (congrArg Control.im hc) hstore (congrArg Control.keys hc)
    hdevices hinterval

/-- A key of the panel, which may be locked (R344). -/
theorem OutsideFrame.unless {s t : State} (locked : Bool) (h : OutsideFrame s t) :
    OutsideFrame s (if locked then s else t) := by
  cases locked
  · exact h
  · exact .refl s

theorem State.externalSignal_frame (s : State) (b : Nat) : OutsideFrame s (s.externalSignal b) := by
  unfold State.externalSignal
  split
  next hb =>
    refine ⟨rfl, fun c hc => ?_, fun c hc hc' => ?_, fun h => h.congr⟩
    · simp [getMsbD_or_bitMask (show b < 24 by omega), hc]
    · simp only [getMsbD_or_bitMask (show b < 24 by omega), hc, Bool.false_or, decide_eq_true_eq] at hc'
      omega
  next => exact .refl s

theorem State.wiredSignal_frame (s : State) (w : Option Nat) : OutsideFrame s (s.wiredSignal w) := by
  cases w with
  | none => exact .refl s
  | some b => exact s.externalSignal_frame b

theorem State.timerStep_frame (s : State) : OutsideFrame s s.timerStep := by
  have hcount : OutsideFrame s { s with timer := s.timer + 1#14 } := .of_same rfl rfl rfl rfl rfl
  unfold State.timerStep
  dsimp only
  split
  · exact hcount.trans (State.wiredSignal_frame _ _)
  · exact hcount

theorem State.timerSteps_frame (n : Nat) (s : State) : OutsideFrame s (s.timerSteps n) := by
  induction n generalizing s with
  | zero => exact .refl s
  | succ n ih => exact s.timerStep_frame.trans (ih s.timerStep)

theorem State.updateDevice_frame (s : State) (n : Nat) {change : Device → Device}
    (hc : ∀ d : Device, d.buffer &&& ~~~d.used = 0#24 → (change d).buffer &&& ~~~(change d).used = 0#24) :
    OutsideFrame s (s.updateDevice n change) :=
  .of_ir (by simp) (by simp) fun h => h.updateDevice n hc

theorem State.deviceCompletes_frame (s : State) (n : Nat) (v : Word) : OutsideFrame s (s.deviceCompletes n v) := by
  unfold State.deviceCompletes
  split
  next d _ =>
    split
    · exact (s.updateDevice_frame n fun e _ => and_used_sound v e.used).trans (State.wiredSignal_frame _ _)
    · exact .refl s
  next => exact .refl s

/-- Every event of the outside world keeps the processor's control. -/
theorem State.event_frame (s : State) (e : HostEvent) : OutsideFrame s (s.event e) := by
  cases e with
  | pressReset => exact .unless s.panelLocked (.of_same rfl rfl rfl rfl rfl)
  | pressStart => exact .unless s.panelLocked (.of_same rfl rfl rfl rfl rfl)
  | pressAutoload => exact .unless s.panelLocked (.of_same rfl rfl rfl rfl rfl)
  | lockPanel locked => exact .of_same rfl rfl rfl rfl rfl
  | signal b => exact s.externalSignal_frame b
  | timerSteps n => exact s.timerSteps_frame n
  | setTimerInterval k =>
    dsimp only [State.event]
    split
    next hk => exact .of_ir rfl rfl fun h => ⟨h.permanent, h.store, h.buffers, hk⟩
    next => exact .refl s
  | deviceCompletes n v => exact s.deviceCompletes_frame n v
  | deviceFills n v => exact s.updateDevice_frame n fun d _ => and_used_sound v d.used
  | deviceConnects n busy => exact s.updateDevice_frame n fun d hd => by split <;> exact hd
  | deviceDisconnects n => exact s.updateDevice_frame n fun _ hd => hd
  | setRemote n remote => exact s.updateDevice_frame n fun _ hd => hd
  | handArea n first count => exact s.updateDevice_frame n fun d hd => by split <;> exact hd
  | channelWrites w => exact .of_ir (s.channelWrite_control w) (by simp [State.event]) fun h => h.channelWrite w
  | powerFails contents => exact .of_same rfl rfl rfl rfl rfl
  | parityError contents => exact .of_same rfl rfl rfl rfl rfl
  | losesPower => exact .of_same rfl rfl rfl rfl rfl

theorem State.events_frame (batch : List HostEvent) (s : State) : OutsideFrame s (s.events batch) := by
  induction batch generalizing s with
  | nil => exact .refl s
  | cons e batch ih => exact (s.event_frame e).trans (ih (s.event e))

theorem State.takeInputs_frame (s : State) : OutsideFrame s s.takeInputs := by
  unfold State.takeInputs
  split
  next => exact .refl s
  next batch rest _ =>
    have hscript : OutsideFrame s { s with inputs := rest } := .of_same rfl rfl rfl rfl rfl
    exact hscript.trans (State.events_frame batch _)

end Sys2Proof.Machine
end

section
/-! PROOFS. Said once, for every instruction: the single effects that it can have, and that it does nothing but a sequence of
these. What holds of each effect holds of the instruction. -/

namespace Sys2Proof.Machine

/-! ## The effects of an instruction -/

/-- One thing that instruction `i` may do to the state, its modifier apart, which is used up before (R141). What only some
instructions do carries that condition. -/
inductive Effect : Instr → State → State → Prop
  /-- The channel's turn before a store access (R78). -/
  | channel (i : Instr) (s : State) : Effect i s s.channelTurn
  /-- A working register assigned (R22). -/
  | register (i : Instr) (s : State) (r : WReg) (v : Word) : Effect i s (s.setReg r v)
  /-- A word of the store assigned (R65). -/
  | word (i : Instr) (s : State) (a v : Word) : Effect i s (s.writeWord a v)
  /-- The following instruction skipped (R245). -/
  | skip (i : Instr) (s : State) : Effect i s s.skip
  /-- A load of IC, which clears bit 23 (R26). -/
  | jump (i : Instr) (s : State) (a : Word) : Effect i s { s with ic := evenAddress a }
  /-- The instruction exception (R120). -/
  | exception (i : Instr) (s : State) : Effect i s s.instructionException
  /-- EX[22:23] written, EX[21] kept (R29). -/
  | flags {i : Instr} (h : writesExceptions i = true) (s : State) {e : BitVec 3}
      (he : e.getMsbD 0 = s.ex.getMsbD 0) : Effect i s { s with ex := e }
  /-- All of EX loaded, by XL (R267). -/
  | loadFlags (f : Fields) (s : State) (e : BitVec 3) : Effect (.xl f) s { s with ex := e }
  /-- IR[1] and EX[22] set (R124, R291). -/
  | integerOverflow {i : Instr} (h : setsIntegerOverflow i = true) (s : State) : Effect i s s.integerOverflow
  /-- IR[2] and EX[22] set (R196, R291). -/
  | floatingOverflow {i : Instr} (h : setsFloatingOverflow i = true) (s : State) : Effect i s s.floatingOverflow
  /-- Bits of IR cleared, by IC (R263). -/
  | clearInterrupts (f : Fields) (s : State) (a : Word) : Effect (.ic f) s { s with ir := s.ir &&& ~~~a }
  /-- IM loaded, by ML (R265). -/
  | loadMask (f : Fields) (s : State) (v : Word) : Effect (.ml f) s { s with im := v ||| bitMask 0 }
  /-- PR loaded, by PL (R269). -/
  | loadProtection (f : Fields) (s : State) (v : BitVec 8) : Effect (.pl f) s { s with pr := v ||| 0x80#8 }
  /-- The interruption system enabled, by JE (R261). -/
  | enable (f : Fields) (s : State) : Effect (.je f) s { s with interruptDisabled := false }
  /-- The interruption system disabled, by JD (R262). -/
  | disable (f : Fields) (s : State) : Effect (.jd f) s { s with interruptDisabled := true }
  /-- A key loaded, by KS (R272). -/
  | loadKey (f : Fields) (s : State) (a : Word) (k : Key) : Effect (.ks f) s (s.writeKey a k)
  /-- The key of the word that AW has loaded (R274). -/
  | clearKey (f : Fields) (s : State) (a : Word) : Effect (.aw f) s (s.writeKey a 0#3)
  /-- A command that a device accepts, from IO or AW (R273, R274). -/
  | command {i : Instr} (h : (∃ f, i = .io f) ∨ ∃ f, i = .aw f) (s : State) (n : Nat) (c : BitVec 6) (v : Word) :
      Effect i s (s.acceptCommand n c v)
  /-- An event of the outside world while AW waits (R366; log 10). -/
  | outside (f : Fields) (s : State) (e : HostEvent) : Effect (.aw f) s (s.event e)
  /-- A batch of the script used up by AW's wait (log 10). -/
  | script (f : Fields) (s : State) (rest : List (List HostEvent)) : Effect (.aw f) s { s with inputs := rest }

/-- Any number of effects of instruction `i`, one after another. -/
abbrev Effects (i : Instr) : State → State → Prop := Relation.ReflTransGen (Effect i)

theorem Effects.first {i : Instr} {s t u : State} (he : Effect i s t) (h : Effects i t u) : Effects i s u := .head he h

theorem Effects.last {i : Instr} {s t u : State} (h : Effects i s t) (he : Effect i t u) : Effects i s u := .tail h he

theorem Effects.andThen {i : Instr} {s t u : State} (h : Effects i s t) (h' : Effects i t u) : Effects i s u :=
  .trans h h'

/-- How instruction `i` ends: with its effects done, AM with its modifier handed on, AW reset by device 0 or still waiting
for it in monitor mode (R141, R274). -/
inductive Completes : Instr → State → State → Prop
  | done {i : Instr} {s t : State} (h : Effects i s t) : Completes i s t
  | modify (f : Fields) {s t : State} (h : Effects (.am f) s t) (a : Word) :
      Completes (.am f) s { t with modifier := some a }
  | reset (f : Fields) {s t : State} (h : Effects (.aw f) s t) : Completes (.aw f) s t.resetSystem
  | hold (f : Fields) {s t : State} (h : Effects (.aw f) s t) (hm : t.monitorMode = true) {p : Autoload}
      (hp : p.count ≤ 3) : Completes (.aw f) s { t with autoload := some p }

theorem Completes.after {i : Instr} {s t u : State} (h : Effects i s t) (h' : Completes i t u) : Completes i s u := by
  cases h' with
  | done h' => exact .done (h.trans h')
  | modify f h' a => exact .modify f (h.trans h') a
  | reset f h' => exact .reset f (h.trans h')
  | hold f h' hm hp => exact .hold f (h.trans h') hm hp

/-- What every effect keeps, the whole sequence keeps. -/
theorem Effects.keeps {i : Instr} {P : State → Prop} (hP : ∀ {s t}, Effect i s t → P s → P t) {s t : State}
    (h : Effects i s t) (hs : P s) : P t := by
  induction h with
  | refl => exact hs
  | tail _ he ih => exact hP he ih

/-- No effect leaves monitor mode (R300). -/
theorem Effect.monitorMode {i : Instr} {s t : State} (h : Effect i s t) (hs : s.monitorMode = true) :
    t.monitorMode = true := by
  cases h with
  | outside _ _ e => exact (congrArg Control.monitorMode (s.event_frame e).control).trans hs
  | command _ _ n c v => exact (congrArg Control.monitorMode (s.acceptCommand_control n c v)).trans hs
  | exception => exact s.instructionException_monitorMode
  | _ => simpa using hs

/-- A modifier used up stays so. -/
theorem Effect.modifier {i : Instr} {s t : State} (h : Effect i s t) (hs : s.modifier = none) :
    t.modifier = none := by
  cases h with
  | outside _ _ e => exact (congrArg Control.modifier (s.event_frame e).control).trans hs
  | command _ _ n c v => exact (congrArg Control.modifier (s.acceptCommand_control n c v)).trans hs
  | exception => exact s.instructionException_modifier
  | _ => simpa using hs

/-! ## The shared operations -/

section
variable {i : Instr} {s : State}

theorem setsIntegerOverflow_writesExceptions (h : setsIntegerOverflow i = true) : writesExceptions i = true := by
  cases i <;> revert h <;> simp [setsIntegerOverflow, writesExceptions]

theorem setsFloatingOverflow_writesExceptions (h : setsFloatingOverflow i = true) : writesExceptions i = true := by
  cases i <;> revert h <;> simp [setsFloatingOverflow, writesExceptions]

theorem Effects.setPair (r : WReg) (v : DoubleWord) : Effects i s (s.setPair r v) :=
  .last (.single (.register i s _ _)) (.register i _ _ _)

theorem Effects.access {rest : State → State} (h : ∀ u, Effects i u (rest u)) : Effects i s (s.access rest) :=
  .first (.channel i s) (h _)

theorem Effects.testAddress {rest : State} (a : Word) (h : Effects i s rest) : Effects i s (s.testAddress a rest) := by
  obtain ⟨-, heq⟩ | ⟨-, heq⟩ := s.testAddress_cases rest a <;> rw [heq]
  · exact h
  · exact .single (.exception i s)

theorem Effects.testMode {rest : State} (h : Effects i s rest) : Effects i s (s.testMode rest) := by
  obtain ⟨-, heq⟩ | ⟨-, heq⟩ := s.testMode_cases rest <;> rw [heq]
  · exact h
  · exact .single (.exception i s)

theorem Effects.testProtection {rest : State} (a : Word) (h : Effects i s rest) :
    Effects i s (s.testProtection a rest) := by
  obtain ⟨-, heq⟩ | ⟨-, heq⟩ := s.testProtection_cases rest a <;> rw [heq]
  · exact h
  · exact .single (.exception i s)

/-- A load: an existing operand, then one register. -/
theorem Effects.load (a : Word) (r : WReg) (value : State → Word) :
    Effects i s (s.testAddress a (s.access fun u => u.setReg r (value u))) :=
  .testAddress a (.access fun _ => .single (.register i _ r _))

/-- A store: an existing operand that may be altered, then one word. -/
theorem Effects.store (a b : Word) (value : State → Word) :
    Effects i s (s.testAddress a (s.testProtection a (s.access fun u => u.writeWord b (value u)))) :=
  .testAddress a (.testProtection a (.access fun _ => .single (.word i _ b _)))

theorem Effects.skipIf (c : Bool) : Effects i s (s.skipIf c) := by
  cases c
  · exact .refl
  · exact .single (.skip i s)

theorem Effects.jumpLink (r : WReg) (a : Word) : Effects i s (s.jumpLink r a) := by
  cases r with
  | w0 => exact .single (.jump i s a)
  | w1 => exact .last (.single (.register i s .w1 s.ic)) (.jump i _ a)
  | w2 => exact .last (.single (.register i s .w2 s.ic)) (.jump i _ a)
  | w3 => exact .last (.single (.register i s .w3 s.ic)) (.jump i _ a)

theorem Effects.storeCount (a : Word) (sc : BitVec 13) : Effects i s (s.storeCount a sc) :=
  .store a a _

theorem Effects.fetchOperands {operation : FloatOperands → State → State} (r : WReg) (a : Word)
    (h : ∀ o u, Effects i u (operation o u)) : Effects i s (s.fetchOperands r a operation) := by
  unfold State.fetchOperands
  exact .access fun u => .access fun v => h
    { register := s.registerFraction r, storage := v.readWord (prevAddress a) ++ leftByte (u.readWord a),
      exponent := rightByte (u.readWord a) } v

/-! ## The exception register -/

theorem Effects.clearExceptions (h : writesExceptions i = true) : Effects i s s.clearExceptions :=
  .single (.flags h s (by simp [BitVec.getMsbD_and]))

theorem Effects.setExceptions (h : writesExceptions i = true) (p q : Bool) : Effects i s (s.setExceptions p q) :=
  .single (.flags h s (by cases p <;> cases q <;> simp [BitVec.getMsbD_or, BitVec.getMsbD_and]))

/-- The operation of an instruction that clears EX[22:23] first (R29). -/
theorem Effects.cleared {t : State} (hi : writesExceptions i = true) (h : Effects i s.clearExceptions t) :
    Effects i s t := (Effects.clearExceptions hi).trans h

theorem Effects.overflowIf (h : setsIntegerOverflow i = true) (c : Bool) : Effects i s (s.overflowIf c) := by
  cases c
  · exact .refl
  · exact .single (.integerOverflow h s)

theorem Effects.testExponent (h : setsFloatingOverflow i = true) (sc : BitVec 13) :
    Effects i s (s.testExponent sc) := by
  unfold State.testExponent
  split
  · exact .single (.floatingOverflow h s)
  · exact .refl

/-- The integer test is an overflow or none, then the carry (R124). -/
theorem State.testInteger_eq (s : State) (ar : BitVec 25) (c : Bool) :
    s.testInteger ar c =
      { s.overflowIf (decide (ar.getMsbD 0 ≠ ar.getMsbD 1)) with
        ex := ((s.overflowIf (decide (ar.getMsbD 0 ≠ ar.getMsbD 1))).ex &&& 0b110#3) |||
          (if c then 0b001#3 else 0#3) } := by
  unfold State.testInteger State.overflowIf
  simp only [decide_eq_true_eq]

theorem Effects.testInteger (h : setsIntegerOverflow i = true) (ar : BitVec 25) (c : Bool) :
    Effects i s (s.testInteger ar c) := by
  rw [State.testInteger_eq]
  exact .last (.overflowIf h _) (.flags (setsIntegerOverflow_writesExceptions h) _
    (by cases c <;> simp [BitVec.getMsbD_or, BitVec.getMsbD_and]))

theorem Effects.addInteger (h : setsIntegerOverflow i = true) (r : WReg) (b : Word) (c : Bool) :
    Effects i s (s.addInteger r b c) := .first (.register i s r _) (.testInteger h _ _)

theorem Effects.subtractInteger (h : setsIntegerOverflow i = true) (r : WReg) (b : Word) (c : Bool) :
    Effects i s (s.subtractInteger r b c) := .first (.register i s r _) (.testInteger h _ _)

theorem Effects.divideInteger (h : setsIntegerOverflow i = true) (r : WReg) (n : DoubleWord) (d : Word) :
    Effects i s (s.divideInteger r n d) := by
  unfold State.divideInteger
  dsimp only
  split
  · exact .single (.integerOverflow h s)
  · exact .last (.single (.register i s _ _)) (.register i _ _ _)

/-! ## Floating point -/

theorem Effects.storeFloat (r : WReg) (af : BitVec 39) (sc : BitVec 13) : Effects i s (s.storeFloat r af sc) :=
  .setPair r _

theorem Effects.finishFloat (h : setsFloatingOverflow i = true) (r : WReg) (af : BitVec 39) (sc : BitVec 13) :
    Effects i s (s.finishFloat r af sc) := (Effects.testExponent h _).andThen (.storeFloat r _ _)

theorem Effects.convertInteger (h : setsFloatingOverflow i = true) (r : WReg) (a : Word) :
    Effects i s (s.convertInteger r a) := by
  unfold State.convertInteger
  dsimp only
  split
  · exact .setPair r _
  · exact (Effects.testExponent h _).andThen (.setPair r _)

theorem Effects.convertFloat (h : setsIntegerOverflow i = true) (r : WReg) (a : Word) :
    Effects i s (s.convertFloat r a) := by
  unfold State.convertFloat
  dsimp only
  split
  · exact .single (.integerOverflow h s)
  · split
    · exact .single (.integerOverflow h s)
    · exact .single (.register i s r _)

theorem Effects.addFloat (h : setsFloatingOverflow i = true) (r : WReg) (subtract : Bool) (o : FloatOperands) :
    Effects i s (s.addFloat r subtract o) := by
  unfold State.addFloat
  dsimp only
  split
  · exact .storeFloat r _ _
  · split
    · exact .storeFloat r _ _
    · exact .finishFloat h r _ _

theorem Effects.divideFloat (h : setsFloatingOverflow i = true) (r : WReg) (o : FloatOperands) :
    Effects i s (s.divideFloat r o) := by
  unfold State.divideFloat
  split
  · exact .single (.floatingOverflow h s)
  · split
    · exact .single (.register i s r _)
    · unfold State.divideFractions
      dsimp only
      split
      · exact .finishFloat h r _ _
      · exact .finishFloat h r _ _

/-- A floating-point instruction with a storage operand: EX[22:23] cleared, the operand tested and fetched (R194). -/
theorem Effects.floating {operation : FloatOperands → State → State} (hi : setsFloatingOverflow i = true) (r : WReg)
    (a : Word) (h : ∀ o u, Effects i u (operation o u)) :
    Effects i s (s.clearExceptions.testAddress a (s.clearExceptions.fetchOperands r a operation)) :=
  .cleared (setsFloatingOverflow_writesExceptions hi) (.testAddress a (.fetchOperands r a h))

/-- An integer instruction with a storage operand: EX[22:23] cleared, the operand tested and read (R361 (a)). -/
theorem Effects.arithmetic {rest : State → State} (hi : setsIntegerOverflow i = true) (a : Word)
    (h : ∀ u, Effects i u (rest u)) :
    Effects i s (s.clearExceptions.testAddress a (s.clearExceptions.access rest)) :=
  .cleared (setsIntegerOverflow_writesExceptions hi) (.testAddress a (.access h))

end

/-! ## Input and output -/

theorem Effects.inputOutput (f : Fields) (s : State) (r : WReg) (a : Word) :
    Effects (.io f) s (s.inputOutput r a) := by
  unfold State.inputOutput
  dsimp only
  split
  next => exact .setExceptions rfl _ _
  next => exact .setExceptions rfl _ _
  next =>
    have haccepted := (Effects.setExceptions (i := .io f) (s := s) rfl false false).last
      (.command (.inl ⟨f, rfl⟩) _ (s.deviceNumber a) (commandCode a) (s.reg r))
    split
    · exact haccepted.last (.register _ _ r _)
    · exact haccepted

theorem Effects.events (f : Fields) (batch : List HostEvent) (s : State) : Effects (.aw f) s (s.events batch) := by
  induction batch generalizing s with
  | nil => exact .refl
  | cons e batch ih => exact .first (.outside f s e) (ih (s.event e))

/-- What a look at device 0 leads to, as an AW that began in `s` can reach it (R274). -/
def LoaderStatus.From (f : Fields) (s : State) : LoaderStatus → Prop
  | .finished t => Completes (.aw f) s t
  | .waiting p t => p.count ≤ 3 ∧ Effects (.aw f) s t

theorem LoaderStatus.From.after {f : Fields} {s u : State} {st : LoaderStatus} (h : Effects (.aw f) s u)
    (h' : st.From f u) : st.From f s := by
  cases st with
  | finished t => exact Completes.after h h'
  | waiting p t => exact ⟨h'.1, h.trans h'.2⟩

section
variable (f : Fields) (s : State) {p : Autoload} (hp : p.count ≤ 3)

/-- A command of AW to device 0, EX[22:23] cleared before. -/
theorem Effects.loaderCommand (c : BitVec 6) : Effects (.aw f) s (s.clearExceptions.acceptCommand 0 c 0#24) :=
  (Effects.clearExceptions rfl).last (.command (.inr ⟨f, rfl⟩) _ 0 c 0#24)

theorem Effects.loadWord (a v : Word) : Effects (.aw f) s (s.loadWord a v) :=
  .testAddress a (.access fun _ => .last (.single (.word _ _ a v)) (.clearKey f _ a))

include hp

theorem State.startInput_from : (s.startInput p).From f s := by
  unfold State.startInput
  split
  next => exact .reset f .refl
  next => exact ⟨hp, .refl⟩
  next => exact ⟨hp, .loaderCommand f s readCommand⟩

theorem State.takeCharacter_from (sb : Word) : (s.takeCharacter p sb).From f s := by
  unfold State.takeCharacter
  dsimp only
  split
  · exact s.startInput_from f hp
  · split
    · exact .reset f .refl
    · split
      · exact .done (.loadWord f s _ _)
      · exact s.startInput_from f (by show p.count + 1 ≤ 3; omega)

theorem State.waitInput_from : (s.waitInput p).From f s := by
  unfold State.waitInput
  split
  next => exact .reset f .refl
  next => exact ⟨hp, .refl⟩
  next => exact .after (.loaderCommand f s senseCommand) (State.takeCharacter_from f _ hp _)

theorem State.pollLoader_from : (s.pollLoader p).From f s := by
  unfold State.pollLoader
  split
  · exact s.waitInput_from f hp
  · exact s.startInput_from f hp

/-- The iterations of AW's wait, by induction on what is left of the script. -/
theorem State.runLoader_completes (inputs : List (List HostEvent)) (hm : s.monitorMode = true) :
    Completes (.aw f) s (s.runLoader p inputs) := by
  induction inputs generalizing s p with
  | nil =>
    have hpoll := s.pollLoader_from f hp
    unfold State.runLoader
    split
    next t ht => exact (ht ▸ hpoll :)
    next q t ht =>
      obtain ⟨hq, hr⟩ : LoaderStatus.From f s (.waiting q t) := ht ▸ hpoll
      exact .hold f hr (Effects.keeps Effect.monitorMode hr hm) hq
  | cons batch rest ih =>
    have hseen : Effects (.aw f) s (State.events { s with inputs := rest } batch) :=
      .first (.script f s rest) (.events f batch _)
    have hpoll := State.pollLoader_from f (State.events { s with inputs := rest } batch) hp
    unfold State.runLoader
    dsimp only
    split
    · exact .hold f hseen (Effects.keeps Effect.monitorMode hseen hm) hp
    · split
      next t ht => exact .after hseen (ht ▸ hpoll :)
      next q t ht =>
        obtain ⟨hq, hr⟩ : LoaderStatus.From f _ (.waiting q t) := ht ▸ hpoll
        exact .after (hseen.trans hr) (ih t hq (Effects.keeps Effect.monitorMode (hseen.trans hr) hm))

end

/-- AW from the start of its input (R274). -/
theorem State.autoloadWord_completes (f : Fields) (s : State) (a : Word) (hm : s.monitorMode = true) :
    Completes (.aw f) s (s.autoloadWord a) := by
  have hstart := s.startInput_from f (p := { address := a, assembled := 0#24, count := 0, waiting := false })
    (Nat.zero_le 3)
  unfold State.autoloadWord
  split
  next t ht => exact (ht ▸ hstart :)
  next q t ht =>
    obtain ⟨hq, hr⟩ : LoaderStatus.From f s (.waiting q t) := ht ▸ hstart
    exact .after hr (t.runLoader_completes f hq t.inputs (Effects.keeps Effect.monitorMode hr hm))

/-! ## Address modification -/

/-- The state with its modifier used up. -/
def State.unmodified (s : State) : State := { s with modifier := none }

theorem State.unmodified_channelTurn (s : State) : s.unmodified.channelTurn = s.channelTurn.unmodified := by
  refine State.channelTurn_comm State.unmodified (fun _ => rfl) (fun _ _ => rfl) (fun t w => ?_) s
  unfold State.channelWrite
  rw [show t.unmodified.channelAllows w = t.channelAllows w from rfl]
  split
  · unfold State.writeWord
    cases registerAt (wordNumber w.address) with
    | none => rfl
    | some r => cases r <;> rfl
  · rfl

/-- The operation is entered with the modifier used up, after a turn of the channel if there is an indirect word. -/
theorem Effects.addressed (i : Instr) (s : State) (f : Fields) : Effects i s.unmodified (s.addressed f) := by
  cases h : f.indirect with
  | false => rw [show s.addressed f = s.unmodified by simp [State.addressed, State.unmodified, h]]
  | true =>
    rw [show s.addressed f = s.channelTurn.unmodified by simp [State.addressed, State.unmodified, h],
      ← State.unmodified_channelTurn]
    exact .single (.channel i _)

theorem Completes.withAddress {i : Instr} {f : Fields} {operation : Word → State → State}
    (h : ∀ a u, Completes i u (operation a u)) (s : State) :
    Completes i s.unmodified (s.withAddress f operation) := by
  obtain ⟨a, -, heq⟩ | ⟨-, heq⟩ := s.withAddress_cases f operation <;> rw [heq]
  · exact .after (.addressed i s f) (h a _)
  · exact .done (.single (.exception i s.unmodified))

theorem Effects.withAddress {i : Instr} {f : Fields} {operation : Word → State → State}
    (h : ∀ a u, Effects i u (operation a u)) (s : State) :
    Completes i s.unmodified (s.withAddress f operation) := .withAddress (fun a u => .done (h a u)) s

/-! ## Every instruction -/

/-- AM either hands on its effective address or takes the instruction exception (R141). -/
theorem Completes.testNext (f : Fields) (s : State) (b a : Word) :
    Completes (.am f) s (s.testAddress b { s with modifier := some a }) := by
  obtain ⟨-, heq⟩ | ⟨-, heq⟩ := s.testAddress_cases { s with modifier := some a } b <;> rw [heq]
  · exact .modify f .refl a
  · exact .done (.single (.exception _ s))

/-- AW tests the mode before its input begins (R274). -/
theorem Completes.autoload (f : Fields) (s : State) (a : Word) :
    Completes (.aw f) s (s.testMode (s.autoloadWord a)) := by
  obtain ⟨hm, heq⟩ | ⟨-, heq⟩ := s.testMode_cases (s.autoloadWord a) <;> rw [heq]
  · exact s.autoloadWord_completes f a hm
  · exact .done (.single (.exception _ s))

/-- Every instruction answers a next state, and gets there by nothing but its own effects. -/
theorem exec_completes (i : Instr) (s : State) : ∃ t, exec i s = .next t ∧ Completes i s.unmodified t := by
  cases i with
  | aw f => exact ⟨_, rfl, .withAddress (fun a u => .autoload f u a) s⟩
  | io f => exact ⟨_, rfl, Effects.withAddress (fun a u => .testMode (.inputOutput f u f.w a)) s⟩
  | bl f | hl f | la f | lo f | lx f | bz f | rl f =>
    exact ⟨_, rfl, Effects.withAddress (fun a _ => .load a f.w _) s⟩
  | wa f | ba f =>
    exact ⟨_, rfl, Effects.withAddress (fun a _ => .arithmetic rfl a fun _ => .addInteger rfl _ _ _) s⟩
  | ws f | bs f =>
    exact ⟨_, rfl, Effects.withAddress (fun a _ => .arithmetic rfl a fun _ => .subtractInteger rfl _ _ _) s⟩
  | am f => exact ⟨_, rfl, .withAddress (fun a u => .testNext f u u.ic a) s⟩
  | wm f => exact ⟨_, rfl, Effects.withAddress (fun a _ => .testAddress a (.access fun _ => .setPair f.w _)) s⟩
  | al f | ls f =>
    exact ⟨_, rfl, Effects.withAddress (fun _ _ => .single (.register _ _ _ _)) s⟩
  | ml f =>
    exact ⟨_, rfl, Effects.withAddress
      (fun a _ => .testMode (.testAddress a (.access fun _ => .single (.loadMask f _ _)))) s⟩
  | jl f =>
    exact ⟨_, rfl, Effects.withAddress (fun a _ => .testAddress a (.testProtection a (.jumpLink f.w a))) s⟩
  | jd f =>
    exact ⟨_, rfl, Effects.withAddress
      (fun a u => .testMode (.testAddress a (.first (.disable f u) (.jumpLink f.w a)))) s⟩
  | je f =>
    exact ⟨_, rfl, Effects.withAddress
      (fun a u => .testMode (.testAddress a (.first (.enable f u) (.jumpLink f.w a)))) s⟩
  | xl f =>
    exact ⟨_, rfl, Effects.withAddress
      (fun a _ => .testAddress a (.access fun _ => .single (.loadFlags f _ _))) s⟩
  | sp f => exact ⟨_, rfl, Effects.withAddress (fun a _ => .testAddress a (.skipIf _)) s⟩
  | kl f => exact ⟨_, rfl, Effects.withAddress (fun a _ => .testAddress a (.single (.register _ _ _ _))) s⟩
  | rs f | hs f | xs f | ps f | ms f | is f =>
    exact ⟨_, rfl, Effects.withAddress (fun a _ => .store a a _) s⟩
  | wd f =>
    exact ⟨_, rfl, Effects.withAddress (fun a _ => .arithmetic rfl a fun _ => .divideInteger rfl _ _ _) s⟩
  | rx f =>
    exact ⟨_, rfl, Effects.withAddress (fun a _ => .testAddress a (.access fun _ => .first (.register _ _ _ _)
      (.testProtection a (.access fun _ => .single (.word _ _ _ _))))) s⟩
  | pl f =>
    exact ⟨_, rfl, Effects.withAddress
      (fun a _ => .testMode (.testAddress a (.access fun _ => .single (.loadProtection f _ _)))) s⟩
  | ci f => exact ⟨_, rfl, Effects.withAddress (fun a _ => .cleared rfl (.convertInteger rfl f.w a)) s⟩
  | ac f =>
    exact ⟨_, rfl, Effects.withAddress
      (fun _ _ => .cleared rfl (.first (.register _ _ _ _) (.testInteger rfl _ _))) s⟩
  | ns f =>
    exact ⟨_, rfl, Effects.withAddress (fun a _ => .first (.register _ _ _ _) (.storeCount a _)) s⟩
  | nd f => exact ⟨_, rfl, Effects.withAddress (fun a _ => (Effects.setPair f.w _).andThen (.storeCount a _)) s⟩
  | as f =>
    exact ⟨_, rfl, Effects.withAddress
      (fun _ _ => .cleared rfl (.last (.overflowIf rfl _) (.register _ _ _ _))) s⟩
  | ad f =>
    exact ⟨_, rfl, Effects.withAddress
      (fun _ _ => .cleared rfl ((Effects.overflowIf rfl _).andThen (.setPair f.w _))) s⟩
  | ld f => exact ⟨_, rfl, Effects.withAddress (fun _ _ => .setPair f.w _) s⟩
  | sh f | sl f | se f | sn f | so f | sz f | sx f =>
    exact ⟨_, rfl, Effects.withAddress (fun _ _ => .skipIf _) s⟩
  | ic f => exact ⟨_, rfl, Effects.withAddress (fun a u => .testMode (.single (.clearInterrupts f u a))) s⟩
  | fa f | fs f =>
    exact ⟨_, rfl, Effects.withAddress (fun a _ => .floating rfl f.w a fun o _ => .addFloat rfl f.w _ o) s⟩
  | fm f =>
    exact ⟨_, rfl, Effects.withAddress (fun a _ => .floating rfl f.w a fun _ _ => .finishFloat rfl f.w _ _) s⟩
  | ks f =>
    exact ⟨_, rfl, Effects.withAddress
      (fun a u => .testMode (.testAddress a (.single (.loadKey f u a _)))) s⟩
  | fd f => exact ⟨_, rfl, Effects.withAddress (fun a _ => .floating rfl f.w a fun o _ => .divideFloat rfl f.w o) s⟩
  | cf f => exact ⟨_, rfl, Effects.withAddress (fun a _ => .cleared rfl (.convertFloat rfl f.w a)) s⟩
  | dl f =>
    exact ⟨_, rfl, Effects.withAddress (fun a _ => .testAddress a (.access fun _ => .first (.register _ _ _ _)
      (.access fun _ => .single (.register _ _ _ _)))) s⟩
  | ds f =>
    exact ⟨_, rfl, Effects.withAddress (fun a _ => .testAddress a (.testProtection a (.access fun _ =>
      .first (.word _ _ _ _) (.testProtection _ (.access fun _ => .single (.word _ _ _ _)))))) s⟩
  | aa f =>
    exact ⟨_, rfl, Effects.withAddress (fun a _ => .arithmetic rfl a fun _ => .first (.register _ _ _ _)
      (.access fun _ => .addInteger rfl _ _ _)) s⟩
  | ss f =>
    exact ⟨_, rfl, Effects.withAddress (fun a _ => .arithmetic rfl a fun _ => .first (.register _ _ _ _)
      (.access fun _ => .subtractInteger rfl _ _ _)) s⟩
  | unassigned58 f | unassigned59 f | unassigned60 f | unassigned61 f | unassigned62 f | unassigned63 f =>
    exact ⟨_, rfl, Effects.withAddress (fun _ _ => .single (.exception _ _)) s⟩

end Sys2Proof.Machine
end

section
/-! PROOFS. The instructions against PR, IM, EX, IR, the keys and the mode: who writes what (O22), and AM (O23, O5). -/

namespace Sys2Proof.Machine

/-! ## Who writes what -/

/-- The instruction exception takes interrupt number 0, which it has set itself (R120). -/
theorem State.getMsbD_ir_instructionException (s : State) (b : Nat) :
    s.instructionException.ir.getMsbD b = (s.ir.getMsbD b && decide (b ≠ 0)) := by
  rw [State.instructionException, State.takeInterrupt_ir, BitVec.getMsbD_and, BitVec.getMsbD_not,
    getMsbD_or_bitMask (by omega), getMsbD_bitMask (by omega)]
  cases hs : s.ir.getMsbD b with
  | false => by_cases hb : b = 0 <;> simp [hb]
  | true => simp [BitVec.lt_of_getMsbD hs]

/-- What instruction `i` may have done to keys, PR, IM, EX, the mode and IR on the way from `s` to `t` (R29, R45, R291, R292,
R300). -/
structure ControlWrites (i : Instr) (s t : State) : Prop where
  keys : (∀ f, i ≠ .ks f) → (∀ f, i ≠ .aw f) → t.keys = s.keys
  protection : (∀ f, i ≠ .pl f) → t.pr = s.pr
  mask : (∀ f, i ≠ .ml f) → t.im = s.im
  exceptions : writesExceptions i = false → t.ex = s.ex
  precision : (∀ f, i ≠ .xl f) → t.ex.getMsbD 0 = s.ex.getMsbD 0
  mode : s.monitorMode = true → t.monitorMode = true
  cleared : ∀ b, s.ir.getMsbD b = true → t.ir.getMsbD b = false → b = 0 ∨ ∃ f, i = .ic f
  raised : ∀ b, s.ir.getMsbD b = false → t.ir.getMsbD b = true →
    (b = 1 ∧ setsIntegerOverflow i = true) ∨ (b = 2 ∧ setsFloatingOverflow i = true) ∨ (3 ≤ b ∧ ∃ f, i = .aw f)

namespace ControlWrites

variable {i : Instr} {s t u : State}

/-- Neither a control field, the mode apart, nor IR is touched. -/
theorem of_same (hkeys : t.keys = s.keys := by simp) (hpr : t.pr = s.pr := by simp) (him : t.im = s.im := by simp)
    (hex : t.ex = s.ex := by simp) (hmode : s.monitorMode = true → t.monitorMode = true := by simp)
    (hir : t.ir = s.ir := by simp) : ControlWrites i s t where
  keys _ _ := hkeys
  protection _ := hpr
  mask _ := him
  exceptions _ := hex
  precision _ := by rw [hex]
  mode := hmode
  cleared b hs ht := by simp [hir, hs] at ht
  raised b hs ht := by simp [hir, hs] at ht

theorem of_control (hc : t.control = s.control) (hir : t.ir = s.ir) : ControlWrites i s t :=
  of_same (congrArg Control.keys hc) (congrArg Control.pr hc) (congrArg Control.im hc) (congrArg Control.ex hc)
    (congrArg Control.monitorMode hc).trans hir

theorem trans (h : ControlWrites i s t) (h' : ControlWrites i t u) : ControlWrites i s u where
  keys hks haw := (h'.keys hks haw).trans (h.keys hks haw)
  protection hi := (h'.protection hi).trans (h.protection hi)
  mask hi := (h'.mask hi).trans (h.mask hi)
  exceptions hi := (h'.exceptions hi).trans (h.exceptions hi)
  precision hi := (h'.precision hi).trans (h.precision hi)
  mode hs := h'.mode (h.mode hs)
  cleared b hs hu := by
    cases ht : t.ir.getMsbD b with
    | true => exact h'.cleared b ht hu
    | false => exact h.cleared b hs ht
  raised b hs hu := by
    cases ht : t.ir.getMsbD b with
    | true => exact h.raised b hs ht
    | false => exact h'.raised b ht hu

/-- An instruction that writes EX[22:23]. -/
theorem of_flags {e : BitVec 3} (hi : writesExceptions i = true) (he : e.getMsbD 0 = s.ex.getMsbD 0) :
    ControlWrites i s { s with ex := e } where
  __ := of_same (i := i) (t := { s with ex := s.ex })
  exceptions h := by simp [hi] at h
  precision _ := he

/-- The overflow bits of IR (R291). -/
theorem of_overflow {k : Nat} (h : (k = 1 ∧ setsIntegerOverflow i = true) ∨ (k = 2 ∧ setsFloatingOverflow i = true)) :
    ControlWrites i s { s with ir := s.ir ||| bitMask k } where
  __ := of_same (i := i) (t := { s with ir := s.ir })
  cleared b hs ht := by simp [BitVec.getMsbD_or, hs] at ht
  raised b hs ht := by
    have hk : k < 24 := by omega
    simp only [getMsbD_or_bitMask hk, hs, Bool.false_or, decide_eq_true_eq] at ht
    exact ht ▸ h.imp_right .inl

/-- The instruction exception writes no control field and clears at most IR[0]. -/
theorem of_exception : ControlWrites i s s.instructionException where
  __ := of_same (i := i) (t := { s.instructionException with ir := s.ir })
  cleared b hs ht := .inl (by simpa [State.getMsbD_ir_instructionException, hs] using ht)
  raised b hs ht := by simp [State.getMsbD_ir_instructionException, hs] at ht

end ControlWrites

/-- Every effect is one of those its instruction may have. -/
theorem Effect.controlWrites {i : Instr} {s t : State} (h : Effect i s t) : ControlWrites i s t := by
  cases h with
  | channel => exact .of_control (by simp) (by simp)
  | register => exact .of_control (by simp) (by simp)
  | word => exact .of_control (by simp) (by simp)
  | command => exact .of_control (by simp) (by simp)
  | skip => exact .of_same
  | jump => exact .of_same
  | script => exact .of_same
  | enable => exact .of_same
  | disable => exact .of_same
  | exception => exact .of_exception
  | flags hi _ he => exact .of_flags hi he
  | loadFlags f _ e =>
    exact { ControlWrites.of_same (t := s) with exceptions := nofun, precision := fun hi => absurd rfl (hi f) }
  | integerOverflow hi =>
    exact (ControlWrites.of_flags (e := s.ex ||| 0b010#3) (setsIntegerOverflow_writesExceptions hi)
      (by simp [BitVec.getMsbD_or])).trans (.of_overflow (.inl ⟨rfl, hi⟩))
  | floatingOverflow hi =>
    exact (ControlWrites.of_flags (e := s.ex ||| 0b010#3) (setsFloatingOverflow_writesExceptions hi)
      (by simp [BitVec.getMsbD_or])).trans (.of_overflow (.inr ⟨rfl, hi⟩))
  | clearInterrupts f _ a =>
    exact { ControlWrites.of_same (t := s) with
      cleared := fun _ _ _ => .inr ⟨f, rfl⟩
      raised := fun b hs ht => by simp [BitVec.getMsbD_and, hs] at ht }
  | loadMask f => exact { ControlWrites.of_same (t := s) with mask := fun hi => absurd rfl (hi f) }
  | loadProtection f => exact { ControlWrites.of_same (t := s) with protection := fun hi => absurd rfl (hi f) }
  | loadKey f => exact { ControlWrites.of_same (t := s) with keys := fun hi => absurd rfl (hi f) }
  | clearKey f => exact { ControlWrites.of_same (t := s) with keys := fun _ hi => absurd rfl (hi f) }
  | outside f _ e =>
    have hframe := s.event_frame e
    exact { ControlWrites.of_control (t := { s.event e with ir := s.ir }) hframe.control rfl with
      cleared := fun b hs ht => by simp [hframe.kept b hs] at ht
      raised := fun b hs ht => .inr (.inr ⟨hframe.raised b hs ht, f, rfl⟩) }

theorem Effects.controlWrites {i : Instr} {s t : State} (h : Effects i s t) : ControlWrites i s t := by
  induction h with
  | refl => exact .of_control rfl rfl
  | tail _ he ih => exact ih.trans he.controlWrites

theorem Completes.controlWrites {i : Instr} {s t : State} (h : Completes i s t) : ControlWrites i s t := by
  cases h with
  | done h => exact h.controlWrites
  | modify f h a => exact h.controlWrites.trans .of_same
  | reset f h => exact h.controlWrites.trans .of_same
  | hold f h hm hp => exact h.controlWrites.trans .of_same

theorem exec_controlWrites {i : Instr} {s t : State} (h : exec i s = .next t) : ControlWrites i s t := by
  obtain ⟨u, hu, hc⟩ := exec_completes i s
  obtain rfl : u = t := Host.Outcome.next.inj (hu.symm.trans h)
  exact (ControlWrites.of_same (s := s) (t := s.unmodified) rfl rfl rfl rfl id rfl).trans hc.controlWrites

/-- Settles O22: the clauses of `ControlWrites`, which every effect of the instruction meets. -/
theorem writersOfControl : Obligations.WritersOfControl := by
  intro s t i h
  have hw := exec_controlWrites h
  exact ⟨fun hks haw => .of_keys (hw.keys hks haw), hw.protection, hw.mask, hw.exceptions, hw.precision, hw.mode,
    hw.cleared, hw.raised⟩

/-! ## AM and the instruction after it -/

/-- Settles O23: with an existing next instruction AM does nothing but hand on its address; without one it takes the
instruction exception. -/
theorem modifyNextAddress : Obligations.ModifyNextAddress := by
  intro s u f a ha hu
  have hexec : exec (.am f) s = .next (u.testAddress s.ic { u with modifier := some a }) := by
    have hic : u.ic = s.ic := by simp [hu]
    change Host.Outcome.next (s.withAddress f _) = _
    rw [State.withAddress_some ha, ← hu, hic]
  have hstore : u.inStore s.ic = s.inStore s.ic := by simp [hu]
  constructor
  · intro hin
    refine ⟨?_, SameStore.of_store rfl⟩
    rw [hexec, State.testAddress, hstore, hin, if_pos rfl]
  · intro hout
    rw [hexec, State.testAddress, hstore, hout, if_neg Bool.false_ne_true]

/-- A fetched instruction is executed in the state that the first part of the decoding leaves (R113, R114). -/
theorem State.runAtCounter_of_fetches {v : State} {i : Instr} (h : v.fetches i) :
    v.runAtCounter = exec i v.decoded := by
  obtain ⟨-, heven, hdecode, hallowed⟩ := h
  have hrun : v.runAtCounter = v.decodeAndRun i := by
    unfold State.runAtCounter
    rw [heven, hdecode]
    rfl
  have hpass : (!v.monitorMode && v.keyProtected (v.readKey v.ic)) = false := by
    obtain h | h := hallowed <;> simp [h]
  rw [hrun]
  unfold State.decodeAndRun
  dsimp only
  rw [hpass]
  rfl

/-- Settles O5: with a modifier carried the step is the fetch itself, without the look at the reset key. -/
theorem stepAfterModifier : Obligations.StepAfterModifier := by
  intro s v i m hhalt hautoload hmodifier hv hfetches
  have hin : s.inStore s.ic = true := by simpa [hv] using hfetches.1
  have hstep : step s = s.channelTurn.runAtCounter := by
    simp [step, State.cycle, State.fetch, hhalt, hautoload, hmodifier, hin]
  refine ⟨?_, ?_, ?_⟩
  · rw [hstep, ← hv, State.runAtCounter_of_fetches hfetches]
  · simp [State.modifierValue, State.decoded, hv, hmodifier]
  · simp [State.decoded, hv]

end Sys2Proof.Machine
end

section
/-! PROOFS. Every step keeps the invariant (O9): what holds while an instruction executes, that every effect of an instruction
keeps it, and the ways a step can begin and end. -/

namespace Sys2Proof.Machine

/-! ## The processor while an instruction executes -/

/-- Outside the loop `After Reset`, with an even IC and no AW held: what every effect of an instruction keeps. The modifier is
free, so that the state after an AM is such a state. -/
structure State.Executing (s : State) : Prop where
  sound : s.Sound
  even : s.ic.getMsbD 23 = false
  label : s.phase ≠ .afterReset
  autoload : s.autoload = none

theorem State.Executing.inv {s : State} (h : s.Executing) : s.Inv where
  permanent := h.sound.permanent
  even _ := h.even
  resetState hp := absurd hp h.label
  loader p hp := by simp [h.autoload] at hp
  store := h.sound.store
  buffers := h.sound.buffers
  interval := h.sound.interval

/-- The invariant of a state outside the loop `After Reset` in which no AW is held. -/
theorem State.Inv.executing {s : State} (h : s.Inv) (hp : s.phase ≠ .afterReset) (ha : s.autoload = none) :
    s.Executing := ⟨h.sound, h.even hp, hp, ha⟩

/-- The invariant looks at the control fields and at what is sound, and at nothing else. -/
theorem State.Inv.of_control {s t : State} (h : s.Inv) (hs : t.Sound) (hc : t.control = s.control) : t.Inv := by
  have hic : t.ic = s.ic := congrArg Control.ic hc
  have hphase : t.phase = s.phase := congrArg Control.phase hc
  have hmode : t.monitorMode = s.monitorMode := congrArg Control.monitorMode hc
  have hdisabled : t.interruptDisabled = s.interruptDisabled := congrArg Control.interruptDisabled hc
  have hmodifier : t.modifier = s.modifier := congrArg Control.modifier hc
  have hautoload : t.autoload = s.autoload := congrArg Control.autoload hc
  refine ⟨hs.permanent, ?_, ?_, ?_, hs.store, hs.buffers, hs.interval⟩
  · simpa only [State.evenCounter, hic, hphase] using h.even
  · simpa only [State.resetStateSound, hphase, hmode, hdisabled, hmodifier, hautoload] using h.resetState
  · simpa only [State.loaderSound, hmode, hmodifier, hautoload] using h.loader

theorem State.Executing.congr {s t : State} (h : s.Executing) (hs : t.Sound) (hic : t.ic = s.ic := by simp)
    (hp : t.phase = s.phase := by simp) (ha : t.autoload = s.autoload := by simp) : t.Executing :=
  ⟨hs, hic ▸ h.even, hp ▸ h.label, ha ▸ h.autoload⟩

theorem State.Executing.of_control {s t : State} (h : s.Executing) (hs : t.Sound) (hc : t.control = s.control) :
    t.Executing :=
  h.congr hs (congrArg Control.ic hc) (congrArg Control.phase hc) (congrArg Control.autoload hc)

theorem State.Executing.channelTurn {s : State} (h : s.Executing) : s.channelTurn.Executing :=
  h.of_control h.sound.channelTurn s.channelTurn_control

theorem State.Executing.unmodified {s : State} (h : s.Executing) : s.unmodified.Executing :=
  ⟨h.sound.congr rfl rfl rfl rfl rfl rfl, h.even, h.label, h.autoload⟩

/-- An interruption goes on at an even address (R112). -/
theorem State.Executing.takeInterrupt {s : State} (h : s.Executing) (b : Nat) : (s.takeInterrupt b).Executing where
  sound := h.sound.takeInterrupt b
  even := getMsbD_evenAddress _
  label := by simpa using h.label
  autoload := by simpa using h.autoload

theorem State.Executing.instructionException {s : State} (h : s.Executing) : s.instructionException.Executing where
  sound := h.sound.instructionException
  even := getMsbD_evenAddress _
  label := by simp
  autoload := by simpa using h.autoload

theorem Effect.executing {i : Instr} {s t : State} (h : Effect i s t) (hs : s.Executing) : t.Executing := by
  cases h with
  | channel => exact hs.channelTurn
  | register => exact hs.congr (hs.sound.setReg _ _)
  | word => exact hs.congr (hs.sound.writeWord _ _)
  | skip => exact ⟨hs.sound.congr, getMsbD_add_two hs.even, hs.label, hs.autoload⟩
  | jump _ _ a => exact ⟨hs.sound.congr, getMsbD_evenAddress a, hs.label, hs.autoload⟩
  | exception => exact hs.instructionException
  | flags => exact hs.congr hs.sound.congr
  | loadFlags => exact hs.congr hs.sound.congr
  | integerOverflow => exact hs.congr hs.sound.congr
  | floatingOverflow => exact hs.congr hs.sound.congr
  | clearInterrupts => exact hs.congr hs.sound.congr
  | loadMask _ _ v =>
    have hpermanent : (v ||| bitMask 0).getMsbD 0 = true := by simp [getMsbD_bitMask]
    exact hs.congr ⟨⟨hs.sound.permanent.1, hpermanent⟩, hs.sound.store, hs.sound.buffers, hs.sound.interval⟩
  | loadProtection _ _ v =>
    have hpermanent : (v ||| 0x80#8).getMsbD 0 = true := by simp [BitVec.getMsbD_or]
    exact hs.congr ⟨⟨hpermanent, hs.sound.permanent.2⟩, hs.sound.store, hs.sound.buffers, hs.sound.interval⟩
  | enable => exact hs.congr hs.sound.congr
  | disable => exact hs.congr hs.sound.congr
  | loadKey => exact hs.congr (hs.sound.writeKey _ _)
  | clearKey => exact hs.congr (hs.sound.writeKey _ _)
  | command _ _ n c v => exact hs.of_control (hs.sound.acceptCommand n c v) (s.acceptCommand_control n c v)
  | outside _ _ e => exact hs.of_control ((s.event_frame e).sound hs.sound) (s.event_frame e).control
  | script => exact hs.congr hs.sound.congr

/-! ## The reset state -/

/-- In the loop `After Reset`, in monitor mode, disabled and with nothing under way, the invariant asks nothing of IC (R342). -/
theorem State.Sound.resetState_inv {s : State} (h : s.Sound) (hp : s.phase = .afterReset) (hmode : s.monitorMode = true)
    (hdisabled : s.interruptDisabled = true) (hmodifier : s.modifier = none) (hautoload : s.autoload = none) :
    s.Inv where
  permanent := h.permanent
  even hne := absurd hp hne
  resetState _ := ⟨hmode, hdisabled, hmodifier, hautoload⟩
  loader p hl := by simp [hautoload] at hl
  store := h.store
  buffers := h.buffers
  interval := h.interval

theorem State.Sound.resetSystem_inv {s : State} (h : s.Sound) : s.resetSystem.Inv :=
  h.resetSystem.resetState_inv rfl rfl rfl rfl rfl

/-- Power back in the reset state, with any register contents (R342, R346). -/
theorem State.Sound.loseRegisters_inv {s : State} (h : s.Sound) (v : PowerOnContents) :
    (s.powerOn.loseRegisters v).Inv :=
  (h.powerOn.loseRegisters v).resetState_inv rfl rfl rfl rfl rfl

/-- The invariant does not look at the lamp or at what takes the machine out of program control. -/
theorem State.Inv.lamp {s : State} (h : s.Inv) (halt : Option Halt) (lit : Bool) :
    State.Inv { s with halt := halt, cpuError := lit } :=
  ⟨h.permanent, h.even, h.resetState, h.loader, h.store, h.buffers, h.interval⟩

/-! ## How an instruction ends -/

theorem Completes.inv {i : Instr} {s t : State} (h : Completes i s t) (hs : s.Executing) (hm : s.modifier = none) :
    t.Inv := by
  have kept : ∀ {u}, Effects i s u → u.Executing := fun he => Effects.keeps Effect.executing he hs
  cases h with
  | done h => exact (kept h).inv
  | modify _ h a => exact ((kept h).congr (kept h).sound.congr).inv
  | reset _ h => exact (kept h).sound.resetSystem_inv
  | @hold _ _ u h hmode p hp =>
    have hsound := (kept h).sound
    have hmodifier : u.modifier = none := Effects.keeps Effect.modifier h hm
    refine ⟨hsound.permanent, fun _ => (kept h).even, fun hr => absurd hr (kept h).label, fun q hq => ?_,
      hsound.store, hsound.buffers, hsound.interval⟩
    obtain rfl : p = q := Option.some.inj hq
    exact ⟨hmode, hmodifier, hp⟩

theorem exec_inv {i : Instr} {s t : State} (hs : s.Executing) (h : exec i s = .next t) : t.Inv := by
  obtain ⟨u, hu, hc⟩ := exec_completes i s
  obtain rfl : u = t := Host.Outcome.next.inj (hu.symm.trans h)
  exact hc.inv hs.unmodified rfl

/-! ## From the fetch on -/

/-- The first part of the decoding moves an even IC by two and sets the mode (R114). -/
theorem State.Executing.advance {s : State} (h : s.Executing) (mode : Bool) :
    State.Executing { s with ic := s.ic + 2#24, monitorMode := mode, phase := .running } :=
  ⟨h.sound.congr, getMsbD_add_two h.even, by simp, h.autoload⟩

theorem State.decodeAndRun_inv {s t : State} {i : Instr} (hs : s.Executing) (h : s.decodeAndRun i = .next t) :
    t.Inv := by
  unfold State.decodeAndRun at h
  dsimp only at h
  split at h
  · obtain rfl := Host.Outcome.next.inj h
    exact (hs.advance s.monitorMode).instructionException.inv
  · exact exec_inv (hs.advance (s.keyProtected (s.readKey s.ic))) h

theorem State.fetch_inv {s t : State} {look : Bool} (hs : s.Executing) (h : s.fetch look = .next t) : t.Inv := by
  unfold State.fetch at h
  split at h
  · obtain rfl := Host.Outcome.next.inj h
    exact hs.instructionException.inv
  · split at h
    · obtain rfl := Host.Outcome.next.inj h
      exact hs.sound.resetSystem_inv
    · unfold State.runAtCounter at h
      split at h
      · cases h
      · split at h
        · exact State.decodeAndRun_inv hs.channelTurn h
        · cases h

theorem State.Executing.nextInstruction {s : State} (h : s.Executing) : s.nextInstruction.Executing := by
  unfold State.nextInstruction State.interruptionService
  split
  · exact h
  · split
    · exact h.takeInterrupt _
    · exact h

/-! ## The loop `After Reset` -/

/-- The fields of the AW that the autoload key starts: effective address 0 (R349). -/
def autoloadFields : Fields := { w := .w0, relative := false, indirect := false, x := .direct, d := 0#12 }

/-- A state of the loop that leaves it at an even address. -/
theorem State.Inv.leaveReset {s : State} (h : s.Inv) (hp : s.phase = .afterReset) {a : Word}
    (ha : a.getMsbD 23 = false) : State.Executing { s with ic := a, phase := .running, cpuError := false } := by
  obtain ⟨-, -, -, hautoload⟩ := h.resetState hp
  exact ⟨h.sound.congr, ha, by simp, hautoload⟩

theorem State.afterReset_inv {s t : State} (hs : s.Inv) (hp : s.phase = .afterReset) (h : s.afterReset = .next t) :
    t.Inv := by
  unfold State.afterReset at h
  split at h
  · obtain rfl := Host.Outcome.next.inj h
    obtain ⟨-, -, hmodifier, -⟩ := hs.resetState hp
    exact (Completes.autoload autoloadFields _ 0#24).inv (hs.leaveReset hp (by decide)) hmodifier
  · split at h
    · have hturn : s.channelTurn.Inv := hs.of_control hs.sound.channelTurn s.channelTurn_control
      exact State.fetch_inv (hturn.leaveReset (by simpa using hp) (getMsbD_evenAddress _)) h
    · exact Host.Outcome.next.inj h ▸ hs

theorem State.waitingForStart_inv {s t : State} (hs : s.Inv) (hp : s.phase = .afterReset)
    (h : s.waitingForStart = .next t) : t.Inv := by
  unfold State.waitingForStart at h
  split at h
  next v _ =>
    obtain rfl := Host.Outcome.next.inj h
    exact (hs.sound.loseRegisters_inv v).lamp _ false
  next => exact State.afterReset_inv hs hp h

/-! ## One step -/

theorem State.halted_inv {s t : State} {c : Halt} (hs : s.Inv) (h : s.halted c = .next t) : t.Inv := by
  cases c with
  | parity v =>
    obtain rfl := Host.Outcome.next.inj h
    exact (hs.sound.loseRegisters_inv v).lamp none true
  | powerLost => cases h

theorem State.powerFailure_inv {s : State} (hs : s.Sound) (v : PowerOnContents) : (s.powerFailure v).Inv :=
  (State.Sound.loseRegisters_inv (hs.channelTurn.writeWord 10#24 s.ic) v).lamp _ false

/-- From the label at which the machine stands, no AW being held. -/
theorem State.continueFrom_inv {s t : State} (hs : s.Inv) (ha : s.autoload = none) (h : s.continueFrom = .next t) :
    t.Inv := by
  obtain ⟨c, -, heq⟩ | ⟨-, hp, heq⟩ | ⟨-, -, v, -, heq⟩ | ⟨⟨-, -, hp⟩, heq⟩ | ⟨⟨-, -, hp⟩, heq⟩ :=
    s.continueFrom_cases <;> rw [heq] at h
  · exact State.halted_inv hs h
  · exact State.waitingForStart_inv hs hp h
  · exact Host.Outcome.next.inj h ▸ State.powerFailure_inv hs.sound v
  · exact State.fetch_inv (hs.executing (by simp [hp]) ha).nextInstruction h
  · exact State.fetch_inv (hs.executing (by simp [hp]) ha) h

/-- An AW that is held goes on (R366). -/
theorem State.continueLoader_inv {s : State} (hs : s.Inv) {p : Autoload} (ha : s.autoload = some p) :
    (s.continueLoader p).Inv := by
  obtain ⟨hmode, hmodifier, hp⟩ := hs.loader p ha
  have hlabel : s.phase ≠ .afterReset := fun hr => by
    obtain ⟨-, -, -, hnone⟩ := hs.resetState hr
    simp [hnone] at ha
  have hexecuting : State.Executing { s with autoload := none } := ⟨hs.sound.congr, hs.even hlabel, hlabel, rfl⟩
  exact (State.runLoader_completes autoloadFields { s with autoload := none } hp s.inputs hmode).inv hexecuting hmodifier

/-- Settles O9: a step is the halt, the AW held, the instruction after an AM, or what follows from the label at which the
machine stands after a batch of events. -/
theorem stepKeepsInvariant : Obligations.StepKeepsInvariant := by
  intro s t hs h
  unfold step State.cycle at h
  split at h
  next c _ => exact State.halted_inv hs h
  next =>
    split at h
    next p hp => exact Host.Outcome.next.inj h ▸ State.continueLoader_inv hs hp
    next ha =>
      split at h
      next m hm =>
        have hlabel : s.phase ≠ .afterReset := fun hr => by
          obtain ⟨-, -, hnone, -⟩ := hs.resetState hr
          simp [hnone] at hm
        exact State.fetch_inv (hs.executing hlabel ha) h
      next =>
        have hautoload : s.takeInputs.autoload = none :=
          (congrArg Control.autoload s.takeInputs_frame.control).trans ha
        have hinputs : s.takeInputs.Inv :=
          hs.of_control (s.takeInputs_frame.sound hs.sound) s.takeInputs_frame.control
        exact State.continueFrom_inv hinputs hautoload h

end Sys2Proof.Machine
end

section
/-! PROOFS. The store from inside and from outside: what a store write reads back as (O10), and what events and the high-speed
channel leave alone (O59). -/

namespace Sys2Proof.Machine

/-! ## Store and registers -/

/-- The working registers are the first four words, in order (R23). -/
@[simp] theorem registerAt_registerNumber (r : WReg) : registerAt (registerNumber r) = some r := by cases r <;> rfl

/-- The word with a register's number is that register (R64). -/
theorem State.readWord_eq_reg {s : State} {a : Word} {r : WReg} (h : wordNumber a = registerNumber r) :
    s.readWord a = s.reg r := by
  rw [State.readWord, h, registerAt_registerNumber]

/-- Settles O10, from the laws of the store: a read after a write, of a word, a byte or a register; the keys are a table of
their own. -/
theorem storeReadsBack : Obligations.StoreReadsBack := by
  refine ⟨State.readWord_writeWord, State.readByte_writeByte, fun s a r h => State.readWord_eq_reg h,
    fun s a v r h => ?_, fun s a v b u => ⟨?_, ?_⟩⟩
  · rw [State.reg_writeWord, h, registerAt_registerNumber, if_pos rfl]
  · exact SameKeys.of_keys (s.writeWord_keys a v) b
  · exact SameKeys.of_keys (s.writeByte_keys a u) b

/-! ## What the channel may write -/

/-- The channel writes for a busy, remote high-speed device, in its area and in the existing store, and for no other (R318,
R322, R323). -/
theorem State.channelAllows_iff {s : State} {w : ChannelWrite} :
    s.channelAllows w = true ↔
      ∃ d, s.device? w.device = some d ∧ d.condition = .busy ∧ d.highSpeed = true ∧ d.remote = true ∧
        inArea (wordNumber w.address) d.area = true ∧ s.inStore w.address = true := by
  unfold State.channelAllows
  cases s.device? w.device with
  | none => simp
  | some d =>
    simp only [Device.transferring, Bool.and_eq_true, beq_iff_eq, Option.some.injEq, exists_eq_left']
    tauto

/-- Whether a write is allowed depends on the installation and the devices only. -/
theorem State.channelAllows_congr {s t : State} (hcfg : t.cfg = s.cfg) (hdevices : t.devices = s.devices)
    (w : ChannelWrite) : t.channelAllows w = s.channelAllows w := by
  simp only [State.channelAllows, State.device?, State.inStore, hcfg, hdevices]

/-- The write is made if it is allowed. -/
theorem State.channelWrite_of_allowed {s : State} {w : ChannelWrite} (h : s.channelAllows w = true) :
    s.channelWrite w = s.writeWord w.address w.value := by
  rw [State.channelWrite, if_pos h]

/-- A word that a write of the channel changes is the one it names, and the write is allowed. -/
theorem State.allowed_of_readWord_channelWrite {s : State} {w : ChannelWrite} {a : Word}
    (h : (s.channelWrite w).readWord a ≠ s.readWord a) :
    s.channelAllows w = true ∧ wordNumber a = wordNumber w.address := by
  refine ⟨?_, ?_⟩
  · by_contra hdenied
    exact h (by rw [State.channelWrite, if_neg hdenied])
  · by_contra hother
    exact h (s.readWord_channelWrite w a (Ne.symm hother))

/-- A word that a batch of writes changes is named by an allowed one of them, by induction on the batch: no write changes what
is allowed to those after it. -/
theorem State.allowed_of_readWord_batch {batch : List ChannelWrite} {s : State} {a : Word}
    (h : (batch.foldl State.channelWrite s).readWord a ≠ s.readWord a) :
    ∃ w ∈ batch, s.channelAllows w = true ∧ wordNumber a = wordNumber w.address := by
  induction batch generalizing s with
  | nil => exact absurd rfl h
  | cons w batch ih =>
    by_cases hfirst : (s.channelWrite w).readWord a = s.readWord a
    · rw [List.foldl_cons, ← hfirst] at h
      obtain ⟨v, hv, hallowed, hword⟩ := ih h
      rw [State.channelAllows_congr (s.channelWrite_cfg w) (s.channelWrite_devices w)] at hallowed
      exact ⟨v, List.mem_cons_of_mem w hv, hallowed, hword⟩
    · exact ⟨w, List.mem_cons_self, State.allowed_of_readWord_channelWrite hfirst⟩

/-! ## The channel's turn -/

theorem State.channelTurn_cons {s : State} {batch : List ChannelWrite} {rest : List (List ChannelWrite)}
    (h : s.channel = batch :: rest) :
    s.channelTurn = batch.foldl State.channelWrite { s with channel := rest } := by
  rw [State.channelTurn, h]

/-- A word that the turn changes is named by an allowed write of the batch that the turn uses up. -/
theorem State.allowed_of_readWord_channelTurn {s : State} {a : Word} (h : s.channelTurn.readWord a ≠ s.readWord a) :
    ∃ batch, s.channel.head? = some batch ∧
      ∃ w ∈ batch, s.channelAllows w = true ∧ wordNumber a = wordNumber w.address := by
  cases hscript : s.channel with
  | nil => exact absurd (by rw [State.channelTurn_nil hscript]) h
  | cons batch rest =>
    rw [State.channelTurn_cons hscript] at h
    exact ⟨batch, rfl, State.allowed_of_readWord_batch (s := { s with channel := rest }) h⟩

/-- A turn with one allowed write makes it. -/
theorem State.readWord_channelTurn_of_allowed {s : State} {w : ChannelWrite} (hscript : s.channel.head? = some [w])
    (hallowed : s.channelAllows w = true) : s.channelTurn.readWord w.address = w.value := by
  obtain ⟨rest, hrest⟩ := List.head?_eq_some_iff.mp hscript
  rw [State.channelTurn_cons hrest, List.foldl_cons, List.foldl_nil,
    State.channelWrite_of_allowed (s := { s with channel := rest }) hallowed, State.readWord_writeWord, if_pos rfl]

/-- The turn reaches neither devices nor timer, panel, inputs or installation (R78). -/
theorem SameSurroundings.channelTurn (s : State) : SameSurroundings s s.channelTurn := by simp [SameSurroundings]

/-! ## Events -/

/-- Registers and store are as before. -/
def SameMemory (s t : State) : Prop := t.regs = s.regs ∧ t.store = s.store

theorem SameMemory.refl (s : State) : SameMemory s s := ⟨rfl, rfl⟩

theorem SameMemory.trans {s t u : State} (h : SameMemory s t) (h' : SameMemory t u) : SameMemory s u :=
  ⟨h'.1.trans h.1, h'.2.trans h.2⟩

theorem SameMemory.readByte {s t : State} (h : SameMemory s t) (a : Word) : t.readByte a = s.readByte a :=
  State.readByte_congr h.1 h.2 a

theorem State.externalSignal_memory (s : State) (b : Nat) : SameMemory s (s.externalSignal b) := by
  unfold State.externalSignal
  split <;> exact ⟨rfl, rfl⟩

theorem State.wiredSignal_memory (s : State) (w : Option Nat) : SameMemory s (s.wiredSignal w) := by
  cases w with
  | none => exact .refl s
  | some b => exact s.externalSignal_memory b

theorem State.timerStep_memory (s : State) : SameMemory s s.timerStep := by
  unfold State.timerStep
  dsimp only
  split
  · exact SameMemory.trans ⟨rfl, rfl⟩ (State.wiredSignal_memory { s with timer := s.timer + 1#14 } _)
  · exact ⟨rfl, rfl⟩

theorem State.timerSteps_memory (n : Nat) (s : State) : SameMemory s (s.timerSteps n) := by
  induction n generalizing s with
  | zero => exact .refl s
  | succ n ih => exact s.timerStep_memory.trans (ih s.timerStep)

theorem State.deviceCompletes_memory (s : State) (n : Nat) (v : Word) : SameMemory s (s.deviceCompletes n v) := by
  unfold State.deviceCompletes
  split
  next d _ =>
    split
    · exact SameMemory.trans ⟨rfl, rfl⟩ (State.wiredSignal_memory (s.updateDevice n _) _)
    · exact .refl s
  next => exact .refl s

/-- No event but a write of the channel reaches registers or store. -/
theorem State.event_memory (s : State) {e : HostEvent} (h : ∀ w, e ≠ .channelWrites w) :
    SameMemory s (s.event e) := by
  cases e with
  | channelWrites w => exact absurd rfl (h w)
  | signal b => exact s.externalSignal_memory b
  | timerSteps n => exact s.timerSteps_memory n
  | deviceCompletes n v => exact s.deviceCompletes_memory n v
  | pressReset | pressStart | pressAutoload | setTimerInterval =>
    dsimp only [State.event]
    split <;> exact ⟨rfl, rfl⟩
  | lockPanel | deviceFills | deviceConnects | deviceDisconnects | setRemote | handArea | powerFails | parityError
  | losesPower => exact ⟨rfl, rfl⟩

/-- A byte that an event changes is in a word that the channel may write. -/
theorem State.allowed_of_readByte_event {s : State} {e : HostEvent} {a : Word}
    (h : (s.event e).readByte a ≠ s.readByte a) :
    ∃ w, e = .channelWrites w ∧ s.channelAllows w = true ∧ wordNumber a = wordNumber w.address := by
  by_cases he : ∃ w, e = .channelWrites w
  · obtain ⟨w, rfl⟩ := he
    exact ⟨w, rfl, State.allowed_of_readWord_channelWrite fun hw => h (State.readByte_eq_of_readWord hw)⟩
  · exact absurd ((s.event_memory (not_exists.mp he)).readByte a) h

/-- What keeps the control fields keeps PR, IM, the mode and the flag. -/
theorem SameControl.of_control {s t : State} (h : t.control = s.control) : SameControl s t :=
  ⟨congrArg Control.pr h, congrArg Control.im h, congrArg Control.monitorMode h, congrArg Control.interruptDisabled h⟩

/-- The bits of IR below the external ones are as before. -/
theorem OutsideFrame.getMsbD_ir_low {s t : State} (h : OutsideFrame s t) {b : Nat} (hb : b < 3) :
    t.ir.getMsbD b = s.ir.getMsbD b := by
  cases hs : s.ir.getMsbD b with
  | true => exact h.kept b hs
  | false =>
    by_contra ht
    have hexternal := h.raised b hs (Bool.eq_true_of_not_eq_false ht)
    omega

/-- Settles O59: an event by its frame (`State.event_frame`), the turn by its laws, and a changed byte by the write that the
channel was allowed. -/
theorem outsideWorldIsConfined : Obligations.OutsideWorldIsConfined := by
  refine ⟨fun s e => ?_, fun s t ht => ?_⟩
  · have hframe := s.event_frame e
    refine ⟨.of_keys (congrArg Control.keys hframe.control), .of_control hframe.control,
      congrArg Control.ic hframe.control, congrArg Control.ex hframe.control, hframe.kept,
      fun b => hframe.getMsbD_ir_low, fun b hb => ?_⟩
    obtain ⟨w, he, hallowed, hword⟩ := State.allowed_of_readByte_event hb
    obtain ⟨d, hdevice, hbusy, hspeed, -, harea, -⟩ := State.channelAllows_iff.mp hallowed
    exact ⟨w, d, he, hword, hdevice, hbusy, hspeed, harea⟩
  · subst ht
    refine ⟨.of_keys (by simp), .of_control s.channelTurn_control, .channelTurn s, by simp, by simp, by simp, by simp,
      by simp, s.channelTurn_channel, State.channelTurn_nil, fun b hb => ?_,
      fun w d hscript hdevice hbusy hspeed hremote harea hstore => ?_⟩
    · obtain ⟨batch, hscript, w, hw, hallowed, hword⟩ :=
        State.allowed_of_readWord_channelTurn fun h => hb (State.readByte_eq_of_readWord h)
      obtain ⟨d, hdevice, hbusy, hspeed, -, harea, hstore⟩ := State.channelAllows_iff.mp hallowed
      have hexists : s.inStore b = true := by rwa [State.inStore, hword]
      exact ⟨batch, w, d, hscript, hw, hword, hexists, hdevice, hbusy, hspeed, harea⟩
    · exact State.readWord_channelTurn_of_allowed hscript
        (State.channelAllows_iff.mpr ⟨d, hdevice, hbusy, hspeed, hremote, harea, hstore⟩)

end Sys2Proof.Machine
end

section
/-! PROOFS. The first acts of each class of instructions, and the protection test in task mode (O19). -/

namespace Sys2Proof.Machine

/-! ## The shape of an instruction -/

/-- Every instruction begins with the address modification (R115). -/
theorem exec_eq_withAddress (i : Instr) :
    ∃ operation, ∀ s, exec i s = .next (s.withAddress i.fields operation) := by
  cases i <;> exact ⟨_, fun _ => rfl⟩

/-- What runs when there is an effective address. -/
theorem exec_of_effectiveAddress {i : Instr} {operation : Word → State → State} {s : State} {a : Word}
    (hexec : ∀ s, exec i s = .next (s.withAddress i.fields operation)) (ha : s.effectiveAddress i.fields = some a) :
    exec i s = .next (operation a (s.addressed i.fields)) := by
  rw [hexec, State.withAddress_some ha]

/-- The first act is the existence test (R72). -/
theorem exec_testsAddressFirst {i : Instr} (h : testsAddressFirst i = true) :
    ∃ rest : Word → State → State,
      ∀ s, exec i s = .next (s.withAddress i.fields fun a u => u.testAddress a (rest a u)) := by
  cases i with
  | hl | hs | rl | rs | rx | dl | ds | bz | bl | wm | la | lo | lx | jl | sp | is | ms | xl | xs | ps | kl =>
    exact ⟨_, fun _ => rfl⟩
  | _ => cases h

/-- EX[22:23] are cleared and then the existence test is made (R361 (a)). -/
theorem exec_clearsThenTestsAddress {i : Instr} (h : clearsThenTestsAddress i = true) :
    ∃ rest : Word → State → State,
      ∀ s, exec i s = .next (s.withAddress i.fields fun a u => u.clearExceptions.testAddress a (rest a u)) := by
  cases i with
  | ba | bs | wa | ws | wd | aa | ss | fa | fs | fm | fd => exact ⟨_, fun _ => rfl⟩
  | _ => cases h

/-- The mode test comes first, then the existence test (R72). -/
theorem exec_testsModeThenAddress {i : Instr} (h : testsModeThenAddress i = true) :
    ∃ rest : Word → State → State,
      ∀ s, exec i s = .next (s.withAddress i.fields fun a u => u.testMode (u.testAddress a (rest a u))) := by
  cases i with
  | je | jd | ml | pl | ks => exact ⟨_, fun _ => rfl⟩
  | _ => cases h

/-- The existence test comes first, then the protection test (R72). -/
theorem exec_testsProtectionNext {i : Instr} (h : testsProtectionNext i = true) :
    ∃ rest : Word → State → State,
      ∀ s, exec i s =
        .next (s.withAddress i.fields fun a u => u.testAddress a (u.testProtection a (rest a u))) := by
  cases i with
  | hs | rs | is | ms | xs | ps | jl | ds => exact ⟨_, fun _ => rfl⟩
  | _ => cases h

/-! ## The tests decided -/

theorem State.testAddress_existing {s : State} {a : Word} (h : s.inStore a = true) (rest : State) :
    s.testAddress a rest = rest := by simp [State.testAddress, h]

theorem State.testAddress_missing {s : State} {a : Word} (h : s.inStore a = false) (rest : State) :
    s.testAddress a rest = s.instructionException := by simp [State.testAddress, h]

theorem State.testMode_monitor {s : State} (h : s.monitorMode = true) (rest : State) : s.testMode rest = rest := by
  simp [State.testMode, h]

theorem State.testProtection_denied {s : State} {a : Word} (h : s.denied a = true) (rest : State) :
    s.testProtection a rest = s.instructionException := by simp [State.testProtection, h]

/-- Settles O19: the existence test passes and the protection test does not. -/
theorem protectedWordTraps : Obligations.ProtectedWordTraps := by
  intro s i a hi ⟨ha, hexists⟩ hmode hprotected
  obtain ⟨rest, hexec⟩ := exec_testsProtectionNext hi
  have hdenied : s.denied a = true := by simp [State.denied, State.keyProtected, hmode, hprotected]
  rw [exec_of_effectiveAddress hexec ha, State.testAddress_existing (by simpa using hexists),
    State.testProtection_denied (by simpa using hdenied)]

end Sys2Proof.Machine
end

section
/-! PROOFS. From the start of a step to its instruction: the fetch and its stops (O4, O16), and the entry of the
instruction exception (O15). -/

namespace Sys2Proof.Machine

/-! ## Up to the fetch -/

/-- At `Fetch Instruction` in the state `v` the step is the fetch there, with a look at the reset key (R111 to R113). -/
theorem State.step_of_reachesFetch {s v : State} (h : s.reachesFetch v) : step s = v.fetch true := by
  obtain ⟨⟨hhalt, hautoload, hmodifier⟩, hlabel⟩ := h
  have hcycle : step s = s.takeInputs.continueFrom := by
    simp [step, State.cycle, hhalt, hautoload, hmodifier]
  rw [hcycle]
  obtain ⟨⟨hrunning, hpower, hphase⟩, rfl⟩ | ⟨⟨hrunning, hpower, hphase⟩, rfl⟩ := hlabel
  · simp [State.continueFrom, State.boundary, hrunning, hpower, hphase]
  · simp [State.continueFrom, State.fetchAfterException, hrunning, hpower, hphase]

/-- The two fetched bytes are always some instruction (R101). -/
theorem State.decodeBytes_fetchBytes (s : State) : ∃ i, decodeBytes s.fetchBytes = .ok (i, []) := ⟨_, rfl⟩

/-- At an even counter the fetched word is decoded and run (R113). -/
theorem State.runAtCounter_of_even {s : State} (h : s.ic.getMsbD 23 = false) :
    ∃ i, s.runAtCounter = s.decodeAndRun i := by
  obtain ⟨i, hi⟩ := s.decodeBytes_fetchBytes
  refine ⟨i, ?_⟩
  unfold State.runAtCounter
  rw [h, hi]
  rfl

theorem State.fetch_missing {v : State} (h : v.inStore v.ic = false) (look : Bool) :
    v.fetch look = .next v.instructionException := by
  simp [State.fetch, h]

theorem State.fetch_resetKey {v : State} (h : v.inStore v.ic = true) (hkey : v.resetKey = true) :
    v.fetch true = .next v.resetSystem := by
  simp [State.fetch, h, hkey]

theorem State.fetch_existing {v : State} (h : v.inStore v.ic = true) (hkey : v.resetKey = false) (look : Bool) :
    v.fetch look = v.channelTurn.runAtCounter := by
  simp [State.fetch, h, hkey]

/-- A protected word in task mode is not executed (R114). -/
theorem State.decodeAndRun_protected {s : State} (hmode : s.monitorMode = false)
    (hkey : s.keyProtected (s.readKey s.ic) = true) (i : Instr) :
    s.decodeAndRun i = .next (State.instructionException { s with ic := s.ic + 2#24 }) := by
  unfold State.decodeAndRun
  dsimp only
  rw [hmode, hkey]
  rfl

/-- Settles O4: the fetch finds the word, the reset key released. -/
theorem stepRunsInstruction : Obligations.StepRunsInstruction := by
  intro s v i hreach hkey hfetches _
  have hstore : v.inStore v.ic = true := by simpa using hfetches.1
  rw [State.step_of_reachesFetch hreach, State.fetch_existing hstore hkey, State.runAtCounter_of_fetches hfetches]

/-- Settles O16: the three stops in the order in which the fetch tests for them. -/
theorem fetchStops : Obligations.FetchStops := by
  intro s v hreach
  rw [State.step_of_reachesFetch hreach]
  refine ⟨fun hout => State.fetch_missing hout true, State.fetch_resetKey, fun hin hkey heven hmode hprotected => ?_⟩
  obtain ⟨i, hrun⟩ := State.runAtCounter_of_even (s := v.channelTurn) (by simpa using heven)
  rw [State.fetch_existing hin hkey, hrun,
    State.decodeAndRun_protected (by simpa using hmode) (by simpa using hprotected), State.channelTurn_ic]

/-! ## The instruction exception -/

/-- IR[0] is the first that the service scans, so that set and masked in it is the one selected (R112, R293). -/
theorem State.selectedInterrupt_zero {s : State} (hir : s.ir.getMsbD 0 = true) (him : s.im.getMsbD 0 = true) :
    s.selectedInterrupt = some 0 := by
  have hzero : (s.ir &&& s.im).getMsbD 0 = true := by rw [BitVec.getMsbD_and, hir, him]; rfl
  rw [State.selectedInterrupt, List.range_succ_eq_map, List.find?_cons_of_pos hzero]

/-- An interruption has three turns of the channel (R78, R112). -/
theorem State.takeInterrupt_channel (s : State) (b : Nat) : (s.takeInterrupt b).channel = s.channel.drop 3 := by
  simp [State.takeInterrupt, ← List.drop_one]

/-- A word and a register agree after an update where the words of two states do (R64). -/
theorem State.reg_eq_of_readWord {s t : State} {r : WReg}
    (h : ∀ a, wordNumber a = registerNumber r → t.readWord a = s.readWord a) : t.reg r = s.reg r := by
  have hword : wordNumber (BitVec.ofNat 24 (2 * registerNumber r)) = registerNumber r := by cases r <;> rfl
  rw [← State.readWord_eq_reg hword, ← State.readWord_eq_reg hword, h _ hword]

/-- Settles O15: the service finds IR[0], and the laws of an interruption say the rest. -/
theorem instructionExceptionEntry : Obligations.InstructionExceptionEntry := by
  intro s t him ht
  subst ht
  let raised : State := { s with ir := s.ir ||| bitMask 0, modifier := none, phase := .fetching }
  obtain ⟨hnumber, hsaved, hic, -, hmode, hdisabled, hwords⟩ := raised.takeInterrupt_spec 0
  have hwords : ∀ a, s.channelSpares (wordNumber a) → wordNumber a ≠ 4 → wordNumber a ≠ 5 →
      s.instructionException.readWord a = s.readWord a := fun a hspares h4 h5 =>
    (hwords a hspares h4 h5).trans (State.readWord_congr rfl rfl a)
  have hservice : raised.interruptionService = s.instructionException := by
    have hir : raised.ir.getMsbD 0 = true := by rw [getMsbD_or_bitMask (by omega)]; simp
    rw [State.interruptionService, State.selectedInterrupt_zero hir him]
    rfl
  refine ⟨hservice.symm, hnumber, hsaved, hic, fun h => hwords 12#24 h (by decide) (by decide), hmode, hdisabled, ?_,
    fun c hc => ?_, fun a h h4 h5 => State.readByte_eq_of_readWord (hwords a h h4 h5),
    fun r h => State.reg_eq_of_readWord fun a ha => ?_, .of_keys (by simp), by simp, by simp, by simp,
    by simp [SameSurroundings], by simp, by simp, raised.takeInterrupt_channel 0⟩
  · simp [State.getMsbD_ir_instructionException]
  · simp [State.getMsbD_ir_instructionException, hc]
  · have hlow : registerNumber r < 4 := by cases r <;> decide
    exact hwords a (ha ▸ h) (by omega) (by omega)

end Sys2Proof.Machine
end

section
/-! PROOFS. Every step answers a next state unless power goes undetected (O7). -/

namespace Sys2Proof.Machine

/-! ## Power that goes undetected -/

/-- Power has not gone in a way that is not detected at the end of an instruction (R347, U8). -/
def State.Powered (s : State) : Prop := s.halt ≠ some .powerLost

theorem State.Powered.of_halt {s t : State} (h : s.Powered) (hhalt : t.halt = s.halt) : t.Powered := by
  rwa [State.Powered, hhalt]

theorem State.externalSignal_halt (s : State) (b : Nat) : (s.externalSignal b).halt = s.halt := by
  unfold State.externalSignal
  split <;> rfl

theorem State.wiredSignal_halt (s : State) (w : Option Nat) : (s.wiredSignal w).halt = s.halt := by
  cases w with
  | none => rfl
  | some b => exact s.externalSignal_halt b

theorem State.timerStep_halt (s : State) : s.timerStep.halt = s.halt := by
  unfold State.timerStep
  dsimp only
  split
  · exact State.wiredSignal_halt _ _
  · rfl

theorem State.timerSteps_halt (n : Nat) (s : State) : (s.timerSteps n).halt = s.halt := by
  induction n generalizing s with
  | zero => rfl
  | succ n ih => exact (ih s.timerStep).trans s.timerStep_halt

theorem State.deviceCompletes_halt (s : State) (n : Nat) (v : Word) : (s.deviceCompletes n v).halt = s.halt := by
  unfold State.deviceCompletes
  split
  next =>
    split
    · exact State.wiredSignal_halt _ _
    · rfl
  next => rfl

/-- The only event that takes power away undetected is `losesPower` (log 30). -/
theorem State.Powered.event {s : State} (h : s.Powered) {e : HostEvent} (he : e ≠ .losesPower) :
    (s.event e).Powered := by
  cases e with
  | losesPower => exact absurd rfl he
  | parityError contents => nofun
  | signal b => exact h.of_halt (s.externalSignal_halt b)
  | timerSteps n => exact h.of_halt (s.timerSteps_halt n)
  | deviceCompletes n v => exact h.of_halt (s.deviceCompletes_halt n v)
  | channelWrites w => exact h.of_halt (s.channelWrite_halt w)
  | pressReset | pressStart | pressAutoload | setTimerInterval =>
    dsimp only [State.event]
    split <;> exact h
  | lockPanel | deviceFills | deviceConnects | deviceDisconnects | setRemote | handArea | powerFails => exact h

theorem State.Powered.events {batch : List HostEvent} (hbatch : HostEvent.losesPower ∉ batch) {s : State}
    (h : s.Powered) : (s.events batch).Powered := by
  induction batch generalizing s with
  | nil => exact h
  | cons e batch ih =>
    obtain ⟨hfirst, hrest⟩ := not_or.mp (mt List.mem_cons.mpr hbatch)
    exact ih hrest (h.event (Ne.symm hfirst))

theorem State.Powered.takeInputs {s : State} (h : s.Powered)
    (hinputs : ∀ batch ∈ s.inputs, HostEvent.losesPower ∉ batch) : s.takeInputs.Powered := by
  unfold State.takeInputs
  split
  next => exact h
  next batch rest hscript => exact State.Powered.events (hinputs batch (by simp [hscript])) h

/-! ## A step answers a next state -/

/-- The result is a next state, neither a fault nor a refusal. -/
def Answers (r : Result) : Prop := ∃ t, r = .next t

theorem Answers.next (t : State) : Answers (.next t) := ⟨t, rfl⟩

/-- Whatever the instruction, its fetch protection passed or not (R114). -/
theorem State.decodeAndRun_answers (s : State) (i : Instr) : Answers (s.decodeAndRun i) := by
  unfold State.decodeAndRun
  dsimp only
  split
  · exact .next _
  · obtain ⟨t, ht, -⟩ := exec_completes i
      { s with ic := s.ic + 2#24, phase := .running, monitorMode := s.keyProtected (s.readKey s.ic) }
    exact ⟨t, ht⟩

/-- The only refusal of the fetch is an odd counter (R364). -/
theorem State.fetch_answers {s : State} (heven : s.ic.getMsbD 23 = false) (look : Bool) : Answers (s.fetch look) := by
  unfold State.fetch
  split
  · exact .next _
  · split
    · exact .next _
    · obtain ⟨i, hrun⟩ := State.runAtCounter_of_even (s := s.channelTurn) (by simpa using heven)
      exact hrun ▸ State.decodeAndRun_answers _ i

/-- The start key goes on at an even address (R348). -/
theorem State.afterReset_answers (s : State) : Answers s.afterReset := by
  unfold State.afterReset
  split
  · exact .next _
  · split
    · exact State.fetch_answers (getMsbD_evenAddress _) true
    · exact .next s

theorem State.waitingForStart_answers (s : State) : Answers s.waitingForStart := by
  unfold State.waitingForStart
  split
  · exact .next _
  · exact s.afterReset_answers

/-- A parity error leads to the reset state (R334; log 28). -/
theorem State.halted_answers {s : State} {c : Halt} (h : c ≠ .powerLost) : Answers (s.halted c) := by
  cases c with
  | parity v => exact .next _
  | powerLost => exact absurd rfl h

theorem State.continueFrom_answers {s : State} (hs : s.Inv) (ha : s.autoload = none) (hpowered : s.Powered) :
    Answers s.continueFrom := by
  obtain ⟨c, hc, heq⟩ | ⟨-, -, heq⟩ | ⟨-, -, v, -, heq⟩ | ⟨⟨-, -, hp⟩, heq⟩ | ⟨⟨-, -, hp⟩, heq⟩ :=
    s.continueFrom_cases <;> rw [heq]
  · exact State.halted_answers fun hlost => hpowered (hlost ▸ hc)
  · exact s.waitingForStart_answers
  · exact .next _
  · exact State.fetch_answers (hs.executing (by simp [hp]) ha).nextInstruction.even true
  · exact State.fetch_answers (hs.even (by simp [hp])) true

/-- Between an AM and the instruction it modifies the machine is not in the loop `After Reset` (R342). -/
theorem State.Inv.label_of_modifier {s : State} (h : s.Inv) {m : Word} (hm : s.modifier = some m) :
    s.phase ≠ .afterReset := fun hr => by
  obtain ⟨-, -, hnone, -⟩ := h.resetState hr
  simp [hnone] at hm

/-- Settles O7: along the ways a step can begin; every one ends in a next state but the halt of lost power, which the
hypotheses exclude, and the fetch at an odd counter, which the invariant excludes. -/
theorem stepAnswers : Obligations.StepAnswers := by
  intro s hs hpowered hinputs
  change Answers s.cycle
  unfold State.cycle
  split
  next c hc => exact State.halted_answers fun hlost => hpowered (hlost ▸ hc)
  next =>
    split
    next p _ => exact .next _
    next ha =>
      split
      next m hm => exact State.fetch_answers (hs.even (hs.label_of_modifier hm)) false
      next =>
        have hframe := s.takeInputs_frame
        exact State.continueFrom_answers (hs.of_control (hframe.sound hs.sound) hframe.control)
          ((congrArg Control.autoload hframe.control).trans ha) (State.Powered.takeInputs hpowered hinputs)

end Sys2Proof.Machine
end

section
/-! PROOFS. Storage that does not exist (O18): the tests by class, and AW's input of four characters from device 0. -/

namespace Sys2Proof.Machine

/-! ## Device 0 as AW uses it -/

/-- A device that AW can read from: remote, unwired, with a buffer register of 24 bits (R274, R317, R318). -/
structure Device.Readable (d : Device) : Prop where
  remote : d.remote = true
  unwired : d.irBit = none
  used : d.used = 0xFFFFFF#24

/-- Device 0 is `d`, in this condition, and AW can read from it; nothing takes the machine out of program control. -/
structure State.Loading (s : State) (c : Condition) (d : Device) : Prop where
  halt : s.halt = none
  timer : s.isTimer 0 = false
  found : s.device? 0 = some d
  condition : d.condition = c
  readable : d.Readable

/-- What AW's input may have changed: devices and script, and EX[22:23] (R274). -/
structure LoaderFrame (s t : State) : Prop where
  same : t = { s with ex := t.ex, devices := t.devices, inputs := t.inputs }
  precision : t.ex.getMsbD 0 = s.ex.getMsbD 0

theorem LoaderFrame.refl (s : State) : LoaderFrame s s := ⟨rfl, rfl⟩

theorem LoaderFrame.trans {s t u : State} (h : LoaderFrame s t) (h' : LoaderFrame t u) : LoaderFrame s u where
  same := by rw [h'.same, h.same]
  precision := h'.precision.trans h.precision

/-- A device changed is found under its number. -/
theorem State.device?_updateDevice {s : State} {n : Nat} {d : Device} (h : s.device? n = some d)
    {change : Device → Device} (hnumber : ∀ d, (change d).number = d.number) :
    (s.updateDevice n change).device? n = some (change d) := by
  unfold State.device? State.updateDevice at *
  dsimp only at *
  split at h
  next hlimit =>
    have hd : d.number = n := by simpa using List.find?_some h
    have hsame : ((fun e : Device => e.number == n) ∘ fun e => if e.number = n then change e else e) =
        fun e => e.number == n := by
      funext e
      by_cases he : e.number = n <;> simp [he, hnumber]
    rw [List.find?_map, hsame, h]
    simp [hlimit, hd]
  next => cases h

theorem State.condition_of_device {s : State} {n : Nat} {d : Device} (ht : s.isTimer n = false)
    (hd : s.device? n = some d) : s.condition n = d.condition := by
  simp [State.condition, ht, hd]

theorem State.deviceWord_of_device {s : State} {n : Nat} {d : Device} (ht : s.isTimer n = false)
    (hd : s.device? n = some d) : s.deviceWord n = d.buffer &&& d.used := by
  simp [State.deviceWord, ht, hd]

theorem State.Loading.condition_eq {s : State} {c : Condition} {d : Device} (h : s.Loading c d) : s.condition 0 = c :=
  (State.condition_of_device h.timer h.found).trans h.condition

/-- The data word is the whole buffer register. -/
theorem State.Loading.deviceWord_eq {s : State} {c : Condition} {d : Device} (h : s.Loading c d) :
    s.deviceWord 0 = d.buffer := by
  rw [State.deviceWord_of_device h.timer h.found, h.readable.used]
  exact BitVec.and_allOnes

/-- The command that each look at an available device 0 sends it, EX[22:23] cleared before. -/
def State.loaderCommand (s : State) (c : BitVec 6) : State := s.clearExceptions.acceptCommand 0 c 0#24

theorem State.loaderCommand_eq {s : State} (h : s.isTimer 0 = false) (c : BitVec 6) :
    s.loaderCommand c = s.clearExceptions.updateDevice 0 (fun d => d.accept c 0#24) := by
  have ht : s.clearExceptions.isTimer 0 = false := h
  simp [State.loaderCommand, State.acceptCommand, ht]

theorem State.Loading.loaderCommand {s : State} {d : Device} (h : s.Loading .available d) (c : BitVec 6) :
    (s.loaderCommand c).Loading (if isSense c then .available else .busy) (d.accept c 0#24) := by
  obtain ⟨hhalt, htimer, hfound, hcondition, hremote, hunwired, hused⟩ := h
  rw [State.loaderCommand_eq htimer]
  refine ⟨by simpa using hhalt, htimer, ?_, ?_, hremote, hunwired, hused⟩
  · exact State.device?_updateDevice (s := s.clearExceptions) hfound fun _ => rfl
  · simp [Device.accept, hcondition]

theorem LoaderFrame.loaderCommand {s : State} (h : s.isTimer 0 = false) (c : BitVec 6) :
    LoaderFrame s (s.loaderCommand c) := by
  rw [State.loaderCommand_eq h]
  exact ⟨rfl, by simp [BitVec.getMsbD_and]⟩

/-- The batch in which device 0 completes its operation with the buffer contents `v` (R312). -/
def State.loaderCompletes (s : State) (v : Word) (rest : List (List HostEvent)) : State :=
  State.events { s with inputs := rest } [.deviceCompletes 0 v]

theorem State.loaderCompletes_eq {s : State} {d : Device} (h : s.Loading .busy d) (v : Word)
    (rest : List (List HostEvent)) :
    s.loaderCompletes v rest = State.updateDevice { s with inputs := rest } 0
      (fun d => { d with condition := .available, buffer := v &&& d.used, area := none }) := by
  have hfound : State.device? { s with inputs := rest } 0 = some d := h.found
  simp [State.loaderCompletes, State.events, State.event, State.deviceCompletes, hfound, h.condition, h.readable.remote,
    h.readable.unwired, State.wiredSignal]

theorem State.Loading.loaderCompletes {s : State} {d : Device} (h : s.Loading .busy d) (v : Word)
    (rest : List (List HostEvent)) :
    ∃ e, (s.loaderCompletes v rest).Loading .available e ∧ e.buffer = v := by
  rw [State.loaderCompletes_eq h]
  refine ⟨_, ⟨h.halt, h.timer, State.device?_updateDevice (s := { s with inputs := rest }) h.found fun _ => rfl, rfl,
    h.readable.remote, h.readable.unwired, h.readable.used⟩, ?_⟩
  show v &&& d.used = v
  rw [h.readable.used]
  exact BitVec.and_allOnes

theorem LoaderFrame.loaderCompletes {s : State} {d : Device} (h : s.Loading .busy d) (v : Word)
    (rest : List (List HostEvent)) : LoaderFrame s (s.loaderCompletes v rest) := by
  rw [State.loaderCompletes_eq h]
  exact ⟨rfl, rfl⟩

@[simp] theorem State.loaderCommand_inputs (s : State) (c : BitVec 6) : (s.loaderCommand c).inputs = s.inputs := by
  unfold State.loaderCommand State.acceptCommand
  split <;> rfl

theorem State.loaderCompletes_inputs {s : State} {d : Device} (h : s.Loading .busy d) (v : Word)
    (rest : List (List HostEvent)) : (s.loaderCompletes v rest).inputs = rest := by
  rw [State.loaderCompletes_eq h]
  rfl

/-- EX[22:23] are 00 after a command of AW. -/
theorem State.loaderCommand_ex (s : State) (c : BitVec 6) : (s.loaderCommand c).ex = s.ex &&& 0b100#3 := by
  unfold State.loaderCommand State.acceptCommand
  split <;> rfl

/-! ## AW's input -/

/-- The read command sent to an available device 0 (R274). -/
theorem State.Loading.startInput {s : State} {d : Device} (h : s.Loading .available d) (p : Autoload) :
    s.startInput p = .waiting { p with waiting := true } (s.loaderCommand readCommand) := by
  simp [State.startInput, h.condition_eq, State.loaderCommand]

/-- A character of six bits has no status bit (R274). -/
theorem character_has_no_status {v : Word} (h : v.toNat < 64) : v.getMsbD 0 = false ∧ leftByte v = 0#12 := by
  constructor
  · have hbit : v.toNat.testBit 23 = false := Nat.testBit_lt_two_pow (by omega)
    simpa [BitVec.getMsbD, BitVec.getLsbD] using hbit
  · have hleft : (leftByte v).toNat = v.toNat / 2 ^ 12 % 2 ^ 12 := by
      rw [leftByte, BitVec.extractLsb'_toNat, Nat.shiftRight_eq_div_pow]
    apply BitVec.eq_of_toNat_eq
    rw [hleft, BitVec.toNat_ofNat]
    omega

/-- What an AW holds after one more character (R274). -/
def Autoload.shiftIn (p : Autoload) (v : Word) : Autoload :=
  { p with assembled := (p.assembled <<< 6) ||| v, count := p.count + 1, waiting := true }

/-- The fourth character completes the word. -/
theorem State.takeCharacter_last (s : State) {p : Autoload} (hp : 3 ≤ p.count) {v : Word} (hv : v.toNat < 64) :
    s.takeCharacter p v = .finished (s.loadWord p.address ((p.assembled <<< 6) ||| v)) := by
  obtain ⟨hend, hstatus⟩ := character_has_no_status hv
  simp [State.takeCharacter, hend, hstatus, hp]

/-- Each character before that is followed by another read. -/
theorem State.Loading.takeCharacter {s : State} {d : Device} (h : s.Loading .available d) {p : Autoload}
    (hp : p.count < 3) {v : Word} (hv : v.toNat < 64) :
    s.takeCharacter p v = .waiting (p.shiftIn v) (s.loaderCommand readCommand) := by
  obtain ⟨hend, hstatus⟩ := character_has_no_status hv
  simp [State.takeCharacter, hend, hstatus, hp, h.startInput, Autoload.shiftIn]

/-- The state in which a character that device 0 has delivered is taken: AW has sensed it (R274). -/
def State.characterRead (s : State) (v : Word) (rest : List (List HostEvent)) : State :=
  (s.loaderCompletes v rest).loaderCommand senseCommand

/-- What AW's input leaves once its last character has been sensed: device 0 available, EX[22:23] 00, and `rest` of the
script (R274). -/
structure CharacterRead (s t : State) (rest : List (List HostEvent)) : Prop where
  loading : ∃ d, t.Loading .available d
  frame : LoaderFrame s t
  cleared : t.ex.getMsbD 1 = false ∧ t.ex.getMsbD 2 = false
  inputs : t.inputs = rest

theorem State.Loading.characterRead {s : State} {d : Device} (h : s.Loading .busy d) (v : Word)
    (rest : List (List HostEvent)) : CharacterRead s (s.characterRead v rest) rest := by
  obtain ⟨e, he, -⟩ := h.loaderCompletes v rest
  refine ⟨⟨_, he.loaderCommand senseCommand⟩, (LoaderFrame.loaderCompletes h v rest).trans (.loaderCommand he.timer _),
    ?_, ?_⟩
  · simp [State.characterRead, State.loaderCommand_ex, BitVec.getMsbD_and]
  · rw [State.characterRead, State.loaderCommand_inputs, State.loaderCompletes_inputs h]

/-- The look at device 0 after it has delivered a character. -/
theorem State.Loading.pollLoader {s : State} {d : Device} (h : s.Loading .busy d) {p : Autoload}
    (hp : p.waiting = true) (v : Word) (rest : List (List HostEvent)) :
    (s.loaderCompletes v rest).pollLoader p = (s.characterRead v rest).takeCharacter p v := by
  obtain ⟨e, he, rfl⟩ := h.loaderCompletes v rest
  simp [State.pollLoader, hp, State.waitInput, he.condition_eq, he.deviceWord_eq, State.characterRead,
    State.loaderCommand]

/-- One iteration of the wait, in which device 0 delivers a character: AW is over, or waits for what is left. -/
theorem State.Loading.runLoader_cons {s : State} {d : Device} (h : s.Loading .busy d) {p : Autoload}
    (hp : p.waiting = true) (v : Word) (rest : List (List HostEvent)) :
    (∀ t, (s.characterRead v rest).takeCharacter p v = .finished t →
        s.runLoader p ([.deviceCompletes 0 v] :: rest) = t) ∧
      ∀ q t, (s.characterRead v rest).takeCharacter p v = .waiting q t →
        s.runLoader p ([.deviceCompletes 0 v] :: rest) = t.runLoader q rest := by
  obtain ⟨e, he, -⟩ := h.loaderCompletes v rest
  have hhalt := he.halt
  have hpoll := h.pollLoader hp v rest
  rw [State.loaderCompletes] at hhalt hpoll
  exact ⟨fun t ht => by simp [State.runLoader, hhalt, hpoll, ht],
    fun q t ht => by simp [State.runLoader, hhalt, hpoll, ht]⟩

/-- The batches in which device 0 delivers these characters, one after another. -/
def deliveries (characters : List Word) : List (List HostEvent) :=
  characters.map fun c => [.deviceCompletes 0 c]

theorem deliveries_cons (v : Word) (characters : List Word) (rest : List (List HostEvent)) :
    deliveries (v :: characters) ++ rest = [.deviceCompletes 0 v] :: (deliveries characters ++ rest) := rfl

/-- AW's wait for the characters that its word still lacks, by induction on them: each is shifted in, and the last one
completes the word (R274). -/
theorem State.Loading.runLoader {characters : List Word} {s : State} {d : Device} (h : s.Loading .busy d) {p : Autoload}
    (hwaiting : p.waiting = true) (hcount : p.count + characters.length = 4) (hp : p.count ≤ 3)
    (hv : ∀ v ∈ characters, v.toNat < 64) (rest : List (List HostEvent)) :
    ∃ t, CharacterRead s t rest ∧ s.runLoader p (deliveries characters ++ rest) =
      t.loadWord p.address (characters.foldl (fun word v => (word <<< 6) ||| v) p.assembled) := by
  induction characters generalizing s d p with
  | nil => simp only [List.length_nil] at hcount; omega
  | cons v characters ih =>
    have hfirst : v.toNat < 64 := hv v List.mem_cons_self
    have hread := h.characterRead v (deliveries characters ++ rest)
    obtain ⟨hfinished, hgoes⟩ := h.runLoader_cons hwaiting v (deliveries characters ++ rest)
    rw [deliveries_cons]
    rw [List.length_cons] at hcount
    by_cases hlast : 3 ≤ p.count
    · obtain rfl : characters = [] := List.length_eq_zero_iff.mp (by omega)
      exact ⟨_, hread, hfinished _ (State.takeCharacter_last _ hlast hfirst)⟩
    · obtain ⟨e, he⟩ := hread.loading
      have hbusy := he.loaderCommand readCommand
      obtain ⟨t, ht, heq⟩ := ih (p := p.shiftIn v) hbusy rfl (by show p.count + 1 + _ = 4; omega)
        (by show p.count + 1 ≤ 3; omega) fun w hw => hv w (List.mem_cons_of_mem v hw)
      rw [hgoes _ _ (he.takeCharacter (by omega) hfirst)]
      exact ⟨t, ⟨ht.loading, hread.frame.trans ((LoaderFrame.loaderCommand he.timer _).trans ht.frame), ht.cleared,
        ht.inputs⟩, heq⟩

/-- AW on an available device 0 that delivers four characters without status bits (R274). -/
theorem State.Loading.autoloadWord {s : State} {d : Device} (h : s.Loading .available d) (a : Word)
    {characters : List Word} (hlength : characters.length = 4) (hv : ∀ v ∈ characters, v.toNat < 64)
    {rest : List (List HostEvent)} (hinputs : s.inputs = deliveries characters ++ rest) :
    ∃ t, CharacterRead s t rest ∧
      s.autoloadWord a = t.loadWord a (characters.foldl (fun word v => (word <<< 6) ||| v) 0#24) := by
  have hbusy := h.loaderCommand readCommand
  obtain ⟨t, ht, heq⟩ := hbusy.runLoader (p := { address := a, assembled := 0#24, count := 0, waiting := true }) rfl
    (by rw [hlength]) (Nat.zero_le 3) hv rest
  refine ⟨t, ⟨ht.loading, (LoaderFrame.loaderCommand h.timer _).trans ht.frame, ht.cleared, ht.inputs⟩, ?_⟩
  rw [← heq, State.autoloadWord, h.startInput]
  dsimp only
  rw [State.loaderCommand_inputs, hinputs]

/-- The operation is entered with the device and the script as they were. -/
theorem State.delivers_addressed {s : State} {f : Fields} {words : List Word} {rest : List (List HostEvent)}
    (h : s.delivers words rest) :
    (∃ d, (s.addressed f).Loading .available d) ∧ (s.addressed f).inputs = deliveries words ++ rest := by
  obtain ⟨hhalt, htimer, ⟨d, hfound, hcondition, hremote, hunwired, hused⟩, hinputs⟩ := h
  refine ⟨⟨d, by simpa using hhalt, by simpa [State.isTimer] using htimer, by simpa [State.device?] using hfound,
    hcondition, hremote, hunwired, hused⟩, ?_⟩
  rw [State.addressed_inputs, hinputs, deliveries]

/-- Settles O18: the indirect address for every instruction, the effective address by the first acts of each class, and
AW's input, which ends in the existence test. -/
theorem missingStorageTraps : Obligations.MissingStorageTraps := by
  refine ⟨fun s i hindirect hout => ?_, fun s u i a ha hout hu => ⟨fun hi => ?_, fun hi => ?_, fun hi hmode => ?_⟩,
    fun s u f a c1 c2 c3 c4 v rest ha hout hmode hcharacters hdelivers hu => ?_⟩
  · obtain ⟨operation, hexec⟩ := exec_eq_withAddress i
    rw [hexec, State.withAddress_none (State.effectiveAddress_none.mpr ⟨hindirect, hout⟩)]
  · obtain ⟨rest, hexec⟩ := exec_testsAddressFirst hi
    rw [exec_of_effectiveAddress hexec ha, ← hu, State.testAddress_missing (by simpa [hu] using hout)]
  · obtain ⟨rest, hexec⟩ := exec_clearsThenTestsAddress hi
    have hcleared : u.clearExceptions.inStore a = false := by simpa [hu, State.inStore] using hout
    rw [exec_of_effectiveAddress hexec ha, ← hu, State.testAddress_missing hcleared]
  · obtain ⟨rest, hexec⟩ := exec_testsModeThenAddress hi
    rw [exec_of_effectiveAddress hexec ha, ← hu, State.testMode_monitor (by simpa [hu] using hmode),
      State.testAddress_missing (by simpa [hu] using hout)]
  · obtain ⟨h1, h2, h3, h4, -⟩ := hcharacters
    obtain ⟨⟨d, hloading⟩, hinputs⟩ := State.delivers_addressed (f := f) hdelivers
    rw [← hu] at hloading hinputs
    obtain ⟨m, hm, hloaded⟩ :=
      hloading.autoloadWord a (characters := [c1, c2, c3, c4]) rfl (by simp [h1, h2, h3, h4]) hinputs
    obtain ⟨e, he⟩ := hm.loading
    have hsame : m = { u with ex := m.ex, devices := m.devices, inputs := rest } := hm.inputs ▸ hm.frame.same
    have hmissing : m.inStore a = false := by
      rw [hsame]
      simpa [hu, State.inStore] using hout
    have hexec : exec (.aw f) s = .next (u.testMode (u.autoloadWord a)) :=
      hu ▸ exec_of_effectiveAddress (i := .aw f) (fun _ => rfl) ha
    refine ⟨m, ?_, hm.inputs, he.condition_eq, ?_, hm.cleared.1, hm.cleared.2, hsame⟩
    · rw [hexec, State.testMode_monitor (by simpa [hu] using hmode), hloaded, State.loadWord,
        State.testAddress_missing hmissing]
    · simpa [hu] using hm.frame.precision

end Sys2Proof.Machine
end

section
/-! PROOFS. The flags and the frame of the integer test (R124), and address handling: AL and AC (O24). -/

namespace Sys2Proof.Machine

/-! ## The integer test -/

theorem State.getMsbD_ex_overflowIf (s : State) (c : Bool) (b : Nat) :
    (s.overflowIf c).ex.getMsbD b = (s.ex.getMsbD b || (c && decide (b = 1))) := by
  have hbit : (0b010#3).getMsbD b = decide (b = 1) := by
    match b with
    | 0 | 1 | 2 => rfl
    | b + 3 => simp [BitVec.getMsbD]
  cases c <;> simp [State.overflowIf, BitVec.getMsbD_or, hbit]

theorem State.getMsbD_ir_overflowIf (s : State) (c : Bool) (b : Nat) :
    (s.overflowIf c).ir.getMsbD b = (s.ir.getMsbD b || (c && decide (b = 1))) := by
  cases c <;> simp [State.overflowIf, getMsbD_bitMask]

section
variable (s : State) (ar : BitVec 25) (c : Bool)

theorem State.testInteger_precision : (s.testInteger ar c).ex.getMsbD 0 = s.ex.getMsbD 0 := by
  rw [State.testInteger_eq]
  cases c <;> simp [BitVec.getMsbD_or, BitVec.getMsbD_and, State.getMsbD_ex_overflowIf]

/-- EX[22] is set by an overflow and not cleared without one (R124). -/
theorem State.testInteger_overflow :
    (s.testInteger ar c).ex.getMsbD 1 = (s.ex.getMsbD 1 || decide (ar.getMsbD 0 ≠ ar.getMsbD 1)) := by
  rw [State.testInteger_eq]
  cases c <;> simp [BitVec.getMsbD_or, BitVec.getMsbD_and, State.getMsbD_ex_overflowIf]

theorem State.testInteger_carry : (s.testInteger ar c).ex.getMsbD 2 = c := by
  rw [State.testInteger_eq]
  cases c <;> simp [BitVec.getMsbD_or, BitVec.getMsbD_and]

/-- IR[1] is set with EX[22], and no other bit of IR changes (R124, R291). -/
theorem State.getMsbD_ir_testInteger (b : Nat) :
    (s.testInteger ar c).ir.getMsbD b
      = (s.ir.getMsbD b || (decide (ar.getMsbD 0 ≠ ar.getMsbD 1) && decide (b = 1))) := by
  rw [State.testInteger_eq]
  exact s.getMsbD_ir_overflowIf _ b

/-- From cleared flags the test leaves exactly the overflow and the carry. -/
theorem FlagsAre.testInteger {s t : State} (hex : t.ex = s.clearExceptions.ex) (hir : t.ir = s.ir) :
    FlagsAre 1 (decide (ar.getMsbD 0 ≠ ar.getMsbD 1)) c s (t.testInteger ar c) := by
  refine ⟨?_, t.testInteger_carry ar c, ?_⟩
  · simp [State.testInteger_overflow, hex, BitVec.getMsbD_and]
  · simp [State.getMsbD_ir_testInteger, hir]

end

theorem SameRest.clearExceptions {s : State} (h : s.modifier = none) : SameRest s s.clearExceptions :=
  .of_fields rfl ⟨rfl, rfl, rfl, rfl⟩ ⟨rfl, rfl, rfl, rfl, rfl, rfl, rfl, rfl, rfl, rfl, rfl, rfl, rfl⟩ rfl rfl h

theorem SameRest.testInteger {s t : State} (h : SameRest s t) (ar : BitVec 25) (c : Bool) :
    SameRest s (t.testInteger ar c) := by
  obtain ⟨hkeys, hcontrol, hsurroundings, hchannel, hphase, hmodifier⟩ := h
  refine ⟨fun a => ?_, ?_, ?_, ?_, ?_, ?_⟩
  · simpa [State.readKey] using hkeys a
  · simpa [SameControl] using hcontrol
  · simpa [SameSurroundings] using hsurroundings
  · simpa using hchannel
  · simpa using hphase
  · simpa using hmodifier

section
variable {rs : List WReg} {s t : State}

/-- An arithmetic instruction begins by clearing EX[22:23] (R29). -/
theorem OnlyArithmetic.clearExceptions (rs : List WReg) (bit : Nat) (h : s.modifier = none) :
    OnlyArithmetic rs bit s s.clearExceptions :=
  ⟨fun r _ => State.reg_congr rfl r, .of_store rfl, rfl, by simp [BitVec.getMsbD_and], fun _ _ => rfl,
    .clearExceptions h⟩

theorem OnlyArithmetic.setReg {bit : Nat} (h : OnlyArithmetic rs bit s t) {r : WReg} (hr : r ∈ rs) (v : Word) :
    OnlyArithmetic rs bit s (t.setReg r v) := by
  obtain ⟨hregs, hstore, hic, hex, hir, hrest⟩ := h
  refine ⟨fun q hq => ?_, fun a ha => ?_, by simpa using hic, by simpa using hex, by simpa using hir, hrest.setReg r v⟩
  · have hqr : q ≠ r := fun heq => hq (heq ▸ hr)
    simpa [hqr] using hregs q hq
  · rw [SameStore.of_store (t.setReg_store r v) a ha, hstore a ha]

theorem OnlyArithmetic.testInteger (h : OnlyArithmetic rs 1 s t) (ar : BitVec 25) (c : Bool) :
    OnlyArithmetic rs 1 s (t.testInteger ar c) := by
  obtain ⟨hregs, hstore, hic, hex, hir, hrest⟩ := h
  refine ⟨fun q hq => ?_, fun a ha => ?_, by simpa using hic, ?_, fun b hb => ?_, hrest.testInteger ar c⟩
  · rw [State.reg_congr (t.testInteger_regs ar c), hregs q hq]
  · rw [SameStore.of_store (t.testInteger_store ar c) a ha, hstore a ha]
  · rw [State.testInteger_precision, hex]
  · simpa [State.getMsbD_ir_testInteger, hb] using hir b hb

end

/-! ## The adder -/

/-- The two leftmost bits of the adder's result differ when its number does not fit a word (R124). -/
theorem decide_getMsbD_ne_eq_not_fitsWord (ar : BitVec 25) :
    decide (ar.getMsbD 0 ≠ ar.getMsbD 1) = !fitsWord ar.toInt := by
  have hsign : ar.getMsbD 0 = decide (2 ^ 24 ≤ ar.toNat) := BitVec.msb_eq_decide ar
  have hnext : ar.getMsbD 1 = decide (ar.toNat / 2 ^ 23 % 2 = 1) := by
    simp [BitVec.getMsbD, BitVec.getLsbD, Nat.testBit_eq_decide_div_mod_eq]
  have hlt := ar.isLt
  rw [hsign, hnext, fitsWord, BitVec.toInt_eq_toNat_cond, Bool.eq_iff_iff]
  simp only [decide_eq_true_eq, ne_eq, Bool.not_eq_true', Bool.and_eq_false_iff, decide_eq_false_iff_not,
    decide_eq_decide]
  split <;> omega

/-- The difference is exact in 25 bits (R127). -/
theorem toInt_difference25 (a b : Word) (borrowIn : Bool) :
    (difference25 a b borrowIn).toInt = a.toInt - b.toInt - borrowIn.toInt := by
  have hborrow : ((BitVec.ofBool borrowIn).setWidth 25).toInt = borrowIn.toInt := by cases borrowIn <;> rfl
  have ha := a.toInt_lt
  have ha' := a.le_toInt
  have hb := b.toInt_lt
  have hb' := b.le_toInt
  have hc : 0 ≤ borrowIn.toInt ∧ borrowIn.toInt ≤ 1 := by cases borrowIn <;> decide
  rw [difference25, BitVec.toInt_sub, BitVec.toInt_sub, BitVec.toInt_signExtend_of_le (by omega),
    BitVec.toInt_signExtend_of_le (by omega), hborrow, Int.bmod_sub_bmod]
  exact Int.bmod_eq_of_le (by omega) (by omega)

/-- A subtraction overflows when the exact difference does not fit a word. -/
theorem difference25_overflow (a b : Word) (borrowIn : Bool) :
    decide ((difference25 a b borrowIn).getMsbD 0 ≠ (difference25 a b borrowIn).getMsbD 1)
      = !fitsWord (a.toInt - b.toInt - borrowIn.toInt) := by
  rw [decide_getMsbD_ne_eq_not_fitsWord, toInt_difference25]

/-! ## AL and AC -/

/-- Of all words only -2**23 has a complement that does not fit (R143). -/
theorem complement_overflow (a : Word) : (!fitsWord (-a.toInt)) = decide (a = 0x800000#24) := by
  have hmin : a = 0x800000#24 ↔ a.toInt = -2 ^ 23 := BitVec.toInt_inj.symm
  have hlt := a.toInt_lt
  have hle := a.le_toInt
  rw [fitsWord, Bool.eq_iff_iff]
  simp only [Bool.not_eq_true', Bool.and_eq_false_iff, decide_eq_false_iff_not, decide_eq_true_eq, hmin]
  omega

/-- A subtraction from 0 has a carry for 0 only (R143; D3). -/
theorem subtractCarry_zero (a : Word) : subtractCarry 0#24 a false = decide (a = 0#24) := by
  have hzero : a = 0#24 ↔ a.toNat = 0 := BitVec.toNat_inj.symm
  simp [subtractCarry, hzero]

/-- AC on its effective address: `TestInteger` after the complement has been stored (R143). -/
def State.loadComplement (s : State) (r : WReg) (a : Word) : State :=
  (s.clearExceptions.setReg r (0#24 - a)).testInteger (difference25 0#24 a false) (subtractCarry 0#24 a false)

theorem exec_al {s : State} {f : Fields} {a : Word} (h : s.effectiveAddress f = some a) :
    exec (.al f) s = .next ((s.addressed f).setReg f.w a) :=
  exec_of_effectiveAddress (i := .al f) (fun _ => rfl) h

theorem exec_ac {s : State} {f : Fields} {a : Word} (h : s.effectiveAddress f = some a) :
    exec (.ac f) s = .next ((s.addressed f).loadComplement f.w a) :=
  exec_of_effectiveAddress (i := .ac f) (operation := fun a s => s.loadComplement f.w a) (fun _ => rfl) h

theorem State.reg_loadComplement (s : State) (r : WReg) (a : Word) : (s.loadComplement r a).reg r = 0#24 - a := by
  rw [State.loadComplement, State.reg_congr (State.testInteger_regs _ _ _), State.reg_setReg, if_pos rfl]

theorem State.loadComplement_flags (s : State) (r : WReg) (a : Word) :
    FlagsAre 1 (decide (a = 0x800000#24)) (decide (a = 0#24)) s (s.loadComplement r a) := by
  have hoverflow : decide ((difference25 0#24 a false).getMsbD 0 ≠ (difference25 0#24 a false).getMsbD 1)
      = decide (a = 0x800000#24) := by
    rw [difference25_overflow, ← complement_overflow]
    simp
  rw [← hoverflow, ← subtractCarry_zero]
  exact .testInteger _ _ (by simp) (by simp)

theorem State.loadComplement_frame {s : State} (h : s.modifier = none) (r : WReg) (a : Word) :
    OnlyArithmetic [r] 1 s (s.loadComplement r a) :=
  ((OnlyArithmetic.clearExceptions [r] 1 h).setReg (List.mem_singleton_self r) _).testInteger _ _

/-- Settles O24: AL assigns one register; AC is a subtraction from 0, with the flags of one. -/
theorem loadAddress : Obligations.LoadAddress := by
  intro s u f a ha hu
  have hmodifier : u.modifier = none := by simp [hu]
  refine ⟨⟨u.setReg f.w a, hu ▸ exec_al ha, by simp, .setReg hmodifier f.w a⟩,
    u.loadComplement f.w a, hu ▸ exec_ac ha, ?_, u.loadComplement_flags f.w a,
    State.loadComplement_frame hmodifier f.w a⟩
  rw [State.reg_loadComplement, BitVec.zero_sub, BitVec.toInt_neg]

end Sys2Proof.Machine
end

section
/-! PROOFS. Loads and stores of words, bytes and registers: what an instruction does once its operand exists and may be
altered (O25, O26, O27), and the exchange and the double transfers, with a turn of the channel between their two accesses
(O28, O29). -/

namespace Sys2Proof.Machine

/-! ## The operand reached -/

@[simp] theorem State.setReg_denied (s : State) (r : WReg) (v a : Word) : (s.setReg r v).denied a = s.denied a := by
  simp [State.denied, State.keyProtected, State.readKey]

@[simp] theorem State.writeWord_denied (s : State) (b v a : Word) : (s.writeWord b v).denied a = s.denied a := by
  simp [State.denied, State.keyProtected, State.readKey]

@[simp] theorem State.atOperand_denied (s : State) (f : Fields) (a : Word) : (s.atOperand f).denied a = s.denied a := by
  simp [State.atOperand]

theorem State.testProtection_allowed {s : State} {a : Word} (h : s.denied a = false) (rest : State) :
    s.testProtection a rest = rest := by simp [State.testProtection, h]

/-- The existence test passes for an existing operand (R121). -/
theorem exec_of_operand {i : Instr} {rest : Word → State → State} {s : State} {a : Word}
    (hexec : ∀ s, exec i s = .next (s.withAddress i.fields fun a u => u.testAddress a (rest a u)))
    (h : Operand s i.fields a) : exec i s = .next (rest a (s.addressed i.fields)) := by
  obtain ⟨ha, hexists⟩ := h
  rw [exec_of_effectiveAddress hexec ha, State.testAddress_existing (by simpa using hexists)]

/-- Both tests pass for a writable operand (R121, R123). -/
theorem exec_of_writable {i : Instr} {rest : Word → State → State} {s : State} {a : Word}
    (hexec : ∀ s, exec i s =
      .next (s.withAddress i.fields fun a u => u.testAddress a (u.testProtection a (rest a u))))
    (h : Writable s i.fields a) : exec i s = .next (rest a (s.addressed i.fields)) := by
  obtain ⟨hoperand, hallowed⟩ := h
  rw [exec_of_operand hexec hoperand, State.testProtection_allowed (by simpa using hallowed)]

/-! ## What has just been assigned -/

@[simp] theorem State.reg_setReg_self (s : State) (r : WReg) (v : Word) : (s.setReg r v).reg r = v := by
  rw [State.reg_setReg, if_pos rfl]

@[simp] theorem State.readWord_writeWord_self (s : State) (a v : Word) : (s.writeWord a v).readWord a = v := by
  rw [State.readWord_writeWord, if_pos rfl]

@[simp] theorem State.readByte_writeByte_self (s : State) (a : Word) (v : Byte) : (s.writeByte a v).readByte a = v := by
  rw [State.readByte_writeByte, if_pos rfl]

/-! ## Loads -/

section
variable {s : State} {f : Fields} {a : Word}

theorem exec_rl (h : Operand s f a) :
    exec (.rl f) s = .next ((s.atOperand f).setReg f.w ((s.atOperand f).readWord a)) :=
  exec_of_operand (i := .rl f) (fun _ => rfl) h

theorem exec_hl (h : Operand s f a) :
    exec (.hl f) s =
      .next ((s.atOperand f).setReg f.w (leftByte ((s.atOperand f).reg f.w) ++ (s.atOperand f).readByte a)) :=
  exec_of_operand (i := .hl f) (fun _ => rfl) h

theorem exec_bz (h : Operand s f a) :
    exec (.bz f) s = .next ((s.atOperand f).setReg f.w (((s.atOperand f).readByte a).setWidth 24)) :=
  exec_of_operand (i := .bz f) (fun _ => rfl) h

theorem exec_bl (h : Operand s f a) :
    exec (.bl f) s = .next ((s.atOperand f).setReg f.w (((s.atOperand f).readByte a).signExtend 24)) :=
  exec_of_operand (i := .bl f) (fun _ => rfl) h

/-- KL reads a key and makes no store access, so the channel has no turn before it (R271). -/
theorem exec_kl (h : Operand s f a) :
    exec (.kl f) s = .next ((s.addressed f).setReg f.w ((s.readKey a).setWidth 24)) := by
  rw [← s.addressed_readKey f a]
  exact exec_of_operand (i := .kl f) (fun _ => rfl) h

end

/-- Settles O25: each load is the assignment of one register, which holds the value in its place or extended to a word. -/
theorem loadsOfRegister : Obligations.LoadsOfRegister := by
  rintro s u f a hoperand rfl
  have hframe := OnlyRegisters.setReg (s.atOperand_modifier f) f.w
  refine ⟨⟨_, exec_rl hoperand, State.reg_setReg_self _ _ _, hframe _⟩, ⟨_, exec_hl hoperand, ?_, ?_, hframe _⟩,
    ⟨_, exec_bz hoperand, ?_, hframe _⟩, ⟨_, exec_bl hoperand, ?_, hframe _⟩,
    ⟨_, exec_kl hoperand, ?_, .setReg (s.addressed_modifier f) _ _⟩⟩ <;> rw [State.reg_setReg_self]
  · exact leftByte_append _ _
  · exact rightByte_append _ _
  · exact BitVec.toNat_setWidth_of_le (by decide)
  · exact BitVec.toInt_signExtend_of_le (by decide)
  · exact BitVec.toNat_setWidth_of_le (by decide)

/-! ## Stores -/

section
variable {s : State} {f : Fields} {a : Word}

theorem exec_rs (h : Writable s f a) :
    exec (.rs f) s = .next ((s.atOperand f).writeWord a ((s.atOperand f).reg f.w)) :=
  exec_of_writable (i := .rs f) (fun _ => rfl) h

theorem exec_is (h : Writable s f a) : exec (.is f) s = .next ((s.atOperand f).writeWord a (s.atOperand f).ir) :=
  exec_of_writable (i := .is f) (fun _ => rfl) h

theorem exec_ms (h : Writable s f a) : exec (.ms f) s = .next ((s.atOperand f).writeWord a (s.atOperand f).im) :=
  exec_of_writable (i := .ms f) (fun _ => rfl) h

theorem exec_hs (h : Writable s f a) :
    exec (.hs f) s = .next ((s.atOperand f).writeByte a (rightByte ((s.atOperand f).reg f.w))) :=
  exec_of_writable (i := .hs f) (fun _ => rfl) h

theorem exec_xs (h : Writable s f a) :
    exec (.xs f) s = .next ((s.atOperand f).writeByte a ((s.atOperand f).ex.setWidth 12)) :=
  exec_of_writable (i := .xs f) (fun _ => rfl) h

theorem exec_ps (h : Writable s f a) :
    exec (.ps f) s = .next ((s.atOperand f).writeByte a ((s.atOperand f).pr.setWidth 12)) :=
  exec_of_writable (i := .ps f) (fun _ => rfl) h

end

/-- Settles O26: each is the store of one word, which reads back. -/
theorem storesOfWord : Obligations.StoresOfWord := by
  rintro s u f a hwritable rfl
  have hread := (s.atOperand f).readWord_writeWord_self a
  have hframe := OnlyWord.writeWord (s.atOperand_modifier f) a
  exact ⟨⟨_, exec_rs hwritable, hread _, hframe _⟩, ⟨_, exec_is hwritable, hread _, hframe _⟩,
    ⟨_, exec_ms hwritable, hread _, hframe _⟩⟩

/-- Settles O27: each is the store of one byte, EX and PR zero-extended to it. -/
theorem storesOfByte : Obligations.StoresOfByte := by
  rintro s u f a hwritable rfl
  have hread := (s.atOperand f).readByte_writeByte_self a
  have hframe := OnlyByte.writeByte (s.atOperand_modifier f) a
  refine ⟨⟨_, exec_hs hwritable, hread _, hframe _⟩, ⟨_, exec_xs hwritable, ?_, hframe _⟩,
    ⟨_, exec_ps hwritable, ?_, hframe _⟩⟩ <;> rw [hread]
  · exact BitVec.toNat_setWidth_of_le (by decide)
  · exact BitVec.toNat_setWidth_of_le (by decide)

/-! ## Without a script of the channel -/

@[simp] theorem State.unmodified_channel (s : State) : s.unmodified.channel = s.channel := rfl

@[simp] theorem State.reg_unmodified (s : State) (r : WReg) : s.unmodified.reg r = s.reg r := State.reg_congr rfl r

@[simp] theorem State.readWord_unmodified (s : State) (a : Word) : s.unmodified.readWord a = s.readWord a :=
  State.readWord_congr rfl rfl a

/-- The address modification does nothing but use up the modifier. -/
theorem State.addressed_quiet {s : State} (h : s.channel = []) (f : Fields) : s.addressed f = s.unmodified := by
  simp [State.addressed, State.unmodified, State.channelTurn_nil h]

theorem State.atOperand_quiet {s : State} (h : s.channel = []) (f : Fields) : s.atOperand f = s.unmodified := by
  rw [State.atOperand, State.addressed_quiet h, State.channelTurn_nil (s := s.unmodified) h]

/-- A register loaded from the operand stays as loaded when the channel has its turn after it. -/
theorem State.loaded_quiet {s : State} (h : s.channel = []) (f : Fields) (r : WReg) (a : Word) :
    ((s.atOperand f).setReg r ((s.atOperand f).readWord a)).channelTurn = s.unmodified.setReg r (s.readWord a) := by
  rw [State.atOperand_quiet h, State.readWord_unmodified]
  exact State.channelTurn_nil (by simpa using h)

/-! ## RX -/

/-- Both accesses of RX: the register is loaded, and after a turn of the channel the old one stored (R155). -/
theorem exec_rx {s : State} {f : Fields} {a : Word} (h : Writable s f a) {v : State}
    (hv : v = ((s.atOperand f).setReg f.w ((s.atOperand f).readWord a)).channelTurn) :
    exec (.rx f) s = .next (v.writeWord a ((s.addressed f).reg f.w)) := by
  obtain ⟨hoperand, hallowed⟩ := h
  rw [hv, exec_of_operand (i := .rx f) (rest := fun a u => u.exchange f.w a) (fun _ => rfl) hoperand]
  exact congrArg _ (State.testProtection_allowed (by simpa using hallowed) _)

/-- Settles O28: the word receives the register as it was before the first access. Without the channel the register keeps what
it was loaded with, also where the word is that register: the exchange then stores back what it loaded. -/
theorem exchangeRegister : Obligations.ExchangeRegister := by
  rintro s u v f a hwritable rfl hv
  refine ⟨_, exec_rx hwritable hv, State.readWord_writeWord_self _ _ _, .writeWord (by simp [hv]) _ _,
    fun hquiet => ?_⟩
  rw [State.readWord_writeWord_self, State.addressed_quiet hquiet, State.reg_unmodified, State.reg_writeWord, hv,
    State.loaded_quiet hquiet, State.reg_setReg_self]
  refine ⟨?_, rfl⟩
  by_cases hself : registerAt (wordNumber a) = some f.w
  · rw [if_pos hself, State.readWord, hself]
  · rw [if_neg hself]

/-! ## DL and DS -/

/-- The words of a double word are two (R69; D9). -/
theorem wordNumber_prevAddress_ne (a : Word) : wordNumber (prevAddress a) ≠ wordNumber a := by
  unfold prevAddress
  split
  · rename_i hfirst
    rw [hfirst]
    decide
  · unfold wordNumber at *
    bv_omega

theorem exec_dl {s : State} {f : Fields} {a : Word} (h : Operand s f a) {v : State}
    (hv : v = ((s.atOperand f).setReg f.w ((s.atOperand f).readWord a)).channelTurn) :
    exec (.dl f) s = .next (v.setReg (wpre f.w) (v.readWord (prevAddress a))) := by
  rw [hv]
  exact exec_of_operand (i := .dl f) (rest := fun a u => u.loadDouble f.w a) (fun _ => rfl) h

/-- Both words of DS pass their own protection test (R157). -/
theorem exec_ds {s : State} {f : Fields} {a : Word} (h : Writable s f a) (hprev : s.denied (prevAddress a) = false)
    {v : State} (hv : v = ((s.atOperand f).writeWord a ((s.atOperand f).reg f.w)).channelTurn) :
    exec (.ds f) s = .next (v.writeWord (prevAddress a) (v.reg (wpre f.w))) := by
  rw [hv, exec_of_writable (i := .ds f) (fun _ => rfl) h]
  exact congrArg _ (State.testProtection_allowed (by simpa using hprev) _)

/-- Settles O29: the second access sees what the first has done and the channel after it; without the channel the overlap is
that of the register with the word of the other access. -/
theorem doubleRegisterTransfer : Obligations.DoubleRegisterTransfer := by
  rintro s u f a rfl
  refine ⟨fun hoperand v hv => ?_, fun hwritable hprev v hv => ?_⟩
  · refine ⟨_, exec_dl hoperand hv, State.reg_setReg_self _ _ _, .setReg (by simp [hv]) _ _, fun hquiet => ?_⟩
    rw [State.reg_setReg_self, State.reg_setReg, if_neg (wpre_ne f.w).symm, hv,
      State.loaded_quiet hquiet, State.readWord_setReg, State.reg_setReg_self, State.readWord_unmodified]
    exact ⟨rfl, rfl⟩
  · refine ⟨_, exec_ds hwritable hprev hv, State.readWord_writeWord_self _ _ _, .writeWord (by simp [hv]) _ _,
      fun hquiet => ?_⟩
    have hstored : v = s.unmodified.writeWord a (s.reg f.w) := by
      rw [hv, State.atOperand_quiet hquiet, State.reg_unmodified]
      exact State.channelTurn_nil (by simpa using hquiet)
    rw [State.readWord_writeWord_self, State.readWord_writeWord, if_neg (wordNumber_prevAddress_ne a).symm, hstored,
      State.readWord_writeWord_self, State.reg_writeWord, State.reg_unmodified]
    exact ⟨rfl, rfl⟩

end Sys2Proof.Machine
end

section
/-! PROOFS. The addition and the subtraction of a word: what the adder's 25 bits hold, the result, the flags and the frame
(R124 to R127), and with them the byte instructions BA and BS (O31). -/

namespace Sys2Proof.Machine

/-! ## The 25-bit sum and difference -/

/-- The sum is exact in 25 bits (R125). -/
theorem toInt_sum25 (a b : Word) (carryIn : Bool) :
    (sum25 a b carryIn).toInt = a.toInt + b.toInt + carryIn.toInt := by
  have hcarry : ((BitVec.ofBool carryIn).setWidth 25).toInt = carryIn.toInt := by cases carryIn <;> rfl
  have hcarryIn : 0 ≤ carryIn.toInt ∧ carryIn.toInt ≤ 1 := by cases carryIn <;> decide
  have ha := a.toInt_lt
  have ha' := a.le_toInt
  have hb := b.toInt_lt
  have hb' := b.le_toInt
  rw [sum25, BitVec.toInt_add, BitVec.toInt_add, BitVec.toInt_signExtend_of_le (by omega),
    BitVec.toInt_signExtend_of_le (by omega), hcarry, Int.bmod_add_bmod]
  exact Int.bmod_eq_of_le (by omega) (by omega)

/-- An addition overflows when the exact sum does not fit a word. -/
theorem sum25_overflow (a b : Word) (carryIn : Bool) :
    decide ((sum25 a b carryIn).getMsbD 0 ≠ (sum25 a b carryIn).getMsbD 1)
      = !fitsWord (a.toInt + b.toInt + carryIn.toInt) := by
  rw [decide_getMsbD_ne_eq_not_fitsWord, toInt_sum25]

/-- The sign bit added for the adder is dropped again with the result's leftmost bit. -/
theorem setWidth_signExtend_word (a : Word) : (a.signExtend 25).setWidth 24 = a := by
  ext i hi
  simp [BitVec.getLsbD_signExtend, hi]
  omega

/-- What is kept of the sum is the sum modulo 2**24. -/
theorem setWidth_sum25 (a b : Word) (carryIn : Bool) :
    (sum25 a b carryIn).setWidth 24 = a + b + (BitVec.ofBool carryIn).setWidth 24 := by
  rw [sum25, BitVec.setWidth_add _ _ (by decide), BitVec.setWidth_add _ _ (by decide), setWidth_signExtend_word,
    setWidth_signExtend_word, BitVec.setWidth_setWidth_of_le _ (by decide)]

/-- What is kept of the difference is the difference modulo 2**24. -/
theorem setWidth_difference25 (a b : Word) (borrowIn : Bool) :
    (difference25 a b borrowIn).setWidth 24 = a - b - (BitVec.ofBool borrowIn).setWidth 24 := by
  simp only [difference25, BitVec.sub_eq_add_neg]
  rw [BitVec.setWidth_add _ _ (by decide), BitVec.setWidth_add _ _ (by decide),
    BitVec.setWidth_neg_of_le (by decide), BitVec.setWidth_neg_of_le (by decide), setWidth_signExtend_word,
    setWidth_signExtend_word, BitVec.setWidth_setWidth_of_le _ (by decide)]

/-! ## Addition to a register and subtraction from it -/

section
variable (s : State) (r : WReg) (b : Word) (c : Bool)

theorem State.reg_addInteger : (s.addInteger r b c).reg r = s.reg r + b + (BitVec.ofBool c).setWidth 24 := by
  rw [State.addInteger, State.reg_congr (State.testInteger_regs _ _ _), State.reg_setReg_self, setWidth_sum25]

theorem State.reg_subtractInteger :
    (s.subtractInteger r b c).reg r = s.reg r - b - (BitVec.ofBool c).setWidth 24 := by
  rw [State.subtractInteger, State.reg_congr (State.testInteger_regs _ _ _), State.reg_setReg_self,
    setWidth_difference25]

/-- After cleared flags an addition leaves its own overflow and its own carry (R126). -/
theorem FlagsAre.addInteger :
    FlagsAre 1 (!fitsWord ((s.reg r).toInt + b.toInt + c.toInt))
      (decide (2 ^ 24 ≤ (s.reg r).toNat + b.toNat + c.toNat)) s (s.clearExceptions.addInteger r b c) := by
  rw [← sum25_overflow]
  exact .testInteger _ _ (by simp) (by simp)

/-- After cleared flags a subtraction leaves its own overflow and the absence of a borrow (R127; D3). -/
theorem FlagsAre.subtractInteger :
    FlagsAre 1 (!fitsWord ((s.reg r).toInt - b.toInt - c.toInt))
      (decide (b.toNat + c.toNat ≤ (s.reg r).toNat)) s (s.clearExceptions.subtractInteger r b c) := by
  rw [← difference25_overflow]
  exact .testInteger _ _ (by simp) (by simp)

variable {s}

theorem OnlyArithmetic.addInteger (h : s.modifier = none) :
    OnlyArithmetic [r] 1 s (s.clearExceptions.addInteger r b c) :=
  ((OnlyArithmetic.clearExceptions [r] 1 h).setReg (List.mem_singleton_self r) _).testInteger _ _

theorem OnlyArithmetic.subtractInteger (h : s.modifier = none) :
    OnlyArithmetic [r] 1 s (s.clearExceptions.subtractInteger r b c) :=
  ((OnlyArithmetic.clearExceptions [r] 1 h).setReg (List.mem_singleton_self r) _).testInteger _ _

end

/-! ## BA and BS -/

@[simp] theorem State.clearExceptions_inStore (s : State) (a : Word) : s.clearExceptions.inStore a = s.inStore a := rfl

@[simp] theorem State.reg_clearExceptions (s : State) (r : WReg) : s.clearExceptions.reg r = s.reg r :=
  State.reg_congr rfl r

/-- An arithmetic instruction with an existing operand (R121). EX[22:23] are cleared before the channel's turn (R361 (a));
the channel does not see them, so the operation may be said to start from `atOperand` with the flags cleared. -/
theorem exec_of_arithmetic {i : Instr} {operation : Word → State → State} {s : State} {a : Word}
    (hexec : ∀ s, exec i s = .next (s.withAddress i.fields fun a u =>
      u.clearExceptions.testAddress a (u.clearExceptions.access (operation a))))
    (h : Operand s i.fields a) : exec i s = .next (operation a (s.atOperand i.fields).clearExceptions) := by
  obtain ⟨ha, hexists⟩ := h
  rw [exec_of_effectiveAddress hexec ha, State.testAddress_existing (by simpa using hexists), State.access,
    State.clearExceptions_channelTurn, State.atOperand]

section
variable {s : State} {f : Fields} {a b : Word}

/-- The byte read, sign-extended, is the one word with its number (R165). -/
theorem signExtend_byte_eq {v : Byte} (h : b.toInt = v.toInt) : v.signExtend 24 = b :=
  BitVec.eq_of_toInt_eq (by rw [BitVec.toInt_signExtend_of_le (by decide), h])

theorem exec_ba (h : Operand s f a) (hb : b.toInt = ((s.atOperand f).readByte a).toInt) :
    exec (.ba f) s = .next ((s.atOperand f).clearExceptions.addInteger f.w b false) := by
  rw [← signExtend_byte_eq hb]
  exact exec_of_arithmetic (i := .ba f)
    (operation := fun a u => u.addInteger f.w ((u.readByte a).signExtend 24) false) (fun _ => rfl) h

theorem exec_bs (h : Operand s f a) (hb : b.toInt = ((s.atOperand f).readByte a).toInt) :
    exec (.bs f) s = .next ((s.atOperand f).clearExceptions.subtractInteger f.w b false) := by
  rw [← signExtend_byte_eq hb]
  exact exec_of_arithmetic (i := .bs f)
    (operation := fun a u => u.subtractInteger f.w ((u.readByte a).signExtend 24) false) (fun _ => rfl) h

end

/-- Settles O31: the byte, sign-extended, is added or subtracted without a carry or borrow coming in. -/
theorem addAndSubtractByte : Obligations.AddAndSubtractByte := by
  rintro s u f a b hoperand rfl hb
  have hmodifier := s.atOperand_modifier f
  refine ⟨⟨_, exec_ba hoperand hb, ?_, ?_, .addInteger f.w b false hmodifier⟩,
    ⟨_, exec_bs hoperand hb, ?_, ?_, .subtractInteger f.w b false hmodifier⟩⟩
  · simp [State.reg_addInteger]
  · simpa using FlagsAre.addInteger (s.atOperand f) f.w b false
  · simp [State.reg_subtractInteger]
  · simpa using FlagsAre.subtractInteger (s.atOperand f) f.w b false

end Sys2Proof.Machine
end

section
/-! PROOFS. Addition and subtraction of words (O30), and of double words in two halves with a turn of the channel between
them (O35): the carry that the low half hands on makes one 48-bit operation of the two. -/

namespace Sys2Proof.Machine

/-! ## Cleared flags -/

@[simp] theorem State.readWord_clearExceptions (s : State) (a : Word) : s.clearExceptions.readWord a = s.readWord a :=
  State.readWord_congr rfl rfl a

/-- Clearing EX[22:23] and assigning a register do not see each other. -/
theorem State.setReg_clearExceptions (s : State) (r : WReg) (v : Word) :
    s.clearExceptions.setReg r v = (s.setReg r v).clearExceptions := by cases r <;> rfl

/-- An arithmetic instruction with an existing operand, up to its first store access (R121, R361 (a)). -/
theorem exec_of_clearing {i : Instr} {rest : Word → State → State} {s : State} {a : Word}
    (hexec : ∀ s, exec i s = .next (s.withAddress i.fields fun a u => u.clearExceptions.testAddress a (rest a u)))
    (h : Operand s i.fields a) : exec i s = .next (rest a (s.addressed i.fields)) := by
  obtain ⟨ha, hexists⟩ := h
  rw [exec_of_effectiveAddress hexec ha, State.testAddress_existing (by simpa using hexists)]

/-! ## WA and WS -/

section
variable {s : State} {f : Fields} {a : Word}

theorem exec_wa (h : Operand s f a) :
    exec (.wa f) s =
      .next ((s.atOperand f).clearExceptions.addInteger f.w ((s.atOperand f).readWord a) false) := by
  rw [← State.readWord_clearExceptions]
  exact exec_of_arithmetic (i := .wa f) (operation := fun a u => u.addInteger f.w (u.readWord a) false) (fun _ => rfl) h

theorem exec_ws (h : Operand s f a) :
    exec (.ws f) s =
      .next ((s.atOperand f).clearExceptions.subtractInteger f.w ((s.atOperand f).readWord a) false) := by
  rw [← State.readWord_clearExceptions]
  exact exec_of_arithmetic (i := .ws f) (operation := fun a u => u.subtractInteger f.w (u.readWord a) false)
    (fun _ => rfl) h

end

/-- Settles O30: the word read is added or subtracted without a carry or borrow coming in. -/
theorem addAndSubtractWord : Obligations.AddAndSubtractWord := by
  rintro s u f a hoperand rfl
  have hmodifier := s.atOperand_modifier f
  refine ⟨⟨_, exec_wa hoperand, ?_, ?_, .addInteger f.w _ false hmodifier⟩,
    ⟨_, exec_ws hoperand, ?_, ?_, .subtractInteger f.w _ false hmodifier⟩⟩
  · simp [State.reg_addInteger]
  · simpa using FlagsAre.addInteger (s.atOperand f) f.w ((s.atOperand f).readWord a) false
  · simp [State.reg_subtractInteger]
  · simpa using FlagsAre.subtractInteger (s.atOperand f) f.w ((s.atOperand f).readWord a) false

/-! ## Double words in two halves -/

theorem toNat_append_word (x y : Word) : (x ++ y : DoubleWord).toNat = x.toNat * 2 ^ 24 + y.toNat := by
  rw [BitVec.toNat_append, ← Nat.shiftLeft_add_eq_or_of_lt y.isLt, Nat.shiftLeft_eq]

theorem toInt_append_word (x y : Word) : (x ++ y : DoubleWord).toInt = 2 ^ 24 * x.toInt + y.toNat :=
  BitVec.toInt_append

section
variable (x y x' y' : Word)

/-- The carry of the low halves is what their sum exceeds a word by (R126). -/
theorem toNat_add_eq_carry :
    y.toNat + y'.toNat = 2 ^ 24 * (addCarry y y' false).toNat + (y + y').toNat := by
  have hcarry : (addCarry y y' false).toNat = (y.toNat + y'.toNat) / 2 ^ 24 := by
    simp only [addCarry, Bool.toNat, Bool.cond_decide, cond_false]
    split <;> omega
  rw [hcarry, BitVec.toNat_add, Nat.div_add_mod]

/-- The borrow of the low halves makes up for the larger one subtracted (R127; D3). -/
theorem toNat_sub_eq_borrow :
    y.toNat + 2 ^ 24 * (!subtractCarry y y' false).toNat = y'.toNat + (y - y').toNat := by
  have hborrow : (!subtractCarry y y' false).toNat = if y.toNat < y'.toNat then 1 else 0 := by
    simp [subtractCarry, ← decide_not, Bool.toNat]
  rw [hborrow, BitVec.toNat_sub]
  split <;> omega

theorem toNat_setWidth_ofBool (c : Bool) : ((BitVec.ofBool c).setWidth 24).toNat = c.toNat := by cases c <;> rfl

theorem toInt_bool_eq_toNat (c : Bool) : c.toInt = c.toNat := by cases c <;> rfl

/-- The high halves with the carry of the low halves give the high half of the sum (R182). -/
theorem append_add_append_word :
    (x ++ y : DoubleWord) + (x' ++ y')
      = (x + x' + (BitVec.ofBool (addCarry y y' false)).setWidth 24) ++ (y + y') := by
  have hlow := toNat_add_eq_carry y y'
  apply BitVec.eq_of_toNat_eq
  rw [BitVec.toNat_add]
  simp only [toNat_append_word]
  rw [BitVec.toNat_add (x + x'), BitVec.toNat_add x, toNat_setWidth_ofBool]
  omega

/-- The high halves with the borrow of the low halves give the high half of the difference (R183). -/
theorem append_sub_append_word :
    (x ++ y : DoubleWord) - (x' ++ y')
      = (x - x' - (BitVec.ofBool (!subtractCarry y y' false)).setWidth 24) ++ (y - y') := by
  have hlow := toNat_sub_eq_borrow y y'
  apply BitVec.eq_of_toNat_eq
  rw [BitVec.toNat_sub]
  simp only [toNat_append_word]
  rw [BitVec.toNat_sub (x - x'), BitVec.toNat_sub x, toNat_setWidth_ofBool]
  omega

/-- Whether a double word's number fits is a matter of its high half. -/
theorem fitsDouble_of_halves (n : Int) : fitsDouble (2 ^ 24 * n + y.toNat) = fitsWord n := by
  have hlow := y.isLt
  rw [fitsDouble, fitsWord, Bool.eq_iff_iff]
  simp only [Bool.and_eq_true, decide_eq_true_eq]
  omega

theorem fitsDouble_add :
    fitsDouble ((x ++ y : DoubleWord).toInt + (x' ++ y' : DoubleWord).toInt)
      = fitsWord (x.toInt + x'.toInt + (addCarry y y' false).toInt) := by
  have hlow := toNat_add_eq_carry y y'
  rw [← fitsDouble_of_halves (y + y'), toInt_append_word, toInt_append_word, toInt_bool_eq_toNat]
  congr 1
  omega

theorem fitsDouble_sub :
    fitsDouble ((x ++ y : DoubleWord).toInt - (x' ++ y' : DoubleWord).toInt)
      = fitsWord (x.toInt - x'.toInt - (!subtractCarry y y' false).toInt) := by
  have hlow := toNat_sub_eq_borrow y y'
  rw [← fitsDouble_of_halves (y - y'), toInt_append_word, toInt_append_word, toInt_bool_eq_toNat]
  congr 1
  omega

/-- The carry of the high halves is that of the double words (R182). -/
theorem carry_append_word :
    2 ^ 48 ≤ (x ++ y : DoubleWord).toNat + (x' ++ y' : DoubleWord).toNat
      ↔ 2 ^ 24 ≤ x.toNat + x'.toNat + (addCarry y y' false).toNat := by
  have hlow := toNat_add_eq_carry y y'
  have hlt := (y + y').isLt
  rw [toNat_append_word, toNat_append_word]
  omega

/-- The high halves need no borrow when the double words need none (R183; D3). -/
theorem noBorrow_append_word :
    (x' ++ y' : DoubleWord).toNat ≤ (x ++ y : DoubleWord).toNat
      ↔ x'.toNat + (!subtractCarry y y' false).toNat ≤ x.toNat := by
  have hlow := toNat_sub_eq_borrow y y'
  have hlt := (y - y').isLt
  rw [toNat_append_word, toNat_append_word]
  omega

end

/-! ## The high word operation -/

section
variable (v : State) (r : WReg) (x' y y' : Word)

theorem State.addInteger_append :
    (v.clearExceptions.addInteger r x' (addCarry y y' false)).reg r ++ (y + y') = (v.reg r ++ y) + (x' ++ y') := by
  rw [State.reg_addInteger, State.reg_clearExceptions, append_add_append_word]

theorem State.subtractInteger_append :
    (v.clearExceptions.subtractInteger r x' (!subtractCarry y y' false)).reg r ++ (y - y')
      = (v.reg r ++ y) - (x' ++ y') := by
  rw [State.reg_subtractInteger, State.reg_clearExceptions, append_sub_append_word]

/-- The flags of the high words' addition are those of the double words' (R182). -/
theorem FlagsAre.addInteger_append :
    FlagsAre 1 (!fitsDouble ((v.reg r ++ y : DoubleWord).toInt + (x' ++ y' : DoubleWord).toInt))
      (decide (2 ^ 48 ≤ (v.reg r ++ y : DoubleWord).toNat + (x' ++ y' : DoubleWord).toNat)) v
      (v.clearExceptions.addInteger r x' (addCarry y y' false)) := by
  rw [fitsDouble_add, decide_eq_decide.mpr (carry_append_word _ _ _ _)]
  exact .addInteger v r x' _

/-- The flags of the high words' subtraction are those of the double words' (R183; D3). -/
theorem FlagsAre.subtractInteger_append :
    FlagsAre 1 (!fitsDouble ((v.reg r ++ y : DoubleWord).toInt - (x' ++ y' : DoubleWord).toInt))
      (decide ((x' ++ y' : DoubleWord).toNat ≤ (v.reg r ++ y : DoubleWord).toNat)) v
      (v.clearExceptions.subtractInteger r x' (!subtractCarry y y' false)) := by
  rw [fitsDouble_sub, decide_eq_decide.mpr (noBorrow_append_word _ _ _ _)]
  exact .subtractInteger v r x' _

end

/-! ## AA and SS -/

/-- The low words are added without flags, and after a turn of the channel the high words with their carry (R182). -/
theorem State.addDouble_clearExceptions (s : State) (w : WReg) (a : Word) {u v : State} (hu : u = s.channelTurn)
    (hv : v = (u.setReg w (u.reg w + u.readWord a)).channelTurn) :
    s.clearExceptions.addDouble w a
      = v.clearExceptions.addInteger (wpre w) (v.readWord (prevAddress a))
          (addCarry (u.reg w) (u.readWord a) false) := by
  simp only [State.addDouble, State.access, State.clearExceptions_channelTurn, State.setReg_clearExceptions,
    State.reg_clearExceptions, State.readWord_clearExceptions, ← hu, ← hv]

theorem State.subtractDouble_clearExceptions (s : State) (w : WReg) (a : Word) {u v : State} (hu : u = s.channelTurn)
    (hv : v = (u.setReg w (u.reg w - u.readWord a)).channelTurn) :
    s.clearExceptions.subtractDouble w a
      = v.clearExceptions.subtractInteger (wpre w) (v.readWord (prevAddress a))
          (!subtractCarry (u.reg w) (u.readWord a) false) := by
  simp only [State.subtractDouble, State.access, State.clearExceptions_channelTurn, State.setReg_clearExceptions,
    State.reg_clearExceptions, State.readWord_clearExceptions, ← hu, ← hv]

section
variable {s u v : State} {f : Fields} {a : Word}

theorem exec_aa (h : Operand s f a) (hu : u = s.atOperand f)
    (hv : v = (u.setReg f.w (u.reg f.w + u.readWord a)).channelTurn) :
    exec (.aa f) s =
      .next (v.clearExceptions.addInteger (wpre f.w) (v.readWord (prevAddress a))
        (addCarry (u.reg f.w) (u.readWord a) false)) := by
  rw [← State.addDouble_clearExceptions (s.addressed f) f.w a hu hv]
  exact exec_of_clearing (i := .aa f) (rest := fun a u => u.clearExceptions.addDouble f.w a) (fun _ => rfl) h

theorem exec_ss (h : Operand s f a) (hu : u = s.atOperand f)
    (hv : v = (u.setReg f.w (u.reg f.w - u.readWord a)).channelTurn) :
    exec (.ss f) s =
      .next (v.clearExceptions.subtractInteger (wpre f.w) (v.readWord (prevAddress a))
        (!subtractCarry (u.reg f.w) (u.readWord a) false)) := by
  rw [← State.subtractDouble_clearExceptions (s.addressed f) f.w a hu hv]
  exact exec_of_clearing (i := .ss f) (rest := fun a u => u.clearExceptions.subtractDouble f.w a) (fun _ => rfl) h

/-- Without the channel both halves of the operand are the double register as it was, and the low half of the result is
still in W at the end. -/
theorem pair_of_quiet {low t : State} {x : Word} (hquiet : s.channel = []) (hlow : low = (s.atOperand f).setReg f.w x)
    (hv : v = low.channelTurn) (ht : OnlyArithmetic [wpre f.w] 1 v t) :
    v.reg (wpre f.w) ++ (s.atOperand f).reg f.w = s.pair f.w ∧
      t.pair f.w = t.reg (wpre f.w) ++ low.reg f.w := by
  obtain ⟨hregs, -⟩ := ht
  have hturn : v = low := by
    rw [hv]
    exact State.channelTurn_nil (by simp [hlow, State.atOperand_quiet hquiet, hquiet])
  have hother : f.w ∉ [wpre f.w] := by simpa using (wpre_ne f.w).symm
  refine ⟨?_, ?_⟩
  · rw [hturn, hlow, State.reg_setReg, if_neg (wpre_ne f.w), State.atOperand_quiet hquiet, State.reg_unmodified,
      State.reg_unmodified, State.pair]
  · rw [State.pair, hregs f.w hother, hturn]

end

/-- Settles O35: the low words are one word operation, the high words another that takes over its carry or borrow. -/
theorem addAndSubtractDouble : Obligations.AddAndSubtractDouble := by
  rintro s u f a hoperand rfl
  constructor
  · rintro low v _ _ hlow hv rfl rfl
    have hmodifier : v.modifier = none := by simp [hv, hlow]
    have hreg : low.reg f.w = (s.atOperand f).reg f.w + (s.atOperand f).readWord a := by
      rw [hlow, State.reg_setReg_self]
    have hframe := OnlyArithmetic.addInteger (wpre f.w) (v.readWord (prevAddress a))
      (addCarry ((s.atOperand f).reg f.w) ((s.atOperand f).readWord a) false) hmodifier
    rw [hreg]
    refine ⟨_, exec_aa hoperand rfl (hlow ▸ hv), v.addInteger_append _ _ _ _, .addInteger_append v _ _ _ _, hframe,
      fun hquiet => ?_⟩
    obtain ⟨hold, hnew⟩ := pair_of_quiet hquiet hlow hv hframe
    exact ⟨hold, by rw [hnew, hreg, State.addInteger_append]⟩
  · rintro low v _ _ hlow hv rfl rfl
    have hmodifier : v.modifier = none := by simp [hv, hlow]
    have hreg : low.reg f.w = (s.atOperand f).reg f.w - (s.atOperand f).readWord a := by
      rw [hlow, State.reg_setReg_self]
    have hframe := OnlyArithmetic.subtractInteger (wpre f.w) (v.readWord (prevAddress a))
      (!subtractCarry ((s.atOperand f).reg f.w) ((s.atOperand f).readWord a) false) hmodifier
    rw [hreg]
    refine ⟨_, exec_ss hoperand rfl (hlow ▸ hv), v.subtractInteger_append _ _ _ _,
      .subtractInteger_append v _ _ _ _, hframe, fun hquiet => ?_⟩
    obtain ⟨hold, hnew⟩ := pair_of_quiet hquiet hlow hv hframe
    exact ⟨hold, by rw [hnew, hreg, State.subtractInteger_append]⟩

end Sys2Proof.Machine
end

section
/-! PROOFS. Multiplication of words (O32), and the manual's add-and-shift algorithm as a partial product that takes in one
digit of the multiplier in each iteration (O33). -/

namespace Sys2Proof.Machine

/-! ## WM -/

/-- The product of two words always fits a double word (R178, R185). -/
theorem toInt_product (a b : Word) : (product a b).toInt = a.toInt * b.toInt := by
  have hle : a.toInt * b.toInt ≤ 2 ^ 46 := BitVec.toInt_mul_toInt_le
  have hge : -2 ^ 46 ≤ a.toInt * b.toInt := BitVec.le_toInt_mul_toInt
  rw [product, BitVec.toInt_ofInt]
  exact Int.bmod_eq_of_le (by omega) (by omega)

/-- The multiplier is the register before the channel's turn, the multiplicand the word after it (R178). -/
theorem exec_wm {s : State} {f : Fields} {a : Word} (h : Operand s f a) :
    exec (.wm f) s =
      .next ((s.atOperand f).setPair f.w (product ((s.addressed f).reg f.w) ((s.atOperand f).readWord a))) :=
  exec_of_operand (i := .wm f)
    (rest := fun a u => u.access fun t => t.setPair f.w (product (u.reg f.w) (t.readWord a))) (fun _ => rfl) h

/-- Settles O32: one assignment of the register pair, of a product that always fits it. -/
theorem multiplyWord : Obligations.MultiplyWord := by
  rintro s u f a hoperand rfl
  refine ⟨_, exec_wm hoperand, ?_, .setPair (s.atOperand_modifier f) _ _⟩
  rw [State.pair_setPair, toInt_product]

/-! ## One iteration of the manual's multiplication -/

/-- The multiplicand in AR's place has its value times 2**24 (R178). -/
theorem toInt_multiplicand (sb : Word) : (sb.signExtend 25 ++ 0#24 : BitVec 49).toInt = sb.toInt * 2 ^ 24 := by
  rw [BitVec.toInt_append_zero, BitVec.toInt_signExtend_of_le (by decide), mul_comm]

/-- The last bit of ARBR is its number's parity. -/
theorem getMsbD_last_eq_parity (arbr : BitVec 49) : arbr.getMsbD 48 = decide (arbr.toInt % 2 = 1) := by
  have hbit : arbr.getMsbD 48 = decide (arbr.toNat % 2 = 1) := by
    simp [BitVec.getMsbD, BitVec.getLsbD, Nat.testBit_eq_decide_div_mod_eq]
  rw [hbit, BitVec.toInt_eq_toNat_cond, decide_eq_decide]
  split <;> omega

section
variable {w sb : Word} {n : Nat} {arbr : BitVec 49}

/-- The multiplicand added or not according to the last digit, then the shift, where AR does not overflow. -/
theorem toInt_manualMultiplyStep (hge : -2 ^ 47 ≤ arbr.toInt) (hlt : arbr.toInt < 2 ^ 47) :
    (manualMultiplyStep sb arbr).toInt
      = (arbr.toInt + if arbr.toInt % 2 = 1 then sb.toInt * 2 ^ 24 else 0) / 2 := by
  have hsb := sb.toInt_lt
  have hsb' := sb.le_toInt
  rw [manualMultiplyStep, BitVec.toInt_sshiftRight, Int.shiftRight_eq_div_pow, getMsbD_last_eq_parity]
  by_cases hdigit : arbr.toInt % 2 = 1
  · rw [if_pos (by simpa using hdigit), if_pos hdigit, BitVec.toInt_add, toInt_multiplicand,
      Int.bmod_eq_of_le (by omega) (by omega)]
    rfl
  · rw [if_neg (by simpa using hdigit), if_neg hdigit, add_zero]
    rfl

/-- ARBR after `n` iterations: the product with the multiplier's last `n` digits, still to be shifted right for the others,
and these other digits in its right end. -/
def PartialProduct (w sb : Word) (n : Nat) (arbr : BitVec 49) : Prop :=
  arbr.toInt = sb.toInt * (w.toNat % 2 ^ n : Nat) * 2 ^ (24 - n) + (w.toNat / 2 ^ n : Nat)

theorem partialProduct_zero (w sb : Word) : PartialProduct w sb 0 (0#25 ++ w) := by
  have hvalue : (0#25 ++ w : BitVec 49).toInt = 2 ^ 24 * (0#25).toInt + w.toNat := BitVec.toInt_append
  simp [PartialProduct, Nat.mod_one, hvalue]

/-- No partial product leaves room for an overflow of AR by one addition. -/
theorem PartialProduct.bounds (h : PartialProduct w sb n arbr) (hn : n ≤ 24) :
    -2 ^ 47 ≤ arbr.toInt ∧ arbr.toInt < 2 ^ 47 := by
  have hsb := sb.toInt_lt
  have hsb' := sb.le_toInt
  have hrest : w.toNat / 2 ^ n < 2 ^ 24 := lt_of_le_of_lt (Nat.div_le_self _ _) w.isLt
  have hdigits : (w.toNat % 2 ^ n) * 2 ^ (24 - n) ≤ 2 ^ 24 := by
    calc (w.toNat % 2 ^ n) * 2 ^ (24 - n) ≤ 2 ^ n * 2 ^ (24 - n) :=
          Nat.mul_le_mul_right _ (Nat.mod_lt _ (by positivity)).le
      _ = 2 ^ 24 := by rw [← pow_add, Nat.add_sub_cancel' hn]
  have hproduct : arbr.toInt = sb.toInt * ((w.toNat % 2 ^ n * 2 ^ (24 - n) : Nat) : Int) + (w.toNat / 2 ^ n : Nat) := by
    rw [h]
    push_cast
    ring
  generalize w.toNat % 2 ^ n * 2 ^ (24 - n) = digits at *
  generalize w.toNat / 2 ^ n = rest at *
  have hlow : -2 ^ 23 * (digits : Int) ≤ sb.toInt * digits := mul_le_mul_of_nonneg_right hsb' (by omega)
  have hhigh : sb.toInt * digits ≤ (2 ^ 23 - 1) * (digits : Int) := mul_le_mul_of_nonneg_right (by omega) (by omega)
  omega

/-- An iteration takes the next digit of the multiplier into the product. -/
theorem PartialProduct.step (h : PartialProduct w sb n arbr) (hn : n < 24) :
    PartialProduct w sb (n + 1) (manualMultiplyStep sb arbr) := by
  obtain ⟨hge, hlt⟩ := h.bounds hn.le
  obtain ⟨k, hk⟩ : ∃ k, n + k = 23 := ⟨23 - n, by omega⟩
  have hplace : (2 : Int) ^ n * 2 ^ k = 2 ^ 23 := by rw [← pow_add, hk]
  have hlast : w.toNat / 2 ^ (n + 1) = w.toNat / 2 ^ n / 2 := by rw [pow_succ, Nat.div_div_eq_div_mul]
  rw [PartialProduct, show 24 - n = k + 1 by omega] at h
  rw [PartialProduct, show 24 - (n + 1) = k by omega, toInt_manualMultiplyStep hge hlt, hlast, Nat.mod_pow_succ]
  have hnext : sb.toInt * ((w.toNat % 2 ^ n + 2 ^ n * (w.toNat / 2 ^ n % 2) : Nat) : Int) * 2 ^ k
      = sb.toInt * (w.toNat % 2 ^ n : Nat) * 2 ^ k + sb.toInt * (w.toNat / 2 ^ n % 2 : Nat) * 2 ^ 23 := by
    rw [← hplace]
    push_cast
    ring
  have hnow : arbr.toInt = 2 * (sb.toInt * (w.toNat % 2 ^ n : Nat) * 2 ^ k) + (w.toNat / 2 ^ n : Nat) := by
    rw [h, pow_succ]
    ring
  rw [hnext, hnow]
  generalize sb.toInt * (w.toNat % 2 ^ n : Nat) * 2 ^ k = x
  generalize w.toNat / 2 ^ n = rest
  obtain hdigit | hdigit := Nat.mod_two_eq_zero_or_one rest <;> rw [hdigit] <;> split <;> omega

theorem PartialProduct.steps (m : Nat) (h : PartialProduct w sb n arbr) (hn : n + m ≤ 24) :
    PartialProduct w sb (n + m) (manualMultiplySteps sb m arbr) := by
  induction m generalizing n arbr with
  | zero => exact h
  | succ m ih =>
    rw [manualMultiplySteps, Nat.add_comm m 1, ← Nat.add_assoc]
    exact ih (h.step (by omega)) (by omega)

/-! ## The sign digit -/

/-- The last act: the sign digit of the multiplier has negative weight. -/
theorem PartialProduct.toInt_final (h : PartialProduct w sb 23 arbr) :
    ((if arbr.getMsbD 48 then arbr - (sb.signExtend 25 ++ 0#24) else arbr).sshiftRight 1).toInt
      = w.toInt * sb.toInt := by
  obtain ⟨hge, hlt⟩ := h.bounds (by decide)
  have hsb := sb.toInt_lt
  have hsb' := sb.le_toInt
  have hw := w.isLt
  have hvalue : w.toInt = (w.toNat % 2 ^ 23 : Nat) - 2 ^ 23 * (w.toNat / 2 ^ 23 : Nat) := by
    rw [BitVec.toInt_eq_toNat_cond]
    split <;> omega
  have hnow : arbr.toInt = 2 * (sb.toInt * (w.toNat % 2 ^ 23 : Nat)) + (w.toNat / 2 ^ 23 : Nat) := by
    rw [h]
    ring
  have hproduct : w.toInt * sb.toInt
      = sb.toInt * (w.toNat % 2 ^ 23 : Nat) - 2 ^ 23 * (sb.toInt * (w.toNat / 2 ^ 23 : Nat)) := by
    rw [hvalue]
    ring
  rw [BitVec.toInt_sshiftRight, Int.shiftRight_eq_div_pow, getMsbD_last_eq_parity, hproduct]
  obtain hsign | hsign : w.toNat / 2 ^ 23 = 0 ∨ w.toNat / 2 ^ 23 = 1 := by omega
  all_goals rw [hsign] at hnow ⊢
  · rw [if_neg (by simp; omega)]
    omega
  · rw [if_pos (by simp; omega), BitVec.toInt_sub, toInt_multiplicand, Int.bmod_eq_of_le (by omega) (by omega)]
    omega

end

/-- What is left of ARBR at the end is its number modulo 2**48. -/
theorem setWidth_eq_ofInt_toInt (arbr : BitVec 49) : arbr.setWidth 48 = BitVec.ofInt 48 arbr.toInt := by
  apply BitVec.eq_of_toNat_eq
  rw [BitVec.toNat_setWidth, BitVec.toNat_ofInt, BitVec.toInt_eq_toNat_cond]
  split <;> omega

/-- Settles O33: 23 iterations give the product with the multiplier's digits but the sign digit, and the last act takes it
in. -/
theorem manualMultiplicationIsProduct : Obligations.ManualMultiplicationIsProduct := by
  intro w sb
  have hpartial : PartialProduct w sb 23 (manualMultiplySteps sb 23 (0#25 ++ w)) :=
    (partialProduct_zero w sb).steps 23 (by decide)
  rw [manualMultiply, setWidth_eq_ofInt_toInt, hpartial.toInt_final, product]

end Sys2Proof.Machine
end

section
/-! PROOFS. Division of a double register by a word (O34). -/

namespace Sys2Proof.Machine

/-! ## Flags that no test leaves -/

/-- The flags cleared and nothing reported. -/
theorem FlagsAre.clearExceptions {s t : State} (hex : t.ex = s.clearExceptions.ex) (hir : t.ir = s.ir) :
    FlagsAre 1 false false s t := by
  refine ⟨?_, ?_, ?_⟩ <;> simp [hex, hir, BitVec.getMsbD_and]

/-- An overflow reported after cleared flags (R184). -/
theorem FlagsAre.integerOverflow (s : State) : FlagsAre 1 true false s s.clearExceptions.integerOverflow := by
  have hex := s.clearExceptions.getMsbD_ex_overflowIf true
  have hir := s.clearExceptions.getMsbD_ir_overflowIf true
  refine ⟨(hex 1).trans ?_, (hex 2).trans ?_, (hir 1).trans ?_⟩ <;> simp [BitVec.getMsbD_and]

theorem OnlyArithmetic.integerOverflow {rs : List WReg} {s t : State} (h : OnlyArithmetic rs 1 s t) :
    OnlyArithmetic rs 1 s t.integerOverflow := by
  obtain ⟨hregs, hstore, hic, hex, hir, hrest⟩ := h
  obtain ⟨hkeys, hcontrol, hsurroundings, hchannel, hphase, hmodifier⟩ := hrest
  refine ⟨fun q hq => (State.reg_congr rfl q).trans (hregs q hq), fun a ha => ?_, hic, ?_, fun b hb => ?_,
    hkeys, hcontrol, hsurroundings, hchannel, hphase, hmodifier⟩
  · rw [SameStore.of_store t.integerOverflow_store a ha, hstore a ha]
  · exact (t.getMsbD_ex_overflowIf true 0).trans (by simpa using hex)
  · exact (t.getMsbD_ir_overflowIf true b).trans (by simpa [hb] using hir b hb)

/-! ## The quotient -/

/-- The truncated quotient is the quotient of the magnitudes with the sign of both (R179). -/
theorem sign_mul_sign_mul_natAbs_div (a b : Int) :
    a.sign * b.sign * ((a.natAbs / b.natAbs : Nat) : Int) = a.tdiv b := by
  rw [← Int.sign_mul_natAbs (a.tdiv b), Int.natAbs_tdiv, Int.sign_tdiv]
  split
  next hlt => simp [Nat.div_eq_of_lt hlt]
  next => rfl

/-- The remainder is smaller than the divisor, and is 0 or has the dividend's sign (R179). -/
theorem natAbs_tmod_lt (a : Int) {b : Int} (hb : b ≠ 0) : (a.tmod b).natAbs < b.natAbs := by
  rw [Int.natAbs_tmod]
  exact Nat.mod_lt _ (Int.natAbs_pos.mpr hb)

theorem tmod_eq_zero_or_sign (a b : Int) : a.tmod b = 0 ∨ (a.tmod b).sign = a.sign := by
  rw [Int.sign_tmod]
  by_cases hdvd : b ∣ a
  · exact .inl (Int.tmod_eq_zero_of_dvd hdvd)
  · exact .inr (if_neg hdvd)

theorem toInt_ofInt_of_fitsWord {n : Int} (h : fitsWord n = true) : (BitVec.ofInt 24 n).toInt = n := by
  simp only [fitsWord, Bool.and_eq_true, decide_eq_true_eq] at h
  rw [BitVec.toInt_ofInt]
  exact Int.bmod_eq_of_le (by omega) (by omega)

/-- A remainder is smaller than a word, and so fits one. -/
theorem fitsWord_tmod (a : Int) {b : Word} (hb : b.toInt ≠ 0) : fitsWord (a.tmod b.toInt) = true := by
  have hsmall := natAbs_tmod_lt a hb
  have hlt := b.toInt_lt
  have hle := b.le_toInt
  simp only [fitsWord, Bool.and_eq_true, decide_eq_true_eq]
  omega

/-- WD reports overflow for a divisor of zero, a quotient that does not fit, and by the installation's parameter for some
quotients of -2**23 (R179, R181; D7). -/
theorem divideOverflows_iff (c : Config) (dd dv : Int) :
    divideOverflows c dd dv = true ↔
      dv = 0 ∨ fitsWord (dd.tdiv dv) = false ∨
        (dd.tdiv dv = -2 ^ 23 ∧ c.wdQminOverflow = true ∧ ¬(0 < dv ∧ dd = -2 ^ 23 * dv)) := by
  have hrange : dd.tdiv dv < -2 ^ 23 ∨ 2 ^ 23 - 1 < dd.tdiv dv ↔ fitsWord (dd.tdiv dv) = false := by
    rw [fitsWord, Bool.and_eq_false_iff, decide_eq_false_iff_not, decide_eq_false_iff_not]
    omega
  simp only [divideOverflows, qminOverflow, Bool.or_eq_true, Bool.and_eq_true, beq_iff_eq, Bool.not_eq_true',
    Bool.and_eq_false_iff, decide_eq_true_eq, decide_eq_false_iff_not, ← not_and_or, or_assoc]
  rw [← hrange, or_assoc]

/-! ## WD -/

section
variable {s : State} (w : WReg) (dividend : DoubleWord) (divisor : Word)

theorem State.divideInteger_overflow (h : divideOverflows s.cfg dividend.toInt divisor.toInt = true) :
    s.divideInteger w dividend divisor = s.integerOverflow := if_pos h

theorem State.divideInteger_fits (h : divideOverflows s.cfg dividend.toInt divisor.toInt = false) :
    s.divideInteger w dividend divisor
      = (s.setReg (wpre w) (BitVec.ofInt 24 (dividend.toInt.tmod divisor.toInt))).setReg w
          (BitVec.ofInt 24 (dividend.toInt.tdiv divisor.toInt)) := if_neg (by simp [h])

end

/-- The dividend is the double register before the channel's turn, the divisor the word after it (R179). -/
theorem exec_wd {s : State} {f : Fields} {a : Word} (h : Operand s f a) :
    exec (.wd f) s =
      .next ((s.atOperand f).clearExceptions.divideInteger f.w ((s.addressed f).pair f.w)
        ((s.atOperand f).readWord a)) := by
  rw [← State.readWord_clearExceptions, State.atOperand, ← State.clearExceptions_channelTurn]
  exact exec_of_clearing (i := .wd f) (rest := fun a u => u.clearExceptions.access fun t =>
    t.divideInteger f.w (u.pair f.w) (t.readWord a)) (fun _ => rfl) h

/-- Settles O34: on overflow only the flags, otherwise truncated quotient and remainder, each of which fits its register. -/
theorem divideWord : Obligations.DivideWord := by
  rintro s u f a _ _ q hoperand rfl rfl rfl hq
  rw [sign_mul_sign_mul_natAbs_div] at hq
  have hmodifier := s.atOperand_modifier f
  have hframe := OnlyArithmetic.clearExceptions [f.w, wpre f.w] 1 hmodifier
  have hcfg : (s.atOperand f).clearExceptions.cfg = s.cfg := by simp [State.atOperand]
  have hiff := divideOverflows_iff s.cfg ((s.addressed f).pair f.w).toInt ((s.atOperand f).readWord a).toInt
  rw [← hq] at hiff
  split
  next hover =>
    refine ⟨_, exec_wd hoperand, ?_⟩
    rw [State.divideInteger_overflow _ _ _ (by rw [hcfg, hiff]; exact hover)]
    exact ⟨.integerOverflow _, (OnlyArithmetic.clearExceptions [] 1 hmodifier).integerOverflow⟩
  next hfits =>
    have hdivisor : ((s.atOperand f).readWord a).toInt ≠ 0 := fun h => hfits (.inl h)
    have hquotient : fitsWord q = true := by simpa using fun h => hfits (.inr (.inl h))
    refine ⟨_, exec_wd hoperand, ?_⟩
    rw [State.divideInteger_fits _ _ _ (by rw [hcfg, ← Bool.not_eq_true, hiff]; exact hfits), State.reg_setReg_self,
      State.reg_setReg, if_neg (wpre_ne f.w), State.reg_setReg_self, ← hq, toInt_ofInt_of_fitsWord hquotient,
      toInt_ofInt_of_fitsWord (fitsWord_tmod _ hdivisor)]
    refine ⟨rfl, ?_, natAbs_tmod_lt _ hdivisor, tmod_eq_zero_or_sign _ _, .clearExceptions (by simp) (by simp),
      (hframe.setReg (by simp) _).setReg (by simp) _⟩
    rw [hq, Int.mul_tdiv_add_tmod]

end Sys2Proof.Machine
end

section
/-! PROOFS. What the floating-point instructions share beside their arithmetic: the operands fetched (R194), a fraction and
an exponent stored in the register pair (R193), the flags that the exponent test leaves (R196), and the frame. -/

namespace Sys2Proof.Machine

/-! ## The exponent test -/

/-- The two leftmost bits of SC differ when its number does not fit the exponent's 12 bits (R196). -/
theorem decide_getMsbD_ne_eq_not_fitsExponent (sc : BitVec 13) :
    decide (sc.getMsbD 0 ≠ sc.getMsbD 1) = !fitsExponent sc.toInt := by
  have hsign : sc.getMsbD 0 = decide (2 ^ 12 ≤ sc.toNat) := BitVec.msb_eq_decide sc
  have hnext : sc.getMsbD 1 = decide (sc.toNat / 2 ^ 11 % 2 = 1) := by
    simp [BitVec.getMsbD, BitVec.getLsbD, Nat.testBit_eq_decide_div_mod_eq]
  have hlt := sc.isLt
  rw [hsign, hnext, fitsExponent, BitVec.toInt_eq_toNat_cond, Bool.eq_iff_iff]
  simp only [decide_eq_true_eq, ne_eq, Bool.not_eq_true', Bool.and_eq_false_iff, decide_eq_false_iff_not,
    decide_eq_decide]
  split <;> omega

/-- The exponent test is the report of a floating-point overflow or nothing. -/
theorem State.testExponent_eq (s : State) (sc : BitVec 13) :
    s.testExponent sc = if fitsExponent sc.toInt then s else s.floatingOverflow := by
  have htest := decide_getMsbD_ne_eq_not_fitsExponent sc
  unfold State.testExponent
  cases hfits : fitsExponent sc.toInt <;> simp_all

theorem State.getMsbD_ex_floatingOverflow (s : State) (b : Nat) :
    s.floatingOverflow.ex.getMsbD b = (s.ex.getMsbD b || decide (b = 1)) := s.getMsbD_ex_overflowIf true b

theorem State.getMsbD_ir_floatingOverflow (s : State) (b : Nat) :
    s.floatingOverflow.ir.getMsbD b = (s.ir.getMsbD b || decide (b = 2)) := by
  simp [getMsbD_bitMask]

/-! ## Flags -/

section
variable {bit : Nat} {overflow carry : Bool} {s t u : State}

/-- The flags are EX and IR and nothing else. -/
theorem FlagsAre.congr (h : FlagsAre bit overflow carry s t) (hex : u.ex = t.ex) (hir : u.ir = t.ir) :
    FlagsAre bit overflow carry s u := by
  rwa [FlagsAre, hex, hir]

/-- Cleared flags report nothing. -/
theorem FlagsAre.cleared (bit : Nat) (s : State) : FlagsAre bit false false s s.clearExceptions := by
  refine ⟨?_, ?_, ?_⟩ <;> simp [BitVec.getMsbD_and]

/-- An overflow reported after cleared flags (R196). -/
theorem FlagsAre.floatingOverflow (s : State) : FlagsAre 2 true false s s.clearExceptions.floatingOverflow := by
  refine ⟨(State.getMsbD_ex_floatingOverflow _ 1).trans ?_, (State.getMsbD_ex_floatingOverflow _ 2).trans ?_,
    (State.getMsbD_ir_floatingOverflow _ 2).trans ?_⟩ <;> simp [BitVec.getMsbD_and]

theorem FlagsAre.testExponent (s : State) (sc : BitVec 13) :
    FlagsAre 2 (!fitsExponent sc.toInt) false s (s.clearExceptions.testExponent sc) := by
  rw [State.testExponent_eq]
  cases fitsExponent sc.toInt
  · exact .floatingOverflow s
  · exact .cleared 2 s

end

/-! ## The register pair -/

section
variable (s : State) (w : WReg)

/-- The fraction is the left 36 bits of the register pair (R190). -/
theorem State.registerFraction_setPair (v : DoubleWord) :
    (s.setPair w v).registerFraction w = v.extractLsb' 12 36 := by
  rw [State.registerFraction, State.reg_setPair, State.reg_setPair, if_neg (wpre_ne w), if_pos rfl, if_pos rfl, leftByte]
  ext i hi
  simp only [← BitVec.getLsbD_eq_getElem, BitVec.getLsbD_append, BitVec.getLsbD_extractLsb', BitVec.getLsbD_setWidth]
  by_cases hlow : i < 12
  · simp [hlow, hi, show 12 + i < 24 by omega]
  · simp [hlow, hi, show i - 12 < 24 by omega, show 24 + (i - 12) = 12 + i by omega]

/-- The exponent is the right 12 bits of the register pair (R190). -/
theorem State.registerExponent_setPair (v : DoubleWord) :
    (s.setPair w v).registerExponent w = v.setWidth 12 := by
  rw [State.registerExponent, State.reg_setPair, if_pos rfl, rightByte]
  exact BitVec.setWidth_setWidth_of_le v (by decide)

variable (fraction : BitVec 36) (exponent : Byte)

@[simp] theorem State.registerFraction_setFloat :
    (s.setFloat w fraction exponent).registerFraction w = fraction := by
  rw [State.setFloat, State.registerFraction_setPair]
  ext i hi
  simp only [BitVec.getElem_extractLsb', BitVec.getLsbD_append]
  rw [if_neg (by omega), show 12 + i - 12 = i by omega, BitVec.getLsbD_eq_getElem]

@[simp] theorem State.registerExponent_setFloat :
    (s.setFloat w fraction exponent).registerExponent w = exponent := by
  rw [State.setFloat, State.registerExponent_setPair]
  exact BitVec.setWidth_append_eq_right

@[simp] theorem State.setFloat_ex : (s.setFloat w fraction exponent).ex = s.ex := by simp [State.setFloat]

@[simp] theorem State.setFloat_ir : (s.setFloat w fraction exponent).ir = s.ir := by simp [State.setFloat]

/-- The precision mode stays as it is (R197). -/
theorem State.testExponent_precision (sc : BitVec 13) : (s.testExponent sc).ex.getMsbD 0 = s.ex.getMsbD 0 := by
  rw [State.testExponent_eq]
  split
  · rfl
  · simp [State.getMsbD_ex_floatingOverflow, -State.floatingOverflow_ex]

end

/-! ## Frames -/

section
variable {rs : List WReg} {s t : State}

theorem OnlyArithmetic.floatingOverflow (h : OnlyArithmetic rs 2 s t) : OnlyArithmetic rs 2 s t.floatingOverflow := by
  obtain ⟨hregs, hstore, hic, hex, hir, hrest⟩ := h
  obtain ⟨hkeys, hcontrol, hsurroundings, hchannel, hphase, hmodifier⟩ := hrest
  refine ⟨fun q hq => (State.reg_congr rfl q).trans (hregs q hq), fun a ha => ?_, hic, ?_, fun b hb => ?_,
    hkeys, hcontrol, hsurroundings, hchannel, hphase, hmodifier⟩
  · rw [SameStore.of_store t.floatingOverflow_store a ha, hstore a ha]
  · rw [State.getMsbD_ex_floatingOverflow, hex, decide_eq_false (by decide), Bool.or_false]
  · rw [State.getMsbD_ir_floatingOverflow, hir b hb, decide_eq_false hb, Bool.or_false]

theorem OnlyArithmetic.testExponent (h : OnlyArithmetic rs 2 s t) (sc : BitVec 13) :
    OnlyArithmetic rs 2 s (t.testExponent sc) := by
  rw [State.testExponent_eq]
  split
  · exact h
  · exact h.floatingOverflow

theorem OnlyArithmetic.setFloat {bit : Nat} {w : WReg} (h : OnlyArithmetic [w, wpre w] bit s t) (fraction : BitVec 36)
    (exponent : Byte) : OnlyArithmetic [w, wpre w] bit s (t.setFloat w fraction exponent) :=
  (h.setReg (by simp) _).setReg (by simp) _

variable {v : State} (w : WReg) (af : BitVec 39)

theorem OnlyArithmetic.storeFloat (h : v.modifier = none) (sc : BitVec 13) :
    OnlyArithmetic [w, wpre w] 2 v (v.clearExceptions.storeFloat w af sc) :=
  (OnlyArithmetic.clearExceptions _ 2 h).setFloat _ _

theorem OnlyArithmetic.finishFloat (h : v.modifier = none) (sc : BitVec 13) :
    OnlyArithmetic [w, wpre w] 2 v (v.clearExceptions.finishFloat w af sc) :=
  ((OnlyArithmetic.clearExceptions _ 2 h).testExponent _).setFloat _ _

end

/-! ## Results -/

section
variable (v : State) (w : WReg) (af : BitVec 39)

/-- `Test Precision Mode and Store` after `Normalize and Round Floating` (R193, R195). -/
theorem HoldsRounded.finishFloat (sc : BitVec 13) : HoldsRounded w af sc v (v.clearExceptions.finishFloat w af sc) := by
  unfold State.finishFloat State.storeFloat
  refine ⟨?_, State.registerExponent_setFloat _ _ _ _,
    (FlagsAre.testExponent v _).congr (State.setFloat_ex _ _ _ _) (State.setFloat_ir _ _ _ _)⟩
  rw [State.registerFraction_setFloat, State.testExponent_precision]
  simp [BitVec.getMsbD_and]

/-- The sign bit added for SC is dropped again with its leftmost bit (R193). -/
theorem setWidth_signExtend_exponent (e : Byte) : (e.signExtend 13).setWidth 12 = e := by
  ext i hi
  simp [BitVec.getLsbD_signExtend, hi]
  omega

/-- `Test Precision Mode and Store` alone, in the early exits (R202). -/
theorem HoldsUnrounded.storeFloat (exponent : Byte) :
    HoldsUnrounded w (afFraction af) exponent v (v.clearExceptions.storeFloat w af (exponent.signExtend 13)) := by
  unfold State.storeFloat
  refine ⟨?_, ?_, (FlagsAre.cleared 2 v).congr (State.setFloat_ex _ _ _ _) (State.setFloat_ir _ _ _ _)⟩
  · simp [BitVec.getMsbD_and]
  · rw [State.registerExponent_setFloat, setWidth_signExtend_exponent]

end

/-! ## The operands fetched -/

@[simp] theorem State.registerFraction_clearExceptions (s : State) (w : WReg) :
    s.clearExceptions.registerFraction w = s.registerFraction w := by simp [State.registerFraction]

@[simp] theorem State.registerExponent_clearExceptions (s : State) (w : WReg) :
    s.clearExceptions.registerExponent w = s.registerExponent w := by simp [State.registerExponent]

/-- A floating-point instruction with an existing operand. EX[22:23] are cleared before the two turns of the channel (R361
(a)); the channel does not see them, so the operation may be said to start after it with the flags cleared (R194). -/
theorem exec_of_floating {i : Instr} {operation : FloatOperands → State → State} {s v : State} {a : Word}
    {o : FloatOperands}
    (hexec : ∀ s, exec i s = .next (s.withAddress i.fields fun a u =>
      u.clearExceptions.testAddress a (u.clearExceptions.fetchOperands i.fields.w a operation)))
    (h : Operand s i.fields a) (ho : s.fetchesOperands i.fields a o v) :
    exec i s = .next (operation o v.clearExceptions) := by
  obtain ⟨rfl, hregister, hstorage, hexponent⟩ := ho
  obtain ⟨register, storage, exponent⟩ := o
  obtain rfl : register = _ := hregister
  obtain rfl : storage = _ := hstorage
  obtain rfl : exponent = _ := hexponent
  rw [exec_of_clearing hexec h]
  simp only [State.fetchOperands, State.access, State.clearExceptions_channelTurn, State.readWord_clearExceptions,
    State.registerFraction_clearExceptions]
  rfl

/-- Nothing is left of the modifier when the operands have been fetched (R141). -/
theorem State.fetchesOperands.modifier {s v : State} {f : Fields} {a : Word} {o : FloatOperands}
    (h : s.fetchesOperands f a o v) : v.modifier = none := by
  obtain ⟨rfl, -⟩ := h
  simp

end Sys2Proof.Machine
end

section
/-! PROOFS. Normalization and rounding as arithmetic on the number in AF (O41): a normalization multiplies or halves it, a
rounding divides it by 4 to the nearest integer. -/

namespace Sys2Proof.Machine

/-! ## The number in a register -/

/-- A number and its register have the same last bit. -/
theorem getLsbD_zero_eq_decide_toInt {w : Nat} (v : BitVec w) (h : 0 < w) : v.getLsbD 0 = decide (v.toInt % 2 = 1) := by
  obtain ⟨n, rfl⟩ := Nat.exists_eq_add_one.mpr h
  have hbit : v.getLsbD 0 = decide (v.toNat % 2 = 1) := by
    simp [BitVec.getLsbD, Nat.testBit_eq_decide_div_mod_eq]
  rw [hbit, BitVec.toInt_eq_toNat_cond, decide_eq_decide, pow_succ]
  push_cast
  generalize (2 : Nat) ^ n = p
  split <;> omega

/-- The bits of a register as digits of its number. -/
theorem getMsbD_eq_decide_toInt {w i : Nat} (v : BitVec w) (h : i < w) :
    v.getMsbD i = decide (v.toInt / 2 ^ (w - 1 - i) % 2 = 1) := by
  have hlast := getLsbD_zero_eq_decide_toInt (v.sshiftRight (w - 1 - i)) (by omega)
  rw [BitVec.toInt_sshiftRight, Int.shiftRight_eq_div_pow] at hlast
  have hbit : (v.sshiftRight (w - 1 - i)).getLsbD 0 = v.getLsbD (w - 1 - i) := by
    rw [BitVec.getLsbD_sshiftRight]
    simp [show w - 1 - i < w by omega, show w ≠ 0 by omega]
  rw [BitVec.getMsbD, decide_eq_true h, Bool.true_and, ← hbit, hlast]
  rfl

/-- A register cut to its right end holds its number modulo a power of two. -/
theorem setWidth_ofInt {w v : Nat} (x : Int) (h : v ≤ w) : (BitVec.ofInt w x).setWidth v = BitVec.ofInt v x := by
  have hdvd : ((2 ^ v : Nat) : Int) ∣ (2 ^ w : Nat) := Int.natCast_dvd_natCast.mpr (Nat.pow_dvd_pow 2 h)
  apply BitVec.eq_of_toNat_eq
  rw [BitVec.toNat_setWidth, BitVec.toNat_ofInt, BitVec.toNat_ofInt, ← Int.emod_emod_of_dvd x hdvd]
  have hpositive : (0 : Int) < (2 ^ w : Nat) := by positivity
  have hnonneg := Int.emod_nonneg x hpositive.ne'
  generalize x % ((2 ^ w : Nat) : Int) = y at *
  obtain ⟨y, rfl⟩ := Int.eq_ofNat_of_zero_le hnonneg
  rfl

theorem setWidth_eq_ofInt {w v : Nat} (x : BitVec w) (h : v ≤ w) : x.setWidth v = BitVec.ofInt v x.toInt := by
  rw [← setWidth_ofInt x.toInt h, BitVec.ofInt_toInt]

/-- A fraction is normalized when its number is at least half its range (R191). -/
theorem fraction_normalized_iff (fraction : BitVec 36) :
    fraction.getMsbD 0 ≠ fraction.getMsbD 1 ↔ 2 ^ 34 ≤ fraction.toInt ∨ fraction.toInt < -2 ^ 34 := by
  have hlt := fraction.toInt_lt
  have hle := fraction.le_toInt
  rw [getMsbD_eq_decide_toInt _ (by decide), getMsbD_eq_decide_toInt _ (by decide), ne_eq, decide_eq_decide]
  omega

/-! ## AF -/

/-- AF holds a fraction in AF[0:37]: there is no overflow into AF[-1]. -/
def AfFits (af : BitVec 39) : Prop := -2 ^ 37 ≤ af.toInt ∧ af.toInt < 2 ^ 37

/-- AF holds a normalized fraction (R191). -/
def AfNormalized (af : BitVec 39) : Prop := AfFits af ∧ (2 ^ 36 ≤ af.toInt ∨ af.toInt < -2 ^ 36)

/-- `AF[-1] <> AF[0]` of R195. -/
theorem af_overflow_iff (af : BitVec 39) : af.getMsbD 0 ≠ af.getMsbD 1 ↔ ¬AfFits af := by
  have hlt := af.toInt_lt
  have hle := af.le_toInt
  rw [getMsbD_eq_decide_toInt _ (by decide), getMsbD_eq_decide_toInt _ (by decide), ne_eq, decide_eq_decide, AfFits]
  omega

/-- `AF[0] = AF[1]` of R195. -/
theorem af_unnormalized_iff {af : BitVec 39} (h : AfFits af) : af.getMsbD 1 = af.getMsbD 2 ↔ ¬AfNormalized af := by
  obtain ⟨hle, hlt⟩ := id h
  rw [getMsbD_eq_decide_toInt _ (by decide), getMsbD_eq_decide_toInt _ (by decide), decide_eq_decide, AfNormalized,
    and_iff_right h]
  omega

theorem toInt_afFraction {af : BitVec 39} (h : AfFits af) : (afFraction af).toInt = af.toInt / 4 := by
  obtain ⟨hle, hlt⟩ := h
  have hnat : (afFraction af).toNat = af.toNat / 2 ^ 2 % 2 ^ 36 := by
    rw [afFraction, BitVec.extractLsb'_toNat, Nat.shiftRight_eq_div_pow]
  have haf := af.isLt
  rw [BitVec.toInt_eq_toNat_cond] at hle hlt ⊢
  rw [BitVec.toInt_eq_toNat_cond, hnat]
  split at hle <;> split <;> omega

theorem AfNormalized.fraction {af : BitVec 39} (h : AfNormalized af) :
    (afFraction af).getMsbD 0 ≠ (afFraction af).getMsbD 1 := by
  obtain ⟨hfits, hlarge⟩ := h
  rw [fraction_normalized_iff, toInt_afFraction hfits]
  omega

/-- A fraction in AF is extended by two zeroes on the right (R194). -/
theorem toInt_toAf (fraction : BitVec 36) : (toAf fraction).toInt = 4 * fraction.toInt := by
  rw [toAf, BitVec.toInt_append_zero, BitVec.toInt_signExtend_of_le (by decide)]
  rfl

/-- A fraction in SF is extended by two zeroes on the right (R194). -/
theorem toInt_toSf (fraction : BitVec 36) : (toSf fraction).toInt = 4 * fraction.toInt := by
  rw [toSf, BitVec.toInt_append_zero]
  rfl

theorem toInt_signExtend_toSf (fraction : BitVec 36) : ((toSf fraction).signExtend 39).toInt = 4 * fraction.toInt := by
  rw [BitVec.toInt_signExtend_of_le (by decide), toInt_toSf]

theorem toAf_fits (fraction : BitVec 36) : AfFits (toAf fraction) := by
  have hlt := fraction.toInt_lt
  have hle := fraction.le_toInt
  rw [AfFits, toInt_toAf]
  omega

theorem toAf_normalized {n : BitVec 36} (h : n.getMsbD 0 ≠ n.getMsbD 1) : AfNormalized (toAf n) := by
  rw [fraction_normalized_iff] at h
  refine ⟨toAf_fits n, ?_⟩
  rw [toInt_toAf]
  omega

@[simp] theorem afFraction_toAf (fraction : BitVec 36) : afFraction (toAf fraction) = fraction := by
  apply BitVec.eq_of_toInt_eq
  rw [toInt_afFraction (toAf_fits fraction), toInt_toAf]
  omega

/-! ## Normalization -/

/-- A left shift doubles AF's number as far as 39 bits hold it. -/
theorem toInt_shiftLeft_one (af : BitVec 39) : (af <<< 1).toInt = (af.toInt * 2).bmod (2 ^ 39) := by
  rw [BitVec.shiftLeft_eq_mul_twoPow, BitVec.toInt_mul]
  rfl

/-- A shift count, when what is shifted is not zero. -/
theorem le_of_mul_pow_le {c m n : Nat} (hc : c ≠ 0) (h : c * 2 ^ m ≤ 2 ^ n) : m ≤ n :=
  (Nat.pow_le_pow_iff_right (by decide)).mp ((Nat.le_mul_of_pos_left _ (Nat.pos_of_ne_zero hc)).trans h)

theorem natAbs_mul_two_pow (x : Int) (m : Nat) : (x * 2 ^ m).natAbs = x.natAbs * 2 ^ m := by
  rw [Int.natAbs_mul, Int.natAbs_pow]
  rfl

/-- Left shifts until AF is normalized: with enough fuel they multiply its number by a power of two (R195; D8). -/
theorem normalizeLeft_spec (fuel : Nat) {af : BitVec 39} (sc : BitVec 13) (hfits : AfFits af)
    (hfuel : 2 ^ 37 ≤ af.toInt.natAbs * 2 ^ fuel) :
    ∃ m : Nat, (normalizeLeft fuel af sc).1.toInt = af.toInt * 2 ^ m ∧ AfNormalized (normalizeLeft fuel af sc).1 ∧
      (normalizeLeft fuel af sc).2 = sc + BitVec.ofInt 13 (-m) := by
  obtain ⟨hle, hlt⟩ := id hfits
  induction fuel generalizing af sc with
  | zero =>
    refine ⟨0, by simp [normalizeLeft], ⟨hfits, ?_⟩, by simp [normalizeLeft]⟩
    show 2 ^ 36 ≤ af.toInt ∨ af.toInt < -2 ^ 36
    omega
  | succ fuel ih =>
    rw [normalizeLeft]
    by_cases hnormal : AfNormalized af
    · rw [if_neg (mt (af_unnormalized_iff hfits).mp (not_not_intro hnormal))]
      exact ⟨0, by simp, hnormal, by simp⟩
    · rw [if_pos ((af_unnormalized_iff hfits).mpr hnormal)]
      have hshift : (af <<< 1).toInt = af.toInt * 2 := by
        rw [toInt_shiftLeft_one, Int.bmod_eq_of_le (by omega) (by omega)]
      have hsmall : -2 ^ 36 ≤ af.toInt ∧ af.toInt < 2 ^ 36 := by
        rw [AfNormalized, and_iff_right hfits] at hnormal
        omega
      obtain ⟨m, hm, hresult, hsc⟩ := ih (sc - 1#13) (af := af <<< 1) ⟨by omega, by omega⟩ (by
        rw [hshift, Int.natAbs_mul]
        rw [pow_succ] at hfuel
        rw [mul_assoc, mul_comm _ (2 ^ fuel)]
        exact hfuel) (by omega) (by omega)
      refine ⟨m + 1, ?_, hresult, ?_⟩
      · rw [hm, hshift, pow_succ]
        ring
      · rw [hsc, Nat.cast_add, neg_add, BitVec.ofInt_add, BitVec.sub_eq_add_neg, BitVec.add_assoc,
          BitVec.add_comm (-1#13)]
        rfl

section
variable {af : BitVec 39} (sc : BitVec 13)

/-- Zero gets its exponent (R195). -/
theorem normalizeOnce_zero : normalizeOnce 0#39 sc = (0#39, BitVec.ofInt 13 (-2048)) := rfl

/-- A fraction that has overflowed into AF[-1] is shifted right once (R195). -/
theorem normalizeOnce_overflow (h : ¬AfFits af) :
    (normalizeOnce af sc).1.toInt = af.toInt / 2 ∧ AfNormalized (normalizeOnce af sc).1 ∧
      (normalizeOnce af sc).2 = sc + 1#13 := by
  have hlt := af.toInt_lt
  have hle := af.le_toInt
  have hhalf : (af.sshiftRight 1).toInt = af.toInt / 2 := by
    rw [BitVec.toInt_sshiftRight, Int.shiftRight_eq_div_pow]
    rfl
  rw [normalizeOnce, if_pos ((af_overflow_iff af).mpr h)]
  refine ⟨hhalf, ?_, rfl⟩
  rw [AfFits] at h
  rw [AfNormalized, AfFits, hhalf]
  omega

/-- A fraction that is not zero is shifted left until it is normalized, exactly (R195). -/
theorem normalizeOnce_fits (h : AfFits af) (hne : af ≠ 0#39) :
    ∃ m : Nat, m ≤ 37 ∧ (normalizeOnce af sc).1.toInt = af.toInt * 2 ^ m ∧ AfNormalized (normalizeOnce af sc).1 ∧
      (normalizeOnce af sc).2 = sc + BitVec.ofInt 13 (-m) := by
  have hnonzero : af.toInt ≠ 0 := fun h0 => hne (BitVec.eq_of_toInt_eq (by simpa using h0))
  rw [normalizeOnce, if_neg (mt (af_overflow_iff af).mp (not_not_intro h)), if_neg hne]
  obtain ⟨m, hm, hnormal, hsc⟩ := normalizeLeft_spec 39 sc h (by omega)
  refine ⟨m, le_of_mul_pow_le (Int.natAbs_ne_zero.mpr hnonzero) ?_, hm, hnormal, hsc⟩
  obtain ⟨⟨hle, hlt⟩, -⟩ := hnormal
  rw [← natAbs_mul_two_pow, ← hm]
  omega

/-- A normalized fraction stays as it is. -/
theorem normalizeOnce_normalized (h : AfNormalized af) : normalizeOnce af sc = (af, sc) := by
  obtain ⟨hfits, hlarge⟩ := id h
  have hne : af ≠ 0#39 := by
    rintro rfl
    revert hlarge
    decide
  rw [normalizeOnce, if_neg (mt (af_overflow_iff af).mp (not_not_intro hfits)), if_neg hne, normalizeLeft,
    if_neg (mt (af_unnormalized_iff hfits).mp (not_not_intro h))]

end

/-- A fraction of -0.5 is not normalized, and becomes -1.0 (R191, R195). -/
theorem normalizeOnce_half {af : BitVec 39} (sc : BitVec 13) (h : af.toInt = -2 ^ 36) :
    (normalizeOnce af sc).1.toInt = -2 ^ 37 ∧ (normalizeOnce af sc).2 = sc + BitVec.ofInt 13 (-1) := by
  obtain rfl : af = BitVec.ofInt 39 (-2 ^ 36) := BitVec.eq_of_toInt_eq (h.trans (by decide))
  have hresult : normalizeOnce (BitVec.ofInt 39 (-2 ^ 36)) sc = (BitVec.ofInt 39 (-2 ^ 37), sc - 1#13) := rfl
  rw [hresult]
  exact ⟨(by decide : (BitVec.ofInt 39 (-2 ^ 37)).toInt = -2 ^ 37), BitVec.sub_eq_add_neg sc 1#13⟩

/-! ## Rounding -/

/-- Bits 36 and 37 cleared. -/
theorem and_not_three (v : BitVec 39) : v &&& ~~~3#39 = (v.sshiftRight 2) <<< 2 := by
  ext i hi
  have hmask : (3#39).getLsbD i = decide (i < 2) := by
    rw [BitVec.getLsbD_ofNat, show 3 = 2 ^ 2 - 1 by rfl, Nat.testBit_two_pow_sub_one]
    simp [hi]
  simp only [← BitVec.getLsbD_eq_getElem, BitVec.getLsbD_and, BitVec.getLsbD_not, BitVec.getLsbD_shiftLeft,
    BitVec.getLsbD_sshiftRight, hmask]
  by_cases hlow : i < 2
  · simp [hlow]
  · simp [hlow, hi, show 2 + (i - 2) = i by omega, show ¬39 ≤ i - 2 by omega]

/-- Rounding up adds one unit in bit 35 to what AF holds down to that bit. -/
theorem toInt_roundUp {af : BitVec 39} (h : AfFits af) : (roundUp af).toInt = (af.toInt / 4 + 1) * 4 := by
  obtain ⟨hle, hlt⟩ := h
  have hsum : (af + 4#39).toInt = af.toInt + 4 := by
    rw [BitVec.toInt_add]
    exact Int.bmod_eq_of_le (by show _ ≤ af.toInt + 4; omega) (by show af.toInt + 4 < _; omega)
  have hshift : ∀ v : BitVec 39, (v <<< 2).toInt = (v.toInt * 4).bmod (2 ^ 39) := fun v => by
    rw [BitVec.shiftLeft_eq_mul_twoPow, BitVec.toInt_mul]
    rfl
  rw [roundUp, and_not_three, hshift, BitVec.toInt_sshiftRight, Int.shiftRight_eq_div_pow, hsum]
  rw [Int.bmod_eq_of_le] <;> omega

/-- The rounding of a normalized fraction, with the normalization that may follow it (R195). -/
def roundNormalized (af : BitVec 39) (sc : BitVec 13) : BitVec 39 × BitVec 13 :=
  if af.getMsbD 37 then normalizeOnce (roundUp af) sc else (af, sc)

theorem normalizeAndRound_eq (af : BitVec 39) (sc : BitVec 13) :
    normalizeAndRound af sc = roundNormalized (normalizeOnce af sc).1 (normalizeOnce af sc).2 := rfl

/-- A normalized fraction is rounded to the nearest multiple of one unit in bit 35, a tie upward. Where that is 1.0 or -0.5
the normalization that follows halves or doubles it (R195). -/
theorem roundNormalized_spec {af : BitVec 39} (sc : BitVec 13) (h : AfNormalized af) :
    ∃ j : Nat, j ≤ 2 ∧ AfNormalized (roundNormalized af sc).1 ∧
      (afFraction (roundNormalized af sc).1).toInt * 2 ^ j = 2 * ((af.toInt + 2) / 4) ∧
      (roundNormalized af sc).2 = sc + BitVec.ofInt 13 (j - 1) := by
  obtain ⟨⟨hle, hlt⟩, hlarge⟩ := id h
  have hbit : af.getMsbD 37 = decide (af.toInt / 2 % 2 = 1) := getMsbD_eq_decide_toInt af (by decide)
  rw [roundNormalized, hbit]
  by_cases hround : af.toInt / 2 % 2 = 1
  · rw [if_pos (by simpa using hround)]
    have hup := toInt_roundUp h.1
    by_cases hone : (roundUp af).toInt = 2 ^ 37
    · obtain ⟨hhalf, hnormal, hsc⟩ := normalizeOnce_overflow sc (af := roundUp af) (by rw [AfFits]; omega)
      refine ⟨2, by decide, hnormal, ?_, hsc⟩
      rw [toInt_afFraction hnormal.1]
      omega
    · by_cases hhalf : (roundUp af).toInt = -2 ^ 36
      · obtain ⟨hone, hsc⟩ := normalizeOnce_half sc hhalf
        have hnormal : AfNormalized (normalizeOnce (roundUp af) sc).1 := by
          rw [AfNormalized, AfFits, hone]
          decide
        refine ⟨0, by decide, hnormal, ?_, by simpa using hsc⟩
        rw [toInt_afFraction hnormal.1]
        omega
      · have hnormal : AfNormalized (roundUp af) := ⟨by rw [AfFits]; omega, by omega⟩
        rw [normalizeOnce_normalized sc hnormal]
        refine ⟨1, by decide, hnormal, ?_, by simp⟩
        rw [toInt_afFraction hnormal.1]
        omega
  · rw [if_neg (by simpa using hround)]
    refine ⟨1, by decide, h, ?_, by simp⟩
    rw [toInt_afFraction h.1]
    omega

/-- Adjustments of SC add up. -/
theorem add_ofInt_add_ofInt {w : Nat} (sc : BitVec w) (x y : Int) :
    sc + BitVec.ofInt w x + BitVec.ofInt w y = sc + BitVec.ofInt w (x + y) := by
  rw [BitVec.add_assoc, ← BitVec.ofInt_add]

/-- The error of a shift to the place of a normalized fraction: none to the left, less than a unit of AF to the right. -/
theorem normalizeOnce_error {af : BitVec 39} (sc : BitVec 13) (hne : af ≠ 0#39) :
    ∃ k : Nat, 1 ≤ k ∧ k ≤ 39 ∧ AfNormalized (normalizeOnce af sc).1 ∧
      (normalizeOnce af sc).2 = sc + BitVec.ofInt 13 (k - 38) ∧
      (normalizeOnce af sc).1.toInt * 2 ^ k ≤ af.toInt * 2 ^ 38 ∧
      2 * (af.toInt * 2 ^ 38) ≤ (2 * (normalizeOnce af sc).1.toInt + 1) * 2 ^ k := by
  by_cases hfits : AfFits af
  · obtain ⟨m, hm, hshift, hnormal, hsc⟩ := normalizeOnce_fits sc hfits hne
    obtain ⟨k, hk⟩ : ∃ k, m + k = 38 := ⟨38 - m, by omega⟩
    have hexact : (normalizeOnce af sc).1.toInt * 2 ^ k = af.toInt * 2 ^ 38 := by
      rw [hshift, mul_assoc, ← pow_add, hk]
    refine ⟨k, by omega, by omega, hnormal, ?_, hexact.le, ?_⟩
    · rw [hsc, show (-m : Int) = k - 38 by omega]
    · have hunit : (0 : Int) ≤ 2 ^ k := by positivity
      rw [add_mul, mul_assoc, hexact]
      omega
  · obtain ⟨hhalf, hnormal, hsc⟩ := normalizeOnce_overflow sc hfits
    refine ⟨39, by decide, by decide, hnormal, hsc, ?_, ?_⟩ <;> rw [hhalf] <;> omega

/-- The error of a rounding to a multiple of 4, of a number known to within half a unit `2 * u`. -/
theorem rounding_error {a x u : Int} (hu : 0 ≤ u) (hlow : 2 * a * u ≤ x) (hhigh : x ≤ (2 * a + 1) * u) :
    ((8 * ((a + 2) / 4) * u - x).natAbs : Int) ≤ 4 * u := by
  obtain ⟨e, he, hle, hlt⟩ : ∃ e, 4 * ((a + 2) / 4) = a + e ∧ -1 ≤ e ∧ e ≤ 2 :=
    ⟨4 * ((a + 2) / 4) - a, by omega, by omega, by omega⟩
  have hscale : 8 * ((a + 2) / 4) * u = 2 * a * u + 2 * (e * u) := by
    linear_combination 2 * u * he
  have hbelow : -1 * u ≤ e * u := mul_le_mul_of_nonneg_right hle hu
  have habove : e * u ≤ 2 * u := mul_le_mul_of_nonneg_right hlt hu
  rw [add_mul] at hhigh
  generalize 2 * a * u = y at *
  generalize e * u = z at *
  omega

/-- The normalization after a rounding doubles a fraction of -0.5 only (R195). -/
theorem rounding_unit {af : BitVec 39} {fraction : BitVec 36} {j : Nat} (h : AfNormalized af) (hj : j ≤ 2)
    (hfraction : fraction.toInt * 2 ^ j = 2 * ((af.toInt + 2) / 4)) :
    4 ≤ (if fraction.toInt = -2 ^ 35 then 4 else 2) * 2 ^ j := by
  obtain ⟨⟨hle, hlt⟩, hlarge⟩ := h
  have hrange := fraction.toInt_lt
  have hrange' := fraction.le_toInt
  obtain rfl | rfl | rfl : j = 0 ∨ j = 1 ∨ j = 2 := by omega
  · rw [if_pos (by omega)]
    decide
  all_goals split <;> decide

/-- AF is rounded only where bit 36 is set. -/
theorem roundNormalized_exact {af : BitVec 39} (sc : BitVec 13) (h : af.toInt % 4 = 0) :
    roundNormalized af sc = (af, sc) := by
  have hbit : af.getMsbD 37 = decide (af.toInt / 2 % 2 = 1) := getMsbD_eq_decide_toInt af (by decide)
  rw [roundNormalized, hbit, decide_eq_false (by omega), if_neg (by decide)]

/-- Settles O41: a normalization within half a unit of AF, and the rounding of what it gives. -/
theorem normalizeAndRoundError : Obligations.NormalizeAndRoundError := by
  intro af r sc rsc hresult
  refine ⟨?_, fun hne => ?_⟩
  · rintro rfl
    rw [normalizeAndRound_eq, normalizeOnce_zero] at hresult
    obtain ⟨rfl, rfl⟩ := Prod.mk.inj hresult
    exact ⟨rfl, rfl⟩
  · obtain ⟨k, hk, hk', hnormal, hsc, hlow, hhigh⟩ := normalizeOnce_error sc hne
    rw [normalizeAndRound_eq] at hresult
    generalize normalizeOnce af sc = once at *
    obtain ⟨j, hj, hrounded, hfraction, hadjust⟩ := roundNormalized_spec once.2 hnormal
    rw [← hresult] at hrounded hfraction hadjust
    dsimp only at hrounded hfraction hadjust
    obtain ⟨c, rfl⟩ : ∃ c, k = c + 1 := ⟨k - 1, by omega⟩
    refine ⟨c + j, by omega, ?_, hrounded.fraction, ?_⟩
    · rw [hadjust, hsc, add_ofInt_add_ofInt]
      congr 2
      push_cast
      ring
    · have herror := rounding_error (by positivity : (0 : Int) ≤ 2 ^ c)
        (show 2 * once.1.toInt * 2 ^ c ≤ af.toInt * 2 ^ 38 by rw [pow_succ (2 : Int) c] at hlow; linarith)
        (show af.toInt * 2 ^ 38 ≤ (2 * once.1.toInt + 1) * 2 ^ c by rw [pow_succ (2 : Int) c] at hhigh; linarith)
      have hscale : 4 * (afFraction r).toInt * 2 ^ (c + j) = 8 * ((once.1.toInt + 2) / 4) * 2 ^ c := by
        rw [add_comm c, pow_add, ← mul_assoc, mul_assoc 4, hfraction]
        ring
      rw [hscale]
      have hunit : 4 * 2 ^ c ≤ (if (afFraction r).toInt = -2 ^ 35 then 4 else 2) * 2 ^ (c + j) := by
        rw [pow_add, mul_left_comm, mul_comm]
        exact Nat.mul_le_mul_left _ (rounding_unit hnormal hj hfraction)
      exact le_trans (by exact_mod_cast herror) hunit

end Sys2Proof.Machine
end

section
/-! PROOFS. The conversions: CI is exact (O36), CF divides by a power of two to the nearest integer (O37). -/

namespace Sys2Proof.Machine

/-! ## CI -/

/-- The integer as CI places it in AF (R200). -/
def integerAf (x : Word) : BitVec 39 := x.signExtend 25 ++ 0#14

theorem toInt_integerAf (x : Word) : (integerAf x).toInt = x.toInt * 2 ^ 14 := by
  rw [integerAf, BitVec.toInt_append_zero, BitVec.toInt_signExtend_of_le (by decide), mul_comm]

theorem integerAf_eq_zero_iff (x : Word) : integerAf x = 0#39 ↔ x = 0#24 := by
  rw [← BitVec.toInt_inj, ← BitVec.toInt_inj, toInt_integerAf, BitVec.toInt_zero, BitVec.toInt_zero]
  omega

/-- The number of an integer that is not zero is shifted to its place and never rounded (R200). -/
theorem normalizeAndRound_integerAf {x : Word} (hx : x ≠ 0#24) (sc : BitVec 13) :
    ∃ m : Nat, m ≤ 23 ∧ AfNormalized (normalizeAndRound (integerAf x) sc).1 ∧
      (normalizeAndRound (integerAf x) sc).1.toInt = x.toInt * 2 ^ (14 + m) ∧
      (normalizeAndRound (integerAf x) sc).2 = sc + BitVec.ofInt 13 (-m) := by
  have hlt := x.toInt_lt
  have hle := x.le_toInt
  have hfits : AfFits (integerAf x) := by
    rw [AfFits, toInt_integerAf]
    omega
  have hnonzero : x.toInt ≠ 0 := fun h => hx (BitVec.eq_of_toInt_eq (by simpa using h))
  obtain ⟨m, -, hm, hnormal, hsc⟩ := normalizeOnce_fits sc hfits (mt (integerAf_eq_zero_iff x).mp hx)
  rw [toInt_integerAf, mul_assoc, ← pow_add] at hm
  have hcount : 14 + m ≤ 37 := by
    obtain ⟨⟨hlow, hhigh⟩, -⟩ := hnormal
    refine le_of_mul_pow_le (Int.natAbs_ne_zero.mpr hnonzero) ?_
    rw [← natAbs_mul_two_pow, ← hm]
    omega
  have hexact : (normalizeOnce (integerAf x) sc).1.toInt % 4 = 0 := by
    rw [hm, pow_add, ← mul_assoc, mul_right_comm]
    omega
  rw [normalizeAndRound_eq, roundNormalized_exact _ hexact]
  exact ⟨m, by omega, hnormal, hm, hsc⟩

theorem exec_ci {s : State} {f : Fields} {a : Word} (h : s.effectiveAddress f = some a) :
    exec (.ci f) s = .next ((s.addressed f).clearExceptions.convertInteger f.w a) :=
  exec_of_effectiveAddress (i := .ci f) (operation := fun a s => s.clearExceptions.convertInteger f.w a) (fun _ => rfl) h

section
variable {u : State} {w : WReg} (a : Word)

theorem State.convertInteger_zero (h : u.reg w = 0#24) :
    u.convertInteger w a = u.setFloat w 0#36 zeroExponent := if_pos ((integerAf_eq_zero_iff _).mpr h)

theorem State.convertInteger_nonzero {result : BitVec 39 × BitVec 13} {e : BitVec 13} (h : u.reg w ≠ 0#24)
    (hresult : result = normalizeAndRound (integerAf (u.reg w)) 23#13) (he : e = result.2 + a.setWidth 13) :
    u.convertInteger w a = (u.testExponent e).setFloat w (afFraction result.1) (e.setWidth 12) := by
  subst hresult he
  exact if_neg (mt (integerAf_eq_zero_iff _).mp h)

end

/-- Settles O36: the exact normalization of the integer, and the exponent test after the scale has been added. -/
theorem convertToFloating : Obligations.ConvertToFloating := by
  rintro s u f a ha rfl
  have hframe := OnlyArithmetic.clearExceptions [f.w, wpre f.w] 2 (s.addressed_modifier f)
  refine ⟨fun hzero => ?_, fun hnonzero => ?_⟩
  · refine ⟨_, exec_ci ha, ?_⟩
    rw [State.convertInteger_zero a (by simpa using hzero)]
    exact ⟨State.registerFraction_setFloat _ _ _ _, State.registerExponent_setFloat _ _ _ _,
      (FlagsAre.cleared 2 _).congr (State.setFloat_ex _ _ _ _) (State.setFloat_ir _ _ _ _), hframe.setFloat _ _⟩
  · obtain ⟨m, hm, hnormal, hvalue, hsc⟩ := normalizeAndRound_integerAf hnonzero 23#13
    obtain ⟨k, hk⟩ : ∃ k, m + k = 23 := ⟨23 - m, by omega⟩
    generalize hresult : normalizeAndRound (integerAf ((s.addressed f).reg f.w)) 23#13 = result at *
    refine ⟨_, k, result.2 + a.setWidth 13, exec_ci ha, by omega, ?_⟩
    rw [State.convertInteger_nonzero a (by simpa using hnonzero) (by simpa using hresult.symm) rfl,
      State.registerFraction_setFloat, State.registerExponent_setFloat]
    refine ⟨?_, hnormal.fraction, ?_, rfl,
      (FlagsAre.testExponent _ _).congr (State.setFloat_ex _ _ _ _) (State.setFloat_ir _ _ _ _),
      (hframe.testExponent _).setFloat _ _⟩
    · have hquarter : (afFraction result.1).toInt = ((s.addressed f).reg f.w).toInt * 2 ^ (12 + m) := by
        rw [toInt_afFraction hnormal.1, hvalue, show 14 + m = 12 + m + 2 by omega, pow_add _ _ 2, ← mul_assoc]
        exact Int.mul_ediv_cancel _ (by decide)
      rw [hquarter, mul_assoc, ← pow_add, show 12 + m + k = 35 by omega]
    · rw [hsc, show 23#13 = BitVec.ofInt 13 23 by rfl, ← BitVec.ofInt_add, show (23 + -m : Int) = k by omega,
        BitVec.ofInt_natCast]

/-! ## CF -/

/-- CF's count of right shifts is a 24-bit signed value (R201). -/
theorem conversionShift_eq (a : Word) (exponent : Byte) :
    conversionShift a exponent = (23 - a.toInt - exponent.toInt).bmod (2 ^ 24) := by
  rw [conversionShift, BitVec.toInt_sub, BitVec.toInt_sub, Int.bmod_sub_bmod, BitVec.toInt_signExtend_of_le (by decide)]
  rfl

/-- `AF[-1:23]` with AF[24] added is AF's number divided by 2**14 to the nearest integer, a tie upward (R201). -/
theorem toInt_roundTop {af : BitVec 39} (h : AfFits af) :
    (af.extractLsb' 14 25 + (if af.getMsbD 25 then 1#25 else 0#25)).toInt = (af.toInt + 2 ^ 13) / 2 ^ 14 := by
  obtain ⟨hle, hlt⟩ := h
  have hbit : af.getMsbD 25 = decide (af.toInt / 2 ^ 13 % 2 = 1) := getMsbD_eq_decide_toInt af (by decide)
  have htop : (af.extractLsb' 14 25).toInt = af.toInt / 2 ^ 14 := by
    have hnat : (af.extractLsb' 14 25).toNat = af.toNat / 2 ^ 14 % 2 ^ 25 := by
      rw [BitVec.extractLsb'_toNat, Nat.shiftRight_eq_div_pow]
    have haf := af.isLt
    rw [BitVec.toInt_eq_toNat_cond, BitVec.toInt_eq_toNat_cond, hnat]
    split <;> split <;> omega
  rw [BitVec.toInt_add, htop, hbit]
  by_cases hround : af.toInt / 2 ^ 13 % 2 = 1
  · rw [if_pos (by simpa using hround), show (1#25).toInt = 1 by rfl, Int.bmod_eq_of_le (by omega) (by omega)]
    omega
  · rw [if_neg (by simpa using hround), show (0#25).toInt = 0 by rfl, Int.bmod_eq_of_le (by omega) (by omega)]
    omega

/-- A number shifted right by 64 places and more is rounded to 0 (R201). -/
theorem rounds_to_zero (fraction : BitVec 36) {n : Nat} (h : 64 ≤ n) :
    (fraction.toInt + 2 ^ (n + 11)) / 2 ^ (n + 12) = 0 := by
  have hlt := fraction.toInt_lt
  have hle := fraction.le_toInt
  have hhalf : (2 : Int) ^ 35 ≤ 2 ^ (n + 11) := pow_le_pow_right₀ (by decide) (by omega)
  rw [pow_succ _ (n + 11)]
  generalize (2 : Int) ^ (n + 11) = half at *
  exact Int.ediv_eq_zero_of_lt (by omega) (by omega)

theorem AfFits.sshiftRight {af : BitVec 39} (h : AfFits af) (n : Nat) : AfFits (af.sshiftRight n) := by
  obtain ⟨hle, hlt⟩ := h
  have hunit : (0 : Int) < 2 ^ n := by positivity
  have hone : (1 : Int) ≤ 2 ^ n := hunit
  rw [AfFits, BitVec.toInt_sshiftRight, Int.shiftRight_eq_div_pow]
  push_cast
  rw [Int.le_ediv_iff_mul_le hunit, Int.ediv_lt_iff_lt_mul hunit]
  constructor <;> nlinarith

/-- CF rounds the scaled number to the nearest integer, a tie upward (R201). -/
theorem toInt_convertedFraction (fraction : BitVec 36) (n : Int) :
    (convertedFraction (toAf fraction) n).toInt
      = (fraction.toInt + 2 ^ (n.toNat + 11)) / 2 ^ (n.toNat + 12) := by
  have hfits := toAf_fits fraction
  generalize hN : n.toNat = N
  have hcount : 64 ≤ n ↔ 64 ≤ N := by omega
  have hpositive : 0 < n ↔ 0 < N := by omega
  rw [convertedFraction]
  simp only [hcount, hpositive, hN]
  by_cases hlarge : 64 ≤ N
  · rw [if_pos hlarge, rounds_to_zero fraction hlarge]
    rfl
  · have hshift : (if 0 < N then (toAf fraction).sshiftRight N else toAf fraction) = (toAf fraction).sshiftRight N := by
      cases N
      · exact (BitVec.sshiftRight_zero).symm
      · rfl
    rw [if_neg hlarge, hshift, toInt_roundTop (hfits.sshiftRight N), BitVec.toInt_sshiftRight,
      Int.shiftRight_eq_div_pow, toInt_toAf, Nat.cast_pow, Nat.cast_ofNat,
      ← Int.add_mul_ediv_right _ _ (by positivity), Int.ediv_ediv_of_nonneg (by positivity),
      show 4 * fraction.toInt + 2 ^ 13 * 2 ^ N = 4 * (fraction.toInt + 2 ^ (N + 11)) by ring,
      show (2 : Int) ^ N * 2 ^ 14 = 4 * 2 ^ (N + 12) by ring, Int.mul_ediv_mul_of_pos _ _ (by decide)]

theorem toAf_eq_zero_iff (fraction : BitVec 36) : toAf fraction = 0#39 ↔ fraction = 0#36 := by
  rw [← BitVec.toInt_inj, ← BitVec.toInt_inj, toInt_toAf, BitVec.toInt_zero, BitVec.toInt_zero]
  omega

theorem exec_cf {s : State} {f : Fields} {a : Word} (h : s.effectiveAddress f = some a) :
    exec (.cf f) s = .next ((s.addressed f).clearExceptions.convertFloat f.w a) :=
  exec_of_effectiveAddress (i := .cf f) (operation := fun a s => s.clearExceptions.convertFloat f.w a) (fun _ => rfl) h

/-- CF reports overflow, or assigns the rounded number (R201). -/
theorem State.convertFloat_eq {s : State} {w : WReg} {a : Word} {n r : Int}
    (hn : n = conversionShift a (s.registerExponent w))
    (hr : r = (convertedFraction (toAf (s.registerFraction w)) n).toInt) :
    s.convertFloat w a =
      if (n < 0 ∧ s.registerFraction w ≠ 0#36) ∨ fitsWord r = false then s.integerOverflow
      else s.setReg w (BitVec.ofInt 24 r) := by
  have hfits := decide_getMsbD_ne_eq_not_fitsWord (convertedFraction (toAf (s.registerFraction w)) n)
  rw [← hr] at hfits
  rw [hr, ← setWidth_eq_ofInt _ (by decide), ← hr]
  unfold State.convertFloat
  dsimp only
  rw [← hn]
  by_cases hsmall : n < 0 ∧ s.registerFraction w ≠ 0#36
  · rw [if_pos ⟨hsmall.1, mt (toAf_eq_zero_iff _).mp hsmall.2⟩, if_pos (.inl hsmall)]
  · rw [if_neg (fun h => hsmall ⟨h.1, mt (toAf_eq_zero_iff _).mpr h.2⟩)]
    cases hr : fitsWord r <;> simp_all

/-- Settles O37: on overflow only the flags, otherwise the rounded number, which fits the register. -/
theorem convertToInteger : Obligations.ConvertToInteger := by
  rintro s u f a n r ha rfl hn hr
  have hmodifier := s.addressed_modifier f
  rw [← conversionShift_eq] at hn
  rw [← toInt_convertedFraction] at hr
  have hresult := State.convertFloat_eq (s := (s.addressed f).clearExceptions) (w := f.w) (a := a) (n := n) (r := r)
    (by simpa using hn) (by simpa using hr)
  rw [State.registerFraction_clearExceptions] at hresult
  split
  next hover =>
    refine ⟨_, exec_cf ha, ?_⟩
    rw [hresult, if_pos hover]
    exact ⟨.integerOverflow _, (OnlyArithmetic.clearExceptions [] 1 hmodifier).integerOverflow⟩
  next hfits =>
    refine ⟨_, exec_cf ha, ?_⟩
    rw [hresult, if_neg hfits, State.reg_setReg_self, toInt_ofInt_of_fitsWord (by simpa using fun h => hfits (.inr h))]
    exact ⟨rfl, .clearExceptions (by simp) (by simp),
      (OnlyArithmetic.clearExceptions _ 1 hmodifier).setReg (by simp) _⟩

end Sys2Proof.Machine
end

section
/-! PROOFS. Addition and subtraction in floating point (O38): the fraction with the smaller exponent is shifted right, and
the sum or difference of the aligned fractions is exact in the 39 bits of AF. -/

namespace Sys2Proof.Machine

/-! ## Alignment -/

/-- SF and AF hold the same fraction (R194). -/
theorem signExtend_toSf (fraction : BitVec 36) : (toSf fraction).signExtend 39 = toAf fraction :=
  BitVec.eq_of_toInt_eq (by rw [toInt_signExtend_toSf, toInt_toAf])

/-- A fraction shifted right by the difference of the exponents (R202). -/
def aligned (fraction : BitVec 36) (n : Nat) : BitVec 39 := (toAf fraction).sshiftRight n

theorem toInt_aligned (fraction : BitVec 36) (n : Nat) : (aligned fraction n).toInt = 4 * fraction.toInt / 2 ^ n := by
  rw [aligned, BitVec.toInt_sshiftRight, Int.shiftRight_eq_div_pow, toInt_toAf, Nat.cast_pow, Nat.cast_ofNat]

theorem aligned_fits (fraction : BitVec 36) (n : Nat) : AfFits (aligned fraction n) :=
  (toAf_fits fraction).sshiftRight n

theorem signExtend_sshiftRight_toSf (fraction : BitVec 36) (n : Nat) :
    ((toSf fraction).sshiftRight n).signExtend 39 = aligned fraction n := by
  apply BitVec.eq_of_toInt_eq
  rw [BitVec.toInt_signExtend_of_le (by decide), BitVec.toInt_sshiftRight, toInt_toSf, aligned, BitVec.toInt_sshiftRight,
    toInt_toAf]

/-- The register fraction as FA and FS add it: nothing is left of it when its exponent is smaller by 38 and more (R202). -/
def alignedRegister (fraction : BitVec 36) (d : Int) : BitVec 39 :=
  if d ≤ -38 then 0#39 else aligned fraction (-d).toNat

theorem toInt_alignedRegister (fraction : BitVec 36) (d : Int) :
    (alignedRegister fraction d).toInt = if d ≤ -38 then 0 else 4 * fraction.toInt / 2 ^ (-d).toNat := by
  rw [alignedRegister]
  split
  · rfl
  · exact toInt_aligned _ _

theorem alignedRegister_fits (fraction : BitVec 36) (d : Int) : AfFits (alignedRegister fraction d) := by
  rw [alignedRegister]
  split
  · exact ⟨by decide, by decide⟩
  · exact aligned_fits _ _

/-- Two fractions have a sum in AF (R202). -/
theorem toInt_add_of_fits {x y : BitVec 39} (hx : AfFits x) (hy : AfFits y) : (x + y).toInt = x.toInt + y.toInt := by
  obtain ⟨hle, hlt⟩ := hx
  obtain ⟨hle', hlt'⟩ := hy
  rw [BitVec.toInt_add]
  exact Int.bmod_eq_of_le (by omega) (by omega)

/-- Two fractions have a difference in AF (R203). -/
theorem toInt_sub_of_fits {x y : BitVec 39} (hx : AfFits x) (hy : AfFits y) : (x - y).toInt = x.toInt - y.toInt := by
  obtain ⟨hle, hlt⟩ := hx
  obtain ⟨hle', hlt'⟩ := hy
  rw [BitVec.toInt_sub]
  exact Int.bmod_eq_of_le (by omega) (by omega)

/-! ## FA and FS -/

section
variable {s : State} {w : WReg} {subtract : Bool} {o : FloatOperands} {d : Int}
  (hd : d = (s.registerExponent w).toInt - o.exponent.toInt)
include hd

theorem State.addFloat_register (h : 38 ≤ d) :
    s.addFloat w subtract o = s.storeFloat w (toAf o.register) ((s.registerExponent w).signExtend 13) := by
  subst hd
  exact if_pos h

theorem State.addFloat_storage (h : d ≤ -38) :
    s.addFloat w false o = s.storeFloat w (toAf o.storage) (o.exponent.signExtend 13) := by
  unfold State.addFloat
  dsimp only
  rw [← hd, if_neg (by omega), if_pos ⟨h, rfl⟩, signExtend_toSf]

theorem State.addFloat_aligned (h : d < 38) (hexit : ¬(d ≤ -38 ∧ subtract = false)) :
    s.addFloat w subtract o =
      s.finishFloat w
        (if subtract then alignedRegister o.register d - aligned o.storage d.toNat
          else alignedRegister o.register d + aligned o.storage d.toNat)
        (BitVec.signExtend 13 (if d < 0 then o.exponent else s.registerExponent w)) := by
  have hregister : (if d ≤ -38 then 0#39 else if d < 0 then (toAf o.register).sshiftRight (-d).toNat else toAf o.register)
      = alignedRegister o.register d := by
    rw [alignedRegister, aligned]
    split
    · rfl
    · split
      · rfl
      · rw [show (-d).toNat = 0 by omega, BitVec.sshiftRight_zero]
  have hstorage : (if 0 < d then (toSf o.storage).sshiftRight d.toNat else toSf o.storage).signExtend 39
      = aligned o.storage d.toNat := by
    split
    · exact signExtend_sshiftRight_toSf _ _
    · rw [signExtend_toSf, aligned, show d.toNat = 0 by omega, BitVec.sshiftRight_zero]
  unfold State.addFloat
  dsimp only
  rw [← hd, if_neg (by omega), if_neg hexit, hregister, hstorage]
  split <;> split <;> rfl

end

section
variable {s v : State} {f : Fields} {a : Word} {o : FloatOperands} (h : Operand s f a) (ho : s.fetchesOperands f a o v)
include h ho

theorem exec_fa : exec (.fa f) s = .next (v.clearExceptions.addFloat f.w false o) :=
  exec_of_floating (i := .fa f) (operation := fun o s => s.addFloat f.w false o) (fun _ => rfl) h ho

theorem exec_fs : exec (.fs f) s = .next (v.clearExceptions.addFloat f.w true o) :=
  exec_of_floating (i := .fs f) (operation := fun o s => s.addFloat f.w true o) (fun _ => rfl) h ho

end

section
variable {v : State} {w : WReg} {o : FloatOperands} {d : Int} (subtract : Bool) (hmodifier : v.modifier = none)
  (hd : d = (v.registerExponent w).toInt - o.exponent.toInt)
include hmodifier hd

/-- The early exit with the register operand (R202). -/
theorem addFloat_holds_register (h : 38 ≤ d) :
    OnlyArithmetic [w, wpre w] 2 v (v.clearExceptions.addFloat w subtract o) ∧
      HoldsUnrounded w o.register (v.registerExponent w) v (v.clearExceptions.addFloat w subtract o) := by
  rw [State.addFloat_register (by simpa using hd) h, State.registerExponent_clearExceptions]
  have hstored := HoldsUnrounded.storeFloat v w (toAf o.register) (v.registerExponent w)
  rw [afFraction_toAf] at hstored
  exact ⟨.storeFloat w _ hmodifier _, hstored⟩

/-- FA's early exit with the storage operand (R202). -/
theorem addFloat_holds_storage (h : d ≤ -38) :
    OnlyArithmetic [w, wpre w] 2 v (v.clearExceptions.addFloat w false o) ∧
      HoldsUnrounded w o.storage o.exponent v (v.clearExceptions.addFloat w false o) := by
  rw [State.addFloat_storage (by simpa using hd) h]
  have hstored := HoldsUnrounded.storeFloat v w (toAf o.storage) o.exponent
  rw [afFraction_toAf] at hstored
  exact ⟨.storeFloat w _ hmodifier _, hstored⟩

/-- The sum or the difference of the aligned fractions, which is exact, normalized and rounded (R202, R203). -/
theorem addFloat_holds_rounded (h : d < 38) (hexit : ¬(d ≤ -38 ∧ subtract = false)) :
    OnlyArithmetic [w, wpre w] 2 v (v.clearExceptions.addFloat w subtract o) ∧
      ∃ af : BitVec 39,
        af.toInt = (if subtract then (alignedRegister o.register d).toInt - (aligned o.storage d.toNat).toInt
          else (alignedRegister o.register d).toInt + (aligned o.storage d.toNat).toInt) ∧
        HoldsRounded w af (BitVec.signExtend 13 (if d < 0 then o.exponent else v.registerExponent w)) v
          (v.clearExceptions.addFloat w subtract o) := by
  have hfits := alignedRegister_fits o.register d
  have hfits' := aligned_fits o.storage d.toNat
  rw [State.addFloat_aligned (by simpa using hd) h hexit, State.registerExponent_clearExceptions]
  refine ⟨.finishFloat w _ hmodifier _, _, ?_, .finishFloat v w _ _⟩
  cases subtract
  · exact toInt_add_of_fits hfits hfits'
  · exact toInt_sub_of_fits hfits hfits'

end

/-- Settles O38: the early exits store one operand as it is, the rest is an exact sum or difference, rounded. -/
theorem addAndSubtractFloating : Obligations.AddAndSubtractFloating := by
  intro s v f a o d x y hoperand hfetch hd hx hy
  have hmodifier := hfetch.modifier
  rw [← toInt_alignedRegister] at hx
  rw [← toInt_aligned] at hy
  subst hx hy
  refine ⟨⟨_, exec_fa hoperand hfetch, ?_⟩, _, exec_fs hoperand hfetch, ?_⟩
  · by_cases hhigh : 38 ≤ d
    · rw [if_pos hhigh]
      exact addFloat_holds_register false hmodifier hd hhigh
    · rw [if_neg hhigh]
      by_cases hlow : d ≤ -38
      · rw [if_pos hlow]
        exact addFloat_holds_storage hmodifier hd hlow
      · rw [if_neg hlow]
        exact addFloat_holds_rounded false hmodifier hd (by omega) (fun h => hlow h.1)
  · by_cases hhigh : 38 ≤ d
    · rw [if_pos hhigh]
      exact addFloat_holds_register true hmodifier hd hhigh
    · rw [if_neg hhigh]
      exact addFloat_holds_rounded true hmodifier hd (by omega) (by simp)

end Sys2Proof.Machine
end

section
/-! PROOFS. Multiplication in floating point (O39), and its add-and-shift loop as a partial product that is truncated by
less than one unit of bit 37 in all (O40). -/

namespace Sys2Proof.Machine

/-! ## The loop -/

/-- AF and BF after `n` iterations of FM, for a multiplicand of number `y` in SF: AF holds the product with the multiplier's
last `n` digits, in the place of the digit that is next, truncated by less than a unit; BF the digits that are left
(R204). -/
structure PartialFraction (m : BitVec 36) (y : Int) (n : Nat) (af : BitVec 39) (bf : BitVec 36) : Prop where
  digits : bf.toNat = m.toNat / 2 ^ n
  range : (0 ≤ af.toInt ∧ af.toInt ≤ y) ∨ (y ≤ af.toInt ∧ af.toInt ≤ 0)
  low : af.toInt * 2 ^ n ≤ y * (m.toNat % 2 ^ n : Nat)
  high : y * (m.toNat % 2 ^ n : Nat) < (af.toInt + 1) * 2 ^ n

/-- The last digit of BF. -/
theorem getMsbD_last_digit (bf : BitVec 36) : bf.getMsbD 35 = decide (bf.toNat % 2 = 1) := by
  simp [BitVec.getMsbD, BitVec.getLsbD, Nat.testBit_eq_decide_div_mod_eq]

theorem partialFraction_zero (m : BitVec 36) (y : Int) : PartialFraction m y 0 0#39 m where
  digits := by simp
  range := by simpa using le_total 0 y
  low := by simp [Nat.mod_one]
  high := by simp [Nat.mod_one]

section
variable {m c : BitVec 36} {n : Nat} {af : BitVec 39} {bf : BitVec 36}

/-- The addition of one iteration does not overflow AF. -/
theorem PartialFraction.toInt_added (h : PartialFraction m (4 * c.toInt) n af bf) :
    (if bf.getMsbD 35 then af + (toSf c).signExtend 39 else af).toInt
      = af.toInt + (bf.toNat % 2 : Nat) * (4 * c.toInt) := by
  have hlt := c.toInt_lt
  have hle := c.le_toInt
  have hrange := h.range
  rw [getMsbD_last_digit]
  obtain hdigit | hdigit := Nat.mod_two_eq_zero_or_one bf.toNat
  · simp [hdigit]
  · rw [if_pos (by simpa using hdigit), hdigit, BitVec.toInt_add, toInt_signExtend_toSf,
      Int.bmod_eq_of_le (by omega) (by omega)]
    simp

/-- An iteration takes the next digit of the multiplier into the product. -/
theorem PartialFraction.step (h : PartialFraction m (4 * c.toInt) n af bf) :
    PartialFraction m (4 * c.toInt) (n + 1)
      ((if bf.getMsbD 35 then af + (toSf c).signExtend 39 else af).sshiftRight 1) (bf >>> 1) := by
  have hadded := h.toInt_added
  have hhalf : ((if bf.getMsbD 35 then af + (toSf c).signExtend 39 else af).sshiftRight 1).toInt
      = (af.toInt + (bf.toNat % 2 : Nat) * (4 * c.toInt)) / 2 := by
    rw [BitVec.toInt_sshiftRight, Int.shiftRight_eq_div_pow, hadded]
    rfl
  generalize (if bf.getMsbD 35 then af + (toSf c).signExtend 39 else af).sshiftRight 1 = half at *
  generalize 4 * c.toInt = y at *
  obtain ⟨hdigits, hrange, hlow, hhigh⟩ := h
  have hdigit : bf.toNat % 2 = 0 ∨ bf.toNat % 2 = 1 := Nat.mod_two_eq_zero_or_one _
  have hproduct : y * (m.toNat % 2 ^ (n + 1) : Nat)
      = y * (m.toNat % 2 ^ n : Nat) + (bf.toNat % 2 : Nat) * y * 2 ^ n := by
    rw [Nat.mod_pow_succ, ← hdigits]
    push_cast
    ring
  have hunit : (0 : Int) ≤ 2 ^ n := by positivity
  have hbelow : half.toInt * 2 * 2 ^ n ≤ (af.toInt + (bf.toNat % 2 : Nat) * y) * 2 ^ n :=
    mul_le_mul_of_nonneg_right (by omega) hunit
  have habove : (af.toInt + (bf.toNat % 2 : Nat) * y) * 2 ^ n ≤ (half.toInt * 2 + 1) * 2 ^ n :=
    mul_le_mul_of_nonneg_right (by omega) hunit
  refine ⟨?_, ?_, ?_, ?_⟩
  · rw [BitVec.toNat_ushiftRight, Nat.shiftRight_eq_div_pow, hdigits, Nat.div_div_eq_div_mul, pow_succ]
    rfl
  · rcases hdigit with hdigit | hdigit <;> rw [hdigit] at hhalf <;> omega
  · rw [hproduct, pow_succ]
    linarith
  · rw [hproduct, pow_succ]
    linarith

theorem PartialFraction.steps (k : Nat) (h : PartialFraction m (4 * c.toInt) n af bf) :
    PartialFraction m (4 * c.toInt) (n + k) (multiplySteps (toSf c) k af bf).1 (multiplySteps (toSf c) k af bf).2 := by
  induction k generalizing n af bf with
  | zero => exact h
  | succ k ih =>
    rw [multiplySteps, Nat.add_comm k 1, ← Nat.add_assoc]
    exact ih h.step

/-! ## The sign digit -/

/-- The last digit of the multiplier has negative weight (R204). -/
theorem toInt_eq_digits (m : BitVec 36) :
    m.toInt = (m.toNat % 2 ^ 35 : Nat) - 2 ^ 35 * (m.toNat / 2 ^ 35 : Nat) := by
  have hlt := m.isLt
  rw [BitVec.toInt_eq_toNat_cond]
  split <;> omega

/-- The last subtraction does not overflow AF. -/
theorem PartialFraction.toInt_final (h : PartialFraction m (4 * c.toInt) 35 af bf) :
    (if bf.getMsbD 35 then af - (toSf c).signExtend 39 else af).toInt
      = af.toInt - (m.toNat / 2 ^ 35 : Nat) * (4 * c.toInt) := by
  have hlt := c.toInt_lt
  have hle := c.le_toInt
  have hm := m.isLt
  have hrange := h.range
  rw [getMsbD_last_digit, h.digits]
  obtain hdigit | hdigit : m.toNat / 2 ^ 35 = 0 ∨ m.toNat / 2 ^ 35 = 1 := by omega
  · rw [hdigit, if_neg (by decide)]
    simp
  · rw [hdigit, if_pos (by decide), BitVec.toInt_sub, toInt_signExtend_toSf,
      Int.bmod_eq_of_le (by omega) (by omega)]
    simp

end

/-- The fraction product is truncated downward by less than one unit of bit 37: each shift loses at most half a unit, and
the shifts after it halve what has been lost. -/
theorem multiplyFractions_truncation (m c : BitVec 36) :
    (multiplyFractions m (toSf c)).toInt * 2 ^ 35 ≤ m.toInt * (4 * c.toInt) ∧
      m.toInt * (4 * c.toInt) < ((multiplyFractions m (toSf c)).toInt + 1) * 2 ^ 35 := by
  have hsteps := (partialFraction_zero m (4 * c.toInt)).steps 35
  rw [zero_add] at hsteps
  have hfinal : (multiplyFractions m (toSf c)).toInt = _ := hsteps.toInt_final
  obtain ⟨-, -, hlow, hhigh⟩ := hsteps
  rw [hfinal, toInt_eq_digits m]
  constructor <;> linarith

/-- Settles O40: the truncation is by less than one unit, and so by less than 35. -/
theorem fractionProductTruncation : Obligations.FractionProductTruncation := by
  intro m c
  obtain ⟨hlow, hhigh⟩ := multiplyFractions_truncation m c
  exact ⟨hlow, by omega⟩

/-! ## FM -/

theorem exec_fm {s v : State} {f : Fields} {a : Word} {o : FloatOperands} (h : Operand s f a)
    (ho : s.fetchesOperands f a o v) : exec (.fm f) s = .next (v.clearExceptions.multiplyFloat f.w o) :=
  exec_of_floating (i := .fm f) (operation := fun o s => s.multiplyFloat f.w o) (fun _ => rfl) h ho

/-- The exponents are added in 13 bits, which hold every sum (R204). -/
theorem State.multiplyFloat_eq (s : State) (w : WReg) (o : FloatOperands) :
    s.multiplyFloat w o = s.finishFloat w (multiplyFractions o.register (toSf o.storage))
      (BitVec.ofInt 13 ((s.registerExponent w).toInt + o.exponent.toInt)) := by
  rw [BitVec.ofInt_add]
  rfl

/-- Settles O39: the fraction product is normalized and rounded. -/
theorem multiplyFloating : Obligations.MultiplyFloating := by
  intro s v f a o hoperand hfetch
  refine ⟨_, exec_fm hoperand hfetch, ?_⟩
  rw [State.multiplyFloat_eq, State.registerExponent_clearExceptions]
  exact ⟨.finishFloat f.w _ hfetch.modifier _, .finishFloat v f.w _ _⟩

end Sys2Proof.Machine
end

section
/-! PROOFS. FD's loop (O44, O45). BF, as a number, takes in one digit in each cycle, so that the loop runs 35 cycles more
than digits repeat the first one; and while they do, the remainder is the dividend doubled again and again less a constant,
modulo 2**39, which must change its sign as soon as the dividend fills AF. -/

namespace Sys2Proof.Machine

/-! ## The quotient in BF -/

/-- The loop goes on while the quotient is not normalized (R205), said of its number: with the digits to come, the quotient
lies about `q + 1/2`. -/
theorem quotient_open_iff (bf : BitVec 36) :
    bf.getMsbD 0 = bf.getMsbD 1 ↔ (2 * bf.toInt + 1).natAbs < 2 ^ 35 := by
  rw [← not_iff_not, ← ne_eq, fraction_normalized_iff]
  omega

/-- A cycle takes one digit into BF. -/
theorem toInt_bf_cycle (sf : BitVec 38) {v : Division} (h : v.bf.getMsbD 0 = v.bf.getMsbD 1) :
    (divisionCycle sf v).bf.toInt = 2 * v.bf.toInt + v.digit.toInt := by
  rw [quotient_open_iff] at h
  have hsum : (divisionCycle sf v).bf = v.bf * 2#36 + (if v.digit then 1#36 else 0#36) := by
    have hdisjoint : v.bf <<< 1 &&& (if v.digit then 1#36 else 0#36) = 0#36 := by
      cases v.digit
      · exact BitVec.and_zero
      · ext i hi
        cases i <;> simp
    rw [show v.bf * 2#36 = v.bf <<< 1 by rw [BitVec.shiftLeft_eq_mul_twoPow]; rfl,
      BitVec.add_eq_or_of_and_eq_zero _ _ hdisjoint]
    rfl
  have hdigit : (if v.digit then 1#36 else 0#36).toInt = v.digit.toInt := by cases v.digit <;> rfl
  have hrange : 0 ≤ v.digit.toInt ∧ v.digit.toInt ≤ 1 := by cases v.digit <;> decide
  rw [hsum, BitVec.toInt_add, BitVec.toInt_mul, Int.bmod_add_bmod, hdigit, show (2#36).toInt = 2 by rfl,
    Int.bmod_eq_of_le (by omega) (by omega), mul_comm]

/-- The registers after `k` cycles. -/
def afterCycles (sf : BitVec 38) (k : Nat) (v : Division) : Division := (divisionCycle sf)^[k] v

@[simp] theorem afterCycles_zero (sf : BitVec 38) (v : Division) : afterCycles sf 0 v = v := rfl

theorem afterCycles_succ (sf : BitVec 38) (k : Nat) (v : Division) :
    afterCycles sf (k + 1) v = divisionCycle sf (afterCycles sf k v) := Function.iterate_succ_apply' _ _ _

/-- SC counts the cycles (R205). -/
theorem afterCycles_sc (sf : BitVec 38) (k : Nat) (v : Division) :
    (afterCycles sf k v).sc = v.sc + BitVec.ofInt 13 (-k) := by
  induction k with
  | zero => simp
  | succ k ih =>
    rw [afterCycles_succ, Nat.cast_succ, neg_add, ← add_ofInt_add_ofInt, ← ih]
    exact BitVec.sub_eq_add_neg _ _

/-- The quotient is not normalized before cycle `k` (R205). -/
def OpenBefore (sf : BitVec 38) (k : Nat) (v : Division) : Prop :=
  ∀ i < k, (afterCycles sf i v).bf.getMsbD 0 = (afterCycles sf i v).bf.getMsbD 1

/-- The loop ends with the first cycle that leaves a normalized quotient, if there is fuel for it. -/
theorem divisionLoop_eq_some {sf : BitVec 38} {k fuel : Nat} {v : Division} (hfuel : k ≤ fuel)
    (hopen : OpenBefore sf k v)
    (hend : (afterCycles sf k v).bf.getMsbD 0 ≠ (afterCycles sf k v).bf.getMsbD 1) :
    divisionLoop sf fuel v = some (afterCycles sf k v) := by
  induction k generalizing v fuel with
  | zero => cases fuel <;> exact if_neg hend
  | succ k ih =>
    obtain ⟨fuel, rfl⟩ : ∃ n, fuel = n + 1 := ⟨fuel - 1, by omega⟩
    have hfirst : v.bf.getMsbD 0 = v.bf.getMsbD 1 := hopen 0 (by omega)
    rw [divisionLoop, if_pos hfirst]
    exact ih (by omega) (fun i hi => hopen (i + 1) (by omega)) hend

/-! ## The first digit that differs -/

section
variable {sf : BitVec 38} {v : Division} {b : Bool} {k : Nat}

/-- While the digits repeat the first one, BF keeps its number: 0, or -1 for digits of one. -/
theorem toInt_bf_of_repeats (hstart : v.bf.toInt = -b.toInt) (hrun : ∀ i < k, (afterCycles sf i v).digit = b) :
    (afterCycles sf k v).bf.toInt = -b.toInt := by
  induction k with
  | zero => exact hstart
  | succ k ih =>
    have hbf := ih fun i hi => hrun i (by omega)
    have hopen : (afterCycles sf k v).bf.getMsbD 0 = (afterCycles sf k v).bf.getMsbD 1 := by
      rw [quotient_open_iff, hbf]
      cases b <;> decide
    rw [afterCycles_succ, toInt_bf_cycle sf hopen, hbf, hrun k (by omega)]
    ring

theorem openBefore_of_repeats (hstart : v.bf.toInt = -b.toInt) (hrun : ∀ i < k, (afterCycles sf i v).digit = b) :
    OpenBefore sf (k + 1) v := fun i hi => by
  rw [quotient_open_iff, toInt_bf_of_repeats hstart fun l hl => hrun l (by omega)]
  cases b <;> decide

/-- From the first digit that differs on, every cycle doubles the quotient; the 35th normalizes it. -/
theorem quotient_after_change (hstart : v.bf.toInt = -b.toInt) (hrun : ∀ i < k, (afterCycles sf i v).digit = b)
    (hchange : (afterCycles sf k v).digit = !b) {m : Nat} (hm : m ≤ 34) :
    2 ^ (m + 1) < (2 * (afterCycles sf (k + 1 + m) v).bf.toInt + 1).natAbs ∧
      (2 * (afterCycles sf (k + 1 + m) v).bf.toInt + 1).natAbs < 2 ^ (m + 2) := by
  induction m with
  | zero =>
    have hbf := toInt_bf_of_repeats hstart hrun
    have hopen := openBefore_of_repeats hstart hrun k (by omega)
    rw [Nat.add_zero, afterCycles_succ, toInt_bf_cycle sf hopen, hbf, hchange]
    cases b <;> decide
  | succ m ih =>
    obtain ⟨hlow, hhigh⟩ := ih (by omega)
    have hpow : 2 ^ (m + 2) ≤ 2 ^ 35 := Nat.pow_le_pow_right (by decide) (by omega)
    have hopen := (quotient_open_iff _).mpr (hhigh.trans_le hpow)
    have hdigit : ∀ c : Bool, c.toInt = 0 ∨ c.toInt = 1 := by decide
    have hdigit := hdigit (afterCycles sf (k + 1 + m) v).digit
    rw [← Nat.add_assoc, afterCycles_succ, toInt_bf_cycle sf hopen]
    rw [pow_succ] at hlow hhigh ⊢
    rw [pow_succ 2 (m + 2), pow_succ 2 (m + 1)]
    omega

/-- The loop runs 35 cycles more than digits repeat the first one. -/
theorem divisionLoop_of_change (hstart : v.bf.toInt = -b.toInt) (hrun : ∀ i < k, (afterCycles sf i v).digit = b)
    (hchange : (afterCycles sf k v).digit = !b) :
    OpenBefore sf (k + 35) v ∧
      (afterCycles sf (k + 35) v).bf.getMsbD 0 ≠ (afterCycles sf (k + 35) v).bf.getMsbD 1 := by
  refine ⟨fun i hi => ?_, fun h => ?_⟩
  · by_cases hle : i ≤ k
    · exact openBefore_of_repeats hstart hrun i (by omega)
    · rw [quotient_open_iff]
      obtain ⟨m, rfl⟩ : ∃ m, i = k + 1 + m := ⟨i - (k + 1), by omega⟩
      obtain ⟨-, hhigh⟩ := quotient_after_change hstart hrun hchange (m := m) (by omega)
      exact hhigh.trans_le (Nat.pow_le_pow_right (by decide) (by omega))
  · obtain ⟨hlow, -⟩ := quotient_after_change hstart hrun hchange (m := 34) le_rfl
    exact absurd ((quotient_open_iff _).mp h) hlow.le.not_gt

end

/-! ## The partial remainder in AF -/

/-- Twice the dividend for every cycle, less the digits of the quotient times the divisor, in units of AF. -/
def partialRemainder (n d : BitVec 36) (k : Nat) (q : Int) : Int := 4 * (2 ^ k * n.toInt - (2 * q + 1) * d.toInt)

/-- AF and the digit to come after `k` cycles. AF holds the partial remainder doubled, as far as 39 bits hold it: of
operands that are not normalized it holds this only modulo 2**39 (R206). -/
structure HoldsRemainder (n d : BitVec 36) (k : Nat) (v : Division) : Prop where
  af : v.af = BitVec.ofInt 39 (partialRemainder n d k v.bf.toInt * 2)
  digit : v.digit = sameSign (BitVec.ofInt 39 (partialRemainder n d k v.bf.toInt)) (toSf d)

/-- The signs agree when the numbers' signs do. -/
theorem sameSign_ofInt {x : Int} (d : BitVec 36) (hle : -2 ^ 38 ≤ x) (hlt : x < 2 ^ 38) :
    sameSign (BitVec.ofInt 39 x) (toSf d) = decide (x < 0 ↔ d.toInt < 0) := by
  have hvalue : (BitVec.ofInt 39 x).toInt = x := BitVec.toInt_ofInt_eq_self (by decide) hle hlt
  have hd := d.toInt_lt
  have hd' := d.le_toInt
  rw [sameSign, getMsbD_eq_decide_toInt _ (by decide), getMsbD_eq_decide_toInt _ (by decide), hvalue, toInt_toSf,
    Bool.eq_iff_iff, beq_iff_eq, decide_eq_decide, decide_eq_true_eq]
  omega

theorem ofInt_shiftLeft_one (x : Int) : BitVec.ofInt 39 x <<< 1 = BitVec.ofInt 39 (x * 2) := by
  rw [BitVec.shiftLeft_eq_mul_twoPow, BitVec.ofInt_mul]
  rfl

theorem toAf_eq_ofInt (fraction : BitVec 36) : toAf fraction = BitVec.ofInt 39 (4 * fraction.toInt) := by
  rw [← toInt_toAf, BitVec.ofInt_toInt]

/-- The divisor is subtracted for a digit of one and added for a digit of zero (R205). -/
theorem subtract_or_add_divisor (x : Int) (d : BitVec 36) (digit : Bool) :
    (if digit then BitVec.ofInt 39 x - (toSf d).signExtend 39 else BitVec.ofInt 39 x + (toSf d).signExtend 39)
      = BitVec.ofInt 39 (x + if digit then -(4 * d.toInt) else 4 * d.toInt) := by
  rw [signExtend_toSf, toAf_eq_ofInt, BitVec.ofInt_add]
  cases digit
  · rfl
  · rw [if_pos rfl, if_pos rfl, BitVec.ofInt_neg, BitVec.sub_eq_add_neg]

theorem partialRemainder_succ (n d : BitVec 36) (k : Nat) (q : Int) (digit : Bool) :
    partialRemainder n d (k + 1) (2 * q + digit.toInt)
      = partialRemainder n d k q * 2 + if digit then -(4 * d.toInt) else 4 * d.toInt := by
  rw [partialRemainder, partialRemainder, pow_succ]
  cases digit <;> simp <;> ring

section
variable {n d : BitVec 36}

/-- A cycle doubles the remainder and takes off or puts on the divisor. -/
theorem HoldsRemainder.cycle {k : Nat} {v : Division} (h : HoldsRemainder n d k v)
    (hopen : v.bf.getMsbD 0 = v.bf.getMsbD 1) : HoldsRemainder n d (k + 1) (divisionCycle (toSf d) v) := by
  obtain ⟨haf, -⟩ := h
  have hbf := toInt_bf_cycle (toSf d) hopen
  have hrest := subtract_or_add_divisor (partialRemainder n d k v.bf.toInt * 2) d v.digit
  rw [← haf, ← partialRemainder_succ, ← hbf] at hrest
  refine ⟨?_, ?_⟩
  · rw [← ofInt_shiftLeft_one, ← hrest]
    rfl
  · rw [← hrest]
    rfl

theorem HoldsRemainder.cycles {k : Nat} {v : Division} (h : HoldsRemainder n d 0 v) (hopen : OpenBefore (toSf d) k v) :
    HoldsRemainder n d k (afterCycles (toSf d) k v) := by
  induction k with
  | zero => exact h
  | succ k ih =>
    rw [afterCycles_succ]
    exact (ih fun i hi => hopen i (by omega)).cycle (hopen k (by omega))

/-! ## The start of the division -/

/-- The first quotient digit, which is the quotient's sign (R205). -/
def firstDigit (n d : BitVec 36) : Bool := decide ¬(n.toInt < 0 ↔ d.toInt < 0)

theorem firstDigit_cases (n d : BitVec 36) :
    (firstDigit n d = false ∧ (n.toInt < 0 ↔ d.toInt < 0)) ∨
      (firstDigit n d = true ∧ ¬(n.toInt < 0 ↔ d.toInt < 0)) := by
  by_cases h : n.toInt < 0 ↔ d.toInt < 0
  · exact .inl ⟨decide_eq_false (not_not_intro h), h⟩
  · exact .inr ⟨decide_eq_true h, h⟩

theorem sameSign_operands (n d : BitVec 36) : sameSign (toAf n) (toSf d) = !firstDigit n d := by
  have hlt := n.toInt_lt
  have hle := n.le_toInt
  rw [toAf_eq_ofInt, sameSign_ofInt d (by omega) (by omega), firstDigit, decide_not, Bool.not_not, decide_eq_decide]
  omega

theorem toInt_bf_divisionStart (n d : BitVec 36) (sc : BitVec 13) :
    (divisionStart (toAf n) (toSf d) sc).bf.toInt = -(firstDigit n d).toInt := by
  rw [divisionStart, sameSign_operands]
  cases firstDigit n d <;> rfl

/-- The remainder while the digits repeat the first one: the divisor has been taken off or put on once, to the place of the
last digit. -/
theorem partialRemainder_firstDigit (n d : BitVec 36) (k : Nat) :
    partialRemainder n d k (-(firstDigit n d).toInt)
      = 4 * n.toInt * 2 ^ k + if firstDigit n d then 4 * d.toInt else -(4 * d.toInt) := by
  rw [partialRemainder]
  cases firstDigit n d <;> simp <;> ring

theorem holdsRemainder_start (n d : BitVec 36) (sc : BitVec 13) :
    HoldsRemainder n d 0 (divisionStart (toAf n) (toSf d) sc) := by
  have hbf := toInt_bf_divisionStart n d sc
  have hfirst := partialRemainder_firstDigit n d 0
  have hrange : -2 ^ 37 ≤ partialRemainder n d 0 (-(firstDigit n d).toInt) ∧
      partialRemainder n d 0 (-(firstDigit n d).toInt) < 2 ^ 37 := by
    have hn := n.toInt_lt
    have hn' := n.le_toInt
    have hd := d.toInt_lt
    have hd' := d.le_toInt
    rw [hfirst]
    obtain ⟨hdigit, hsign⟩ | ⟨hdigit, hsign⟩ := firstDigit_cases n d
    · rw [if_neg (by simp [hdigit])]
      omega
    · rw [if_pos hdigit]
      omega
  have hrest := subtract_or_add_divisor (4 * n.toInt) d (sameSign (toAf n) (toSf d))
  have hvalue : (4 * n.toInt + if sameSign (toAf n) (toSf d) then -(4 * d.toInt) else 4 * d.toInt)
      = partialRemainder n d 0 (-(firstDigit n d).toInt) := by
    rw [hfirst, sameSign_operands]
    cases firstDigit n d <;> simp
  rw [hvalue, ← toAf_eq_ofInt] at hrest
  have haf : (divisionStart (toAf n) (toSf d) sc).af
      = BitVec.ofInt 39 (partialRemainder n d 0 (-(firstDigit n d).toInt) * 2) := by
    rw [← ofInt_shiftLeft_one, ← hrest]
    rfl
  refine ⟨by rw [haf, hbf], ?_⟩
  have hdigit : (divisionStart (toAf n) (toSf d) sc).digit
      = sameSign (divisionStart (toAf n) (toSf d) sc).af (toSf d) := rfl
  rw [hdigit, haf, hbf, sameSign_ofInt d (by omega) (by omega), sameSign_ofInt d (by omega) (by omega), decide_eq_decide]
  omega

/-- The registers before the first cycle: BF holds the first digit as its sign, AF the first remainder (R205). -/
structure StartsDivision (n d : BitVec 36) (v : Division) : Prop where
  bf : v.bf.toInt = -(firstDigit n d).toInt
  remainder : HoldsRemainder n d 0 v

theorem startsDivision (n d : BitVec 36) (sc : BitVec 13) :
    StartsDivision n d (divisionStart (toAf n) (toSf d) sc) :=
  ⟨toInt_bf_divisionStart n d sc, holdsRemainder_start n d sc⟩

/-! ## The end of the loop -/

section
variable {v : Division} {af : BitVec 39} {m : Nat} (hv : StartsDivision n d v) (haf : AfNormalized af)
  (hm : af.toInt = 4 * n.toInt * 2 ^ m)
include hv haf hm

/-- Where the dividend has been doubled until it fills AF, it outweighs the divisor, and the remainder has its sign. -/
theorem digit_of_repeats (hrun : ∀ i < m + 1, (afterCycles (toSf d) i v).digit = firstDigit n d) :
    (afterCycles (toSf d) (m + 1) v).digit = !firstDigit n d := by
  obtain ⟨⟨hle, hlt⟩, hlarge⟩ := haf
  have hd := d.toInt_lt
  have hd' := d.le_toInt
  have hopen : OpenBefore (toSf d) (m + 1) v := fun i hi => openBefore_of_repeats hv.bf hrun i (by omega)
  obtain ⟨-, hdigit⟩ := hv.remainder.cycles hopen
  have hsign : af.toInt < 0 ↔ n.toInt < 0 := by
    have hpower : (0 : Int) < 2 ^ m := by positivity
    rw [hm]
    constructor <;> intro h <;> nlinarith
  rw [hdigit, toInt_bf_of_repeats hv.bf hrun, partialRemainder_firstDigit, pow_succ, ← mul_assoc, ← hm]
  obtain ⟨hfirst, hsame⟩ | ⟨hfirst, hdiffer⟩ := firstDigit_cases n d
  · rw [hfirst, if_neg (by decide), sameSign_ofInt d (by omega) (by omega)]
    exact decide_eq_true (by omega)
  · rw [hfirst, if_pos rfl, sameSign_ofInt d (by omega) (by omega)]
    exact decide_eq_false (by omega)

/-- The digits do not repeat the first one for more cycles than it takes to normalize the dividend. -/
theorem exists_change :
    ∃ k, k ≤ m + 1 ∧ (∀ i < k, (afterCycles (toSf d) i v).digit = firstDigit n d) ∧
      (afterCycles (toSf d) k v).digit = !firstDigit n d := by
  by_cases hrun : ∀ i < m + 1, (afterCycles (toSf d) i v).digit = firstDigit n d
  · exact ⟨m + 1, le_rfl, hrun, digit_of_repeats hv haf hm hrun⟩
  · have hother : ∃ i, i < m + 1 ∧ (afterCycles (toSf d) i v).digit ≠ firstDigit n d := by simpa using hrun
    obtain ⟨hlt, hne⟩ := Nat.find_spec hother
    refine ⟨Nat.find hother, hlt.le, fun i hi => ?_, Bool.eq_not.mpr hne⟩
    by_contra h
    exact Nat.find_min hother hi ⟨by omega, h⟩

/-- The loop on a dividend that `m` left shifts normalize ends after at least 35 and at most `36 + m` cycles. -/
theorem division_ends :
    ∃ k, k ≤ m + 1 ∧ OpenBefore (toSf d) (k + 35) v ∧
      (afterCycles (toSf d) (k + 35) v).bf.getMsbD 0 ≠ (afterCycles (toSf d) (k + 35) v).bf.getMsbD 1 := by
  obtain ⟨k, hk, hrun, hchange⟩ := exists_change hv haf hm
  exact ⟨k, hk, divisionLoop_of_change hv.bf hrun hchange⟩

end

/-- The loop on a normalized dividend ends after 35 or 36 cycles (R206). -/
theorem division_ends_normalized {v : Division} (hv : StartsDivision n d v) (hn : n.getMsbD 0 ≠ n.getMsbD 1) :
    ∃ k, k ≤ 1 ∧ OpenBefore (toSf d) (k + 35) v ∧
      (afterCycles (toSf d) (k + 35) v).bf.getMsbD 0 ≠ (afterCycles (toSf d) (k + 35) v).bf.getMsbD 1 :=
  division_ends (m := 0) hv (toAf_normalized hn) (by rw [toInt_toAf, pow_zero, mul_one])

end

/-- Settles O44: a dividend that is not zero takes at most 35 shifts to normalize, so the loop ends within 71 cycles. -/
theorem divisionLoopEnds : Obligations.DivisionLoopEnds := by
  intro n d sc hn _
  have hnonzero : n.toInt ≠ 0 := fun h => hn (by rw [BitVec.eq_of_toInt_eq (h.trans BitVec.toInt_zero.symm)]; rfl)
  have haf : toAf n ≠ 0#39 := fun h => hn (by rw [(toAf_eq_zero_iff n).mp h]; rfl)
  obtain ⟨m, -, hm, hnormal, -⟩ := normalizeOnce_fits 0#13 (toAf_fits n) haf
  rw [toInt_toAf] at hm
  have hcount : 2 + m ≤ 37 := by
    obtain ⟨⟨hle, hlt⟩, -⟩ := hnormal
    refine le_of_mul_pow_le (Int.natAbs_ne_zero.mpr hnonzero) ?_
    rw [← natAbs_mul_two_pow, show n.toInt * 2 ^ (2 + m) = 4 * n.toInt * 2 ^ m by ring]
    omega
  obtain ⟨k, hk, hopen, hend⟩ := division_ends (startsDivision n d sc) hnormal hm
  exact ⟨_, divisionLoop_eq_some (by rw [divisionFuel]; omega) hopen hend⟩

/-- Settles O45: the second or the third digit differs from the first one. -/
theorem divisionCycles : Obligations.DivisionCycles := by
  intro n d sc hn _
  obtain ⟨k, hk, hopen, hend⟩ := division_ends_normalized (startsDivision n d sc) hn
  refine ⟨_, divisionLoop_eq_some (by rw [divisionFuel]; omega) hopen hend, ?_⟩
  rw [afterCycles_sc, BitVec.ofInt_neg, BitVec.ofInt_natCast, ← BitVec.sub_eq_add_neg]
  obtain rfl | rfl : k = 0 ∨ k = 1 := by omega
  · exact .inl rfl
  · exact .inr rfl

end Sys2Proof.Machine
end

section
/-! PROOFS. Division in floating point: which of its branches FD takes (O42), and the error of the quotient of normalized
operands, for which AF holds the partial remainder exactly (O43). -/

namespace Sys2Proof.Machine

/-! ## FD's branches -/

theorem divisorRejected_iff (c : Config) (storage : BitVec 36) :
    divisorRejected c storage = true ↔
      firstWord storage = 0#24 ∨ (c.fdRejectsUnnormalized = true ∧ storage.getMsbD 0 = storage.getMsbD 1) := by
  simp [divisorRejected]

section
variable {s : State} {w : WReg} {o : FloatOperands}

theorem State.divideFloat_rejected (h : divisorRejected s.cfg o.storage = true) :
    s.divideFloat w o = s.floatingOverflow := if_pos h

theorem State.divideFloat_zero (h : divisorRejected s.cfg o.storage = false) (hzero : firstWord o.register = 0#24) :
    s.divideFloat w o = s.setReg w (leftByte (s.reg w) ++ zeroExponent) := by
  rw [State.divideFloat, h, if_neg (by decide), if_pos hzero]

theorem State.divideFloat_fractions (h : divisorRejected s.cfg o.storage = false) (hne : firstWord o.register ≠ 0#24) :
    s.divideFloat w o = s.divideFractions w o := by
  rw [State.divideFloat, h, if_neg (by decide), if_neg hne]

/-- The exponents are subtracted in 13 bits, with the constant 36 (R205; D12). -/
theorem divisionExponent_eq (e e' : Byte) :
    e.signExtend 13 - e'.signExtend 13 + 36#13 = BitVec.ofInt 13 (e.toInt - e'.toInt + 36) := by
  rw [BitVec.ofInt_add, Int.sub_eq_add_neg, BitVec.ofInt_add, BitVec.ofInt_neg, ← BitVec.sub_eq_add_neg]
  rfl

/-- Whether or not the loop ends, something is normalized and rounded; if it ends, the quotient that it leaves (R205,
R206). -/
theorem State.divideFractions_eq (s : State) (w : WReg) (o : FloatOperands) :
    ∃ (af : BitVec 39) (sc : BitVec 13), s.divideFractions w o = s.finishFloat w af sc ∧
      ∀ q, divisionLoop (toSf o.storage) divisionFuel (divisionStart (toAf o.register) (toSf o.storage)
          (BitVec.ofInt 13 ((s.registerExponent w).toInt - o.exponent.toInt + 36))) = some q →
        af = quotientAf q (toSf o.storage) ∧ sc = q.sc := by
  unfold State.divideFractions
  rw [divisionExponent_eq]
  dsimp only
  split
  next q hloop =>
    refine ⟨_, _, rfl, fun q' hq' => ?_⟩
    rw [hloop] at hq'
    cases hq'
    exact ⟨rfl, rfl⟩
  next hloop =>
    refine ⟨_, _, rfl, fun q' hq' => ?_⟩
    rw [hloop] at hq'
    cases hq'

end

theorem exec_fd {s v : State} {f : Fields} {a : Word} {o : FloatOperands} (h : Operand s f a)
    (ho : s.fetchesOperands f a o v) : exec (.fd f) s = .next (v.clearExceptions.divideFloat f.w o) :=
  exec_of_floating (i := .fd f) (operation := fun o s => s.divideFloat f.w o) (fun _ => rfl) h ho

/-- Settles O42: the tests of the two first words in FD's order, then the loop. -/
theorem divideFloating : Obligations.DivideFloating := by
  intro s v f a o hoperand hfetch
  have hmodifier := hfetch.modifier
  have hcfg : v.clearExceptions.cfg = s.cfg := by
    obtain ⟨rfl, -⟩ := hfetch
    simp [State.atOperand]
  have hiff := divisorRejected_iff s.cfg o.storage
  rw [← hcfg] at hiff ⊢
  split
  next hrejected =>
    refine ⟨_, exec_fd hoperand hfetch, ?_⟩
    rw [State.divideFloat_rejected (hiff.mpr hrejected)]
    exact ⟨.floatingOverflow v, (OnlyArithmetic.clearExceptions [] 2 hmodifier).floatingOverflow⟩
  next haccepted =>
    have haccepted := Bool.eq_false_of_not_eq_true (mt hiff.mp haccepted)
    split
    next hzero =>
      refine ⟨_, exec_fd hoperand hfetch, ?_⟩
      rw [State.divideFloat_zero haccepted hzero, State.registerExponent, State.reg_setReg_self, rightByte_append,
        leftByte_append, State.reg_clearExceptions]
      exact ⟨rfl, rfl, (FlagsAre.cleared 2 v).congr (by simp) (by simp),
        (OnlyArithmetic.clearExceptions [f.w] 2 hmodifier).setReg (by simp) _⟩
    next hne =>
      obtain ⟨af, sc, heq, hloop⟩ := v.clearExceptions.divideFractions_eq f.w o
      rw [State.registerExponent_clearExceptions] at hloop
      refine ⟨_, exec_fd hoperand hfetch, ?_⟩
      rw [State.divideFloat_fractions haccepted hne, heq]
      refine ⟨.finishFloat f.w _ hmodifier _, fun q hq => ?_⟩
      obtain ⟨rfl, rfl⟩ := hloop q hq
      exact .finishFloat v f.w _ _

/-! ## The remainder of normalized operands -/

/-- A normalized fraction is not zero in its first word (R191). -/
theorem firstWord_ne_zero {fraction : BitVec 36} (h : fraction.getMsbD 0 ≠ fraction.getMsbD 1) :
    firstWord fraction ≠ 0#24 := by
  intro hzero
  have hbit : ∀ i < 24, (firstWord fraction).getMsbD i = fraction.getMsbD i := fun i hi => by
    have hlast : 23 - i < 24 := by omega
    simp [firstWord, BitVec.getMsbD, hi, hlast, show i < 36 by omega, show 12 + (23 - i) = 35 - i by omega]
  apply h
  rw [← hbit 0 (by decide), ← hbit 1 (by decide), hzero]
  rfl

/-- The remainder is never larger than a normalized divisor, so that AF holds it doubled (R205). -/
theorem partialRemainder_small {n d : BitVec 36} {v : Division} {k : Nat} (hv : StartsDivision n d v)
    (hd : d.getMsbD 0 ≠ d.getMsbD 1) (hopen : OpenBefore (toSf d) k v) :
    -(4 * d.toInt.natAbs : Int) ≤ partialRemainder n d k (afterCycles (toSf d) k v).bf.toInt ∧
      partialRemainder n d k (afterCycles (toSf d) k v).bf.toInt < 4 * d.toInt.natAbs := by
  rw [fraction_normalized_iff] at hd
  have hd_lt := d.toInt_lt
  have hd_le := d.le_toInt
  induction k with
  | zero =>
    have hn_lt := n.toInt_lt
    have hn_le := n.le_toInt
    rw [afterCycles_zero, hv.bf, partialRemainder_firstDigit]
    obtain ⟨hdigit, hsign⟩ | ⟨hdigit, hsign⟩ := firstDigit_cases n d
    · rw [if_neg (by simp [hdigit])]
      omega
    · rw [if_pos hdigit]
      omega
  | succ k ih =>
    have hopen' : OpenBefore (toSf d) k v := fun i hi => hopen i (by omega)
    obtain ⟨-, hdigit⟩ := hv.remainder.cycles hopen'
    obtain ⟨hlow, hhigh⟩ := ih hopen'
    rw [sameSign_ofInt d (by omega) (by omega)] at hdigit
    rw [afterCycles_succ, toInt_bf_cycle _ (hopen k (by omega)), partialRemainder_succ, hdigit]
    simp only [decide_eq_true_eq]
    split <;> omega

/-! ## The error of the quotient -/

/-- The last digit is the one to round by (R205). -/
def roundingDigit (n d : BitVec 36) (k : Nat) (q : Int) : Int :=
  if partialRemainder n d k q < 0 ↔ d.toInt < 0 then 1 else 0

theorem toInt_quotientAf (v : Division) (sf : BitVec 38) :
    (quotientAf v sf).toInt = 4 * v.bf.toInt + if sameSign v.af sf then 2 else 0 := by
  have happend : (quotientAf v sf).toInt
      = 2 ^ 2 * (v.bf.signExtend 37).toInt + (if sameSign v.af sf then 2#2 else 0#2).toNat :=
    BitVec.toInt_append
  rw [happend, BitVec.toInt_signExtend_of_le (by decide)]
  cases sameSign v.af sf <;> rfl

/-- What the loop leaves in AF is normalized, and is rounded to the quotient with its last digit added (R205). -/
theorem HoldsRemainder.quotientAf_rounds {n d : BitVec 36} {k : Nat} {v : Division} (h : HoldsRemainder n d k v)
    (hlow : -(4 * d.toInt.natAbs : Int) ≤ partialRemainder n d k v.bf.toInt)
    (hhigh : partialRemainder n d k v.bf.toInt < 4 * d.toInt.natAbs)
    (hend : v.bf.getMsbD 0 ≠ v.bf.getMsbD 1) :
    AfNormalized (quotientAf v (toSf d)) ∧
      ((quotientAf v (toSf d)).toInt + 2) / 4 = v.bf.toInt + roundingDigit n d k v.bf.toInt := by
  have hd_lt := d.toInt_lt
  have hd_le := d.le_toInt
  have hq_lt := v.bf.toInt_lt
  have hq_le := v.bf.le_toInt
  have hsign : sameSign v.af (toSf d) = decide (partialRemainder n d k v.bf.toInt < 0 ↔ d.toInt < 0) := by
    rw [h.af, sameSign_ofInt d (by omega) (by omega), decide_eq_decide]
    omega
  rw [fraction_normalized_iff] at hend
  rw [AfNormalized, AfFits, toInt_quotientAf, hsign, roundingDigit]
  simp only [decide_eq_true_eq]
  split <;> omega

/-- What the dividend in its place exceeds the rounded quotient times twice the divisor by. -/
def quotientError (n d : BitVec 36) (k : Nat) (q : Int) : Int :=
  2 ^ k * n.toInt - 2 * (q + roundingDigit n d k q) * d.toInt

/-- The error is at most half a unit of the quotient, and after rounding up the exact quotient is not above the rounded one. -/
theorem quotientError_bounds {n d : BitVec 36} {k : Nat} {q : Int}
    (hlow : -(4 * d.toInt.natAbs : Int) ≤ partialRemainder n d k q)
    (hhigh : partialRemainder n d k q < 4 * d.toInt.natAbs) :
    -(d.toInt.natAbs : Int) ≤ quotientError n d k q ∧ quotientError n d k q < d.toInt.natAbs ∧
      (roundingDigit n d k q = 1 → (0 ≤ quotientError n d k q ↔ d.toInt < 0)) := by
  have hexpand : partialRemainder n d k q = 4 * (2 ^ k * n.toInt - 2 * (q * d.toInt) - d.toInt) := by
    rw [partialRemainder]
    ring
  have hexpand' : quotientError n d k q
      = 2 ^ k * n.toInt - 2 * (q * d.toInt) - 2 * (roundingDigit n d k q * d.toInt) := by
    rw [quotientError]
    ring
  rw [hexpand', roundingDigit]
  split <;> omega

/-- The fraction of the rounded quotient of a normalized divisor is within half a unit of the exact one: where the
normalization after the rounding doubles it, the quotient was exactly -0.5, and where it halves it, half the error is left. -/
theorem rounded_quotient {n d fraction : BitVec 36} {q : Int} {i j : Nat} (hd : d.getMsbD 0 ≠ d.getMsbD 1)
    (hfraction : fraction.getMsbD 0 ≠ fraction.getMsbD 1)
    (hq : (2 ^ 34 ≤ q ∧ q < 2 ^ 35) ∨ (-2 ^ 35 ≤ q ∧ q < -2 ^ 34)) (hi : i ≤ 1) (hj : j ≤ 2)
    (hlow : -(4 * d.toInt.natAbs : Int) ≤ partialRemainder n d (i + 35) q)
    (hhigh : partialRemainder n d (i + 35) q < 4 * d.toInt.natAbs)
    (hround : fraction.toInt * 2 ^ j = 2 * (q + roundingDigit n d (i + 35) q)) :
    ∃ k, k ≤ 2 ∧ k + i = j + 1 ∧
      2 * (fraction.toInt * 2 ^ k * d.toInt - n.toInt * 2 ^ 36).natAbs ≤ d.toInt.natAbs * 2 ^ k := by
  have hn_lt := n.toInt_lt
  have hn_le := n.le_toInt
  have hd_lt := d.toInt_lt
  have hd_le := d.le_toInt
  have hf_lt := fraction.toInt_lt
  have hf_le := fraction.le_toInt
  rw [fraction_normalized_iff] at hd hfraction
  obtain ⟨hbelow, habove, hside⟩ := quotientError_bounds hlow hhigh
  rw [quotientError, ← hround] at hbelow habove hside
  have hdigit : roundingDigit n d (i + 35) q = 0 ∨ roundingDigit n d (i + 35) q = 1 := by
    rw [roundingDigit]
    split <;> simp
  generalize roundingDigit n d (i + 35) q = digit at *
  obtain rfl | rfl | rfl : j = 0 ∨ j = 1 ∨ j = 2 := by omega
  · obtain ⟨hvalue, hup⟩ : fraction.toInt = -2 ^ 35 ∧ digit = 1 := by omega
    have hside := hside hup
    rw [hvalue] at hbelow habove hside ⊢
    obtain rfl | rfl : i = 0 ∨ i = 1 := by omega
    · exact ⟨1, by decide, rfl, by omega⟩
    · exact ⟨0, by decide, rfl, by omega⟩
  · rw [mul_right_comm] at hbelow habove
    obtain rfl | rfl : i = 0 ∨ i = 1 := by omega
    · refine ⟨2, by decide, rfl, ?_⟩
      rw [mul_right_comm]
      omega
    · refine ⟨1, by decide, rfl, ?_⟩
      rw [mul_right_comm]
      omega
  · obtain rfl | rfl : i = 0 ∨ i = 1 := by omega
    · have hvalue : fraction.toInt = 2 ^ 34 := by omega
      rw [hvalue] at hbelow habove
      omega
    · refine ⟨2, by decide, rfl, ?_⟩
      rw [mul_right_comm] at hbelow habove ⊢
      omega

/-- The exponent test in 13 bits, for every exponent that FD can give (R196). -/
theorem fitsExponent_ofInt {e : Int} (hle : -4097 ≤ e) (hlt : e ≤ 4097) :
    fitsExponent (BitVec.ofInt 13 e).toInt = fitsExponent e := by
  rw [BitVec.toInt_ofInt, fitsExponent, fitsExponent, Int.bmod_def, Bool.eq_iff_iff]
  simp only [Bool.and_eq_true, decide_eq_true_eq]
  split <;> omega

/-- The loop on normalized operands, and the normalization and rounding of what it leaves: the quotient's fraction, `k`
places to the right of where the dividend is 36 places to the left, and SC (R205). -/
theorem normalizeAndRound_quotient {n d : BitVec 36} (sc : BitVec 13) (hn : n.getMsbD 0 ≠ n.getMsbD 1)
    (hd : d.getMsbD 0 ≠ d.getMsbD 1) :
    ∃ (v : Division) (result : BitVec 39 × BitVec 13) (k : Nat),
      divisionLoop (toSf d) divisionFuel (divisionStart (toAf n) (toSf d) sc) = some v ∧
      normalizeAndRound (quotientAf v (toSf d)) v.sc = result ∧ k ≤ 2 ∧
      result.2 = sc + BitVec.ofInt 13 (k - 37) ∧ AfNormalized result.1 ∧
      2 * ((afFraction result.1).toInt * 2 ^ k * d.toInt - n.toInt * 2 ^ 36).natAbs ≤ d.toInt.natAbs * 2 ^ k := by
  have hv := startsDivision n d sc
  have hsc : (divisionStart (toAf n) (toSf d) sc).sc = sc := rfl
  generalize divisionStart (toAf n) (toSf d) sc = start at *
  obtain ⟨i, hi, hopen, hend⟩ := division_ends_normalized hv hn
  have hcount := afterCycles_sc (toSf d) (i + 35) start
  have hholds := hv.remainder.cycles hopen
  obtain ⟨hlow, hhigh⟩ := partialRemainder_small hv hd hopen
  have hloop := divisionLoop_eq_some (fuel := divisionFuel) (by rw [divisionFuel]; omega) hopen hend
  generalize afterCycles (toSf d) (i + 35) start = v at *
  obtain ⟨hnormal, hround⟩ := hholds.quotientAf_rounds hlow hhigh hend
  obtain ⟨j, hj, hrounded, hfraction, hadjust⟩ := roundNormalized_spec v.sc hnormal
  have hq_lt := v.bf.toInt_lt
  have hq_le := v.bf.le_toInt
  rw [fraction_normalized_iff] at hend
  rw [hround] at hfraction
  obtain ⟨k, hk, hplace, herror⟩ :=
    rounded_quotient hd hrounded.fraction (by omega) hi hj hlow hhigh hfraction
  refine ⟨v, _, k, hloop, by rw [normalizeAndRound_eq, normalizeOnce_normalized _ hnormal], hk, ?_, hrounded, herror⟩
  rw [hadjust, hcount, hsc, add_ofInt_add_ofInt]
  congr 2
  push_cast
  omega

/-- Settles O43: FD's loop and the rounding of its quotient, neither rejected nor with a dividend of zero. -/
theorem divideFloatingError : Obligations.DivideFloatingError := by
  intro s v f a o hoperand hfetch hprecision hn hd
  have hdivide := divideFloating s v f a o hoperand hfetch
  have haccepted : ¬(firstWord o.storage = 0#24 ∨
      (s.cfg.fdRejectsUnnormalized = true ∧ o.storage.getMsbD 0 = o.storage.getMsbD 1)) := by
    rintro (hzero | ⟨-, hsame⟩)
    · exact firstWord_ne_zero hd hzero
    · exact hd hsame
  rw [if_neg haccepted, if_neg (firstWord_ne_zero hn)] at hdivide
  obtain ⟨t, hexec, hframe, hholds⟩ := hdivide
  obtain ⟨q, result, k, hloop, hresult, hk, hsc, hnormal, herror⟩ :=
    normalizeAndRound_quotient (BitVec.ofInt 13 ((v.registerExponent f.w).toInt - o.exponent.toInt + 36)) hn hd
  have hholds := hholds q hloop
  rw [HoldsRounded, hresult] at hholds
  obtain ⟨hfraction, hexponent, hflags⟩ := hholds
  have hfull : v.ex.getMsbD 0 = false := by
    obtain ⟨rfl, -⟩ := hfetch
    simpa [State.atOperand] using hprecision
  have hrange := (v.registerExponent f.w).toInt_lt
  have hrange' := (v.registerExponent f.w).le_toInt
  have hrange'' := o.exponent.toInt_lt
  have hrange''' := o.exponent.le_toInt
  rw [hfull, if_neg (by decide)] at hfraction
  rw [hsc, ← BitVec.ofInt_add] at hexponent hflags
  refine ⟨t, k, _, hexec, hk, rfl, ?_, ?_, ?_, ?_, hframe⟩
  · rw [hfraction]
    exact hnormal.fraction
  · rw [hfraction]
    exact herror
  · rw [hexponent, setWidth_ofInt _ (by decide)]
    congr 1
    ring
  · rw [fitsExponent_ofInt (by omega) (by omega)] at hflags
    convert hflags using 3
    ring

end Sys2Proof.Machine
end

section
/-! PROOFS. The logical operations LA, LO and LX (O46). -/

namespace Sys2Proof.Machine

/-! ## LA, LO and LX -/

section
variable {s : State} {f : Fields} {a : Word}

theorem exec_la (h : Operand s f a) :
    exec (.la f) s = .next ((s.atOperand f).setReg f.w ((s.atOperand f).reg f.w &&& (s.atOperand f).readWord a)) :=
  exec_of_operand (i := .la f) (fun _ => rfl) h

theorem exec_lo (h : Operand s f a) :
    exec (.lo f) s = .next ((s.atOperand f).setReg f.w ((s.atOperand f).reg f.w ||| (s.atOperand f).readWord a)) :=
  exec_of_operand (i := .lo f) (fun _ => rfl) h

theorem exec_lx (h : Operand s f a) :
    exec (.lx f) s = .next ((s.atOperand f).setReg f.w ((s.atOperand f).reg f.w ^^^ (s.atOperand f).readWord a)) :=
  exec_of_operand (i := .lx f) (fun _ => rfl) h

end

/-- Settles O46: each is the assignment of one register, of a combination of two words bit by bit. -/
theorem logicalOperations : Obligations.LogicalOperations := by
  rintro s u f a hoperand rfl
  have hframe := OnlyRegisters.setReg (s.atOperand_modifier f) f.w
  refine ⟨⟨_, exec_la hoperand, fun b _ => ?_, hframe _⟩, ⟨_, exec_lo hoperand, fun b _ => ?_, hframe _⟩,
    ⟨_, exec_lx hoperand, fun b _ => ?_, hframe _⟩⟩ <;> rw [State.reg_setReg_self]
  · exact BitVec.getMsbD_and
  · exact BitVec.getMsbD_or
  · exact BitVec.getMsbD_xor

end Sys2Proof.Machine
end

section
/-! PROOFS. Shifts and normalization (O47, O48, O49): single left shifts double the number of a register as long as its two
leftmost bits are equal, and lose a significant digit where they differ. -/

namespace Sys2Proof.Machine

/-! ## Numbers that fit a register -/

/-- Whether a number fits `w` digits and a sign: `fitsWord` is that for 23 digits, `fitsDouble` for 47. -/
def fitsSigned (w : Nat) (x : Int) : Bool := decide (-2 ^ w ≤ x) && decide (x < 2 ^ w)

theorem fitsWord_eq_fitsSigned : fitsWord = fitsSigned 23 := rfl

theorem fitsDouble_eq_fitsSigned : fitsDouble = fitsSigned 47 := rfl

theorem fitsSigned_iff {w : Nat} {x : Int} : fitsSigned w x = true ↔ -2 ^ w ≤ x ∧ x < 2 ^ w := by
  rw [fitsSigned, Bool.and_eq_true, decide_eq_true_iff, decide_eq_true_iff]

theorem fitsSigned_toInt {w : Nat} (v : BitVec (w + 1)) : fitsSigned w v.toInt = true :=
  fitsSigned_iff.mpr ⟨v.le_toInt, v.toInt_lt⟩

theorem fitsSigned_succ_mul_two (w : Nat) (x : Int) : fitsSigned (w + 1) (x * 2) = fitsSigned w x := by
  rw [Bool.eq_iff_iff, fitsSigned_iff, fitsSigned_iff, pow_succ]
  omega

/-- A number fits where a multiple of it by a power of two fits. -/
theorem fitsSigned_of_mul_two_pow {w k : Nat} {x : Int} (h : fitsSigned w (x * 2 ^ k) = true) :
    fitsSigned w x = true := by
  have hpow : (1 : Int) ≤ 2 ^ k := one_le_pow₀ (by decide)
  have hrange : (0 : Int) < 2 ^ w := by positivity
  rw [fitsSigned_iff] at h ⊢
  obtain ⟨hle, hlt⟩ := h
  constructor <;> nlinarith

/-! ## The two leftmost bits -/

section
variable {w : Nat} {v : BitVec (w + 2)}

/-- The two leftmost bits are equal when one digit less would hold the number. -/
theorem getMsbD_eq_iff_fitsSigned : v.getMsbD 0 = v.getMsbD 1 ↔ fitsSigned w v.toInt = true := by
  have hpow : (0 : Int) < 2 ^ w := by positivity
  have hle : -2 * 2 ^ w ≤ v.toInt := by simpa [pow_succ, mul_comm] using v.le_toInt
  have hlt : v.toInt < 2 * 2 ^ w := by simpa [pow_succ, mul_comm] using v.toInt_lt
  rw [← Int.le_ediv_iff_mul_le hpow] at hle
  rw [← Int.ediv_lt_iff_lt_mul hpow] at hlt
  have hfits : fitsSigned w v.toInt = true ↔ -1 ≤ v.toInt / 2 ^ w ∧ v.toInt / 2 ^ w < 1 := by
    rw [fitsSigned_iff, Int.le_ediv_iff_mul_le hpow, Int.ediv_lt_iff_lt_mul hpow, neg_one_mul, one_mul]
  have hsign : v.toInt / 2 ^ (w + 2 - 1 - 0) = v.toInt / 2 ^ w / 2 := by
    rw [Int.ediv_ediv_of_nonneg hpow.le, ← pow_succ]
    rfl
  rw [hfits, getMsbD_eq_decide_toInt v (by omega), getMsbD_eq_decide_toInt v (by omega), decide_eq_decide, hsign,
    show w + 2 - 1 - 1 = w by omega]
  omega

/-- No digit is lost: a left shift doubles the number. -/
theorem toInt_shiftLeft_one_of_fitsSigned (h : fitsSigned w v.toInt = true) : (v <<< 1).toInt = v.toInt * 2 := by
  rw [← fitsSigned_succ_mul_two, fitsSigned_iff] at h
  obtain ⟨hle, hlt⟩ := h
  have hdouble : (v <<< 1).toInt = (v.toInt * 2).bmod (2 ^ (w + 2)) := by
    rw [BitVec.toInt_shiftLeft, BitVec.toInt_eq_toNat_bmod v, Int.bmod_mul_bmod, Nat.shiftLeft_eq]
    rfl
  have hwidth : ((2 ^ (w + 2) : Nat) : Int) = 2 ^ (w + 1) * 2 := by
    push_cast
    ring
  rw [hdouble]
  exact Int.bmod_eq_of_le (by omega) (by omega)

end

/-! ## The shifts -/

/-- The count of R230, an effective address of magnitude 64 or more counting as 48. -/
theorem shiftCount_eq (a : Word) :
    shiftCount a = if 64 ≤ a.toInt.natAbs then 48 * a.toInt.sign else a.toInt := by
  unfold shiftCount
  rcases lt_trichotomy a.toInt 0 with hneg | hzero | hpos
  · rw [Int.sign_eq_neg_one_of_neg hneg]
    split <;> split <;> omega
  · simp [hzero]
  · rw [Int.sign_eq_one_of_pos hpos]
    split <;> split <;> omega

section
variable {n : Nat}

theorem shiftLeftTested_snd (k : Nat) (v : BitVec n) : (shiftLeftTested k v).2 = v <<< k := by
  induction k generalizing v with
  | zero => simp [shiftLeftTested]
  | succ k ih => rw [shiftLeftTested, ih, Nat.add_comm, BitVec.shiftLeft_add]

/-- A significant digit is lost in one of the shifts when the product does not fit the register (R231). -/
theorem shiftLeftTested_fst {w : Nat} (k : Nat) (v : BitVec (w + 2)) :
    (shiftLeftTested k v).1 = !fitsSigned (w + 1) (v.toInt * 2 ^ k) := by
  induction k generalizing v with
  | zero => simp [shiftLeftTested, fitsSigned_toInt]
  | succ k ih =>
    have hproduct : v.toInt * 2 ^ (k + 1) = v.toInt * 2 * 2 ^ k := by ring
    rw [shiftLeftTested, ih, hproduct]
    cases hfits : fitsSigned w v.toInt
    · have hlost : v.getMsbD 0 ≠ v.getMsbD 1 := fun heq => by simp [getMsbD_eq_iff_fitsSigned.mp heq] at hfits
      have hover : fitsSigned (w + 1) (v.toInt * 2 * 2 ^ k) = false := by
        rw [← Bool.not_eq_true]
        intro hproduct
        rw [← fitsSigned_succ_mul_two, fitsSigned_of_mul_two_pow hproduct] at hfits
        cases hfits
      simp [hlost, hover]
    · have hkept : v.getMsbD 0 = v.getMsbD 1 := getMsbD_eq_iff_fitsSigned.mpr hfits
      simp [hkept, toInt_shiftLeft_one_of_fitsSigned hfits]

variable {count : Int}

theorem shiftArithmetic_left {w : Nat} (h : 0 ≤ count) (v : BitVec (w + 2)) :
    shiftArithmetic v count = (!fitsSigned (w + 1) (v.toInt * 2 ^ count.toNat), v <<< count.toNat) := by
  rw [shiftArithmetic, if_neg (by omega), ← shiftLeftTested_fst, ← shiftLeftTested_snd]

theorem shiftArithmetic_right (h : ¬0 ≤ count) (v : BitVec n) :
    shiftArithmetic v count = (false, v.sshiftRight (-count).toNat) := if_pos (by omega)

theorem shiftLogical_left (h : 0 ≤ count) (v : BitVec n) : shiftLogical v count = v <<< count.toNat :=
  if_neg (by omega)

theorem shiftLogical_right (h : ¬0 ≤ count) (v : BitVec n) : shiftLogical v count = v >>> (-count).toNat :=
  if_pos (by omega)

theorem toNat_shiftLeft_eq_mul (v : BitVec n) (k : Nat) : (v <<< k).toNat = v.toNat * 2 ^ k % 2 ^ n := by
  rw [BitVec.toNat_shiftLeft, Nat.shiftLeft_eq]

theorem toNat_ushiftRight_eq_div (v : BitVec n) (k : Nat) : (v >>> k).toNat = v.toNat / 2 ^ k := by
  rw [BitVec.toNat_ushiftRight, Nat.shiftRight_eq_div_pow]

/-- A right shift divides toward minus infinity (R231). -/
theorem toInt_sshiftRight_eq_div (v : BitVec n) (k : Nat) : (v.sshiftRight k).toInt = v.toInt / 2 ^ k := by
  rw [BitVec.toInt_sshiftRight, Int.shiftRight_eq_div_pow, Nat.cast_pow]
  rfl

end

/-! ## AS and AD -/

/-- After cleared flags an overflow is reported or nothing (R231). -/
theorem FlagsAre.overflowIf (s : State) (c : Bool) : FlagsAre 1 c false s (s.clearExceptions.overflowIf c) := by
  cases c
  · exact .cleared 1 s
  · exact .integerOverflow s

theorem OnlyArithmetic.overflowIf {rs : List WReg} {s t : State} (h : OnlyArithmetic rs 1 s t) (c : Bool) :
    OnlyArithmetic rs 1 s (t.overflowIf c) := by
  cases c
  · exact h
  · exact h.integerOverflow

section
variable {s : State} {f : Fields} {a : Word} {c : Bool}

theorem exec_as (h : s.effectiveAddress f = some a) {v : Word}
    (hshift : shiftArithmetic ((s.addressed f).reg f.w) (shiftCount a) = (c, v)) :
    ∃ t, exec (.as f) s = .next t ∧ t.reg f.w = v ∧ FlagsAre 1 c false (s.addressed f) t ∧
      OnlyArithmetic [f.w] 1 (s.addressed f) t := by
  refine ⟨((s.addressed f).clearExceptions.overflowIf c).setReg f.w v, ?_, State.reg_setReg_self _ _ _,
    (FlagsAre.overflowIf _ c).congr (State.setReg_ex _ _ _) (State.setReg_ir _ _ _),
    ((OnlyArithmetic.clearExceptions _ 1 (s.addressed_modifier f)).overflowIf c).setReg (by simp) _⟩
  rw [exec_of_effectiveAddress (i := .as f) (fun _ => rfl) h]
  simp only [Instr.fields, hshift]

theorem exec_ad (h : s.effectiveAddress f = some a) {v : DoubleWord}
    (hshift : shiftArithmetic ((s.addressed f).pair f.w) (shiftCount a) = (c, v)) :
    ∃ t, exec (.ad f) s = .next t ∧ t.pair f.w = v ∧ FlagsAre 1 c false (s.addressed f) t ∧
      OnlyArithmetic [f.w, wpre f.w] 1 (s.addressed f) t := by
  refine ⟨((s.addressed f).clearExceptions.overflowIf c).setPair f.w v, ?_, State.pair_setPair _ _ _,
    (FlagsAre.overflowIf _ c).congr (State.setPair_ex _ _ _) (State.setPair_ir _ _ _),
    (((OnlyArithmetic.clearExceptions _ 1 (s.addressed_modifier f)).overflowIf c).setReg (by simp) _).setReg
      (by simp) _⟩
  rw [exec_of_effectiveAddress (i := .ad f) (fun _ => rfl) h]
  simp only [Instr.fields, hshift]

end

/-- Settles O47: the count's sign decides the direction; the shift's result and overflow go to the register and the flags. -/
theorem arithmeticShifts : Obligations.ArithmeticShifts := by
  rintro s u f a n ha rfl hn
  rw [← shiftCount_eq] at hn
  subst hn
  split
  next hleft =>
    rw [fitsWord_eq_fitsSigned, fitsDouble_eq_fitsSigned]
    obtain ⟨t, hexec, hreg, hflags⟩ := exec_as ha (shiftArithmetic_left (w := 22) hleft _)
    obtain ⟨t', hexec', hpair, hflags'⟩ := exec_ad ha (shiftArithmetic_left (w := 46) hleft _)
    exact ⟨⟨t, hexec, by rw [hreg, toNat_shiftLeft_eq_mul], hflags⟩,
      ⟨t', hexec', by rw [hpair, toNat_shiftLeft_eq_mul], hflags'⟩⟩
  next hright =>
    obtain ⟨t, hexec, hreg, hflags⟩ := exec_as ha (shiftArithmetic_right hright _)
    obtain ⟨t', hexec', hpair, hflags'⟩ := exec_ad ha (shiftArithmetic_right hright _)
    exact ⟨⟨t, hexec, by rw [hreg, toInt_sshiftRight_eq_div], hflags⟩,
      ⟨t', hexec', by rw [hpair, toInt_sshiftRight_eq_div], hflags'⟩⟩

/-! ## LS and LD -/

section
variable {s : State} {f : Fields} {a : Word}

theorem exec_ls (h : s.effectiveAddress f = some a) :
    exec (.ls f) s =
      .next ((s.addressed f).setReg f.w (shiftLogical ((s.addressed f).reg f.w) (shiftCount a))) :=
  exec_of_effectiveAddress (i := .ls f) (fun _ => rfl) h

theorem exec_ld (h : s.effectiveAddress f = some a) :
    exec (.ld f) s =
      .next ((s.addressed f).setPair f.w (shiftLogical ((s.addressed f).pair f.w) (shiftCount a))) :=
  exec_of_effectiveAddress (i := .ld f) (fun _ => rfl) h

end

/-- Settles O48: each is the assignment of one register or register pair. -/
theorem logicalShifts : Obligations.LogicalShifts := by
  rintro s u f a n ha rfl hn
  rw [← shiftCount_eq] at hn
  subst hn
  have hregFrame := OnlyRegisters.setReg (s.addressed_modifier f) f.w
  have hpairFrame := OnlyRegisters.setPair (s.addressed_modifier f) f.w
  split
  next hleft =>
    refine ⟨⟨_, exec_ls ha, ?_, hregFrame _⟩, ⟨_, exec_ld ha, ?_, hpairFrame _⟩⟩
    · rw [State.reg_setReg_self, shiftLogical_left hleft, toNat_shiftLeft_eq_mul]
    · rw [State.pair_setPair, shiftLogical_left hleft, toNat_shiftLeft_eq_mul]
  next hright =>
    refine ⟨⟨_, exec_ls ha, ?_, hregFrame _⟩, ⟨_, exec_ld ha, ?_, hpairFrame _⟩⟩
    · rw [State.reg_setReg_self, shiftLogical_right hright, toNat_ushiftRight_eq_div]
    · rw [State.pair_setPair, shiftLogical_right hright, toNat_ushiftRight_eq_div]

/-! ## Normalization of a register -/

/-- Left shifts until the two leftmost bits differ: with enough fuel they multiply the number by a power of two (R235;
D8). -/
theorem normalizeLoop_spec {w : Nat} (fuel : Nat) {v : BitVec (w + 2)} (sc : BitVec 13)
    (hfuel : 2 ^ (w + 1) ≤ v.toInt.natAbs * 2 ^ fuel) :
    ∃ c : Nat, (normalizeLoop fuel v sc).1.toInt = v.toInt * 2 ^ c ∧
      (normalizeLoop fuel v sc).1.getMsbD 0 ≠ (normalizeLoop fuel v sc).1.getMsbD 1 ∧
      (normalizeLoop fuel v sc).2 = sc + BitVec.ofInt 13 (-c) := by
  induction fuel generalizing v sc with
  | zero =>
    refine ⟨0, by simp [normalizeLoop], ?_, by simp [normalizeLoop]⟩
    have hcast : ((2 ^ w : Nat) : Int) = 2 ^ w := by push_cast; rfl
    rw [pow_zero, mul_one, pow_succ] at hfuel
    show v.getMsbD 0 ≠ v.getMsbD 1
    rw [ne_eq, getMsbD_eq_iff_fitsSigned, fitsSigned_iff]
    have hpow : (0 : Int) < 2 ^ w := by positivity
    omega
  | succ fuel ih =>
    rw [normalizeLoop]
    by_cases hunnormal : v.getMsbD 0 = v.getMsbD 1
    · rw [if_pos hunnormal]
      have hshift := toInt_shiftLeft_one_of_fitsSigned (getMsbD_eq_iff_fitsSigned.mp hunnormal)
      obtain ⟨c, hresult, hnormal, hsc⟩ := ih (sc - 1#13) (v := v <<< 1) (by
        rw [hshift, Int.natAbs_mul, mul_assoc]
        rwa [pow_succ' 2 fuel] at hfuel)
      refine ⟨c + 1, ?_, hnormal, ?_⟩
      · rw [hresult, hshift, pow_succ]
        ring
      · rw [hsc, Nat.cast_add, neg_add, BitVec.ofInt_add, BitVec.sub_eq_add_neg, BitVec.add_assoc,
          BitVec.add_comm (-1#13)]
        rfl
    · rw [if_neg hunnormal]
      exact ⟨0, by simp, hunnormal, by simp⟩

/-- Zero is not shifted and counts -2048. -/
theorem normalizeRegister_of_eq_zero {n : Nat} {v : BitVec n} (h : v = 0#n) :
    normalizeRegister v = (v, BitVec.ofInt 13 (-2048)) := if_pos h

/-- A register that is not zero is normalized by fewer shifts than it has bits, and no digit is lost (R235). -/
theorem normalizeRegister_of_ne_zero {w : Nat} {v : BitVec (w + 2)} (hne : v ≠ 0#(w + 2)) :
    ∃ (c : Nat) (normal : BitVec (w + 2)) (sc : BitVec 13), normalizeRegister v = (normal, sc) ∧ c ≤ w + 1 ∧
      normal.getMsbD 0 ≠ normal.getMsbD 1 ∧ normal.toInt = v.toInt * 2 ^ c ∧
      sc.setWidth 12 = BitVec.ofInt 12 (-(c : Int)) := by
  have hnonzero : v.toInt.natAbs ≠ 0 := fun h0 =>
    hne (BitVec.eq_of_toInt_eq (by simpa using Int.natAbs_eq_zero.mp h0))
  have hfuel : 2 ^ (w + 1) ≤ v.toInt.natAbs * 2 ^ (w + 2) :=
    (Nat.pow_le_pow_right (by decide) (by omega)).trans (Nat.le_mul_of_pos_left _ (Nat.pos_of_ne_zero hnonzero))
  obtain ⟨c, hresult, hnormal, hsc⟩ := normalizeLoop_spec (w + 2) 0#13 hfuel
  refine ⟨c, (normalizeLoop (w + 2) v 0#13).1, (normalizeLoop (w + 2) v 0#13).2, if_neg hne,
    le_of_mul_pow_le hnonzero ?_, hnormal, hresult, ?_⟩
  · obtain ⟨hle, hlt⟩ := fitsSigned_iff.mp (fitsSigned_toInt (normalizeLoop (w + 2) v 0#13).1)
    rw [← natAbs_mul_two_pow, ← hresult]
    zify
    exact abs_le.mpr ⟨hle, hlt.le⟩
  · rw [hsc, BitVec.zero_add, setWidth_ofInt _ (by decide)]

/-! ## NS and ND -/

@[simp] theorem State.setPair_denied (s : State) (r : WReg) (v : DoubleWord) (a : Word) :
    (s.setPair r v).denied a = s.denied a := by simp [State.setPair]

/-- A register assigned what it holds. -/
theorem State.setReg_reg (s : State) (r : WReg) : s.setReg r (s.reg r) = s := by cases r <;> rfl

theorem State.setPair_pair (s : State) (r : WReg) : s.setPair r (s.pair r) = s := by
  rw [State.setPair, State.pair, BitVec.extractLsb'_append_eq_left, BitVec.setWidth_append_eq_right, State.setReg_reg,
    State.setReg_reg]

/-- The count byte is stored after a turn of the channel where both tests pass (R235). -/
theorem State.storeCount_allowed {s : State} {a : Word} (hexists : s.inStore a = true) (hallowed : s.denied a = false)
    (sc : BitVec 13) : s.storeCount a sc = s.channelTurn.writeByte a (sc.setWidth 12) := by
  rw [State.storeCount, State.testAddress_existing hexists, State.testProtection_allowed hallowed, State.access]

section
variable {s : State} {f : Fields} {a : Word} {sc : BitVec 13}

theorem exec_ns (h : Writable s f a) {v : Word} (hnormal : normalizeRegister ((s.addressed f).reg f.w) = (v, sc)) :
    ∃ t, exec (.ns f) s = .next t ∧ t.readByte a = sc.setWidth 12 ∧
      OnlyByte a ((s.addressed f).setReg f.w v).channelTurn t := by
  obtain ⟨⟨ha, hexists⟩, hallowed⟩ := h
  refine ⟨_, ?_, State.readByte_writeByte_self _ _ _, .writeByte (by simp) _ _⟩
  rw [exec_of_effectiveAddress (i := .ns f) (fun _ => rfl) ha, ← State.storeCount_allowed
    (by simpa [State.inStore] using hexists) (by simpa using hallowed)]
  simp only [Instr.fields, hnormal]

theorem exec_nd (h : Writable s f a) {v : DoubleWord}
    (hnormal : normalizeRegister ((s.addressed f).pair f.w) = (v, sc)) :
    ∃ t, exec (.nd f) s = .next t ∧ t.readByte a = sc.setWidth 12 ∧
      OnlyByte a ((s.addressed f).setPair f.w v).channelTurn t := by
  obtain ⟨⟨ha, hexists⟩, hallowed⟩ := h
  refine ⟨_, ?_, State.readByte_writeByte_self _ _ _, .writeByte (by simp) _ _⟩
  rw [exec_of_effectiveAddress (i := .nd f) (fun _ => rfl) ha, ← State.storeCount_allowed
    (by simpa [State.inStore] using hexists) (by simpa using hallowed)]
  simp only [Instr.fields, hnormal]

end

/-- Settles O49: the count byte is stored over what the normalization and the channel's turn after it have left. The model's
function has the obligation's own name. -/
theorem normalizeRegister_normalizes : Obligations.NormalizeRegister := by
  rintro s e f a hwritable rfl
  refine ⟨fun hzero => ?_, fun hne => ?_, fun hzero => ?_, fun hne => ?_⟩
  · obtain ⟨t, hexec, hcount, hframe⟩ := exec_ns hwritable (normalizeRegister_of_eq_zero hzero)
    rw [State.setReg_reg] at hframe
    exact ⟨t, hexec, hcount, hframe⟩
  · obtain ⟨c, v, sc, hv, hc, hnormal, hvalue, hsc⟩ := normalizeRegister_of_ne_zero (w := 22) hne
    obtain ⟨t, hexec, hcount, hframe⟩ := exec_ns hwritable hv
    exact ⟨t, c, v, hexec, hc, hnormal, hvalue, hcount.trans hsc, hframe⟩
  · obtain ⟨t, hexec, hcount, hframe⟩ := exec_nd hwritable (normalizeRegister_of_eq_zero hzero)
    rw [State.setPair_pair] at hframe
    exact ⟨t, hexec, hcount, hframe⟩
  · obtain ⟨c, v, sc, hv, hc, hnormal, hvalue, hsc⟩ := normalizeRegister_of_ne_zero (w := 46) hne
    obtain ⟨t, hexec, hcount, hframe⟩ := exec_nd hwritable hv
    exact ⟨t, c, v, hexec, hc, hnormal, hvalue, hcount.trans hsc, hframe⟩

end Sys2Proof.Machine
end

section
/-! PROOFS. Interruption: what taking a signal saves and leaves alone (O13), and which signal is taken (O14). -/

namespace Sys2Proof.Machine

/-! ## Taking a signal -/

/-- Only the bit of the signal taken is cleared (R294). -/
theorem State.getMsbD_ir_takeInterrupt (s : State) {b : Nat} (hb : b < 24) (c : Nat) :
    (s.takeInterrupt b).ir.getMsbD c = (s.ir.getMsbD c && decide (c ≠ b)) := by
  rw [State.takeInterrupt_ir, BitVec.getMsbD_and, BitVec.getMsbD_not, getMsbD_bitMask hb]
  cases hs : s.ir.getMsbD c with
  | false => rfl
  | true => simp [BitVec.lt_of_getMsbD hs]

theorem registerNumber_lt (r : WReg) : registerNumber r < 4 := by cases r <;> decide

/-- Settles O13: the laws of an interruption, with IR bit by bit and the registers as the first four words. -/
theorem interruptEntry : Obligations.InterruptEntry := by
  rintro s t b hb rfl
  obtain ⟨hnumber, hsaved, hic, -, hmode, hdisabled, hwords⟩ := s.takeInterrupt_spec b
  refine ⟨hnumber, hsaved, hic, fun h => hwords 12#24 h (by decide) (by decide), hmode, hdisabled, ?_, fun c hc => ?_,
    fun a h h4 h5 => State.readByte_eq_of_readWord (hwords a h h4 h5),
    fun r h => State.reg_eq_of_readWord fun a ha => ?_, .of_keys (by simp), by simp, by simp, by simp,
    by simp [SameSurroundings], by simp, by simp, s.takeInterrupt_channel b⟩
  · rw [s.getMsbD_ir_takeInterrupt hb, decide_eq_false (not_not_intro rfl), Bool.and_false]
  · rw [s.getMsbD_ir_takeInterrupt hb, decide_eq_true hc, Bool.and_true]
  · have hlow := registerNumber_lt r
    exact hwords a (ha ▸ h) (by omega) (by omega)

/-! ## The signal taken -/

/-- No signal is selected when none is both pending and masked in (R293). -/
theorem State.selectedInterrupt_none {s : State} (h : ∀ b, b < 24 → (s.ir.getMsbD b && s.im.getMsbD b) = false) :
    s.selectedInterrupt = none := by
  rw [State.selectedInterrupt, List.find?_eq_none]
  intro b hb
  rw [BitVec.getMsbD_and, h b (List.mem_range.mp hb)]
  exact Bool.false_ne_true

/-- The signal selected is the left-most of those both pending and masked in (R293). -/
theorem State.selectedInterrupt_leftmost {s : State} {b : Nat} (hb : b < 24)
    (hpending : (s.ir.getMsbD b && s.im.getMsbD b) = true)
    (hleft : ∀ c, c < b → (s.ir.getMsbD c && s.im.getMsbD c) = false) : s.selectedInterrupt = some b := by
  rw [State.selectedInterrupt, List.find?_range_eq_some]
  refine ⟨by rwa [BitVec.getMsbD_and], List.mem_range.mpr hb, fun c hc => ?_⟩
  rw [BitVec.getMsbD_and, hleft c hc]
  rfl

/-- Settles O14: the flag decides whether the service is entered, the selection what it does. -/
theorem leftmostSignalTaken : Obligations.LeftmostSignalTaken := by
  refine fun s => ⟨fun hdisabled => if_pos hdisabled, fun henabled hnone => ?_,
    fun b henabled hb hpending hleft => ?_⟩ <;>
    rw [State.nextInstruction, henabled, if_neg Bool.false_ne_true, State.interruptionService]
  · rw [State.selectedInterrupt_none hnone]
  · rw [State.selectedInterrupt_leftmost hb hpending hleft]

end Sys2Proof.Machine
end

section
/-! PROOFS. Task mode (O21): an instruction changes the processor's own registers, words that may be altered, and what the
channel writes meanwhile; or it ends in the instruction exception. The turns of the channel are counted on the way. -/

namespace Sys2Proof.Machine

/-! ## The processor's own registers -/

/-- Nothing is changed but the working registers, IC, EX, IR and the modifier. -/
def OnlyProcessor (s t : State) : Prop :=
  t = { s with regs := t.regs, ic := t.ic, ex := t.ex, ir := t.ir, modifier := t.modifier }

namespace OnlyProcessor

variable {s t u : State}

theorem refl (s : State) : OnlyProcessor s s := rfl

theorem trans (h : OnlyProcessor s t) (h' : OnlyProcessor t u) : OnlyProcessor s u := by
  unfold OnlyProcessor at *
  rw [h', h]

theorem setReg (s : State) (r : WReg) (v : Word) : OnlyProcessor s (s.setReg r v) := by cases r <;> rfl

theorem setPair (s : State) (r : WReg) (v : DoubleWord) : OnlyProcessor s (s.setPair r v) :=
  (setReg s _ _).trans (setReg _ r _)

theorem clearExceptions (s : State) : OnlyProcessor s s.clearExceptions := rfl

theorem integerOverflow (s : State) : OnlyProcessor s s.integerOverflow := rfl

theorem floatingOverflow (s : State) : OnlyProcessor s s.floatingOverflow := rfl

theorem overflowIf (s : State) (c : Bool) : OnlyProcessor s (s.overflowIf c) := by cases c <;> rfl

theorem skipIf (s : State) (c : Bool) : OnlyProcessor s (s.skipIf c) := by cases c <;> rfl

theorem jumpLink (s : State) (r : WReg) (a : Word) : OnlyProcessor s (s.jumpLink r a) := by cases r <;> rfl

theorem testInteger (s : State) (ar : BitVec 25) (c : Bool) : OnlyProcessor s (s.testInteger ar c) := by
  rw [State.testInteger_eq]
  exact (overflowIf s _).trans rfl

theorem addInteger (s : State) (r : WReg) (b : Word) (c : Bool) : OnlyProcessor s (s.addInteger r b c) :=
  (setReg s r _).trans (testInteger _ _ _)

theorem subtractInteger (s : State) (r : WReg) (b : Word) (c : Bool) : OnlyProcessor s (s.subtractInteger r b c) :=
  (setReg s r _).trans (testInteger _ _ _)

theorem divideInteger (s : State) (r : WReg) (n : DoubleWord) (d : Word) : OnlyProcessor s (s.divideInteger r n d) := by
  unfold State.divideInteger
  dsimp only
  split
  · exact integerOverflow s
  · exact (setReg s _ _).trans (setReg _ r _)

theorem testExponent (s : State) (sc : BitVec 13) : OnlyProcessor s (s.testExponent sc) := by
  unfold State.testExponent
  split
  · exact floatingOverflow s
  · exact refl s

theorem storeFloat (s : State) (r : WReg) (af : BitVec 39) (sc : BitVec 13) : OnlyProcessor s (s.storeFloat r af sc) :=
  setPair s r _

theorem finishFloat (s : State) (r : WReg) (af : BitVec 39) (sc : BitVec 13) :
    OnlyProcessor s (s.finishFloat r af sc) :=
  (testExponent s _).trans (storeFloat _ r _ _)

theorem convertInteger (s : State) (r : WReg) (a : Word) : OnlyProcessor s (s.convertInteger r a) := by
  unfold State.convertInteger
  dsimp only
  split
  · exact setPair s r _
  · exact (testExponent s _).trans (setPair _ r _)

theorem convertFloat (s : State) (r : WReg) (a : Word) : OnlyProcessor s (s.convertFloat r a) := by
  unfold State.convertFloat
  dsimp only
  split
  · exact integerOverflow s
  · split
    · exact integerOverflow s
    · exact setReg s r _

theorem addFloat (s : State) (r : WReg) (subtract : Bool) (o : FloatOperands) :
    OnlyProcessor s (s.addFloat r subtract o) := by
  unfold State.addFloat
  dsimp only
  split
  · exact storeFloat s r _ _
  · split
    · exact storeFloat s r _ _
    · exact finishFloat s r _ _

theorem divideFloat (s : State) (r : WReg) (o : FloatOperands) : OnlyProcessor s (s.divideFloat r o) := by
  unfold State.divideFloat
  split
  · exact floatingOverflow s
  · split
    · exact setReg s r _
    · unfold State.divideFractions
      dsimp only
      split <;> exact finishFloat s r _ _

end OnlyProcessor

/-! ## What task mode leaves alone -/

/-- After `n` turns of the channel nothing is changed but the processor's own registers and the store, and no protected word
of the store but those that the channel's script names (R302, R323). -/
structure TaskFrame (n : Nat) (s t : State) : Prop where
  same : t = { s with
    regs := t.regs, ic := t.ic, ex := t.ex, ir := t.ir, modifier := t.modifier, store := t.store, channel := t.channel }
  channel : t.channel = s.channel.drop n
  words : ∀ a, s.channelSpares (wordNumber a) → 4 ≤ wordNumber a → s.keyProtected (s.readKey a) = true →
    t.readWord a = s.readWord a

/-- What the script names after some of it has been used up, it named before. -/
theorem State.channelSpares_of_drop {s t : State} {n k : Nat} (h : t.channel = s.channel.drop n)
    (hspares : s.channelSpares k) : t.channelSpares k := fun batch hb =>
  hspares batch (List.mem_of_mem_drop (h ▸ hb))

/-- The channel reaches registers and store only, and its own script (R78). -/
theorem State.channelTurn_eq (s : State) : s.channelTurn =
    { s with regs := s.channelTurn.regs, store := s.channelTurn.store, channel := s.channelTurn.channel } := by
  have hrest := s.channelTurn_same (fun t => { t with regs := s.regs, store := s.store, channel := s.channel })
    (fun t w => by
      unfold State.channelWrite State.writeWord
      split
      · split
        next r _ => cases r <;> rfl
        next => rfl
      · rfl)
    (fun _ _ => rfl)
  exact congrArg (fun t : State =>
    { t with regs := s.channelTurn.regs, store := s.channelTurn.store, channel := s.channelTurn.channel }) hrest

namespace TaskFrame

variable {s t u : State} {m n : Nat}

theorem trans (h : TaskFrame m s u) (h' : TaskFrame n u t) : TaskFrame (m + n) s t where
  same := by rw [h'.same, h.same]
  channel := by rw [h'.channel, h.channel, List.drop_drop]
  words a hspares hlow hprotected := by
    have hkey : u.keyProtected (u.readKey a) = s.keyProtected (s.readKey a) := by rw [h.same]; rfl
    rw [h'.words a (State.channelSpares_of_drop h.channel hspares) hlow (hkey.trans hprotected),
      h.words a hspares hlow hprotected]

theorem processor (h : OnlyProcessor s t) : TaskFrame 0 s t where
  same := by rw [h]
  channel := by rw [h]; rfl
  words a _ hlow _ := by
    rw [h]
    simp [State.readWord, registerAt_of_le hlow]

theorem channelTurn (s : State) : TaskFrame 1 s s.channelTurn where
  same := by rw [s.channelTurn_eq]
  channel := by rw [State.channelTurn_channel, List.drop_one]
  words _ hspares _ _ := State.readWord_channelTurn hspares

theorem access {rest : State → State} (h : TaskFrame n s.channelTurn (rest s.channelTurn)) :
    TaskFrame (1 + n) s (s.access rest) := (channelTurn s).trans h

/-- In task mode a word that passes the protection test is none of the protected ones (R123). -/
theorem writeWord (hmode : s.monitorMode = false) {a : Word} (hallowed : s.denied a = false) (v : Word) :
    TaskFrame 0 s (s.writeWord a v) where
  same := by
    unfold State.writeWord
    split
    next r _ => cases r <;> rfl
    next => rfl
  channel := s.writeWord_channel a v
  words b _ _ hprotected := by
    rw [State.readWord_writeWord, if_neg]
    intro hsame
    have hkey : s.readKey b = s.readKey a := by rw [State.readKey, hsame, State.readKey]
    rw [hkey] at hprotected
    simp [State.denied, hmode, hprotected] at hallowed

end TaskFrame

/-! ## How an instruction ends in task mode -/

/-- How an operation ends in task mode: it is done, or the instruction exception finds IC as it was, after at most `k` turns of
the channel. The exception has three turns of its own, so that either way there are at most `k + 3` (R78, R112). -/
inductive TaskEnds (k : Nat) (s : State) : State → Prop
  | done {n : Nat} {t : State} (hn : n ≤ k + 3) (h : TaskFrame n s t) : TaskEnds k s t
  | exception {n : Nat} {u t : State} (hn : n ≤ k) (h : TaskFrame n s u) (hic : u.ic = s.ic)
    (ht : t = u.instructionException) : TaskEnds k s t

namespace TaskEnds

variable {s t u : State} {k n : Nat}

theorem after (h : TaskFrame n s u) (hic : u.ic = s.ic) (h' : TaskEnds k u t) : TaskEnds (n + k) s t := by
  cases h' with
  | done hn h' => exact .done (by omega) (h.trans h')
  | exception hn h' hic' ht => exact .exception (by omega) (h.trans h') (hic'.trans hic) ht

theorem weaken {l : Nat} (h : TaskEnds k s t) (hkl : k ≤ l) : TaskEnds l s t := by
  cases h with
  | done hn h => exact .done (by omega) h
  | exception hn h hic ht => exact .exception (by omega) h hic ht

theorem afterProcessor (h : OnlyProcessor s u) (h' : TaskEnds k u t) (hic : u.ic = s.ic := by simp) :
    TaskEnds k s t := Nat.zero_add k ▸ after (.processor h) hic h'

theorem processor (h : OnlyProcessor s t) : TaskEnds k s t := .done (Nat.zero_le _) (.processor h)

theorem atOnce (s : State) : TaskEnds k s s.instructionException :=
  .exception (Nat.zero_le k) (.processor (.refl s)) rfl rfl

theorem testAddress (a : Word) (h : TaskEnds k s t) : TaskEnds k s (s.testAddress a t) := by
  obtain ⟨-, heq⟩ | ⟨-, heq⟩ := s.testAddress_cases t a <;> rw [heq]
  · exact h
  · exact atOnce s

theorem testMode (hmode : s.monitorMode = false) : TaskEnds k s (s.testMode t) := by
  obtain ⟨hmonitor, -⟩ | ⟨-, heq⟩ := s.testMode_cases t
  · exact absurd (hmode.symm.trans hmonitor) Bool.false_ne_true
  · exact heq ▸ atOnce s

theorem testProtection {a : Word} (h : s.denied a = false → TaskEnds k s t) :
    TaskEnds k s (s.testProtection a t) := by
  obtain ⟨hallowed, heq⟩ | ⟨-, heq⟩ := s.testProtection_cases t a <;> rw [heq]
  · exact h hallowed
  · exact atOnce s

/-- One access, after which only the processor's own registers are changed. -/
theorem access {rest : State → State} (h : ∀ u, OnlyProcessor u (rest u)) : TaskEnds k s (s.access rest) :=
  .done (by omega) (.access (.processor (h _)))

/-- The processor's own registers are changed after one access and after another. -/
theorem accessTwice {first : State → State} {rest : State → State → State} (h : ∀ u, OnlyProcessor u (first u))
    (h' : ∀ u v, OnlyProcessor v (rest u v)) : TaskEnds k s (s.access fun u => (first u).access (rest u)) :=
  .done (by omega) (.access (.trans (.processor (h _)) (.access (.processor (h' _ _)))))

/-- One access, in which a word that may be altered is written. -/
theorem write (hmode : s.monitorMode = false) {a : Word} (hallowed : s.denied a = false) (value : State → Word) :
    TaskEnds k s (s.access fun u => u.writeWord a (value u)) :=
  .done (by omega) (.access (.writeWord (by simpa using hmode) (by simpa using hallowed) _))

/-- A store: the tests of its operand, then one word. -/
theorem store (hmode : s.monitorMode = false) (a : Word) (value : State → Word) :
    TaskEnds k s (s.testAddress a (s.testProtection a (s.access fun u => u.writeWord a (value u)))) :=
  testAddress a (testProtection fun hallowed => write hmode hallowed value)

theorem storeCount (hmode : s.monitorMode = false) (a : Word) (sc : BitVec 13) : TaskEnds k s (s.storeCount a sc) :=
  store hmode a _

/-- EX[22:23] are cleared, then the operand is tested (R361 (a)). -/
theorem cleared {a : Word} (h : TaskEnds k s.clearExceptions t) :
    TaskEnds k s (s.clearExceptions.testAddress a t) := afterProcessor (.clearExceptions s) (testAddress a h)

theorem fetchOperands {operation : FloatOperands → State → State} (r : WReg) (a : Word)
    (h : ∀ o u, OnlyProcessor u (operation o u)) : TaskEnds k s (s.fetchOperands r a operation) := by
  unfold State.fetchOperands
  exact accessTwice OnlyProcessor.refl fun u v => h
    { register := s.registerFraction r, storage := v.readWord (prevAddress a) ++ leftByte (u.readWord a),
      exponent := rightByte (u.readWord a) } v

/-- A floating-point operation on its operands (R194). -/
theorem floating {operation : FloatOperands → State → State} (r : WReg) (a : Word)
    (h : ∀ o u, OnlyProcessor u (operation o u)) :
    TaskEnds k s (s.clearExceptions.testAddress a (s.clearExceptions.fetchOperands r a operation)) :=
  cleared (fetchOperands r a h)

/-- RX: the register is loaded before the protection test (R155, R361 (b)). -/
theorem exchange (hmode : s.monitorMode = false) (r : WReg) (a : Word) : TaskEnds 1 s (s.exchange r a) :=
  after (k := 0) (.channelTurn s) (by simp) (afterProcessor (.setReg _ r _) (testProtection fun hallowed =>
    write (by simpa using hmode) hallowed fun _ => s.reg r))

/-- DS: the second word is written before the first one's protection test (R157, R361 (c)). -/
theorem storeDouble (hmode : s.monitorMode = false) (r : WReg) (a : Word) : TaskEnds 1 s (s.storeDouble r a) :=
  testProtection fun hallowed =>
    after (k := 0) ((TaskFrame.channelTurn s).trans (.writeWord (by simpa using hmode) (by simpa using hallowed) _))
      (by simp) (testProtection fun hallowed' => write (by simpa using hmode) hallowed' _)

/-- The address modification, with a turn of the channel if there is an indirect word (R115). -/
theorem withAddress {f : Fields} {operation : Word → State → State} (hmode : s.monitorMode = false)
    (h : ∀ a u, u.monitorMode = false → TaskEnds 1 u (operation a u)) : TaskEnds 2 s (s.withAddress f operation) := by
  obtain ⟨a, -, heq⟩ | ⟨-, heq⟩ := s.withAddress_cases f operation <;> rw [heq]
  · have hoperation := h a (s.addressed f) (by simpa using hmode)
    cases hindirect : f.indirect with
    | false =>
      have haddressed : OnlyProcessor s (s.addressed f) := by rw [State.addressed, hindirect]; rfl
      exact (afterProcessor haddressed hoperation).weaken (by omega)
    | true =>
      have haddressed : OnlyProcessor s.channelTurn (s.addressed f) := by rw [State.addressed, hindirect]; rfl
      exact after ((TaskFrame.channelTurn s).trans (.processor haddressed)) (by simp) hoperation
  · exact atOnce s

end TaskEnds

/-- Every instruction ends so in task mode; the privileged ones in the mode test (R303). -/
theorem exec_taskEnds (i : Instr) {s : State} (hmode : s.monitorMode = false) :
    ∃ t, exec i s = .next t ∧ TaskEnds 2 s t := by
  cases i with
  | aw f | io f | ml f | jd f | je f | pl f | ic f | ks f =>
    exact ⟨_, rfl, .withAddress hmode fun _ _ hm => .testMode hm⟩
  | unassigned58 f | unassigned59 f | unassigned60 f | unassigned61 f | unassigned62 f | unassigned63 f =>
    exact ⟨_, rfl, .withAddress hmode fun _ u _ => .atOnce u⟩
  | bl f | hl f | la f | lo f | lx f | bz f | rl f =>
    exact ⟨_, rfl, .withAddress hmode fun a _ _ => .testAddress a (.access fun u => .setReg u f.w _)⟩
  | wm f => exact ⟨_, rfl, .withAddress hmode fun a _ _ => .testAddress a (.access fun u => .setPair u f.w _)⟩
  | xl f => exact ⟨_, rfl, .withAddress hmode fun a _ _ => .testAddress a (.access fun _ => rfl)⟩
  | kl f => exact ⟨_, rfl, .withAddress hmode fun a u _ => .testAddress a (.processor (.setReg u f.w _))⟩
  | sp f => exact ⟨_, rfl, .withAddress hmode fun a u _ => .testAddress a (.processor (.skipIf u _))⟩
  | am f => exact ⟨_, rfl, .withAddress hmode fun _ u _ => .testAddress u.ic (.processor rfl)⟩
  | jl f =>
    exact ⟨_, rfl, .withAddress hmode fun a u _ =>
      .testAddress a (.testProtection fun _ => .processor (.jumpLink u f.w a))⟩
  | rs f | hs f | xs f | ps f | ms f | is f => exact ⟨_, rfl, .withAddress hmode fun a _ hm => .store hm a _⟩
  | rx f => exact ⟨_, rfl, .withAddress hmode fun a _ hm => .testAddress a (.exchange hm f.w a)⟩
  | ds f => exact ⟨_, rfl, .withAddress hmode fun a _ hm => .testAddress a (.storeDouble hm f.w a)⟩
  | dl f =>
    exact ⟨_, rfl, .withAddress hmode fun a _ _ =>
      .testAddress a (.accessTwice (fun u => .setReg u f.w _) fun _ v => .setReg v _ _)⟩
  | wa f | ba f =>
    exact ⟨_, rfl, .withAddress hmode fun _ _ _ => .cleared (.access fun u => .addInteger u f.w _ _)⟩
  | ws f | bs f =>
    exact ⟨_, rfl, .withAddress hmode fun _ _ _ => .cleared (.access fun u => .subtractInteger u f.w _ _)⟩
  | wd f => exact ⟨_, rfl, .withAddress hmode fun _ _ _ => .cleared (.access fun u => .divideInteger u f.w _ _)⟩
  | aa f =>
    exact ⟨_, rfl, .withAddress hmode fun _ _ _ =>
      .cleared (.accessTwice (fun u => .setReg u f.w _) fun _ v => .addInteger v _ _ _)⟩
  | ss f =>
    exact ⟨_, rfl, .withAddress hmode fun _ _ _ =>
      .cleared (.accessTwice (fun u => .setReg u f.w _) fun _ v => .subtractInteger v _ _ _)⟩
  | fa f | fs f => exact ⟨_, rfl, .withAddress hmode fun a _ _ => .floating f.w a fun o u => .addFloat u f.w _ o⟩
  | fm f => exact ⟨_, rfl, .withAddress hmode fun a _ _ => .floating f.w a fun _ u => .finishFloat u f.w _ _⟩
  | fd f => exact ⟨_, rfl, .withAddress hmode fun a _ _ => .floating f.w a fun o u => .divideFloat u f.w o⟩
  | ns f =>
    exact ⟨_, rfl, .withAddress hmode fun a u hm =>
      .afterProcessor (.setReg u f.w _) (.storeCount (by simpa using hm) a _)⟩
  | nd f =>
    exact ⟨_, rfl, .withAddress hmode fun a u hm =>
      .afterProcessor (.setPair u f.w _) (.storeCount (by simpa using hm) a _)⟩
  | al f | ls f => exact ⟨_, rfl, .withAddress hmode fun _ u _ => .processor (.setReg u f.w _)⟩
  | ld f => exact ⟨_, rfl, .withAddress hmode fun _ u _ => .processor (.setPair u f.w _)⟩
  | ac f =>
    exact ⟨_, rfl, .withAddress hmode fun _ u _ =>
      .processor ((OnlyProcessor.setReg u.clearExceptions f.w _).trans (.testInteger _ _ _))⟩
  | ci f => exact ⟨_, rfl, .withAddress hmode fun a u _ => .processor (.convertInteger u.clearExceptions f.w a)⟩
  | cf f => exact ⟨_, rfl, .withAddress hmode fun a u _ => .processor (.convertFloat u.clearExceptions f.w a)⟩
  | as f =>
    exact ⟨_, rfl, .withAddress hmode fun _ u _ =>
      .processor ((OnlyProcessor.overflowIf u.clearExceptions _).trans (.setReg _ f.w _))⟩
  | ad f =>
    exact ⟨_, rfl, .withAddress hmode fun _ u _ =>
      .processor ((OnlyProcessor.overflowIf u.clearExceptions _).trans (.setPair _ f.w _))⟩
  | sh f | sl f | se f | sn f | so f | sz f | sx f =>
    exact ⟨_, rfl, .withAddress hmode fun _ u _ => .processor (.skipIf u _)⟩

/-! ## What is confined -/

/-- The state in which the instruction exception takes interrupt number 0, which it has set itself (R120). -/
def State.raisingException (s : State) : State :=
  { s with ir := s.ir ||| bitMask 0, modifier := none, phase := .fetching }

theorem State.instructionException_eq (s : State) : s.instructionException = s.raisingException.takeInterrupt 0 := rfl

theorem SameSurroundings.trans {s t u : State} (h : SameSurroundings s t) (h' : SameSurroundings t u) :
    SameSurroundings s u := by
  unfold SameSurroundings at *
  simp_all

theorem TaskFrame.surroundings {n : Nat} {s t : State} (h : TaskFrame n s t) :
    t.pr = s.pr ∧ t.im = s.im ∧ SameKeys s t ∧ SameSurroundings s t := by
  rw [h.same]
  exact ⟨rfl, rfl, fun _ => rfl, by simp [SameSurroundings]⟩

theorem TaskFrame.mode {n : Nat} {s t : State} (h : TaskFrame n s t) :
    t.monitorMode = s.monitorMode ∧ t.interruptDisabled = s.interruptDisabled ∧ t.phase = s.phase := by
  rw [h.same]
  exact ⟨rfl, rfl, rfl⟩

theorem TaskFrame.readByte {n : Nat} {s t : State} (h : TaskFrame n s t) {a : Word}
    (hspares : s.channelSpares (wordNumber a)) (hlow : 4 ≤ wordNumber a)
    (hprotected : s.keyProtected (s.readKey a) = true) : t.readByte a = s.readByte a :=
  State.readByte_eq_of_readWord (h.words a hspares hlow hprotected)

/-- Settles O21: an operation done leaves what the frame says; the exception adds the three accesses of an interruption, which
write words 4 and 5. -/
theorem taskModeIsConfined : Obligations.TaskModeIsConfined := by
  intro s t i hmode hexec
  obtain ⟨t', hexec', hends⟩ := exec_taskEnds i hmode
  obtain rfl := Host.Outcome.next.inj (hexec.symm.trans hexec')
  cases hends with
  | @done n _ hn h =>
    obtain ⟨hpr, him, hkeys, hsurroundings⟩ := h.surroundings
    obtain ⟨hmode', hdisabled, hphase⟩ := h.mode
    exact ⟨hpr, him, hkeys, hsurroundings, ⟨n, hn, h.channel⟩, fun a hs hlow hp _ _ => h.readByte hs hlow hp,
      .inl ⟨hmode'.trans hmode, hdisabled, hphase, fun a hs hlow hp => h.readByte hs hlow hp⟩⟩
  | @exception n u _ hn h hic ht =>
    obtain ⟨hpr, him, hkeys, hsurroundings⟩ := h.surroundings
    obtain ⟨-, hsaved, hcounter, -, hmonitor, hdisabled, -, -, hwords, -, hkeys', -, hpr', him', hsurroundings', hphase,
      -, hchannel⟩ := interruptEntry u.raisingException t 0 (by decide) (ht.trans u.instructionException_eq)
    refine ⟨hpr'.trans hpr, him'.trans him, fun a => (hkeys' a).trans (hkeys a), hsurroundings.trans hsurroundings',
      ⟨n + 3, by omega, ?_⟩, fun a hs hlow hp h4 h5 => ?_,
      .inr ⟨hmonitor, hdisabled, hphase, hcounter, fun hs => (hsaved ?_).trans hic⟩⟩
    · rw [hchannel, ← List.drop_drop, ← h.channel]
      rfl
    · exact (hwords a (State.channelSpares_of_drop h.channel hs) h4 h5).trans (h.readByte hs hlow hp)
    · exact State.channelSpares_of_drop h.channel hs

end Sys2Proof.Machine
end

section
/-! PROOFS. What has been done before an instruction exception (O20), and sequencing: the jump with link (O50), the skips on
a comparison (O52) and on selected bits (O53). -/

namespace Sys2Proof.Machine

/-! ## Partial effects -/

/-- No count byte is stored where one of the two tests stops the instruction (R361 (d)). -/
theorem State.storeCount_stopped {s : State} {a : Word} (h : s.inStore a = false ∨ s.denied a = true)
    (sc : BitVec 13) : s.storeCount a sc = s.instructionException := by
  obtain ⟨hexists, heq⟩ | ⟨-, heq⟩ := s.testAddress_cases
    (s.testProtection a (s.access fun s => s.writeByte a (sc.setWidth 12))) a <;> rw [State.storeCount, heq]
  rw [hexists, Bool.true_eq_false, false_or] at h
  exact State.testProtection_denied h _

/-- Settles O20: each instruction up to the test that stops it. -/
theorem partialEffectsRemain : Obligations.PartialEffectsRemain := by
  rintro s e u f a ha rfl rfl
  refine ⟨fun hexists hdenied => ?_, fun hexists hallowed hprev => ?_, fun hstop => ⟨?_, ?_⟩⟩
  · rw [exec_of_operand (i := .rx f) (rest := fun a u => u.exchange f.w a) (fun _ => rfl) ⟨ha, hexists⟩]
    exact congrArg _ (State.testProtection_denied (by simpa using hdenied) _)
  · rw [exec_of_writable (i := .ds f) (fun _ => rfl) ⟨⟨ha, hexists⟩, hallowed⟩]
    exact congrArg _ (State.testProtection_denied (by simpa using hprev) _)
  · rw [exec_of_effectiveAddress (i := .ns f) (fun _ => rfl) ha]
    exact congrArg _ (State.storeCount_stopped (by simpa [State.inStore] using hstop) _)
  · rw [exec_of_effectiveAddress (i := .nd f) (fun _ => rfl) ha]
    exact congrArg _ (State.storeCount_stopped (by simpa [State.inStore] using hstop) _)

/-! ## The jump with link -/

/-- The registers that a jump assigns: none for W field 0 (R246). -/
def linkRegisters (r : WReg) : List WReg := if r = .w0 then [] else [r]

/-- The link register holds the counter, and no other register is assigned (R246). -/
theorem State.reg_jumpLink (s : State) (r : WReg) (a : Word) (q : WReg) :
    (s.jumpLink r a).reg q = if q ∈ linkRegisters r then s.ic else s.reg q := by
  cases r with
  | w0 => rfl
  | w1 | w2 | w3 => cases q <;> rfl

theorem OnlyRegistersAndCounter.jumpLink {s : State} (h : s.modifier = none) (r : WReg) (a : Word) :
    OnlyRegistersAndCounter (linkRegisters r) s (s.jumpLink r a) :=
  ⟨fun q hq => by rw [State.reg_jumpLink, if_neg hq], .of_store (by simp), by simp, by simp,
    .of_fields (by simp) (by simp [SameControl]) (by simp [SameSurroundings]) (by simp) (by simp) (by simpa using h)⟩

/-- What a jump with link leaves (R246). -/
theorem State.jumpLink_spec {s : State} (h : s.modifier = none) (r : WReg) (a : Word) :
    (s.jumpLink r a).ic = a &&& 0xFFFFFE#24 ∧ (r ≠ .w0 → (s.jumpLink r a).reg r = s.ic) ∧
      OnlyRegistersAndCounter (if r = .w0 then [] else [r]) s (s.jumpLink r a) := by
  refine ⟨s.jumpLink_ic r a, fun hr => ?_, .jumpLink h r a⟩
  rw [State.reg_jumpLink, if_pos (by simp [linkRegisters, hr])]

/-- Settles O50: both tests passed, JL is the jump with link. -/
theorem jumpWithLink : Obligations.JumpWithLink := by
  rintro s u f a hwritable rfl
  exact ⟨_, exec_of_writable (i := .jl f) (fun _ => rfl) hwritable, State.jumpLink_spec (s.addressed_modifier f) f.w a⟩

/-! ## Skips -/

/-- A skip moves the counter past one word, or does nothing (R245). -/
theorem State.skipIf_ic (s : State) (c : Bool) : (s.skipIf c).ic = if c then s.ic + 2#24 else s.ic := by
  cases c <;> rfl

theorem OnlyCounter.skipIf {s : State} (h : s.modifier = none) (c : Bool) : OnlyCounter s (s.skipIf c) :=
  ⟨fun r _ => State.reg_congr (s.skipIf_regs c) r, .of_store (by simp), by simp, by simp,
    .of_fields (by simp) (by simp [SameControl]) (by simp [SameSurroundings]) (by simp) (by simp) (by simpa using h)⟩

section
variable {s : State} {f : Fields} {a : Word}

theorem exec_sh (h : s.effectiveAddress f = some a) :
    exec (.sh f) s = .next ((s.addressed f).skipIf (decide (a.toInt < ((s.addressed f).reg f.w).toInt))) :=
  exec_of_effectiveAddress (i := .sh f) (fun _ => rfl) h

theorem exec_sl (h : s.effectiveAddress f = some a) :
    exec (.sl f) s = .next ((s.addressed f).skipIf (decide (((s.addressed f).reg f.w).toInt < a.toInt))) :=
  exec_of_effectiveAddress (i := .sl f) (fun _ => rfl) h

theorem exec_se (h : s.effectiveAddress f = some a) :
    exec (.se f) s = .next ((s.addressed f).skipIf ((s.addressed f).reg f.w == a)) :=
  exec_of_effectiveAddress (i := .se f) (fun _ => rfl) h

theorem exec_sn (h : s.effectiveAddress f = some a) :
    exec (.sn f) s = .next ((s.addressed f).skipIf ((s.addressed f).reg f.w != a)) :=
  exec_of_effectiveAddress (i := .sn f) (fun _ => rfl) h

theorem exec_so (h : s.effectiveAddress f = some a) :
    exec (.so f) s = .next ((s.addressed f).skipIf (a &&& ~~~(s.addressed f).reg f.w == 0#24)) :=
  exec_of_effectiveAddress (i := .so f) (fun _ => rfl) h

theorem exec_sz (h : s.effectiveAddress f = some a) :
    exec (.sz f) s = .next ((s.addressed f).skipIf (a &&& (s.addressed f).reg f.w == 0#24)) :=
  exec_of_effectiveAddress (i := .sz f) (fun _ => rfl) h

theorem exec_sx (h : s.effectiveAddress f = some a) :
    exec (.sx f) s = .next ((s.addressed f).skipIf (a.setWidth 3 &&& (s.addressed f).ex == 0#3)) := by
  rw [BitVec.and_comm]
  exact exec_of_effectiveAddress (i := .sx f) (fun _ => rfl) h

theorem exec_sp (h : Operand s f a) :
    exec (.sp f) s =
      .next ((s.addressed f).skipIf (!(s.addressed f).keyProtected ((s.addressed f).readKey a))) :=
  exec_of_operand (i := .sp f) (fun _ => rfl) h

end

/-- Settles O52: each is a skip on its comparison; two words are equal when they are as signed integers. -/
theorem compareSkips : Obligations.CompareSkips := by
  rintro s u f a ha rfl
  have hframe := OnlyCounter.skipIf (s.addressed_modifier f)
  refine ⟨⟨_, exec_sh ha, ?_, hframe _⟩, ⟨_, exec_sl ha, ?_, hframe _⟩, ⟨_, exec_se ha, ?_, hframe _⟩,
    ⟨_, exec_sn ha, ?_, hframe _⟩⟩ <;> rw [State.skipIf_ic]
  · simp only [decide_eq_true_eq]
  · simp only [decide_eq_true_eq]
  · simp only [beq_iff_eq, BitVec.toInt_inj]
  · simp only [bne_iff_ne, ne_eq, BitVec.toInt_inj]

/-! ## Skips on selected bits -/

/-- A register is zero when all its bits are. -/
theorem eq_zero_iff_getMsbD {n : Nat} (v : BitVec n) : v = 0#n ↔ ∀ b, b < n → v.getMsbD b = false := by
  refine ⟨fun h b _ => by simp [h], fun h => BitVec.eq_of_getMsbD_eq fun b hb => ?_⟩
  rw [h b hb, BitVec.getMsbD_zero]

/-- A skip on selected bits `m` of `v` being zero: made when each is, and not when one is one. -/
theorem State.skipIf_selected {n : Nat} (s : State) (m v : BitVec n) :
    ((∀ b, b < n → m.getMsbD b = true → v.getMsbD b = false) → (s.skipIf (m &&& v == 0#n)).ic = s.ic + 2#24) ∧
      ((∃ b, m.getMsbD b = true ∧ v.getMsbD b = true) → (s.skipIf (m &&& v == 0#n)).ic = s.ic) := by
  simp only [State.skipIf_ic, beq_iff_eq]
  refine ⟨fun h => if_pos ((eq_zero_iff_getMsbD _).mpr fun b hb => ?_), fun ⟨b, hm, hv⟩ => if_neg fun hzero => ?_⟩
  · cases hm : m.getMsbD b with
    | false => rw [BitVec.getMsbD_and, hm, Bool.false_and]
    | true => rw [BitVec.getMsbD_and, h b hb hm, Bool.and_false]
  · have hone : (m &&& v).getMsbD b = true := by rw [BitVec.getMsbD_and, hm, hv, Bool.and_true]
    rw [hzero, BitVec.getMsbD_zero] at hone
    cases hone

/-- The right-hand bits of a register, as a shorter one. -/
theorem getMsbD_setWidth_of_le {m n : Nat} (hmn : m ≤ n) (v : BitVec n) (b : Nat) :
    (v.setWidth m).getMsbD b = v.getMsbD (n - m + b) := by
  rw [BitVec.getMsbD_setWidth, decide_eq_true (by omega), Bool.true_and, show b + n - m = n - m + b by omega]

/-- Settles O53: SO, SZ and SX skip when the selected bits, for SO those of the complement, are zero; SP on one bit of PR. -/
theorem bitSkips : Obligations.BitSkips := by
  rintro s u f a ha rfl
  have hframe := OnlyCounter.skipIf (s.addressed_modifier f)
  obtain ⟨hones, hnotOnes⟩ := (s.addressed f).skipIf_selected a (~~~(s.addressed f).reg f.w)
  obtain ⟨hzeroes, hnotZeroes⟩ := (s.addressed f).skipIf_selected a ((s.addressed f).reg f.w)
  obtain ⟨hclear, hnotClear⟩ := (s.addressed f).skipIf_selected (a.setWidth 3) (s.addressed f).ex
  refine ⟨⟨_, exec_so ha, hframe _, fun h => hones fun b hb hselected => ?_,
      fun ⟨b, hselected, hzero⟩ => hnotOnes ⟨b, hselected, ?_⟩⟩,
    ⟨_, exec_sz ha, hframe _, fun h => hzeroes fun b _ => h b, hnotZeroes⟩,
    ⟨_, exec_sx ha, hframe _, fun h => hclear fun b hb hselected => h b hb ?_,
      fun ⟨b, hb, hselected, hone⟩ => hnotClear ⟨b, ?_, hone⟩⟩,
    fun hexists => ⟨_, exec_sp ⟨ha, by simpa using hexists⟩, hframe _, ?_⟩⟩
  · rw [BitVec.getMsbD_not, h b hselected, Bool.not_true, Bool.and_false]
  · rw [BitVec.getMsbD_not, hzero, Bool.not_false, Bool.and_true, decide_eq_true (BitVec.lt_of_getMsbD hselected)]
  · exact (getMsbD_setWidth_of_le (by decide) a b).symm.trans hselected
  · exact (getMsbD_setWidth_of_le (by decide) a b).trans hselected
  · simp only [State.skipIf_ic, Bool.not_eq_true', State.keyProtected]

end Sys2Proof.Machine
end

section
/-! PROOFS. Monitor control: JE and JD (O51), the loads of IR, EX, IM, PR and keys (O54). -/

namespace Sys2Proof.Machine

/-! ## The mode test passed -/

/-- A privileged instruction in monitor mode (R122). -/
theorem exec_of_monitor {i : Instr} {rest : Word → State → State} {s : State} {a : Word}
    (hexec : ∀ s, exec i s = .next (s.withAddress i.fields fun a u => u.testMode (rest a u)))
    (ha : s.effectiveAddress i.fields = some a) (hmode : s.monitorMode = true) :
    exec i s = .next (rest a (s.addressed i.fields)) := by
  rw [exec_of_effectiveAddress hexec ha, State.testMode_monitor (by simpa using hmode)]

/-- A privileged instruction in monitor mode whose operand exists (R121, R122). -/
theorem exec_of_monitorOperand {i : Instr} {rest : Word → State → State} {s : State} {a : Word}
    (hexec : ∀ s, exec i s =
      .next (s.withAddress i.fields fun a u => u.testMode (u.testAddress a (rest a u))))
    (h : Operand s i.fields a) (hmode : s.monitorMode = true) :
    exec i s = .next (rest a (s.addressed i.fields)) := by
  obtain ⟨ha, hexists⟩ := h
  rw [exec_of_monitor hexec ha hmode, State.testAddress_existing (by simpa using hexists)]

/-! ## JE and JD -/

/-- Settles O51: the flag is set before the jump with link, which leaves it alone. -/
theorem monitorJumps : Obligations.MonitorJumps := by
  rintro s u f a hoperand rfl hmode
  have hmonitor : s.monitorMode = true := by simpa using hmode
  have hjump (disabled : Bool) := State.jumpLink_spec
    (s := { s.addressed f with interruptDisabled := disabled }) (s.addressed_modifier f) f.w a
  exact ⟨⟨_, exec_of_monitorOperand (i := .je f) (fun _ => rfl) hoperand hmonitor, by simp, hjump false⟩,
    _, exec_of_monitorOperand (i := .jd f) (fun _ => rfl) hoperand hmonitor, by simp, hjump true⟩

/-! ## Control registers and keys loaded -/

section
variable {s : State} {f : Fields} {a : Word}

theorem exec_ic (h : s.effectiveAddress f = some a) (hmode : s.monitorMode = true) :
    exec (.ic f) s = .next { s.addressed f with ir := (s.addressed f).ir &&& ~~~a } :=
  exec_of_monitor (i := .ic f) (fun _ => rfl) h hmode

theorem exec_xl (h : Operand s f a) :
    exec (.xl f) s = .next { s.atOperand f with ex := ((s.atOperand f).readByte a).setWidth 3 } :=
  exec_of_operand (i := .xl f) (fun _ => rfl) h

theorem exec_ml (h : Operand s f a) (hmode : s.monitorMode = true) :
    exec (.ml f) s = .next { s.atOperand f with im := (s.atOperand f).readWord a ||| bitMask 0 } :=
  exec_of_monitorOperand (i := .ml f) (fun _ => rfl) h hmode

theorem exec_pl (h : Operand s f a) (hmode : s.monitorMode = true) :
    exec (.pl f) s = .next { s.atOperand f with pr := ((s.atOperand f).readByte a).setWidth 8 ||| 0x80#8 } :=
  exec_of_monitorOperand (i := .pl f) (fun _ => rfl) h hmode

/-- KS makes no store access, so the channel has no turn before it (R272). -/
theorem exec_ks (h : Operand s f a) (hmode : s.monitorMode = true) :
    exec (.ks f) s = .next ((s.addressed f).writeKey a (((s.addressed f).reg f.w).setWidth 3)) :=
  exec_of_monitorOperand (i := .ks f) (fun _ => rfl) h hmode

end

/-- PR[0] alone is one in the mask that keeps it one (R31). -/
theorem getMsbD_permanentProtection {k : Nat} (hk : k < 8) : (0x80#8).getMsbD k = decide (k = 0) := by
  decide +revert

/-- Settles O54: each is one field of the state assigned, read back bit by bit. -/
theorem controlRegisterLoads : Obligations.ControlRegisterLoads := by
  rintro s e u f a ha rfl rfl
  refine ⟨fun hmode => ⟨_, exec_ic ha hmode, fun b hb => ?_, .of_store rfl, rfl⟩,
    fun hexists => ⟨_, exec_xl ⟨ha, hexists⟩, fun b hb => ?_, .of_store rfl, rfl⟩,
    fun hexists hmode => ⟨_, exec_ml ⟨ha, hexists⟩ hmode, ?_, fun b hpos hb => ?_, .of_store rfl, rfl⟩,
    fun hexists hmode => ⟨_, exec_pl ⟨ha, hexists⟩ hmode, ?_, fun k hpos hk => ?_, .of_store rfl, rfl⟩,
    fun hexists hmode => ⟨_, exec_ks ⟨ha, hexists⟩ hmode, ?_, fun b hb => ?_, .of_store rfl, rfl⟩⟩
  · rw [BitVec.getMsbD_and, BitVec.getMsbD_not, decide_eq_true hb, Bool.true_and, State.addressed_ir]
  · exact getMsbD_setWidth_of_le (by decide) _ b
  · rw [getMsbD_or_bitMask (by decide), decide_eq_true rfl, Bool.or_true]
  · rw [getMsbD_or_bitMask (by decide), decide_eq_false (by omega), Bool.or_false]
  · rw [BitVec.getMsbD_or, getMsbD_permanentProtection (by decide), decide_eq_true rfl, Bool.or_true]
  · rw [BitVec.getMsbD_or, getMsbD_permanentProtection hk, decide_eq_false (by omega), Bool.or_false]
    exact getMsbD_setWidth_of_le (by decide) _ k
  · rw [State.readKey_writeKey, if_pos rfl, BitVec.toNat_setWidth]
  · rw [State.readKey_writeKey, if_neg hb, State.addressed_readKey]

end Sys2Proof.Machine
end

section
/-! PROOFS. IO: a device that rejects its command, a device that accepts it, and the interval timer (O55, O58). -/

namespace Sys2Proof.Machine

/-! ## The exception register assigned -/

/-- EX[22:23] are assigned and EX[21] is kept (R273). -/
theorem State.setExceptions_bits (s : State) (p q : Bool) :
    (s.setExceptions p q).ex.getMsbD 0 = s.ex.getMsbD 0 ∧ (s.setExceptions p q).ex.getMsbD 1 = p ∧
      (s.setExceptions p q).ex.getMsbD 2 = q := by
  cases p <;> cases q <;> simp [State.setExceptions, BitVec.getMsbD_or, BitVec.getMsbD_and]

/-! ## Devices -/

@[simp] theorem State.addressed_condition (s : State) (f : Fields) (n : Nat) :
    (s.addressed f).condition n = s.condition n := by simp [State.condition, State.isTimer, State.device?]

@[simp] theorem State.addressed_isTimer (s : State) (f : Fields) (n : Nat) :
    (s.addressed f).isTimer n = s.isTimer n := by simp [State.isTimer]

@[simp] theorem State.addressed_device? (s : State) (f : Fields) (n : Nat) :
    (s.addressed f).device? n = s.device? n := by simp [State.device?]

/-- A device found depends on the installation and the devices only. -/
theorem State.device?_congr {s t : State} (hcfg : t.cfg = s.cfg) (hdevices : t.devices = s.devices) (n : Nat) :
    t.device? n = s.device? n := by rw [State.device?, State.device?, hcfg, hdevices]

/-- A change of one device is not seen under another number. -/
theorem State.device?_updateDevice_ne (s : State) {m n : Nat} (hmn : m ≠ n) {change : Device → Device}
    (hnumber : ∀ d, (change d).number = d.number) : (s.updateDevice n change).device? m = s.device? m := by
  have hsame : ((fun e : Device => e.number == m) ∘ fun e => if e.number = n then change e else e) =
      fun e => e.number == m := by
    funext e
    by_cases he : e.number = n <;> simp [he, hnumber]
  have hkept : ∀ o : Option Device, (∀ e ∈ o, e.number = m) →
      o.map (fun e => if e.number = n then change e else e) = o := by
    intro o ho
    cases o with
    | none => rfl
    | some e => simp [ho e rfl, hmn]
  unfold State.device? State.updateDevice
  dsimp only
  split
  · rw [List.find?_map, hsame, hkept _ fun e he => by simpa using List.find?_some he]
  · rfl

/-- A command does not reach the timer (log 17). -/
theorem State.acceptCommand_timer {s : State} {n : Nat} (h : s.isTimer n = true) (c : BitVec 6) (v : Word) :
    s.acceptCommand n c v = s := if_pos h

theorem State.acceptCommand_device {s : State} {n : Nat} (h : s.isTimer n = false) (c : BitVec 6) (v : Word) :
    s.acceptCommand n c v = s.updateDevice n (fun d => d.accept c v) := by
  rw [State.acceptCommand, h, if_neg Bool.false_ne_true]

@[simp] theorem State.acceptCommand_regs (s : State) (n : Nat) (c : BitVec 6) (v : Word) :
    (s.acceptCommand n c v).regs = s.regs := by
  unfold State.acceptCommand
  split <;> rfl

/-! ## The command code -/

theorem isSense_commandCode (a : Word) : isSense (commandCode a) = decide (a.toNat % 4 = 0) := by
  have hcode : ((commandCode a).setWidth 2).toNat = a.toNat % 4 := by
    simp only [commandCode, BitVec.toNat_setWidth]
    omega
  rw [isSense, Bool.eq_iff_iff, beq_iff_eq, decide_eq_true_iff, ← BitVec.toNat_inj, hcode]
  rfl

theorem movesWord_commandCode (a : Word) : movesWord (commandCode a) = decide (a.toNat % 2 = 1) := by
  rw [← getMsbD_23]
  exact getMsbD_setWidth_of_le (by decide) a 5

/-! ## IO -/

theorem exec_io {s : State} {f : Fields} {a : Word} (h : s.effectiveAddress f = some a) (hmode : s.monitorMode = true) :
    exec (.io f) s = .next ((s.addressed f).inputOutput f.w a) :=
  exec_of_monitor (i := .io f) (fun _ => rfl) h hmode

section
variable {s : State} {w : WReg} {a : Word} {n : Nat}

theorem State.inputOutput_disconnected (hn : s.deviceNumber a = n) (h : s.condition n = .disconnected) :
    s.inputOutput w a = s.setExceptions true false := by simp [State.inputOutput, hn, h]

theorem State.inputOutput_busy (hn : s.deviceNumber a = n) (h : s.condition n = .busy) :
    s.inputOutput w a = s.setExceptions false true := by simp [State.inputOutput, hn, h]

/-- A sense of an available device moves its data word into W (R273). -/
theorem State.inputOutput_sense (hn : s.deviceNumber a = n) (h : s.condition n = .available)
    (hsense : a.toNat % 4 = 0) :
    s.inputOutput w a =
      ((s.setExceptions false false).acceptCommand n (commandCode a) (s.reg w)).setReg w (s.deviceWord n) := by
  simp [State.inputOutput, hn, h, isSense_commandCode, hsense]

/-- Every other command leaves W alone (R273). -/
theorem State.inputOutput_command (hn : s.deviceNumber a = n) (h : s.condition n = .available)
    (hcommand : a.toNat % 4 ≠ 0) :
    s.inputOutput w a = (s.setExceptions false false).acceptCommand n (commandCode a) (s.reg w) := by
  simp [State.inputOutput, hn, h, isSense_commandCode, hcommand]

end

/-- What an available device holds after a command (R312). -/
theorem Device.accept_commandCode {d : Device} (h : d.condition = .available) (a v : Word) :
    (d.accept (commandCode a) v).condition = (if a.toNat % 4 = 0 then .available else .busy) ∧
      (d.accept (commandCode a) v).buffer = if a.toNat % 2 = 1 then v &&& d.used else d.buffer := by
  simp [Device.accept, isSense_commandCode, movesWord_commandCode, h]

/-- What IO leaves when an available device accepts its command, apart from what W receives (R273, R312). -/
structure AcceptedBy (n : Nat) (a v : Word) (d : Device) (s t : State) : Prop where
  flags : t.ex.getMsbD 0 = s.ex.getMsbD 0 ∧ t.ex.getMsbD 1 = false ∧ t.ex.getMsbD 2 = false
  device : t.device? n = some (d.accept (commandCode a) v)
  others : ∀ m, m ≠ n → t.device? m = s.device? m
  store : SameStore s t
  same : t = { s with regs := t.regs, ex := t.ex, devices := t.devices }

theorem AcceptedBy.command {s : State} {n : Nat} {d : Device} (htimer : s.isTimer n = false)
    (hdevice : s.device? n = some d) (a v : Word) :
    AcceptedBy n a v d s ((s.setExceptions false false).acceptCommand n (commandCode a) v) := by
  rw [State.acceptCommand_device (s := s.setExceptions false false) htimer]
  exact ⟨s.setExceptions_bits false false,
    State.device?_updateDevice (s := s.setExceptions false false) hdevice fun _ => rfl,
    fun m hm => State.device?_updateDevice_ne (s.setExceptions false false) hm fun _ => rfl, .of_store rfl, rfl⟩

theorem AcceptedBy.setReg {n : Nat} {a v : Word} {d : Device} {s t : State} (h : AcceptedBy n a v d s t) (r : WReg)
    (value : Word) : AcceptedBy n a v d s (t.setReg r value) := by
  obtain ⟨hflags, hdevice, hothers, hstore, hsame⟩ := h
  have hfound := State.device?_congr (t.setReg_cfg r value) (t.setReg_devices r value)
  refine ⟨by simpa using hflags, (hfound n).trans hdevice, fun m hm => (hfound m).trans (hothers m hm),
    fun b hb => (SameStore.of_store (t.setReg_store r value) b hb).trans (hstore b hb), ?_⟩
  cases r <;> exact congrArg (State.setReg · _ value) hsame

/-- Settles O55: the device's condition decides, and for a device that accepts, the command code. -/
theorem inputOutput : Obligations.InputOutput := by
  rintro s u f a n ha rfl hmode hn
  have hexec := exec_io ha (by simpa using hmode)
  have hn : (s.addressed f).deviceNumber a = n := by simp [hn, State.deviceNumber]
  refine ⟨fun hcondition => ?_, fun hcondition => ?_, fun d htimer hdevice hcondition => ?_⟩
  · obtain ⟨hprecision, h22, h23⟩ := (s.addressed f).setExceptions_bits true false
    exact ⟨_, hexec.trans (congrArg _ (State.inputOutput_disconnected hn (by simpa using hcondition))), hprecision, h22,
      h23, .of_store rfl, rfl⟩
  · obtain ⟨hprecision, h22, h23⟩ := (s.addressed f).setExceptions_bits false true
    exact ⟨_, hexec.trans (congrArg _ (State.inputOutput_busy hn (by simpa using hcondition))), hprecision, h22,
      h23, .of_store rfl, rfl⟩
  · have htimer : (s.addressed f).isTimer n = false := by simpa using htimer
    have hfound : (s.addressed f).device? n = some d := by simpa using hdevice
    have havailable : (s.addressed f).condition n = .available :=
      (State.condition_of_device htimer hfound).trans hcondition
    have haccepted := AcceptedBy.command htimer hfound a ((s.addressed f).reg f.w)
    obtain ⟨hcondition', hbuffer⟩ := Device.accept_commandCode hcondition a ((s.addressed f).reg f.w)
    by_cases hsense : a.toNat % 4 = 0
    · obtain ⟨⟨hprecision, h22, h23⟩, hdevice', hothers, hstore, hsame⟩ :=
        haccepted.setReg f.w ((s.addressed f).deviceWord n)
      refine ⟨_, _, hexec.trans (congrArg _ (State.inputOutput_sense hn havailable hsense)), hprecision, h22, h23,
        hdevice', fun m hm => by simpa using hothers m hm, hstore, hsame, fun _ => ⟨?_, fun r hr => ?_, ?_, ?_⟩,
        fun h => by omega, fun h => by omega⟩
      · rw [State.reg_setReg_self, State.deviceWord_of_device htimer hfound]
      · rw [State.reg_setReg, if_neg (by simpa using hr), State.reg_congr (State.acceptCommand_regs _ _ _ _)]
        exact State.reg_congr rfl r
      · rw [hcondition', if_pos hsense]
      · rw [hbuffer, if_neg (by omega)]
    · obtain ⟨⟨hprecision, h22, h23⟩, hdevice', hothers, hstore, hsame⟩ := haccepted
      refine ⟨_, _, hexec.trans (congrArg _ (State.inputOutput_command hn havailable hsense)), hprecision, h22, h23,
        hdevice', fun m hm => by simpa using hothers m hm, hstore, hsame, fun h => absurd h hsense,
        fun h => ⟨fun r _ => ?_, by rw [hcondition', if_neg hsense], by rw [hbuffer, if_neg (by omega)]⟩,
        fun h => ⟨fun r _ => ?_, by rw [hcondition', if_neg hsense], by rw [hbuffer, if_pos h]⟩⟩
      · exact State.reg_congr (State.acceptCommand_regs _ _ _ _) r
      · exact State.reg_congr (State.acceptCommand_regs _ _ _ _) r

/-! ## The interval timer -/

/-- The signal on a wired bit is an external one (R298, R328). -/
theorem State.wiredSignal_eq (s : State) (w : Option Nat) :
    s.wiredSignal w = { s with ir := (s.wiredSignal w).ir } := by
  cases w with
  | none => rfl
  | some b =>
    unfold State.wiredSignal State.externalSignal
    dsimp only
    split <;> rfl

theorem State.getMsbD_ir_wiredSignal (s : State) (w : Option Nat) {b : Nat} (hb : b < 24) :
    (s.wiredSignal w).ir.getMsbD b = (s.ir.getMsbD b || decide (w = some b ∧ 3 ≤ b)) := by
  cases w with
  | none => simp [State.wiredSignal]
  | some c =>
    unfold State.wiredSignal State.externalSignal
    simp only [Option.some.injEq]
    split
    next hc =>
      rw [getMsbD_or_bitMask (by omega)]
      congr 1
      exact decide_eq_decide.mpr (by omega)
    next hc => rw [decide_eq_false (by omega), Bool.or_false]

/-- One step of the counter (R326, R328; D14). -/
theorem State.timerStep_spec (s : State) :
    s.timerStep.timer = s.timer + 1#14 ∧
      (∀ b, b < 24 → s.timerStep.ir.getMsbD b = (s.ir.getMsbD b ||
        decide (s.cfg.timerIrBit = some b ∧ 3 ≤ b ∧ (s.timer + 1#14).toNat % 2 ^ s.timerInterval = 0))) ∧
      s.timerStep = { s with timer := s.timerStep.timer, ir := s.timerStep.ir } := by
  unfold State.timerStep
  dsimp only
  split
  next hinterval =>
    have hsignal := State.wiredSignal_eq { s with timer := s.timer + 1#14 } s.cfg.timerIrBit
    refine ⟨by rw [hsignal], fun b hb => ?_, by rw [hsignal]⟩
    rw [State.getMsbD_ir_wiredSignal _ _ hb]
    simp only [hinterval, and_true]
  next hinterval => exact ⟨rfl, fun b _ => by simp only [hinterval, and_false, decide_false, Bool.or_false], rfl⟩

/-- Settles O58: the timer answers a sense as an available device that no command changes; a step counts and signals. -/
theorem intervalTimer : Obligations.IntervalTimer := by
  refine ⟨fun s u f a ha hmode hu htimer hsense => ?_, fun s t ht => ?_⟩
  · subst hu
    have htimer : (s.addressed f).isTimer ((s.addressed f).deviceNumber a) = true := by
      simp [State.isTimer, State.deviceNumber, htimer]
    have havailable : (s.addressed f).condition ((s.addressed f).deviceNumber a) = .available := if_pos htimer
    have hword : (s.addressed f).deviceWord ((s.addressed f).deviceNumber a) = s.timer.setWidth 24 := by
      rw [State.deviceWord, if_pos htimer, State.addressed_timer]
    have hexec := exec_io ha hmode
    rw [State.inputOutput_sense rfl havailable hsense, hword,
      State.acceptCommand_timer (s := (s.addressed f).setExceptions false false) htimer] at hexec
    obtain ⟨hprecision, h22, h23⟩ := (s.addressed f).setExceptions_bits false false
    refine ⟨_, hexec, ?_, by simp, by simpa using hprecision, by simpa using h22, by simpa using h23, fun r hr => ?_,
      .of_store (by simp), ?_⟩
    · rw [State.reg_setReg_self]
      exact BitVec.toNat_setWidth_of_le (by decide)
    · rw [State.reg_setReg, if_neg (by simpa using hr)]
      exact State.reg_congr rfl r
    · cases f.w <;> rfl
  · obtain ⟨hcount, hir, hsame⟩ := s.timerStep_spec
    rw [← ht] at hcount hir hsame
    refine ⟨?_, hcount ▸ hir, hsame⟩
    rw [hcount, BitVec.toNat_add]
    rfl

end Sys2Proof.Machine
end

section
/-! PROOFS. AW: the word assembled from four characters (O56), the wait for device 0 and what stops it (O56, O57). -/

namespace Sys2Proof.Machine

/-! ## The word assembled -/

/-- A character shifted in under the ones before it (R274). -/
theorem toNat_shiftIn {word v : Word} {n : Nat} (hword : word.toNat = n) (hn : n < 2 ^ 18) (hv : v.toNat < 64) :
    ((word <<< 6) ||| v).toNat = n * 64 + v.toNat := by
  have hshift : (word <<< 6).toNat = word.toNat <<< 6 := by
    rw [BitVec.toNat_shiftLeft, Nat.shiftLeft_eq, Nat.mod_eq_of_lt (by omega)]
  rw [BitVec.toNat_or, hshift, ← Nat.shiftLeft_add_eq_or_of_lt (by omega), Nat.shiftLeft_eq, hword]

/-- Four characters are assembled with the first leftmost (R274). -/
theorem FourCharacters.assembled {c1 c2 c3 c4 v : Word} (h : FourCharacters c1 c2 c3 c4 v) :
    [c1, c2, c3, c4].foldl (fun (word v : Word) => (word <<< 6) ||| v) 0#24 = v := by
  obtain ⟨h1, h2, h3, h4, hv⟩ := h
  have hfirst := toNat_shiftIn (word := 0#24) (n := 0) rfl (by decide) h1
  have hsecond := toNat_shiftIn hfirst (by omega) h2
  have hthird := toNat_shiftIn hsecond (by omega) h3
  have hfourth := toNat_shiftIn hthird (by omega) h4
  refine BitVec.eq_of_toNat_eq (hfourth.trans ?_)
  omega

/-! ## The word loaded -/

/-- At an existing address the word is written after a turn of the channel, and its key set to zero (R274). -/
theorem State.loadWord_existing {s : State} {a : Word} (h : s.inStore a = true) (v : Word) :
    s.loadWord a v = (s.channelTurn.writeWord a v).writeKey a 0#3 := by
  rw [State.loadWord, State.testAddress_existing h, State.access]

theorem State.readWord_writeKey (s : State) (a b : Word) (k : Key) : (s.writeKey a k).readWord b = s.readWord b :=
  State.readWord_congr rfl rfl b

theorem State.readWord_loadWord {s : State} {a : Word} (h : s.inStore a = true) (v : Word) :
    (s.loadWord a v).readWord a = v := by
  rw [State.loadWord_existing h, State.readWord_writeKey, State.readWord_writeWord_self]

/-- Every other word is as before, unless the channel's script names it. -/
theorem State.readWord_loadWord_ne {s : State} {a b : Word} (h : s.inStore a = true) (v : Word)
    (hspares : s.channelSpares (wordNumber b)) (hne : wordNumber b ≠ wordNumber a) :
    (s.loadWord a v).readWord b = s.readWord b := by
  rw [State.loadWord_existing h, State.readWord_writeKey, State.readWord_writeWord, if_neg hne,
    State.readWord_channelTurn hspares]

theorem State.readKey_loadWord {s : State} {a : Word} (h : s.inStore a = true) (v b : Word) :
    (s.loadWord a v).readKey b = if wordNumber b = wordNumber a then 0#3 else s.readKey b := by
  rw [State.loadWord_existing h, State.readKey_writeKey]
  simp [State.readKey]

/-- The control fields but the keys, IR and the script are as before. -/
theorem State.loadWord_frame {s : State} {a : Word} (h : s.inStore a = true) (v : Word) :
    (s.loadWord a v).control = { s.control with keys := (s.loadWord a v).keys } ∧ (s.loadWord a v).ir = s.ir ∧
      (s.loadWord a v).inputs = s.inputs := by
  rw [State.loadWord_existing h]
  simp [State.control]

/-- What the script names before the address modification, it names after it. -/
theorem State.channelSpares_addressed {s : State} {n : Nat} (h : s.channelSpares n) (f : Fields) :
    (s.addressed f).channelSpares n := by
  unfold State.addressed
  split
  · exact State.channelSpares_channelTurn h
  · exact h

theorem State.readWord_addressed {s : State} {a : Word} (h : s.channelSpares (wordNumber a)) (f : Fields) :
    (s.addressed f).readWord a = s.readWord a := by
  unfold State.addressed
  split
  · exact (State.readWord_congr rfl rfl a).trans (State.readWord_channelTurn h)
  · exact State.readWord_congr rfl rfl a

/-- AW's input reaches neither registers nor store, keys, control or the channel's script (R274). -/
theorem LoaderFrame.fields {s t : State} (h : LoaderFrame s t) :
    t.control = { s.control with ex := t.ex } ∧ t.ir = s.ir ∧ t.cfg = s.cfg ∧ t.regs = s.regs ∧ t.store = s.store ∧
      t.channel = s.channel := by
  rw [h.same]
  exact ⟨rfl, rfl, rfl, rfl, rfl, rfl⟩

/-! ## Looks at device 0 -/

theorem State.startInput_available {s : State} (h : s.condition 0 = .available) (p : Autoload) :
    s.startInput p = .waiting { p with waiting := true } (s.loaderCommand readCommand) := by
  simp [State.startInput, h, State.loaderCommand]

theorem State.startInput_busy {s : State} (h : s.condition 0 = .busy) (p : Autoload) :
    s.startInput p = .waiting { p with waiting := false } s := by simp [State.startInput, h]

theorem State.startInput_disconnected {s : State} (h : s.condition 0 = .disconnected) (p : Autoload) :
    s.startInput p = .finished s.resetSystem := by simp [State.startInput, h]

theorem State.pollLoader_disconnected {s : State} (h : s.condition 0 = .disconnected) (p : Autoload) :
    s.pollLoader p = .finished s.resetSystem := by
  unfold State.pollLoader
  split
  · simp [State.waitInput, h]
  · exact State.startInput_disconnected h p

/-- At `WaitInput` an available device 0 is sensed, and its data word taken (R274). -/
theorem State.pollLoader_available {s : State} {p : Autoload} (hp : p.waiting = true) (h : s.condition 0 = .available) :
    s.pollLoader p = (s.loaderCommand senseCommand).takeCharacter p (s.deviceWord 0) := by
  simp [State.pollLoader, hp, State.waitInput, h, State.loaderCommand]

/-- A command of AW leaves device 0 available if it is a sense, and busy otherwise (R312). -/
theorem State.condition_loaderCommand {s : State} (htimer : s.isTimer 0 = false) (h : s.condition 0 = .available)
    (c : BitVec 6) : (s.loaderCommand c).condition 0 = if isSense c then .available else .busy := by
  have htimer' : (s.clearExceptions.updateDevice 0 fun d => d.accept c 0#24).isTimer 0 = false := htimer
  cases hdevice : s.device? 0 with
  | none => simp [State.condition, htimer, hdevice] at h
  | some d =>
    have havailable : d.condition = .available := (State.condition_of_device htimer hdevice).symm.trans h
    rw [State.loaderCommand_eq htimer, State.condition_of_device htimer'
      (State.device?_updateDevice (s := s.clearExceptions) hdevice fun _ => rfl), Device.accept, havailable]

/-- A data word with the end of buffer bit is read again (R274). -/
theorem State.takeCharacter_end {sb : Word} (h : sb.getMsbD 0 = true) (s : State) (p : Autoload) :
    s.takeCharacter p sb = s.startInput p := if_pos h

/-- Any other status bit resets the machine (R274). -/
theorem State.takeCharacter_status {sb : Word} (hend : sb.getMsbD 0 = false) (h : leftByte sb ≠ 0#12) (s : State)
    (p : Autoload) : s.takeCharacter p sb = .finished s.resetSystem := by
  simp [State.takeCharacter, hend, h]

/-- One of the first three characters is shifted in (R274). -/
theorem State.takeCharacter_shift {sb : Word} (hend : sb.getMsbD 0 = false) (h : leftByte sb = 0#12) {p : Autoload}
    (hp : p.count < 3) (s : State) :
    s.takeCharacter p sb =
      s.startInput { p with assembled := (p.assembled <<< 6) ||| sb, count := p.count + 1 } := by
  simp [State.takeCharacter, hend, h, hp]

/-! ## A step of a held AW -/

/-- The state in which a held AW goes on: nothing is held while it runs. -/
def State.released (s : State) : State := { s with autoload := none }

theorem State.step_of_autoload {s : State} {p : Autoload} (hhalt : s.halt = none) (hautoload : s.autoload = some p) :
    step s = .next (s.released.runLoader p s.inputs) := by
  simp [step, State.cycle, hhalt, hautoload, State.continueLoader, State.released]

section
variable {s t : State} {p q : Autoload} (hhalt : s.halt = none) (hautoload : s.autoload = some p)
  (hinputs : s.inputs = [])
include hhalt hautoload hinputs

theorem State.step_finished (hpoll : s.released.pollLoader p = .finished t) : step s = .next t := by
  rw [State.step_of_autoload hhalt hautoload, hinputs, State.runLoader, hpoll]

theorem State.step_waiting (hpoll : s.released.pollLoader p = .waiting q t) :
    step s = .next { t with autoload := some q } := by
  rw [State.step_of_autoload hhalt hautoload, hinputs, State.runLoader, hpoll]

end

theorem State.loaderReads.held {s : State} {p : Autoload} {sb : Word} (h : s.loaderReads p sb) :
    s.autoload = some p ∧ p.waiting = true := by
  obtain ⟨-, hautoload, hwaiting, -⟩ := h
  exact ⟨hautoload, hwaiting⟩

/-- An AW that senses device 0 and reads on: the read command makes the device busy, and nothing else is changed (R274). -/
theorem State.loaderReads.readsOn {s : State} {p q : Autoload} {sb : Word} (h : s.loaderReads p sb)
    (hread : (s.released.loaderCommand senseCommand).takeCharacter p sb =
      (s.released.loaderCommand senseCommand).startInput q) (hq : q.waiting = true) :
    ∃ t, step s = .next t ∧ t.condition 0 = .busy ∧ t.ex = s.ex &&& 0b100#3 ∧
      t = { s with ex := t.ex, devices := t.devices, autoload := some q } := by
  obtain ⟨hhalt, hautoload, hp, hinputs, htimer, havailable, rfl⟩ := h
  let sensed := s.released.loaderCommand senseCommand
  have hsensed : sensed.condition 0 = .available :=
    State.condition_loaderCommand (s := s.released) htimer havailable senseCommand
  have hsensing := LoaderFrame.loaderCommand (s := s.released) htimer senseCommand
  have htimer' : sensed.isTimer 0 = false := by
    obtain ⟨-, -, hcfg, -⟩ := hsensing.fields
    rw [State.isTimer, hcfg]
    exact htimer
  have hpoll : s.released.pollLoader p = .waiting q (sensed.loaderCommand readCommand) := by
    rw [State.pollLoader_available (s := s.released) hp havailable]
    exact hread.trans (State.startInput_available hsensed q ▸ by rw [← hq])
  have hsame := (hsensing.trans (LoaderFrame.loaderCommand htimer' readCommand)).same
  rw [State.loaderCommand_inputs, State.loaderCommand_inputs] at hsame
  refine ⟨_, State.step_waiting hhalt hautoload hinputs hpoll,
    State.condition_loaderCommand htimer' hsensed readCommand, ?_, congrArg (fun t : State => { t with autoload := some q }) hsame⟩
  show (sensed.loaderCommand readCommand).ex = _
  rw [State.loaderCommand_ex, State.loaderCommand_ex, BitVec.and_assoc, BitVec.and_self]
  rfl

/-- AW completed: what it leaves of the control fields (R274). -/
theorem State.loadWord_control {s m : State} {f : Fields} {a : Word} (h : LoaderFrame (s.addressed f) m)
    (hexists : m.inStore a = true) (v : Word) :
    (m.loadWord a v).control =
      { s.control with ex := m.ex, keys := (m.loadWord a v).keys, modifier := none } := by
  obtain ⟨hloaded, -⟩ := State.loadWord_frame hexists v
  obtain ⟨hinput, -⟩ := h.fields
  rw [hloaded, hinput]
  simp [State.control]

/-- Settles O56: the input of four characters ends in the word loaded; a held AW reads on. -/
theorem autoloadLoadsWord : Obligations.AutoloadLoadsWord := by
  refine ⟨fun s f a c1 c2 c3 c4 v rest ⟨ha, hexists⟩ hmode hcharacters hdelivers => ?_, fun s p sb h => ?_⟩
  · have hvalue := hcharacters.assembled
    obtain ⟨h1, h2, h3, h4, -⟩ := hcharacters
    obtain ⟨⟨d, hloading⟩, hinputs⟩ := State.delivers_addressed (f := f) hdelivers
    obtain ⟨m, hm, hloaded⟩ :=
      hloading.autoloadWord a (characters := [c1, c2, c3, c4]) rfl (by simp [h1, h2, h3, h4]) hinputs
    rw [hvalue] at hloaded
    obtain ⟨-, hir, hcfg, hregs, hstore, hchannel⟩ := hm.frame.fields
    have hexists' : m.inStore a = true := by
      rw [State.inStore, hcfg, State.addressed_cfg]
      exact hexists
    have hcontrol := State.loadWord_control hm.frame hexists' v
    obtain ⟨-, hir', hinputs'⟩ := State.loadWord_frame hexists' v
    have hex : (m.loadWord a v).ex = m.ex := congrArg Control.ex hcontrol
    have hkeys : m.keys = s.keys := by rw [hm.frame.same, State.addressed_keys]
    have hwords : ∀ b, s.channelSpares (wordNumber b) → wordNumber b ≠ wordNumber a →
        (m.loadWord a v).readWord b = s.readWord b := fun b hspares hne => by
      rw [State.readWord_loadWord_ne hexists' v ?_ hne, State.readWord_congr hregs hstore,
        State.readWord_addressed hspares]
      rw [State.channelSpares, hchannel]
      exact State.channelSpares_addressed hspares f
    refine ⟨_, (exec_of_monitor (i := .aw f) (fun _ => rfl) ha hmode).trans (congrArg _ hloaded),
      State.readWord_loadWord hexists' v, ?_, fun b hb => ?_, fun b hspares hb => ?_, fun r hspares hr => ?_, ?_, ?_, ?_,
      hinputs'.trans hm.inputs, congrArg Control.ic hcontrol, ?_,
      ⟨congrArg Control.pr hcontrol, congrArg Control.im hcontrol, congrArg Control.monitorMode hcontrol,
        congrArg Control.interruptDisabled hcontrol⟩,
      congrArg Control.autoload hcontrol, congrArg Control.phase hcontrol, congrArg Control.modifier hcontrol⟩
    · rw [State.readKey_loadWord hexists', if_pos rfl]
    · rw [State.readKey_loadWord hexists', if_neg hb, State.readKey, hkeys, State.readKey]
    · exact State.readByte_eq_of_readWord (hwords b hspares hb)
    · refine State.reg_eq_of_readWord fun b hb => hwords b (hb ▸ hspares) fun hsame => hr ?_
      rw [← hsame, hb, registerAt_registerNumber]
    · rw [hex, hm.frame.precision, State.addressed_ex]
    · rw [hex, hm.cleared.1]
    · rw [hex, hm.cleared.2]
    · rw [hir', hir, State.addressed_ir]
  · obtain ⟨hautoload, hwaiting⟩ := h.held
    refine ⟨fun hend => ?_, fun hend hstatus hp => ?_⟩
    · obtain ⟨t, hstep, hbusy, hex, hsame⟩ := h.readsOn (State.takeCharacter_end hend _ p) hwaiting
      exact ⟨t, hstep, hbusy, hex, hsame.trans (by rw [← hautoload])⟩
    · obtain ⟨t, hstep, hbusy, hex, hsame⟩ := h.readsOn (State.takeCharacter_shift hend hstatus hp _) hwaiting
      exact ⟨t, _, hstep, hbusy, hex, rfl, hsame⟩

/-! ## What stops an AW -/

theorem State.autoloadWord_disconnected {s : State} (h : s.condition 0 = .disconnected) (a : Word) :
    s.autoloadWord a = s.resetSystem := by rw [State.autoloadWord, State.startInput_disconnected h]

/-- What a new AW holds while device 0 is busy (R274). -/
def Autoload.begun (a : Word) : Autoload := { address := a, assembled := 0#24, count := 0, waiting := false }

theorem State.pollLoader_begun {s : State} (h : s.condition 0 = .busy) (a : Word) :
    s.pollLoader (.begun a) = .waiting (.begun a) s := (if_neg Bool.false_ne_true).trans (State.startInput_busy h _)

/-- With device 0 busy and no script left, AW is held as it is. -/
theorem State.autoloadWord_busy {s : State} (h : s.condition 0 = .busy) (hinputs : s.inputs = []) (a : Word) :
    s.autoloadWord a = { s with autoload := some (.begun a) } := by
  have hheld : s.runLoader (.begun a) [] = { s with autoload := some (.begun a) } := by
    rw [State.runLoader, State.pollLoader_begun h]
  rw [State.autoloadWord, State.startInput_busy h]
  exact (congrArg (s.runLoader (.begun a)) hinputs).trans hheld

/-- Settles O57: device 0 disconnected, device 0 busy for ever, a status bit, and an event that stops the machine. -/
theorem autoloadStops : Obligations.AutoloadStops := by
  refine ⟨fun s u f a ha hmode hu => ?_, fun s p hhalt hautoload hinputs hcondition => ?_,
    fun s p sb h hend hstatus => ?_, fun s u p batch rest hhalt hautoload hinputs hu hstopped => ?_⟩
  · have hexec : exec (.aw f) s = .next (u.autoloadWord a) := hu ▸ exec_of_monitor (i := .aw f) (fun _ => rfl) ha hmode
    refine ⟨fun hcondition => ?_, fun hcondition hinputs hhalt => ?_⟩
    · rw [hexec, State.autoloadWord_disconnected (by simpa [hu] using hcondition)]
    · have hbusy : u.condition 0 = .busy := by simpa [hu] using hcondition
      have hinputs : u.inputs = [] := by simpa [hu] using hinputs
      have hpoll := State.pollLoader_begun (s := u.released) hbusy a
      refine ⟨_, hexec.trans (congrArg _ (State.autoloadWord_busy hbusy hinputs a)), rfl, ?_⟩
      exact State.step_waiting (s := { u with autoload := some (.begun a) }) (t := u.released)
        (by simpa [hu] using hhalt) rfl hinputs hpoll
  · exact State.step_finished hhalt hautoload hinputs (State.pollLoader_disconnected (s := s.released) hcondition p)
  · obtain ⟨hhalt, hautoload, hwaiting, hinputs, htimer, havailable, rfl⟩ := h
    have hpoll := State.pollLoader_available (s := s.released) hwaiting havailable
    have hsame := (LoaderFrame.loaderCommand (s := s.released) htimer senseCommand).same
    rw [State.loaderCommand_inputs, State.loaderCommand_ex] at hsame
    exact ⟨_, State.step_finished hhalt hautoload hinputs (hpoll.trans (State.takeCharacter_status hend hstatus _ p)),
      hsame⟩
  · rw [State.step_of_autoload hhalt hautoload, hinputs, State.runLoader, State.released, ← hu,
      if_pos (Option.isSome_iff_ne_none.mpr hstopped)]

end Sys2Proof.Machine
end

section
/-! PROOFS. Reset: the reset state and its invariant (O8), what `Reset System` and `Power On` assign (O11), the loop
`After Reset` (O12), and a power failure and a parity error (O60). -/

namespace Sys2Proof.Machine

/-! ## The reset state -/

theorem State.reset_sound : State.reset.Sound where
  permanent := ⟨rfl, rfl⟩
  store := State.reset_wf
  buffers d hd := by
    obtain rfl : d = Device.loader := List.mem_singleton.mp hd
    rfl
  interval := ⟨by decide, by decide⟩

/-- Settles O8: in the loop `After Reset` the invariant asks for what is sound at every label. -/
theorem resetMeetsInvariant : Obligations.ResetMeetsInvariant :=
  State.reset_sound.resetState_inv rfl rfl rfl rfl rfl

/-! ## Reset System and Power On -/

theorem State.powerOn_from (s : State) : PowerOnFrom s s.powerOn :=
  ⟨rfl, rfl, rfl, rfl, rfl, rfl, rfl, rfl, fun r _ => State.reg_congr rfl r, fun _ => rfl, rfl, rfl, rfl, rfl, rfl, rfl,
    rfl, rfl, rfl, rfl, rfl, rfl, rfl, rfl, rfl⟩

/-- `Reset System` writes word 10, which is none of the working registers, and nothing else that `Power On` does not assign
(R341). -/
theorem State.resetSystem_from (s : State) : PowerOnFrom s.channelTurn s.resetSystem := by
  have hstore : registerAt (wordNumber 10#24) = none := rfl
  have hregs : SameRegistersBut [] s.channelTurn s.resetSystem := fun r _ =>
    State.reg_congr (by simp only [State.resetSystem, State.powerOn_regs, State.writeWord, hstore]) r
  have hkeys : SameKeys s.channelTurn s.resetSystem := .of_keys (by simp)
  refine ⟨rfl, rfl, rfl, rfl, rfl, rfl, rfl, rfl, hregs, hkeys, ?_⟩
  simp [State.resetSystem]

theorem State.readWord_resetSystem (s : State) (a : Word) :
    s.resetSystem.readWord a = if wordNumber a = 5 then s.ic else s.channelTurn.readWord a := by
  rw [State.resetSystem, State.readWord_congr (State.powerOn_regs _) (State.powerOn_store _), State.readWord_writeWord,
    show wordNumber 10#24 = 5 from rfl]

/-- Settles O11: the write of word 10, then `Power On`. -/
theorem resetSystemAssigns : Obligations.ResetSystemAssigns := by
  rintro s u rfl
  refine ⟨(s.readWord_resetSystem 10#24).trans (if_pos rfl), fun a ha => ?_, s.resetSystem_from,
    State.readByte_congr rfl rfl, s.powerOn_from⟩
  exact State.readByte_eq_of_readWord ((s.readWord_resetSystem a).trans (if_neg ha))

/-! ## The loop After Reset -/

/-- With no AW and no AM under way a step goes on from the label at which the outside world leaves the machine (R110). -/
theorem State.step_of_atBoundary {s : State} (h : s.atBoundary) : step s = s.takeInputs.continueFrom := by
  obtain ⟨hhalt, hautoload, hmodifier⟩ := h
  simp [step, State.cycle, hhalt, hautoload, hmodifier]

theorem State.continueFrom_afterReset {u : State} (h : u.undisturbed .afterReset) : u.continueFrom = u.afterReset := by
  obtain ⟨hhalt, hpower, hphase⟩ := h
  simp [State.continueFrom, State.waitingForStart, hhalt, hpower, hphase]

/-- The autoload key runs AW, whose mode test passes (R349). -/
theorem State.autoloadStart_monitor {u : State} (h : u.monitorMode = true) :
    u.autoloadStart = State.autoloadWord { u with ic := 0#24, phase := .running, cpuError := false } 0#24 :=
  State.testMode_monitor (s := { u with ic := 0#24, phase := .running, cpuError := false }) h _

/-- Settles O12: one turn of the loop, in the order in which it looks at the keys; the start key leads to a fetch. -/
theorem resetStateLoop : Obligations.ResetStateLoop := by
  rintro s u hboundary rfl hwaits hmode
  rw [State.step_of_atBoundary hboundary, State.continueFrom_afterReset hwaits]
  refine ⟨fun hautoload hstart => ?_, fun hautoload => ?_, fun v hautoload hstart hreset hv => ?_⟩
  · simp [State.afterReset, hautoload, hstart]
  · rw [State.afterReset, if_pos hautoload, State.autoloadStart_monitor hmode]
  · have hfetch : s.takeInputs.afterReset = v.fetch true := by
      rw [State.afterReset, hautoload, hstart, if_neg Bool.false_ne_true, if_pos rfl, hv]
      rfl
    have hkey : v.resetKey = false := by simpa [hv] using hreset
    rw [hfetch]
    refine ⟨fun hout => State.fetch_missing hout true, fun i hfetches => ?_⟩
    have hexists : v.inStore v.ic = true := by simpa using hfetches.1
    rw [State.fetch_existing hexists hkey, State.runAtCounter_of_fetches hfetches]

/-! ## Registers lost -/

section
variable (s : State) (c : PowerOnContents)

@[simp] theorem State.loseRegisters_store : (s.loseRegisters c).store = s.store := by simp [State.loseRegisters]
@[simp] theorem State.loseRegisters_devices : (s.loseRegisters c).devices = s.devices := by
  simp only [State.loseRegisters, State.writeKey_devices]
@[simp] theorem State.loseRegisters_inputs : (s.loseRegisters c).inputs = s.inputs := by simp [State.loseRegisters]
@[simp] theorem State.loseRegisters_channel : (s.loseRegisters c).channel = s.channel := by simp [State.loseRegisters]

/-- A power failure of the processor reaches no device. -/
theorem State.powerFailure_devices : (s.powerFailure c).devices = s.devices := by simp [State.powerFailure]

/-- A parity error reaches neither store nor devices nor scripts (R334; log 28). -/
theorem State.machineError_frame : (s.machineError c).store = s.store ∧ (s.machineError c).devices = s.devices ∧
    (s.machineError c).inputs = s.inputs ∧ (s.machineError c).channel = s.channel := by simp [State.machineError]

end

/-- The keys of the four working registers are lost with them, and no other key (R345). -/
theorem State.readKey_loseRegisters {a : Word} (h : 4 ≤ wordNumber a) (s : State) (c : PowerOnContents) :
    (s.loseRegisters c).readKey a = s.readKey a := by
  have hother (b : Word) (hb : wordNumber b < 4) : wordNumber a ≠ wordNumber b := by omega
  show ((((s.writeKey 0#24 c.key0).writeKey 2#24 c.key1).writeKey 4#24 c.key2).writeKey 6#24 c.key3).readKey a = _
  rw [State.readKey_writeKey, if_neg (hother 6#24 (by decide)), State.readKey_writeKey,
    if_neg (hother 4#24 (by decide)), State.readKey_writeKey, if_neg (hother 2#24 (by decide)), State.readKey_writeKey,
    if_neg (hother 0#24 (by decide))]

/-- A word above the working registers is read from the store alone. -/
theorem State.readWord_of_high {s t : State} {a : Word} (h : 4 ≤ wordNumber a) (hstore : t.store = s.store) :
    t.readWord a = s.readWord a := by
  simp only [State.readWord, registerAt_of_le h, hstore]

/-- The store above the working registers is retained (R345). -/
theorem State.readWord_loseRegisters {a : Word} (h : 4 ≤ wordNumber a) (s : State) (c : PowerOnContents) :
    (s.loseRegisters c).readWord a = s.readWord a := State.readWord_of_high h (s.loseRegisters_store c)

/-- PR[0] and IM[0] are one whatever the other register bits are (R31, R33, R346). -/
theorem State.loseRegisters_permanent (s : State) (c : PowerOnContents) : (s.loseRegisters c).permanentBits := by
  constructor
  · show (c.pr ||| 0x80#8).getMsbD 0 = true
    rw [BitVec.getMsbD_or, getMsbD_permanentProtection (by decide), decide_eq_true rfl, Bool.or_true]
  · show (c.im ||| bitMask 0).getMsbD 0 = true
    rw [getMsbD_or_bitMask (by decide), decide_eq_true rfl, Bool.or_true]

/-- What takes the machine out of program control comes before anything else. -/
theorem State.step_halted {s u : State} {h : Halt} (hlook : u = s ∨ (s.atBoundary ∧ u = s.takeInputs))
    (hhalt : u.halt = some h) : step s = u.halted h := by
  obtain rfl | ⟨hboundary, rfl⟩ := hlook
  · simp [step, State.cycle, hhalt]
  · simp [State.step_of_atBoundary hboundary, State.continueFrom, hhalt]

/-- A power failure is looked at before interrupts, and after an instruction exception too (R129 (c), R363). -/
theorem State.continueFrom_powerFailing {u : State} {c : PowerOnContents} (hhalt : u.halt = none)
    (hphase : u.phase ≠ .afterReset) (hpower : u.powerFailing = some c) :
    u.continueFrom = .next (u.powerFailure c) := by
  cases hlabel : u.phase with
  | afterReset => exact absurd hlabel hphase
  | running => simp [State.continueFrom, State.boundary, hhalt, hlabel, hpower]
  | fetching => simp [State.continueFrom, State.fetchAfterException, hhalt, hlabel, hpower]

/-- A power failure keeps what `Reset System` leaves above the working registers (R345, R347). -/
theorem State.readWord_powerFailure {a : Word} (h : 4 ≤ wordNumber a) (u : State) (c : PowerOnContents) :
    (u.powerFailure c).readWord a = if wordNumber a = 5 then u.ic else u.channelTurn.readWord a :=
  (State.readWord_congr rfl rfl a).trans ((State.readWord_loseRegisters h _ c).trans (u.readWord_resetSystem a))

/-- Settles O60: a power failure is `Reset System` with the registers lost after it, a parity error `Power On` with them lost,
which writes no store word. -/
theorem powerFailureResets : Obligations.PowerFailureResets := by
  refine ⟨fun s u c hboundary hu hhalt hphase hpower => ?_, fun s u c hlook hhalt => ?_⟩
  · obtain ⟨hpr, him⟩ := u.resetSystem.loseRegisters_permanent c
    have hstep : step s = .next (u.powerFailure c) := by
      rw [State.step_of_atBoundary hboundary, ← hu, State.continueFrom_powerFailing hhalt hphase hpower]
    have hcounter : (u.powerFailure c).readWord 10#24 = u.ic :=
      (State.readWord_powerFailure (a := 10#24) (by decide) u c).trans (if_pos rfl)
    refine ⟨_, hstep, hcounter, rfl, rfl, rfl, rfl, rfl, rfl,
      fun a hspares hlow h5 => ?_, fun a hlow => ?_, hpr, him, u.powerFailure_devices c, rfl, rfl⟩
    · refine State.readByte_eq_of_readWord ?_
      rw [State.readWord_powerFailure hlow, if_neg h5, State.readWord_channelTurn hspares]
    · exact (State.readKey_loseRegisters hlow u.resetSystem c).trans (SameKeys.of_keys u.resetSystem_keys a)
  · obtain ⟨hpr, him⟩ := u.powerOn.loseRegisters_permanent c
    obtain ⟨hstore, hdevices, hinputs, hchannel⟩ := u.machineError_frame c
    refine ⟨_, State.step_halted hlook hhalt, rfl, rfl, rfl, rfl, rfl, rfl, rfl, rfl, rfl, rfl, rfl, rfl, rfl, rfl, rfl,
      fun a hlow => ⟨State.readByte_eq_of_readWord (State.readWord_of_high hlow hstore),
        State.readKey_loseRegisters hlow u.powerOn c⟩, hpr, him, hdevices, hinputs, hchannel⟩

end Sys2Proof.Machine
end

section
/-! PROOFS. Encoding: an instruction word as the number that its operation code and its operand fields make, decoding and
encoding inverse to each other (O1), the layout of the fields and the bytes fetched (O2), and the examples of R105 (O3). -/

namespace Sys2Proof

/-! ## The codes of the fields -/

theorem WReg.code_lt (w : WReg) : w.code < 4 := by cases w <;> decide

theorem XReg.code_lt (x : XReg) : x.code < 4 := by cases x <;> decide

theorem WReg.code_injective {v w : WReg} (h : v.code = w.code) : v = w := by
  revert h
  cases v <;> cases w <;> decide

theorem XReg.code_injective {x y : XReg} (h : x.code = y.code) : x = y := by
  revert h
  cases x <;> cases y <;> decide

/-- The operand fields as the number that they are in an instruction word (R91). -/
def Fields.code (f : Fields) : Nat :=
  f.w.code * 2 ^ 16 + (2 * f.relative.toNat + f.indirect.toNat) * 2 ^ 14 + f.x.code * 2 ^ 12 + f.d.toNat

theorem Fields.code_lt (f : Fields) : f.code < 2 ^ 18 := by
  have hw := f.w.code_lt
  have hx := f.x.code_lt
  have hrelative := f.relative.toNat_lt
  have hindirect := f.indirect.toNat_lt
  have hd := f.d.isLt
  unfold Fields.code
  omega

/-- The fields do not overlap: their number determines each of them (R91). -/
theorem Fields.code_injective {f g : Fields} (h : f.code = g.code) : f = g := by
  obtain ⟨w, relative, indirect, x, d⟩ := f
  obtain ⟨w', relative', indirect', x', d'⟩ := g
  have hbit : Function.Injective Bool.toNat := Function.LeftInverse.injective Bool.ofNat_toNat
  have hx := x.code_lt
  have hx' := x'.code_lt
  have hrelative := relative.toNat_lt
  have hrelative' := relative'.toNat_lt
  have hindirect := indirect.toNat_lt
  have hindirect' := indirect'.toNat_lt
  have hd := d.isLt
  have hd' := d'.isLt
  simp only [Fields.code] at h
  obtain rfl : w = w' := WReg.code_injective (by omega)
  obtain rfl : relative = relative' := hbit (by omega)
  obtain rfl : indirect = indirect' := hbit (by omega)
  obtain rfl : x = x' := XReg.code_injective (by omega)
  obtain rfl : d = d' := BitVec.eq_of_toNat_eq (by omega)
  rfl

/-! ## The fields of a word -/

theorem toNat_getMsbD {k : Nat} (hk : k < 24) (v : Word) : (v.getMsbD k).toNat = v.toNat / 2 ^ (23 - k) % 2 := by
  rw [BitVec.getMsbD, decide_eq_true hk, Bool.true_and, BitVec.getLsbD, Nat.toNat_testBit,
    show 24 - 1 - k = 23 - k by omega]

theorem code_fieldW (v : Word) : (fieldW v).code = v.toNat / 2 ^ 16 % 4 := by
  have hcode : v.toNat / 2 ^ 16 % 4 < 4 := Nat.mod_lt _ (by decide)
  unfold fieldW
  interval_cases v.toNat / 2 ^ 16 % 4 <;> rfl

theorem code_fieldX (v : Word) : (fieldX v).code = v.toNat / 2 ^ 12 % 4 := by
  have hcode : v.toNat / 2 ^ 12 % 4 < 4 := Nat.mod_lt _ (by decide)
  unfold fieldX
  interval_cases v.toNat / 2 ^ 12 % 4 <;> rfl

/-- The two bits of M as one number (R91). -/
theorem code_mode (v : Word) :
    2 * (fieldsOf v).relative.toNat + (fieldsOf v).indirect.toNat = v.toNat / 2 ^ 14 % 4 := by
  have hrelative := toNat_getMsbD (k := 8) (by decide) v
  have hindirect := toNat_getMsbD (k := 9) (by decide) v
  simp only [fieldsOf]
  omega

theorem toNat_fieldD (v : Word) : (fieldsOf v).d.toNat = v.toNat % 2 ^ 12 := BitVec.toNat_setWidth 12 v

/-- The operand fields of a word are its last 18 bits. -/
theorem code_fieldsOf (v : Word) : (fieldsOf v).code = v.toNat % 2 ^ 18 := by
  have hw : (fieldsOf v).w.code = v.toNat / 2 ^ 16 % 4 := code_fieldW v
  have hmode := code_mode v
  have hx : (fieldsOf v).x.code = v.toNat / 2 ^ 12 % 4 := code_fieldX v
  have hd := toNat_fieldD v
  rw [Fields.code, hmode]
  omega

/-! ## Operation codes -/

theorem Instr.opcode_lt (i : Instr) : i.opcode < 64 := by cases i <;> exact Nat.le_of_ble_eq_true rfl

/-- The operation code and the fields determine the instruction (R98, R100). -/
theorem ofOpcode_opcode_fields (i : Instr) : ofOpcode i.opcode i.fields = i := by cases i <;> rfl

theorem opcode_ofOpcode {op : Nat} (h : op < 64) (f : Fields) : (ofOpcode op f).opcode = op := by
  interval_cases op <;> rfl

theorem fields_ofOpcode (op : Nat) (f : Fields) : (ofOpcode op f).fields = f := by
  unfold ofOpcode
  split <;> rfl

theorem fieldF_lt (v : Word) : fieldF v < 64 := by
  have := v.isLt
  unfold fieldF
  omega

theorem opcode_decode (v : Word) : (decode v).opcode = v.toNat / 2 ^ 18 := opcode_ofOpcode (fieldF_lt v) _

theorem fields_decode (v : Word) : (decode v).fields = fieldsOf v := fields_ofOpcode _ _

/-! ## Decoding and encoding -/

theorem toNat_encode (i : Instr) : (encode i).toNat = i.opcode * 2 ^ 18 + i.fields.code := by
  have hopcode := i.opcode_lt
  have hfields := i.fields.code_lt
  have hsum : encode i = BitVec.ofNat 24 (i.opcode * 2 ^ 18 + i.fields.code) := by
    simp only [encode, encodeFields, Fields.code, Nat.add_assoc]
  rw [hsum, BitVec.toNat_ofNat, Nat.mod_eq_of_lt (by omega)]

theorem decode_encode (i : Instr) : decode (encode i) = i := by
  have hword := toNat_encode i
  have hlt := i.fields.code_lt
  have hopcode : fieldF (encode i) = i.opcode := by
    unfold fieldF
    omega
  have hfields : fieldsOf (encode i) = i.fields := Fields.code_injective (by rw [code_fieldsOf]; omega)
  rw [decode, hopcode, hfields, ofOpcode_opcode_fields]

theorem encode_decode (v : Word) : encode (decode v) = v := by
  apply BitVec.eq_of_toNat_eq
  rw [toNat_encode, opcode_decode, fields_decode, code_fieldsOf]
  omega

/-- Settles O1: a word is its operation code and its fields' number, neither of which loses anything. -/
theorem decodeAndEncodeAgree : Obligations.DecodeAndEncodeAgree := ⟨fun i _ => decode_encode i, encode_decode⟩

end Sys2Proof

namespace Sys2Proof.Machine

/-! ## The word fetched -/

/-- At an even counter the two bytes fetched are the halves of one word (R62, R91). -/
theorem State.fetchBytes_of_even {s : State} (h : s.ic.getMsbD 23 = false) :
    s.fetchBytes = [leftByte (s.readWord s.ic), rightByte (s.readWord s.ic)] := by
  have heven : s.ic.toNat % 2 = 0 := by
    rw [getMsbD_23, decide_eq_false_iff_not] at h
    omega
  have hnext : (s.ic + 1#24).toNat = s.ic.toNat + 1 := by
    have := s.ic.isLt
    rw [BitVec.toNat_add, BitVec.toNat_ofNat]
    omega
  have hodd : (s.ic + 1#24).getMsbD 23 = true := by
    rw [getMsbD_23, decide_eq_true_eq]
    omega
  have hword : wordNumber (s.ic + 1#24) = wordNumber s.ic := by
    unfold wordNumber
    omega
  have hread : s.readWord (s.ic + 1#24) = s.readWord s.ic := by simp only [State.readWord, hword]
  simp only [State.fetchBytes, State.readByte, h, hodd, hread, if_true, Bool.false_eq_true, if_false]

theorem State.decodeBytes_fetchBytes_of_even {s : State} (h : s.ic.getMsbD 23 = false) :
    decodeBytes s.fetchBytes = .ok (decode (s.readWord s.ic), []) := by
  rw [State.fetchBytes_of_even h, decodeBytes, leftByte_append_rightByte]

/-- Settles O2: the number of a word is that of the instruction it decodes to, the fields are its digits, and the bytes
fetched at an even counter are its halves. -/
theorem fieldLayout : Obligations.FieldLayout := by
  refine ⟨fun v => ?_, fun s => State.decodeBytes_fetchBytes_of_even⟩
  have hnumber : v.toNat = (decode v).opcode * 2 ^ 18 + (decode v).fields.code := by
    rw [← toNat_encode, encode_decode]
  refine ⟨?_, opcode_decode v, ?_, ?_, ?_, ?_⟩
  · rw [hnumber, Fields.code]
    omega
  all_goals rw [fields_decode]
  · exact code_fieldW v
  · exact code_mode v
  · exact code_fieldX v
  · have hd : (fieldsOf v).d = BitVec.ofNat 12 (v.toNat % 4096) := by
      apply BitVec.eq_of_toNat_eq
      rw [toNat_fieldD, BitVec.toNat_ofNat]
      omega
    rw [hd]

/-- Settles O3: the decoder evaluated on the words of R105. -/
theorem sampleWords : Obligations.SampleWords := by
  unfold Obligations.SampleWords
  decide

end Sys2Proof.Machine
end

section
/-! PROOFS. The effective address as a number (O6), and the instructions that end in the instruction exception as soon as their
address is modified (O17). -/

namespace Sys2Proof.Machine

/-! ## The effective address -/

/-- The address before indirection is the sum of its four parts modulo 2**24 (R118). -/
theorem State.toInt_indexedAddress (s : State) (f : Fields) :
    (s.indexedAddress f).toInt = (s.modifierValue.toInt + f.d.toInt
      + (if f.relative then s.ownAddress else 0#24).toInt + (s.index f.x).toInt).bmod (2 ^ 24) := by
  have hd : (f.d.signExtend 24).toInt = f.d.toInt := BitVec.toInt_signExtend_of_le (by decide)
  simp only [State.indexedAddress, BitVec.toInt_add, Int.bmod_add_bmod, hd]

theorem State.effectiveAddress_direct {f : Fields} (h : f.indirect = false) (s : State) :
    s.effectiveAddress f = some (s.indexedAddress f) := by simp [State.effectiveAddress, h]

theorem State.effectiveAddress_indirect {s : State} {f : Fields} (h : f.indirect = true)
    (hexists : s.inStore (s.indexedAddress f) = true) :
    s.effectiveAddress f = some (s.channelTurn.readWord (s.indexedAddress f)) := by
  simp [State.effectiveAddress, h, hexists]

/-- An address exists when its word number is below the size of the store (R11, R67). -/
theorem State.inStore_iff {s : State} {a : Word} : s.inStore a = true ↔ a.toNat / 2 < s.cfg.storeWords :=
  decide_eq_true_iff

/-- Settles O6: the sum that the statement names is the address before indirection. -/
theorem effectiveAddressForms : Obligations.EffectiveAddressForms := by
  intro s f m index own t hm hindex hown ht
  have hmodifier : s.modifierValue = m := by
    rw [hm, State.modifierValue]
    cases s.modifier <;> rfl
  have hregister : s.index f.x = index := by
    rw [hindex]
    cases f.x <;> rfl
  have haddress : s.indexedAddress f = t := by
    apply BitVec.eq_of_toInt_eq
    rw [State.toInt_indexedAddress, hmodifier, hregister, ht, hown, State.ownAddress]
  subst haddress
  refine ⟨fun hdirect => State.effectiveAddress_direct hdirect s, fun hindirect hexists => ?_,
    fun hindirect hmissing => ?_⟩
  · exact State.effectiveAddress_indirect hindirect (State.inStore_iff.mpr hexists)
  · refine State.effectiveAddress_none.mpr ⟨hindirect, Bool.eq_false_iff.mpr fun hexists => ?_⟩
    exact absurd (State.inStore_iff.mp hexists) (Nat.not_lt.mpr hmissing)

/-! ## The instruction exception at once -/

/-- An unassigned operation code does nothing else after its address modification (R116). -/
theorem exec_unassigned {i : Instr} (h : isUnassigned i = true) (s : State) :
    exec i s = .next (s.withAddress i.fields fun _ u => u.instructionException) := by
  cases i with
  | unassigned58 | unassigned59 | unassigned60 | unassigned61 | unassigned62 | unassigned63 => rfl
  | _ => cases h

/-- A privileged instruction tests the mode right after its address modification (R122, R303). -/
theorem exec_privileged {i : Instr} (h : isPrivileged i = true) :
    ∃ rest : Word → State → State,
      ∀ s, exec i s = .next (s.withAddress i.fields fun a u => u.testMode (rest a u)) := by
  cases i with
  | pl | ks | ml | ic | je | jd | io | aw => exact ⟨_, fun _ => rfl⟩
  | _ => cases h

theorem State.testMode_task {s : State} (h : s.monitorMode = false) (rest : State) :
    s.testMode rest = s.instructionException := by simp [State.testMode, h]

/-- An operation that is an instruction exception in any case: a missing indirect address raises the same one, before the
channel's turn and with the modifier still carried (R115). -/
theorem State.withAddress_exception {s u : State} {f : Fields} {operation : Word → State → State}
    (hexception : ∀ a, operation a (s.addressed f) = (s.addressed f).instructionException)
    (hsome : ∀ a, s.effectiveAddress f = some a → u = s.addressed f) (hnone : s.effectiveAddress f = none → u = s) :
    s.withAddress f operation = u.instructionException := by
  obtain ⟨a, ha, heq⟩ | ⟨ha, heq⟩ := s.withAddress_cases f operation
  · rw [heq, hexception, hsome a ha]
  · rw [heq, hnone ha]

/-- Settles O17: after the address modification both classes of instructions come to the exception at once. -/
theorem unassignedAndPrivilegedTrap : Obligations.UnassignedAndPrivilegedTrap := by
  intro s u i hu
  have hsome : ∀ a, s.effectiveAddress i.fields = some a → u = s.addressed i.fields := fun a ha => by rw [hu, ha]
  have hnone : s.effectiveAddress i.fields = none → u = s := fun ha => by rw [hu, ha]
  refine ⟨fun hi => ?_, fun hi hmode => ?_⟩
  · rw [exec_unassigned hi, State.withAddress_exception (fun _ => rfl) hsome hnone]
  · obtain ⟨rest, hexec⟩ := exec_privileged hi
    have htask : (s.addressed i.fields).monitorMode = false := (s.addressed_monitorMode _).trans hmode
    have htested (a : Word) : (s.addressed i.fields).testMode (rest a (s.addressed i.fields))
        = (s.addressed i.fields).instructionException := State.testMode_task htask _
    rw [hexec, State.withAddress_exception htested hsome hnone]

end Sys2Proof.Machine
end
